-- ==== Sys2Proof/Word.lean ====
section
/-! DEFINITION. The words the Ulmic 440 computes with, the number ranges of its resources
(00_scope.md, "Numbering of resources") and fixed-length tables indexed by them. -/

namespace Sys2Proof

/-- A data byte of a frame. -/
abbrev Byte := BitVec 8
/-- A value of the 32-bit tick counter (R77). -/
abbrev Tick := BitVec 32
/-- A 32-bit counter (00_scope.md, "Counters"). -/
abbrev Counter := BitVec 32
/-- A 16-bit frame Label. -/
abbrev Label := BitVec 16
/-- The 4-bit Age field: the remaining hop budget. -/
abbrev Age := BitVec 4
/-- A set of ports, one bit per port: bit `n` is port `n` (R39, R186). -/
abbrev PortSet := BitVec 4
/-- Port number, 0 to 3. -/
abbrev Port := Fin 4
/-- Class number, 0 to 3; 3 is the most urgent. -/
abbrev Class := Fin 4
/-- NODE, 0 to 15. -/
abbrev Node := Fin 16
/-- Buffer number, 0 to 127. -/
abbrev BufNo := Fin 128
/-- Route entry index, 0 to 63. -/
abbrev RouteIdx := Fin 64
/-- Action record index, 0 to 127. -/
abbrev RecordIdx := Fin 128
/-- Rate bucket number, 0 to 31. -/
abbrev BucketNo := Fin 32
/-- Supervision slot number, 0 to 31. -/
abbrev SlotNo := Fin 32

/-- The four ports in ascending order. -/
def Port.all : List Port := [0, 1, 2, 3]

/-- The four classes in the order of service: the most urgent first (R99). -/
def Class.urgentFirst : List Class := [3, 2, 1, 0]

/-- A fixed-length table with entry `i` replaced. -/
def vset {α : Type} {n : Nat} (v : Vector α n) (i : Fin n) (x : α) : Vector α n :=
  v.set i.val x i.isLt

/-- A function applied to every entry of a fixed-length table. -/
def vmap {α β : Type} {n : Nat} (f : α → β) (v : Vector α n) : Vector β n :=
  ⟨⟨v.toList.map f⟩, by simp⟩

end Sys2Proof
end

