-- ==== Sys2Proof/Syntax.lean ====
section
/-! DEFINITION. The commands of the Ulmic 440: one constructor per row of spec/opcode_table.json, in the table's
order. A command is one whole step of the part (95_what_each_step_holds.md). The table gives the rows no bits and no
fields; an operand stands where a happening needs to be told apart by something the part's state does not hold: the
port whose link carries a symbol, the data byte, the NODE straps, the port or slot whose deadline is meant.
A management row has no operand: it is the Management Agent taking the request at the head of its queue (R134),
whose bytes stand in the Frame Store. -/

namespace Sys2Proof

/-- How far the disposition of a good transit frame has gone when the happening after its END is taken: its stages follow at
once, or after some of them other happenings fall between (R44; log entry 7). -/
inductive Pace where
  /-- Every stage is taken within RX_END. -/
  | whole
  /-- The first `n` stages are taken within RX_END, and the others by the part while no command waits. -/
  | upTo (n : Fin 10)
  deriving DecidableEq, Repr

/-- An END symbol: the port whose receive pair carries it, and the pace of the disposition it may start. -/
structure FrameEnd where
  port : Port
  pace : Pace
  deriving DecidableEq, Repr

/-- The happenings the part takes (spec/opcode_table.json). -/
inductive Instr where
  /-- RSTN_RELEASE: RSTN released with these levels on the NODE straps (R2). -/
  | rstnRelease (node : Node)
  /-- PORT_INIT_END: the 1 ms initialization ends (R2). -/
  | portInitEnd
  /-- RX_START: a START symbol on this port's receive pair (R9). -/
  | rxStart (p : Port)
  /-- RX_DATA_BYTE: a data byte on this port's receive pair (R11). -/
  | rxDataByte (p : Port) (b : Byte)
  /-- RX_END: an END symbol (R12), and how much of the disposition it starts follows at once. -/
  | rxEnd (e : FrameEnd)
  /-- RX_ABORT: an ABORT symbol (R14). -/
  | rxAbort (p : Port)
  /-- RX_IDLE: an IDLE symbol (R1). -/
  | rxIdle (p : Port)
  /-- RX_INVALID_SYMBOL: a symbol period that decodes to nothing (R5). -/
  | rxInvalidSymbol (p : Port)
  /-- SIGNAL_TIMEOUT: 50 µs have passed without a signal transition (R5). -/
  | signalTimeout (p : Port)
  /-- RX_HOLD: a HOLD symbol (R19). -/
  | rxHold (p : Port)
  /-- RX_GO: a GO symbol (R19). -/
  | rxGo (p : Port)
  /-- TRAINING_DEADLINE: this port's tick, where its training deadline is reached (R4). -/
  | trainingDeadline (p : Port)
  /-- HOLD_DEADLINE: this port's tick, where its hold deadline is reached (R20). -/
  | holdDeadline (p : Port)
  /-- TX_END: this port's transmitter has sent END (R16). -/
  | txEnd (p : Port)
  /-- SEND_CONTROL_SYMBOL: this port's transmitter sends an asked HOLD or GO (R18). -/
  | sendControlSymbol (p : Port)
  /-- TICK: the tick counter advances (R77). -/
  | tick
  /-- COPY_DONE: the bank copier finishes (R55). -/
  | copyDone
  /-- SLOT_START_WINDOW_EXPIRY: this slot's tick, WAITING, deadline reached (R123). -/
  | slotStartWindowExpiry (n : SlotNo)
  /-- SLOT_DEADLINE: this slot's tick, FRESH or LATE, deadline reached (R124). -/
  | slotDeadline (n : SlotNo)
  /-- LEASE_EXPIRY: the agent's tick, lease deadline reached (R145). -/
  | leaseExpiry
  /-- RESET_LIMIT_EXPIRY: the agent's tick, reset-pending limit reached (R148). -/
  | resetLimitExpiry
  /-- RETRANSMIT_EXPIRY: the Event Queue's tick, timer expired (R178). -/
  | retransmitExpiry
  /-- IDENTIFY: the agent takes an IDENTIFY request (R153). -/
  | identify
  /-- OPEN (R139, R140). -/
  | openSession
  /-- CLOSE (R146). -/
  | closeSession
  /-- KEEPALIVE (R154). -/
  | keepalive
  /-- READ ROUTE (R155). -/
  | readRoute
  /-- WRITE ROUTE (R156). -/
  | writeRoute
  /-- CLEAR ROUTES (R52). -/
  | clearRoutes
  /-- COMMIT (R157). -/
  | commit
  /-- READ ACTION (R62). -/
  | readAction
  /-- WRITE ACTION (R61). -/
  | writeAction
  /-- READ BUCKET (R88). -/
  | readBucket
  /-- WRITE BUCKET (R87). -/
  | writeBucket
  /-- READ SLOT (R118). -/
  | readSlot
  /-- WRITE SLOT (R115). -/
  | writeSlot
  /-- ARM (R116). -/
  | arm
  /-- DISARM (R117). -/
  | disarm
  /-- READ PORT (R161). -/
  | readPort
  /-- SET PORT (R162). -/
  | setPort
  /-- READ COUNTERS with the clear flag clear (R164). -/
  | readCounters
  /-- READ COUNTERS with clear requested, or classed as sessioned (R166, R185). -/
  | readCountersClear
  /-- SET EVENTS (R167). -/
  | setEvents
  /-- ACK EVENTS (R168). -/
  | ackEvents
  /-- RESET with scope FULL (R169). -/
  | resetFull
  /-- RESET with scope FORWARDING (R169). -/
  | resetForwarding
  /-- BAD_OPCODE: the agent takes a request whose opcode names no command (R185). -/
  | badOpcode
  deriving DecidableEq, Repr

end Sys2Proof
end

