-- ==== Sys2Proof/Decode.lean ====
section
/-! DEFINITION. Reading a command from a word of spec/opcode_table.json. The table gives none of its 47 rows a bit
pattern: a command of this part is a happening, not a word. -/

namespace Sys2Proof

/-- The command the `nbits`-bit word `w` spells by the table's bits: none, since no row of the table has bits. (The
opcode byte of a management request is no such word: it is read from the Frame Store, `Machine.commandOf`.) -/
def decodeTableWord (_nbits _w : Nat) : Option Instr := none

end Sys2Proof
end

