-- ==== Sys2Proof/Config.lean ====
section
/-! DEFINITION. What the manual fixes as numbers of the part, the two values it leaves open that the model names, and the
four free values (each with its entry of the assumption log). -/

namespace Sys2Proof.Config

/-- Bytes of one store buffer (R23). -/
def bufferBytes : Nat := 72

/-- Bytes of the whole Frame Store: 128 buffers (R23). -/
def storeBytes : Nat := 128 * bufferBytes

/-- What a store position that nothing has written reads as. DESIGN CHOICE, unsafe (log entry 1): R35 leaves
buffer contents after RSTN undefined and adds that every position is written before it is read. -/
def unwrittenByte : Byte := 0

/-- The NODE strap value `State.reset` is released with. DESIGN CHOICE, unsafe (log entry 2): the straps are an
input, and the command RSTN_RELEASE carries their value. -/
def resetNode : Node := 0

/-- Free value (log entry 8): the class queue whose head a flush releases next, where two or more class queues have entries
left to release. R105 empties each queue from head to tail and calls the four independent. The argument is the buffers still
to be released, class 3 first, each queue from its head. -/
opaque flushNext : List (List BufNo) → Class

/-- Free value (log entry 7): the ingress port whose disposition takes its next stage, where those of two or more ports are in
progress and no command waits. R45 calls them independent. The argument is the ports in progress, each with its frame's
buffer and the number of stages it has taken. -/
opaque nextDisposition : List (Port × BufNo × Nat) → Port

/-- Free value (log entry 25): whether the raises made while the tick counter holds this value wait, or are taken within the
happening that makes them. R174 has raises taken in either order, so that a later one may be taken before an earlier. -/
opaque raisesWait : Tick → Bool

/-- Free value (log entry 25): which of the raises that wait the Event Queue takes next, by its place among them; a number past
the last of them says that a disposition in progress goes on first. R174 has raises taken in either order. The arguments are
the waiting raises, each with the code of its kind, its subject, tick and detail, and the dispositions in progress as for
`nextDisposition`. -/
opaque nextRaise : List (Byte × Byte × Tick × BitVec 32) → List (Port × BufNo × Nat) → Nat

end Sys2Proof.Config
end

