-- ==== Sys2Proof/Machine/State.lean ====
section
/-! DEFINITION. Everything the manual gives the Ulmic 440 to hold, block by block as 00_scope.md ("Block overview")
divides it, as plain data; what stops a step; and the part right after RSTN is released. -/

namespace Sys2Proof.Machine

/-! ## What can stop a step -/

/-- The faults of the part. There are none: the manual describes no happening that stops the part, every number an
operand or a field carries is within its range by its type, and no store position outside a buffer can be named. -/
inductive Fault : Type
  deriving DecidableEq, Repr

/-- The refusals of the model. -/
inductive Refusal : Type where
  /-- Raised by `exec` for a command whose meaning is not written. Safe. No arm of `exec` raises it. -/
  | notModelled (mnemonic : String)
  deriving DecidableEq, Repr

/-- What one command answers. -/
abbrev Answer (σ : Type) := Host.Outcome σ Fault Refusal

/-! ## Frames, queue entries (chapters 1 and 6) -/

/-- The header fields a frame carries apart from its Length (section 1.1). -/
structure Header where
  label  : Label
  source : Byte
  cls    : Class
  stale  : Bool
  age    : Age
  deriving DecidableEq, Repr

/-- Which block formed a queue entry (R92). -/
inductive Origin where
  | transit | substitute | response | event
  deriving DecidableEq, Repr

/-- A record in a class queue: the buffer, the header to send with it, the tick of its acceptance and its origin (R92). -/
structure Entry where
  buf        : BufNo
  hdr        : Header
  enqueuedAt : Tick
  origin     : Origin
  deriving DecidableEq, Repr

/-! ## Link Ports and Egress Queues (chapters 1 and 6) -/

/-- Link state (section 1.2). -/
inductive LinkState where
  | disabled | down | training | up
  deriving DecidableEq, Repr

/-- Why the rest of a frame is passed over (section 1.3). -/
inductive IgnoreCause where
  /-- No buffer at START (R9). -/
  | nobuf
  /-- Abandoned at the Label for the reserve (R10). -/
  | reserve
  /-- Over-length (R11). -/
  | cutOff
  /-- Invalid symbol or IDLE inside the frame (R14). -/
  | code
  deriving DecidableEq, Repr

/-- Receive state (section 1.3). -/
inductive RxState where
  | idle
  | receiving (buf : BufNo) (count : Nat)
  | ignoring (cause : IgnoreCause)
  deriving DecidableEq, Repr

/-- Transmit state: IDLE, or SENDING with the entry being sent (section 1.4). -/
inductive TxState where
  | idle
  | sending (e : Entry)
  deriving DecidableEq, Repr

/-- A control symbol the Frame Store asks a transmitter to send (R18). -/
inductive FlowSymbol where
  | hold | go
  deriving DecidableEq, Repr

/-- What a transmit pair has carried besides IDLE: a whole frame (START, these data bytes, END), ABORT in place of the
rest of a frame, or a HOLD or GO (R15, R17, R18). -/
inductive LineItem where
  | frame (bytes : List Byte)
  | abort
  | flow (c : FlowSymbol)
  deriving DecidableEq, Repr

/-- A port's miss action (R21). -/
inductive MissAction where
  | flood | drop
  deriving DecidableEq, Repr

/-- The five configuration items of a port (R21). The hold limit is in milliseconds, the residence limits in ticks. -/
structure PortConfig where
  enable     : Bool
  missAction : MissAction
  admitMgmt  : Bool
  holdLimit  : BitVec 8
  residence  : Vector (BitVec 16) 4
  deriving DecidableEq, Repr

/-- The fifteen counters of a port, in the order of R165. -/
structure PortCounters where
  rxGood        : Counter
  rxCheck       : Counter
  rxLength      : Counter
  rxCode        : Counter
  rxAborted     : Counter
  rxNobuf       : Counter
  rxLooped      : Counter
  rxMgmtRefused : Counter
  txFrames      : Counter
  txAborted     : Counter
  qFull         : Counter
  qExpired      : Counter
  qFlushed      : Counter
  egressDown    : Counter
  holdStuck     : Counter
  deriving DecidableEq, Repr

/-- One Link Port with its four class queues. -/
structure PortState where
  link             : LinkState
  /-- Run of consecutive valid symbols, counted in DOWN (R3). -/
  validRun         : Nat
  /-- Run of consecutive invalid symbols, counted in UP (R5). -/
  invalidRun       : Nat
  trainingDeadline : Option Tick
  /-- The time since the last signal transition, as far as the rules ask for it: 50 µs or more. -/
  quiet            : Bool
  rx               : RxState
  tx               : TxState
  partnerHold      : Bool
  holdDeadline     : Option Tick
  cfg              : PortConfig
  ctr              : PortCounters
  /-- The class queues, head first, an entry being sent at the head of its queue (R91). The non-empty marks and the
  sending mark are views of `queues` and `tx`: `PortState.nonEmpty`, `PortState.sendingMark` (Machine/Ops.lean). -/
  queues           : Vector (List Entry) 4
  /-- HOLD and GO asked by the Frame Store and not yet sent, in the order asked (R18). -/
  asked            : List FlowSymbol
  /-- The model's own record of what the transmit pair has carried, oldest first. -/
  sent             : List LineItem
  deriving DecidableEq, Repr

/-! ## Frame Store (chapter 2) -/

/-- Episode state: NONE, or LOW with the empty-reported mark (section 2.4). -/
inductive Episode where
  | none
  | low (emptyReported : Bool)
  deriving DecidableEq, Repr

/-- The Frame Store. -/
structure Store where
  /-- The 128 buffers: position `p` of buffer `b` at address `72 * b + p`, in canonical form (`Memory.wf`). -/
  mem         : List Host.Cell
  /-- Reference count of each buffer, 0 to 258 (R24). -/
  count       : Vector Nat 128
  /-- Free-buffer stack, top first (R25). -/
  free        : List BufNo
  episode     : Episode
  /-- BUFFER-LOW-EPISODES (R34). -/
  lowEpisodes : Counter
  deriving DecidableEq, Repr

/-! ## Route Table (chapter 3) -/

/-- A route entry (R39). -/
structure RouteEntry where
  valid      : Bool
  portMask   : PortSet
  labelKey   : Label
  labelMask  : Label
  sourceKey  : Byte
  sourceMask : Byte
  minClass   : Class
  action     : RecordIdx
  deriving DecidableEq, Repr

/-- The two banks (R38). -/
inductive BankName where
  | a | b
  deriving DecidableEq, Repr

/-- Staging state (R51). -/
inductive StagingState where
  | clean | modified | copying
  deriving DecidableEq, Repr

/-- A copy in progress: the index of the next entry to copy (R55), and the model's own note of the tick at which it started
(log entry 4). -/
structure BankCopy where
  next  : Nat
  begun : Tick
  deriving DecidableEq, Repr

/-- The Route Table. -/
structure RouteTable where
  bankA   : Vector RouteEntry 64
  bankB   : Vector RouteEntry 64
  /-- Bank-role flag: the bank that is ACTIVE; the other is STAGING (R38). -/
  active  : BankName
  epoch   : BitVec 16
  staging : StagingState
  /-- Copier: idle, or running (R55). -/
  copier  : Option BankCopy
  missFlooded : Counter
  missDropped : Counter
  ageDropped  : Counter
  deriving DecidableEq, Repr

/-! ## Action Table (chapter 4) -/

/-- Disposition of a record (R59). -/
inductive Disposition where
  | drop | forward
  deriving DecidableEq, Repr

/-- Class policy (R72). -/
inductive ClassPolicy where
  | keep
  | set (c : Class)
  deriving DecidableEq, Repr

/-- Age policy (R74). -/
inductive AgePolicy where
  | decrement
  | keep
  | set (a : Age)
  deriving DecidableEq, Repr

/-- The dispatch part of a record: a payload offset 0 to 63 and a mask 1 to 15 (R59). -/
structure DispatchPart where
  offset : Fin 64
  mask   : BitVec 4
  deriving DecidableEq, Repr

/-- An action record without its hit counter (R59). -/
structure ActionRecord where
  disposition  : Disposition
  egress       : PortSet
  classPolicy  : ClassPolicy
  labelRewrite : Option Label
  agePolicy    : AgePolicy
  bucket       : Option BucketNo
  slot         : Option SlotNo
  dispatch     : Option DispatchPart
  deriving DecidableEq, Repr

/-- The Action Table: 128 records, each with its hit counter (R59, R68). -/
structure ActionTable where
  records       : Vector ActionRecord 128
  hits          : Vector Counter 128
  dispatchShort : Counter
  dispatchNest  : Counter
  deriving DecidableEq, Repr

/-! ## Frame disposition (section 3.2) -/

/-- The stage a disposition takes next (R42). -/
inductive Stage where
  | lookup | resolve | ageCheck | bucket | arrival | enqueue | release
  deriving DecidableEq, Repr

/-- A disposition in progress: the disposition record of R43 and R69, the frame's Length, the stage it takes next, the number
of stages it has taken and the tick at which it began. The ingress port is the port it stands under in
`State.disposing`. -/
structure Disposal where
  buf      : BufNo
  received : Header
  len      : Nat
  /-- Base index, absent before stage 1 and on a miss. -/
  base     : Option RecordIdx
  /-- Copy of the final record, absent before stage 2 and on a miss. -/
  final    : Option ActionRecord
  applied  : Header
  /-- Egress set: the ports stage 6 has still to try. -/
  egress   : PortSet
  directed : PortSet
  stage    : Stage
  taken    : Nat
  begun    : Tick
  deriving DecidableEq, Repr

/-! ## Rate Buckets (chapter 5) -/

/-- Exceed action (R84). -/
inductive ExceedAction where
  | drop | demote
  deriving DecidableEq, Repr

/-- A bucket record (R81). -/
structure Bucket where
  enabled : Bool
  /-- Bytes per tick, 1 to 4095. -/
  rate    : Nat
  /-- Bytes, 69 to 65535. -/
  depth   : Nat
  /-- Bytes, 0 to `depth`. -/
  credit  : Nat
  exceed  : ExceedAction
  conform : Counter
  exceeds : Counter
  deriving DecidableEq, Repr

/-! ## Supervision Slots (chapter 7) -/

/-- Freshness state of a slot (R113). -/
inductive SlotState where
  | off | waiting | fresh | late | lost
  deriving DecidableEq, Repr

/-- The six configuration fields of a slot (R112). -/
structure SlotConfig where
  /-- Ticks, 1 to 65535; 0 in an unconfigured slot. -/
  period      : BitVec 16
  grace       : BitVec 16
  /-- 1 to 15; 0 in an unconfigured slot. -/
  lossCount   : Nat
  startWindow : BitVec 16
  hold        : Bool
  substitute  : Bool
  deriving DecidableEq, Repr

/-- A held buffer with its stored send header (R113, R121). -/
structure Held where
  buf    : BufNo
  egress : PortSet
  label  : Label
  cls    : Class
  age    : Age
  source : Byte
  deriving DecidableEq, Repr

/-- A slot record (R112, R113, R130). -/
structure Slot where
  cfg         : SlotConfig
  state       : SlotState
  deadline    : Option Tick
  miss        : Nat
  lastArrival : Tick
  held        : Option Held
  arrivals    : Counter
  misses      : Counter
  substitutes : Counter
  recoveries  : Counter
  deriving DecidableEq, Repr

/-! ## Management Agent (chapter 8) -/

/-- Status codes of responses (R136). -/
inductive Status where
  | ok | held | noSession | sequence | busy | range | state | staleEpoch | badOpcode | length
  deriving DecidableEq, Repr

/-- The last executed sessioned response (R138). -/
structure CachedResponse where
  opcode   : Byte
  sequence : Byte
  status   : Status
  /-- The REPLAY flag as stored: clear, since only executed responses are stored. -/
  replay   : Bool
  results  : List Byte
  deriving DecidableEq, Repr

/-- The session record (R138). -/
structure Session where
  isOpen        : Bool
  holder        : Byte
  replyLabel    : Label
  eventPort     : Port
  token         : Byte
  expected      : Byte
  /-- In units of 10 ms, 1 to 6000 while OPEN. -/
  leaseLength   : BitVec 16
  leaseDeadline : Option Tick
  eventsEnabled : Bool
  cache         : Option CachedResponse
  deriving DecidableEq, Repr

/-- A management request: its buffer and the ingress port of its frame (R133). -/
structure Request where
  buf  : BufNo
  port : Port
  deriving DecidableEq, Repr

/-- Scope of a management reset (R169). -/
inductive ResetScope where
  | forwarding | full
  deriving DecidableEq, Repr

/-- A pending reset: its scope, the buffer of its response and its limit deadline (R147). -/
structure PendingReset where
  scope : ResetScope
  buf   : BufNo
  limit : Tick
  deriving DecidableEq, Repr

/-- The Management Agent. -/
structure Agent where
  /-- Request queue, oldest first, 0 to 4 (R133). -/
  queue         : List Request
  /-- Execution state: IDLE, or EXECUTING with one request (R134). -/
  executing     : Option Request
  session       : Session
  tokenCounter  : Byte
  resetPending  : Option PendingReset
  mgmtOverrun   : Counter
  mgmtMalformed : Counter
  respLost      : Counter
  deriving DecidableEq, Repr

/-! ## Event Queue (chapter 10) -/

/-- The twelve kinds of notice (R173). -/
inductive NoticeKind where
  | portUp | portDown | holdStuck | slotLate | slotLost | slotRecovered | slotNeverSeen
  | bufferLow | bufferEmpty | leaseExpired | noticesLost | resetDone
  deriving DecidableEq, Repr

/-- A notice (R173). -/
structure Notice where
  sequence : BitVec 16
  kind     : NoticeKind
  subject  : Byte
  tick     : Tick
  detail   : BitVec 32
  deriving DecidableEq, Repr

/-- A raise, as a block sets it and before the Event Queue gives it a sequence number (R174). -/
structure Raise where
  kind    : NoticeKind
  subject : Byte
  tick    : Tick
  detail  : BitVec 32
  deriving DecidableEq, Repr

/-- The Event Queue. -/
structure EventQueue where
  /-- Notice list, oldest first, 0 to 16. -/
  notices      : List Notice
  nextSequence : BitVec 16
  outstanding  : Bool
  /-- Retransmit timer: stopped, or running with its expiry tick. -/
  timer        : Option Tick
  /-- Retransmit interval in units of 10 ms, 1 to 255. -/
  interval     : BitVec 8
  deriving DecidableEq, Repr

/-! ## The part -/

/-- The whole Ulmic 440, with the commands that wait for it. -/
structure State where
  /-- NODE, as sampled at the release of RSTN (R2). -/
  node         : Node
  /-- The 1 ms port initialization after RSTN is running (R2). -/
  initializing : Bool
  /-- The tick counter, "now" (R77). -/
  now          : Tick
  ports        : Vector PortState 4
  store        : Store
  route        : RouteTable
  action       : ActionTable
  /-- The disposition in progress of each ingress port, at most one a port (R45). -/
  disposing    : Vector (Option Disposal) 4
  buckets      : Vector Bucket 32
  slots        : Vector Slot 32
  agent        : Agent
  events       : EventQueue
  /-- Raises made and not yet taken by the Event Queue, in the order in which they were made (R174). -/
  transit      : List Raise
  /-- The model's own: raises made now wait before the Event Queue takes them, a free value since the last TICK (R174; log
  entry 25). -/
  raisesWait   : Bool
  /-- The model's own mark, clear between commands: within the present command a happening of R148 has been taken, and
  the pending reset takes effect when the command's own effects are complete. -/
  resetDue     : Bool
  /-- The commands waiting to be taken, first in, first out. -/
  pending      : List Instr
  deriving DecidableEq, Repr

/-! ## Reset values -/

/-- Reset values of a port's configuration (R21). -/
def PortConfig.reset : PortConfig :=
  { enable := true, missAction := .flood, admitMgmt := true, holdLimit := 100, residence := Vector.replicate 4 0 }

/-- All fifteen port counters at 0 (R22). -/
def PortCounters.zero : PortCounters :=
  { rxGood := 0, rxCheck := 0, rxLength := 0, rxCode := 0, rxAborted := 0, rxNobuf := 0, rxLooped := 0,
    rxMgmtRefused := 0, txFrames := 0, txAborted := 0, qFull := 0, qExpired := 0, qFlushed := 0, egressDown := 0,
    holdStuck := 0 }

/-- A port right after RSTN (R2). -/
def PortState.reset : PortState :=
  { link := .down, validRun := 0, invalidRun := 0, trainingDeadline := none, quiet := false, rx := .idle, tx := .idle,
    partnerHold := false, holdDeadline := none, cfg := .reset, ctr := .zero, queues := Vector.replicate 4 [],
    asked := [], sent := [] }

/-- The free-buffer stack in reset order: buffer 0 on top, buffer 127 at the bottom (R35). -/
def Store.resetOrder : List BufNo := List.finRange 128

/-- The Frame Store right after RSTN (R35). -/
def Store.reset : Store :=
  { mem := [], count := Vector.replicate 128 0, free := Store.resetOrder, episode := .none, lowEpisodes := 0 }

/-- The cleared route entry (R40). -/
def RouteEntry.cleared : RouteEntry :=
  { valid := false, portMask := 0, labelKey := 0, labelMask := 0, sourceKey := 0, sourceMask := 0, minClass := 0,
    action := 0 }

/-- The Route Table after RSTN and RESET FULL (R57). -/
def RouteTable.reset : RouteTable :=
  { bankA := Vector.replicate 64 .cleared, bankB := Vector.replicate 64 .cleared, active := .a, epoch := 0,
    staging := .clean, copier := none, missFlooded := 0, missDropped := 0, ageDropped := 0 }

/-- The reset value of an action record (R60). -/
def ActionRecord.reset : ActionRecord :=
  { disposition := .drop, egress := 0, classPolicy := .keep, labelRewrite := none, agePolicy := .decrement,
    bucket := none, slot := none, dispatch := none }

/-- The Action Table after RSTN and RESET FULL (R60, R68). -/
def ActionTable.reset : ActionTable :=
  { records := Vector.replicate 128 .reset, hits := Vector.replicate 128 0, dispatchShort := 0, dispatchNest := 0 }

/-- The reset values of a bucket (R81). -/
def Bucket.reset : Bucket :=
  { enabled := false, rate := 1, depth := 69, credit := 0, exceed := .drop, conform := 0, exceeds := 0 }

/-- The reset values of a slot's configuration (R112). -/
def SlotConfig.reset : SlotConfig :=
  { period := 0, grace := 0, lossCount := 0, startWindow := 0, hold := false, substitute := false }

/-- The reset values of a slot (R131). -/
def Slot.reset : Slot :=
  { cfg := .reset, state := .off, deadline := none, miss := 0, lastArrival := 0, held := none, arrivals := 0,
    misses := 0, substitutes := 0, recoveries := 0 }

/-- The values of every session field while CLOSED (R138). -/
def Session.closed : Session :=
  { isOpen := false, holder := 0, replyLabel := 0, eventPort := 0, token := 0, expected := 0, leaseLength := 0,
    leaseDeadline := none, eventsEnabled := false, cache := none }

/-- The Management Agent after RSTN (R138, R149). -/
def Agent.reset : Agent :=
  { queue := [], executing := none, session := .closed, tokenCounter := 1, resetPending := none, mgmtOverrun := 0,
    mgmtMalformed := 0, respLost := 0 }

/-- The Event Queue after a reset that empties it, with RESET-DONE raised at `tick` with this detail, as sequence 0
(R181). -/
def EventQueue.resetDone (tick : Tick) (detail : BitVec 32) : EventQueue :=
  { notices := [{ sequence := 0, kind := .resetDone, subject := 0, tick := tick, detail := detail }],
    nextSequence := 1, outstanding := false, timer := none, interval := 20 }

/-- The part when RSTN is released with `node` on the NODE straps: every block at its power-up values, the 1 ms
initialization running, RESET-DONE POWER raised with tick 0 (R2, R35, R57, R60, R77, R81, R111, R131, R149, R181). -/
def State.powerUp (node : Node) : State :=
  { node := node, initializing := true, now := 0, ports := Vector.replicate 4 .reset, store := .reset,
    route := .reset, action := .reset, disposing := Vector.replicate 4 none, buckets := Vector.replicate 32 .reset,
    slots := Vector.replicate 32 .reset, agent := .reset, events := .resetDone 0 0, transit := [], raisesWait := false,
    resetDue := false, pending := [] }

/-- The part right after reset, released with `Config.resetNode` on its straps and no command waiting. -/
def State.reset : State := State.powerUp Config.resetNode

end Sys2Proof.Machine
end

