-- ==== Sys2Proof/Machine/Flags.lean ====
section
/-! DEFINITION. The computations every block shares: saturating counters, deadlines and residences of the tick
counter, port sets, and reading and counting on one port. -/

namespace Sys2Proof.Machine

/-! ## Counters -/

/-- A counter incremented once: it stays at FFFFFFFFh once there (00_scope.md, "Counters"). -/
def bump (c : Counter) : Counter := if c = 0xFFFFFFFF#32 then c else c + 1

/-- A counter incremented `n` times. -/
def bumpBy : Nat → Counter → Counter
  | 0, c => c
  | n + 1, c => bumpBy n (bump c)

/-! ## Ticks (R78, R80) -/

/-- Deadline `d` is reached at `now`: `now - d` modulo 2^32, read as a signed number, is zero or positive (R78). -/
def reached (now d : Tick) : Bool := decide (0 ≤ (now - d).toInt)

/-- A deadline that may be none is reached. -/
def due (now : Tick) : Option Tick → Bool
  | some d => reached now d
  | none => false

/-- The ticks from `since` to `now`, modulo 2^32 as an unsigned number (R80). -/
def elapsed (now since : Tick) : Nat := (now - since).toNat

/-- Ticks of `ms` milliseconds (00_scope.md, "Time"). -/
def ticksOfMs (ms : Nat) : Tick := BitVec.ofNat 32 (10 * ms)

/-- Ticks of `units` of 10 ms. -/
def ticksOf10Ms (units : Nat) : Tick := BitVec.ofNat 32 (100 * units)

/-! ## Port sets -/

/-- The set holds the port. -/
def PortSet.has (m : PortSet) (p : Port) : Bool := m.getLsbD p.val

/-- The set without the port. -/
def PortSet.without (m : PortSet) (p : Port) : PortSet := m &&& ~~~(1#4 <<< p.val)

/-- The ports of a set in ascending order. -/
def PortSet.ports (m : PortSet) : List Port := Port.all.filter (PortSet.has m)

/-- The set of the ports that satisfy `f`. -/
def PortSet.ofPred (f : Port → Bool) : PortSet :=
  BitVec.ofBool (f 3) ++ BitVec.ofBool (f 2) ++ BitVec.ofBool (f 1) ++ BitVec.ofBool (f 0)

/-! ## One port, one slot, one bucket -/

/-- The part with `f` applied to port `p`. -/
def State.onPort (s : State) (p : Port) (f : PortState → PortState) : State :=
  { s with ports := vset s.ports p (f s.ports[p]) }

/-- The part with slot `n` replaced. -/
def State.setSlot (s : State) (n : SlotNo) (x : Slot) : State := { s with slots := vset s.slots n x }

/-- The part with bucket `n` replaced. -/
def State.setBucket (s : State) (n : BucketNo) (x : Bucket) : State := { s with buckets := vset s.buckets n x }

/-- Port `p` is UP at this moment (section 1.2). -/
def State.isUp (s : State) (p : Port) : Bool := s.ports[p].link = .up

/-- The names of the port counters (R22). -/
inductive PortCounter where
  | rxGood | rxCheck | rxLength | rxCode | rxAborted | rxNobuf | rxLooped | rxMgmtRefused | txFrames | txAborted
  | qFull | qExpired | qFlushed | egressDown | holdStuck
  deriving DecidableEq, Repr

/-- The counters with `f` applied to the one named. -/
def PortCounters.update (f : Counter → Counter) (c : PortCounters) : PortCounter → PortCounters
  | .rxGood => { c with rxGood := f c.rxGood }
  | .rxCheck => { c with rxCheck := f c.rxCheck }
  | .rxLength => { c with rxLength := f c.rxLength }
  | .rxCode => { c with rxCode := f c.rxCode }
  | .rxAborted => { c with rxAborted := f c.rxAborted }
  | .rxNobuf => { c with rxNobuf := f c.rxNobuf }
  | .rxLooped => { c with rxLooped := f c.rxLooped }
  | .rxMgmtRefused => { c with rxMgmtRefused := f c.rxMgmtRefused }
  | .txFrames => { c with txFrames := f c.txFrames }
  | .txAborted => { c with txAborted := f c.txAborted }
  | .qFull => { c with qFull := f c.qFull }
  | .qExpired => { c with qExpired := f c.qExpired }
  | .qFlushed => { c with qFlushed := f c.qFlushed }
  | .egressDown => { c with egressDown := f c.egressDown }
  | .holdStuck => { c with holdStuck := f c.holdStuck }

/-- A port with one of its counters incremented. -/
def PortState.tally (P : PortState) (k : PortCounter) : PortState := { P with ctr := P.ctr.update bump k }

/-- The part with one counter of port `p` incremented. -/
def State.tally (s : State) (p : Port) (k : PortCounter) : State := s.onPort p (·.tally k)

end Sys2Proof.Machine
end

