-- ==== Sys2Proof/Machine/Ops.lean ====
section
/-! DEFINITION. The named operations the commands are made of: the store's bytes, frames as bytes, buffer references
and low-stock episodes (chapter 2), class queues and service (chapter 6), notices and their delivery (chapter 10).
Each is taken whole by the block that owns its state. -/

namespace Sys2Proof.Machine

/-! ## Bytes of the Frame Store (R23) -/

/-- The byte at an address; what nothing has written reads as `Config.unwrittenByte`. -/
def Memory.read : List Host.Cell → Nat → Byte
  | [], _ => Config.unwrittenByte
  | (k, v) :: rest, a => if k = a then v else Memory.read rest a

/-- The memory with the byte at `a` written, its canonical form kept: an address that comes to read as an unwritten one
is not listed. -/
def Memory.write : List Host.Cell → Nat → Byte → List Host.Cell
  | [], a, v => if v = Config.unwrittenByte then [] else [(a, v)]
  | (k, w) :: rest, a, v =>
    if a < k then (if v = Config.unwrittenByte then (k, w) :: rest else (a, v) :: (k, w) :: rest)
    else if a = k then (if v = Config.unwrittenByte then rest else (a, v) :: rest)
    else (k, w) :: Memory.write rest a v

/-- Every listed address is above `low`. -/
def Memory.above (low : Nat) : List Host.Cell → Bool
  | [] => true
  | (k, _) :: rest => decide (low < k) && Memory.above low rest

/-- The canonical form: addresses strictly rising, and no entry that reads as an unlisted address does. -/
def Memory.wf : List Host.Cell → Bool
  | [] => true
  | (k, v) :: rest => decide (v ≠ Config.unwrittenByte) && Memory.above k rest && Memory.wf rest

/-- `n` bytes from address `a` on. -/
def Memory.readMany (m : List Host.Cell) : Nat → Nat → List Byte
  | _, 0 => []
  | a, n + 1 => Memory.read m a :: Memory.readMany m (a + 1) n

/-- The memory with these bytes written from address `a` on. -/
def Memory.writeMany : List Host.Cell → Nat → List Byte → List Host.Cell
  | m, _, [] => m
  | m, a, v :: vs => Memory.writeMany (Memory.write m a v) (a + 1) vs

/-- The address of position `pos` of buffer `b`. -/
def storeAddr (b : BufNo) (pos : Nat) : Nat := Config.bufferBytes * b.val + pos

/-- The byte at a position of a buffer. -/
def State.byteAt (s : State) (b : BufNo) (pos : Nat) : Byte := Memory.read s.store.mem (storeAddr b pos)

/-- `n` bytes of a buffer from a position on. -/
def State.bytesAt (s : State) (b : BufNo) (pos n : Nat) : List Byte :=
  Memory.readMany s.store.mem (storeAddr b pos) n

/-- The part with bytes written into a buffer from a position on. -/
def State.putBytes (s : State) (b : BufNo) (pos : Nat) (vs : List Byte) : State :=
  { s with store := { s.store with mem := Memory.writeMany s.store.mem (storeAddr b pos) vs } }

/-- The Length of the frame in a buffer (position 4). -/
def State.lengthAt (s : State) (b : BufNo) : Nat := (s.byteAt b 4).toNat

/-- The payload bytes of the frame in a buffer: Length of them from position 5 (R23). -/
def State.payloadAt (s : State) (b : BufNo) : List Byte := s.bytesAt b 5 (s.lengthAt b)

/-- The part with a payload and its length written into a buffer (R136, R177). -/
def State.putPayload (s : State) (b : BufNo) (payload : List Byte) : State :=
  (s.putBytes b 4 [BitVec.ofNat 8 payload.length]).putBytes b 5 payload

/-! ## Numbers and frames as bytes (R183) -/

/-- A 16-bit number from two bytes, high byte first. -/
def word16 (hi lo : Byte) : BitVec 16 := hi ++ lo

/-- The two bytes of a number, high byte first. -/
def bytes16 (x : BitVec 16) : List Byte := [x.extractLsb' 8 8, x.extractLsb' 0 8]

/-- The four bytes of a number, high byte first. -/
def bytes32 (x : BitVec 32) : List Byte :=
  [x.extractLsb' 24 8, x.extractLsb' 16 8, x.extractLsb' 8 8, x.extractLsb' 0 8]

/-- One bit of the Check computation: polynomial 8005h (R183). -/
def crcBit (c : BitVec 16) : BitVec 16 := if c.msb then (c <<< 1) ^^^ 0x8005#16 else c <<< 1

/-- One byte of the Check computation, most significant bit first. -/
def crcByte (c : BitVec 16) (b : Byte) : BitVec 16 :=
  crcBit (crcBit (crcBit (crcBit (crcBit (crcBit (crcBit (crcBit (c ^^^ (b ++ 0#8)))))))))

/-- The Check over these bytes: initial value FFFFh, no final inversion (R183). -/
def crc16 (bs : List Byte) : BitVec 16 := bs.foldl crcByte 0xFFFF#16

/-- Header byte 3: Class, Stale, the spare bit as 0, Age (R183). -/
def headerByte3 (h : Header) : Byte := BitVec.ofNat 2 h.cls.val ++ BitVec.ofBool h.stale ++ 0#1 ++ h.age

/-- The first four header bytes (R183). -/
def headerBytes (h : Header) : List Byte := bytes16 h.label ++ [h.source, headerByte3 h]

/-- The header as it stands in a buffer, its spare bit ignored (R183). -/
def State.headerAt (s : State) (b : BufNo) : Header :=
  { label := word16 (s.byteAt b 0) (s.byteAt b 1),
    source := s.byteAt b 2,
    cls := Fin.ofNat 4 ((s.byteAt b 3).extractLsb' 6 2).toNat,
    stale := (s.byteAt b 3).getLsbD 5,
    age := (s.byteAt b 3).extractLsb' 0 4 }

/-- The header and payload bytes a transmitter sends for an entry: the header rebuilt from the entry, the Length and
the payload from the buffer (R15). -/
def State.checkedBytes (s : State) (e : Entry) : List Byte :=
  headerBytes e.hdr ++ [s.byteAt e.buf 4] ++ s.payloadAt e.buf

/-- The data bytes a transmitter sends for an entry, the Check computed afresh at their end (R15). -/
def State.frameBytes (s : State) (e : Entry) : List Byte :=
  s.checkedBytes e ++ bytes16 (crc16 (s.checkedBytes e))

/-- The relay's own management label, FFF0h + NODE. -/
def ownLabel (n : Node) : Label := 0xFFF0#16 + BitVec.ofNat 16 n.val

/-- The relay's own source number, F0h + NODE. -/
def ownSource (n : Node) : Byte := 0xF0#8 + BitVec.ofNat 8 n.val

/-- The header of a RESPONSE or EVENT entry (R93). -/
def State.relayHeader (s : State) (label : Label) : Header :=
  { label := label, source := ownSource s.node, cls := 3, stale := false, age := 15 }

/-! ## References and the free-buffer stack (R24 to R28, R31 to R33) -/

/-- The depth of the free-buffer stack. -/
def Store.depth (f : Store) : Nat := f.free.length

/-- The Frame Store asks every port that is UP to send a control symbol (R31, R33). -/
def State.askUp (s : State) (c : FlowSymbol) : State :=
  { s with ports := vmap (fun P => if P.link = .up then { P with asked := P.asked ++ [c] } else P) s.ports }

/-- A push that brings the depth to 24 while the episode state is LOW ends the episode (R33). -/
def State.endEpisode (s : State) : State :=
  if s.store.depth = 24 ∧ s.store.episode ≠ .none then
    { s with store := { s.store with episode := .none } }.askUp .go
  else s

/-- A reference to a buffer ends; the release that makes the count 0 pushes the buffer (R25, R28). A buffer without
references has none to release. -/
def State.release (s : State) (b : BufNo) : State :=
  match s.store.count[b] with
  | 0 => s
  | 1 => { s with store := { s.store with count := vset s.store.count b 0, free := b :: s.store.free } }.endEpisode
  | n + 2 => { s with store := { s.store with count := vset s.store.count b (n + 1) } }

/-- A queue entry or a hold takes a reference. Every rise is made on a buffer whose count is at least 1, so a rise never
takes a buffer off the stack (R27). -/
def State.addRef (s : State) (b : BufNo) : State :=
  match s.store.count[b] with
  | 0 => s
  | n + 1 => { s with store := { s.store with count := vset s.store.count b (n + 2) } }

/-- The top buffer of the free-buffer stack, taken off with count 1, or none where the stack is empty (R26). -/
def State.takeTop (s : State) : Option (BufNo × State) :=
  match s.store.free with
  | [] => none
  | b :: rest => some (b, { s with store := { s.store with count := vset s.store.count b 1, free := rest } })

/-- What a pop does to the low-stock episode: at depth 8 in NONE it begins one (R31), at depth 0 it reports the stock
empty once in an episode (R32). `raise` is how the notice reaches the Event Queue. -/
def State.episodeAfterPop (raise : NoticeKind → BitVec 32 → State → State) (s : State) : State :=
  if s.store.depth = 8 ∧ s.store.episode = .none then
    raise .bufferLow (bump s.store.lowEpisodes)
      ({ s with store := { s.store with episode := .low false, lowEpisodes := bump s.store.lowEpisodes } }.askUp .hold)
  else if s.store.depth = 0 ∧ s.store.episode = .low false then
    raise .bufferEmpty s.store.lowEpisodes { s with store := { s.store with episode := .low true } }
  else s

/-! ## The pending reset (R148) -/

/-- A report that the response in buffer `b` was sent or lost: where a reset is pending on it, the reset takes effect in
this happening (R148). Reports about other responses have no effect. -/
def State.report (s : State) (b : BufNo) : State :=
  match s.agent.resetPending with
  | some r => if r.buf = b then { s with resetDue := true } else s
  | none => s

/-- The report of an entry that has left its queue: the Management Agent is told of RESPONSE entries (R16, R17, R100,
R107). -/
def State.reportEntry (s : State) (e : Entry) : State := if e.origin = .response then s.report e.buf else s

/-! ## Class queues and service (R91 to R104) -/

/-- The non-empty mark of a class queue (R91). -/
def PortState.nonEmpty (P : PortState) (c : Class) : Bool := !P.queues[c].isEmpty

/-- The sending mark: the class queue whose head is being sent, if any (R102). -/
def PortState.sendingMark (P : PortState) : Option Class :=
  match P.tx with
  | .idle => none
  | .sending e => some e.hdr.cls

/-- The number of entries in a port's four class queues. -/
def PortState.entries (P : PortState) : Nat :=
  P.queues[(0 : Class)].length + P.queues[(1 : Class)].length + P.queues[(2 : Class)].length +
    P.queues[(3 : Class)].length

/-- The head of a port's highest non-empty class queue: the first-set search from class 3 down (R99). -/
def PortState.topHead (P : PortState) : Option Entry :=
  match Class.urgentFirst.find? P.nonEmpty with
  | none => none
  | some c => P.queues[c].head?

/-- The port without the head of one class queue. -/
def PortState.dropHead (P : PortState) (c : Class) : PortState :=
  { P with queues := vset P.queues c P.queues[c].tail }

/-- The residence test: with a limit above 0, an entry whose residence exceeds the limit is expired (R100). -/
def PortState.expired (P : PortState) (now : Tick) (e : Entry) : Bool :=
  P.cfg.residence[e.hdr.cls] ≠ 0 && decide (P.cfg.residence[e.hdr.cls].toNat < elapsed now e.enqueuedAt)

/-- The transmitter is eligible to start a frame (R15). Between the happening that brings a pending reset into effect and
that effect no transmitter asks (R100). -/
def State.eligible (s : State) (p : Port) : Bool :=
  s.isUp p && !s.ports[p].partnerHold && decide (s.ports[p].tx = .idle) && !s.resetDue

/-- An expired head leaves: removed, its reference released, Q-EXPIRED counted, a RESPONSE reported lost (R100). -/
def State.expireHead (s : State) (p : Port) (e : Entry) : State :=
  (((s.onPort p fun P => (P.dropHead e.hdr.cls).tally .qExpired).release e.buf).reportEntry e)

/-- The choice of R99, for at most `fuel` heads: the head of the highest non-empty class is offered, or is expired and
removed and the search is made again. Where an expiry brings a pending reset into effect the choice ends (R100). -/
def State.choose : Nat → Port → State → State
  | 0, _, s => s
  | fuel + 1, p, s =>
    match s.ports[p].topHead with
    | none => s
    | some e =>
      if s.ports[p].expired s.now e then
        if (s.expireHead p e).resetDue then s.expireHead p e else State.choose fuel p (s.expireHead p e)
      else s.onPort p fun P => { P with tx := .sending e }

/-- The transmitter asks for the next entry, where it is eligible (R15, R99). -/
def State.askNext (s : State) (p : Port) : State :=
  if s.eligible p then State.choose s.ports[p].entries p s else s

/-- Outcomes of an enqueue attempt (R94, R95). -/
inductive EnqueueOutcome where
  | accepted | down | full
  deriving DecidableEq, Repr

/-- The part after an accepted attempt: the entry at the tail of its class queue, stamped with now, one reference more on
its buffer; then an eligible transmitter asks (R95). -/
def State.accept (s : State) (p : Port) (b : BufNo) (h : Header) (o : Origin) : State :=
  (((s.onPort p fun P =>
      { P with queues := vset P.queues h.cls
                  (P.queues[h.cls] ++ [{ buf := b, hdr := h, enqueuedAt := s.now, origin := o }]) }).addRef b).askNext p)

/-- An enqueue attempt: refused DOWN where the port is not UP, refused FULL with Q-FULL where the class queue holds 16,
accepted otherwise (R94 to R96). -/
def State.enqueue (s : State) (p : Port) (b : BufNo) (h : Header) (o : Origin) : State × EnqueueOutcome :=
  if s.isUp p = false then (s, .down)
  else if 16 ≤ s.ports[p].queues[h.cls].length then (s.tally p .qFull, .full)
  else (s.accept p b h o, .accepted)

/-- An attempt of a TRANSIT or SUBSTITUTE entry: EGRESS-DOWN is counted where it is refused DOWN (R96). -/
def State.attempt (s : State) (p : Port) (b : BufNo) (h : Header) (o : Origin) : State :=
  match s.enqueue p b h o with
  | (t, .down) => t.tally p .egressDown
  | (t, .accepted) => t
  | (t, .full) => t

/-- One attempt for each of these ports, in their order (R97, R126). A reset that takes effect ends it (R44, R126). -/
def State.attemptAll (ports : List Port) (b : BufNo) (h : Header) (o : Origin) (s : State) : State :=
  ports.foldl (fun t p => if t.resetDue then t else t.attempt p b h o) s

/-- The entry being sent leaves the head of its class queue (R102). -/
def PortState.endSending (P : PortState) (e : Entry) : PortState :=
  { P.dropHead e.hdr.cls with tx := .idle }

/-- A transmission in SENDING is abandoned: entry removed, reference released, TX-ABORTED counted, ABORT sent where
`abort` says so, a RESPONSE reported lost (R17). -/
def State.abandonTx (s : State) (p : Port) (abort : Bool) : State :=
  match s.ports[p].tx with
  | .idle => s
  | .sending e =>
    ((s.onPort p fun P =>
        { (P.endSending e).tally .txAborted with sent := if abort then P.sent ++ [.abort] else P.sent }).release
      e.buf).reportEntry e

/-- The entries of a class queue that wait: all but the one being sent. -/
def PortState.waiting (P : PortState) (c : Class) : List Entry :=
  if P.sendingMark = some c then P.queues[c].tail else P.queues[c]

/-- The entry of a class queue that a flush leaves: the one being sent (R105, R106). -/
def PortState.unflushed (P : PortState) (c : Class) : List Entry :=
  if P.sendingMark = some c then P.queues[c].take 1 else []

/-- The class queue whose head a flush releases next, where two or more hold entries: a free value (log entry 8), since R105
calls the four independent; the most urgent of them, `top`, where the free value names an empty one. -/
def flushTurn (qs : Vector (List Entry) 4) (top : Class) : Class :=
  if qs[Config.flushNext (Class.urgentFirst.map fun i => qs[i].map (·.buf))].isEmpty then top
  else Config.flushNext (Class.urgentFirst.map fun i => qs[i].map (·.buf))

/-- Four queues emptied, each from head to tail, in at most `fuel` releases (R105). -/
def drain : Nat → Vector (List Entry) 4 → List Entry
  | 0, _ => []
  | fuel + 1, qs =>
    match Class.urgentFirst.filter fun c => !qs[c].isEmpty with
    | [] => []
    | [c] => qs[c]
    | c :: _ :: _ =>
      qs[flushTurn qs c].take 1 ++ drain fuel (vset qs (flushTurn qs c) qs[flushTurn qs c].tail)

/-- The waiting entries of a port in the order a flush releases them (R105). -/
def PortState.allWaiting (P : PortState) : List Entry :=
  drain P.entries #v[P.waiting 0, P.waiting 1, P.waiting 2, P.waiting 3]

/-- A port with its class queues flushed and each released entry counted Q-FLUSHED (R105). -/
def PortState.flushed (P : PortState) : PortState :=
  { P with
    queues := #v[P.unflushed 0, P.unflushed 1, P.unflushed 2, P.unflushed 3]
    ctr := P.ctr.update (bumpBy P.allWaiting.length) .qFlushed }

/-- Releases of these entries' references, each RESPONSE reported lost (R105, R107). -/
def State.releaseEntries (es : List Entry) (s : State) : State :=
  es.foldl (fun t e => (t.release e.buf).reportEntry e) s

/-- A flush of a port (R105, R107). -/
def State.flush (s : State) (p : Port) : State :=
  (s.onPort p PortState.flushed).releaseEntries s.ports[p].allWaiting

/-! ## Notices and their delivery (R173 to R178) -/

/-- The code of a notice kind (R187). -/
def NoticeKind.code : NoticeKind → Byte
  | .portUp => 0x01
  | .portDown => 0x02
  | .holdStuck => 0x03
  | .slotLate => 0x04
  | .slotLost => 0x05
  | .slotRecovered => 0x06
  | .slotNeverSeen => 0x07
  | .bufferLow => 0x08
  | .bufferEmpty => 0x09
  | .leaseExpired => 0x0A
  | .noticesLost => 0x0B
  | .resetDone => 0x0C

/-- A notice record of an event frame: 12 bytes (R187). -/
def noticeBytes (n : Notice) : List Byte :=
  bytes16 n.sequence ++ [n.kind.code, n.subject] ++ bytes32 n.tick ++ bytes32 n.detail

/-- The payload of an event frame that carries these notices (R187). -/
def eventPayload (ns : List Notice) : List Byte :=
  [0x80#8, BitVec.ofNat 8 ns.length] ++ ns.flatMap noticeBytes

/-- The list holds a NOTICES-LOST notice. -/
def EventQueue.overflowed (q : EventQueue) : Bool := q.notices.any fun n => n.kind = .noticesLost

/-- A NOTICES-LOST notice with its count increased by 1, held at 65535; any other notice as it is (R175). -/
def Notice.countLoss (n : Notice) : Notice :=
  if n.kind = .noticesLost then { n with detail := if n.detail.toNat < 65535 then n.detail + 1 else n.detail } else n

/-- The Event Queue with a notice appended under the next sequence (R174). -/
def EventQueue.append (q : EventQueue) (kind : NoticeKind) (subject : Byte) (tick : Tick) (detail : BitVec 32) :
    EventQueue :=
  { q with
    notices := q.notices ++
      [{ sequence := q.nextSequence, kind := kind, subject := subject, tick := tick, detail := detail }]
    nextSequence := q.nextSequence + 1 }

/-- A raise taken by the Event Queue: counted on NOTICES-LOST where one is present, appended where the list holds 14
notices or fewer, appended as NOTICES-LOST where it holds 15 (R174, R175). -/
def EventQueue.take (q : EventQueue) (kind : NoticeKind) (subject : Byte) (tick : Tick) (detail : BitVec 32) :
    EventQueue :=
  if q.overflowed then { q with notices := q.notices.map Notice.countLoss }
  else if q.notices.length ≤ 14 then q.append kind subject tick detail
  else if q.notices.length = 15 then q.append .noticesLost 0 tick 1
  else q

/-- A raise of the list grew it: the raise appends a notice, and so may start a delivery attempt (R174, R175). -/
def EventQueue.appends (q : EventQueue) : Bool := !q.overflowed && decide (q.notices.length ≤ 15)

/-- A raise without a delivery attempt of its own, taken where it is made: inside an attempt (R177) or inside a reset
(R182). -/
def State.note (s : State) (kind : NoticeKind) (subject : Byte) (detail : BitVec 32) : State :=
  { s with events := s.events.take kind subject s.now detail }

/-- The three delivery conditions (R176). Between the happening that brings a pending reset into effect and that effect
no attempt is started. -/
def State.canDeliver (s : State) : Bool :=
  s.agent.session.isOpen && s.agent.session.eventsEnabled && !s.events.notices.isEmpty && !s.events.outstanding &&
    !s.resetDue

/-- The pop of a delivery attempt: its notices start no attempt of their own (R177 step 1). -/
def State.popQuietly (s : State) : Option (BufNo × State) :=
  s.takeTop.map fun (b, t) => (b, t.episodeAfterPop fun k d u => u.note k 0 d)

/-- The notices an event frame carries: the oldest four, or all where there are fewer (R177 step 2). -/
def EventQueue.carried (q : EventQueue) : List Notice := q.notices.take 4

/-- Steps 2 to 4 of a delivery attempt: the event frame built in buffer `b`, one enqueue attempt on the event port, the
building's reference released (R177). -/
def State.sendEventFrame (s : State) (b : BufNo) : State :=
  ((((s.putPayload b (eventPayload s.events.carried)).enqueue s.agent.session.eventPort b
      (s.relayHeader s.agent.session.replyLabel) .event).1).release b)

/-- Step 5 of a delivery attempt: the flag set and the retransmit timer started (R177). -/
def State.armRetransmit (s : State) : State :=
  { s with events := { s.events with
      outstanding := true, timer := some (s.now + ticksOf10Ms s.events.interval.toNat) } }

/-- A delivery attempt (R177). -/
def State.deliver (s : State) : State :=
  match s.popQuietly with
  | none => s.armRetransmit
  | some (b, t) => (t.sendEventFrame b).armRetransmit

/-- A delivery attempt where the conditions hold (R176). -/
def State.tryDeliver (s : State) : State := if s.canDeliver then s.deliver else s

/-- The Event Queue takes a raise and, where it appends a notice, tests the delivery conditions (R174 to R176). -/
def State.takeRaise (s : State) (r : Raise) : State :=
  if s.events.appends then { s with events := s.events.take r.kind r.subject r.tick r.detail }.tryDeliver
  else { s with events := s.events.take r.kind r.subject r.tick r.detail }

/-- A raise on its way to the Event Queue. -/
def State.sendRaise (s : State) (r : Raise) : State := { s with transit := s.transit ++ [r] }

/-- Among these raises stands one that a port has entered UP. -/
def entersUp (rs : List Raise) : Bool := rs.any fun r => decide (r.kind = .portUp)

/-- A block's raise, with the present tick: the Event Queue takes it within the same happening, or it waits, so that raises are
taken in either order (R173, R174; log entry 25). PORT-UP notices are numbered in the order in which the ports enter UP (R181),
so a PORT-UP waits behind another that waits (DEDUCED beyond power-up, log entry 25). -/
def State.raise (s : State) (kind : NoticeKind) (subject : Byte) (detail : BitVec 32) : State :=
  if s.raisesWait || (decide (kind = .portUp) && entersUp s.transit) then
    s.sendRaise { kind := kind, subject := subject, tick := s.now, detail := detail }
  else s.takeRaise { kind := kind, subject := subject, tick := s.now, detail := detail }

/-- A pop asked for by a port receiver (R26), with the notices it raises (R31, R32). -/
def State.pop (s : State) : Option (BufNo × State) :=
  s.takeTop.map fun (b, t) => (b, t.episodeAfterPop fun k d u => u.raise k 0 d)

end Sys2Proof.Machine
end

