-- ==== Sys2Proof/Machine/Buckets.lean ====
section
/-! DEFINITION. Rate Buckets and the Time Base (chapter 5): refill, charge, write, and the advance of the tick counter. -/

namespace Sys2Proof.Machine

/-- A bucket's tick: an ENABLED bucket's credit becomes the lesser of its depth and its credit plus its rate (R85). -/
def Bucket.refill (x : Bucket) : Bucket :=
  if x.enabled then { x with credit := min x.depth (x.credit + x.rate) } else x

/-- What becomes of a frame at its bucket (R83, R84). -/
inductive Verdict where
  | pass | demote | drop
  deriving DecidableEq, Repr

/-- A charge: the bucket after it, and the verdict (R83, R84). -/
def Bucket.charge (x : Bucket) (cost : Nat) : Bucket × Verdict :=
  if x.enabled = false then (x, .pass)
  else if cost ≤ x.credit then ({ x with credit := x.credit - cost, conform := bump x.conform }, .pass)
  else ({ x with exceeds := bump x.exceeds }, match x.exceed with | .drop => .drop | .demote => .demote)

/-- A write of an accepted configuration: the credit becomes the depth where ENABLED, 0 where DISABLED (R87). -/
def Bucket.write (x : Bucket) (enabled : Bool) (rate depth : Nat) (exceed : ExceedAction) : Bucket :=
  { x with enabled := enabled, rate := rate, depth := depth, exceed := exceed,
           credit := if enabled then depth else 0 }

/-- A bucket at RESET FORWARDING: the credit of an ENABLED bucket is set to its depth (R90). -/
def Bucket.refillWhole (x : Bucket) : Bucket := if x.enabled then { x with credit := x.depth } else x

/-- The cost of a frame of this Length: its header and payload bytes (R82). -/
def frameCost (len : Nat) : Nat := 5 + len

/-- Stage 4 of a disposition at bucket `n` (R83). -/
def State.chargeBucket (s : State) (n : BucketNo) (cost : Nat) : State × Verdict :=
  (s.setBucket n (s.buckets[n].charge cost).1, (s.buckets[n].charge cost).2)

/-- The tick counter advances by 1, and the Rate Buckets take their tick (R77, R79, R85). -/
def State.advance (s : State) : State := { s with now := s.now + 1, buckets := vmap Bucket.refill s.buckets }

end Sys2Proof.Machine
end

