-- ==== Sys2Proof/Machine/Supervision.lean ====
section
/-! DEFINITION. The Supervision Slots (chapter 7): arming, arrivals, deadlines, substitutes, and the commands
SLOT_START_WINDOW_EXPIRY and SLOT_DEADLINE apart from the reset they may bring about. -/

namespace Sys2Proof.Machine

/-- The part with `f` applied to slot `n`. -/
def State.onSlot (s : State) (n : SlotNo) (f : Slot → Slot) : State := s.setSlot n (f s.slots[n])

/-- The deadline of a slot armed at `now`: now + start window, or none where the window is 0 (R116, R132). -/
def SlotConfig.armDeadline (c : SlotConfig) (now : Tick) : Option Tick :=
  if c.startWindow = 0 then none else some (now + c.startWindow.setWidth 32)

/-- A slot armed: WAITING, miss count 0, the start window running (R116). -/
def Slot.armed (x : Slot) (now : Tick) : Slot :=
  { x with state := .waiting, miss := 0, deadline := x.cfg.armDeadline now }

/-- A slot disarmed, its hold's reference released apart (R117). -/
def Slot.disarmed (x : Slot) : Slot := { x with state := .off, deadline := none, miss := 0, held := none }

/-- A slot at RESET FORWARDING: nothing changes in OFF; any other state starts again in WAITING without a hold (R132). -/
def Slot.restarted (x : Slot) (now : Tick) : Slot :=
  if x.state = .off then x else { x.armed now with held := none }

/-- The reference of a hold ends, where there is one (R28). -/
def State.releaseHeld (s : State) : Option Held → State
  | none => s
  | some h => s.release h.buf

/-- The slot after an arrival, its hold apart: FRESH with a new deadline (R120 items 3 to 5). -/
def Slot.freshened (x : Slot) (now : Tick) : Slot :=
  { x with
    state := .fresh, miss := 0
    deadline := some (now + x.cfg.period.setWidth 32 + x.cfg.grace.setWidth 32)
    lastArrival := now }

/-- R120 items 1 and 2: the arrival is counted, and a LATE or LOST slot raises SLOT-RECOVERED with the miss count as it
stood and counts RECOVERIES. -/
def State.countArrival (s : State) (n : SlotNo) : State :=
  if s.slots[n].state = .late ∨ s.slots[n].state = .lost then
    (s.onSlot n fun x => { x with arrivals := bump x.arrivals, recoveries := bump x.recoveries }).raise
      .slotRecovered (BitVec.ofNat 8 n.val) (BitVec.ofNat 32 s.slots[n].miss)
  else s.onSlot n fun x => { x with arrivals := bump x.arrivals }

/-- A hold is taken or replaced: the new buffer's count rises, the old hold's reference ends (R121). -/
def State.takeHold (s : State) (n : SlotNo) (h : Held) : State :=
  ((s.addRef h.buf).onSlot n fun x => { x with held := some h }).releaseHeld s.slots[n].held

/-- Stage 5 of a disposition: an arrival at slot `n`, without effect in OFF (R119 to R121). `hold` is what a FORWARD
frame's hold would be, absent for a DROP record. -/
def State.arrive (s : State) (n : SlotNo) (hold : Option Held) : State :=
  if s.slots[n].state = .off then s
  else
    match hold with
    | some h =>
      if s.slots[n].cfg.hold then (((s.countArrival n).onSlot n (·.freshened s.now)).takeHold n h)
      else (s.countArrival n).onSlot n (·.freshened s.now)
    | none => (s.countArrival n).onSlot n (·.freshened s.now)

/-- The header of a substitute of a held buffer (R126). -/
def Held.header (h : Held) : Header :=
  { label := h.label, source := h.source, cls := h.cls, stale := true, age := h.age }

/-- A substitute emission: SUBSTITUTES once, then one attempt per port of the stored egress set (R126). -/
def State.emitSubstitute (s : State) (n : SlotNo) (h : Held) : State :=
  (s.onSlot n fun x => { x with substitutes := bump x.substitutes }).attemptAll (PortSet.ports h.egress) h.buf h.header .substitute

/-- The miss of R124 that leaves the slot LATE. -/
def State.missLate (s : State) (n : SlotNo) : State :=
  let x := s.slots[n]
  let y := { x with
    misses := bump x.misses, miss := x.miss + 1, state := .late
    deadline := x.deadline.map (· + x.cfg.period.setWidth 32) }
  let t := if x.state = .fresh then (s.setSlot n y).raise .slotLate (BitVec.ofNat 8 n.val) x.lastArrival
           else s.setSlot n y
  match x.held with
  | some h => if x.cfg.substitute then t.emitSubstitute n h else t
  | none => t

/-- The miss of R125 that makes the slot LOST. -/
def State.missLost (s : State) (n : SlotNo) : State :=
  let x := s.slots[n]
  let y := { x with
    misses := bump x.misses, miss := x.miss + 1, state := .lost, deadline := none, held := none }
  ((s.setSlot n y).releaseHeld x.held).raise .slotLost (BitVec.ofNat 8 n.val) x.lastArrival

/-- The deadline of a slot in FRESH or LATE (R124, R125). -/
def State.slotMiss (s : State) (n : SlotNo) : State :=
  if s.slots[n].miss + 1 < s.slots[n].cfg.lossCount then s.missLate n else s.missLost n

/-- The deadline of a slot in WAITING (R123). -/
def State.slotNeverSeen (s : State) (n : SlotNo) : State :=
  (s.onSlot n fun x => { x with state := .lost, deadline := none }).raise .slotNeverSeen (BitVec.ofNat 8 n.val)
    (s.slots[n].cfg.startWindow.setWidth 32)

/-- SLOT_START_WINDOW_EXPIRY is taken where the slot is WAITING and its deadline is reached (R123). -/
def State.windowExpired (s : State) (n : SlotNo) : Bool :=
  decide (s.slots[n].state = .waiting) && due s.now s.slots[n].deadline

/-- SLOT_DEADLINE is taken where the slot is FRESH or LATE and its deadline is reached (R124). -/
def State.slotDue (s : State) (n : SlotNo) : Bool :=
  (decide (s.slots[n].state = .fresh) || decide (s.slots[n].state = .late)) && due s.now s.slots[n].deadline

end Sys2Proof.Machine
end

