-- ==== Sys2Proof/Machine/Reset.lean ====
section
/-! DEFINITION. The three resets and the moment a pending one takes effect (R8, R36, R37, R148, R149, R170, R171). -/

namespace Sys2Proof.Machine

/-! ## RESET FULL (R170) -/

/-- ABORT in place of the rest of a frame being sent, if one is (R17). -/
def PortState.abortSent (P : PortState) : List LineItem :=
  match P.tx with
  | .idle => P.sent
  | .sending _ => P.sent ++ [.abort]

/-- A port at RESET FULL: DOWN, its configuration and everything else at reset values, counters cleared, ABORT sent for a
frame being sent (R8, R21, R22, R111). -/
def PortState.resetFull (P : PortState) : PortState :=
  { PortState.reset with quiet := P.quiet, sent := P.abortSent }

/-- RESET FULL takes effect on every block (R170). A raise that waits ends with the notices (log entry 25). The tick counter,
NODE and the token counter are kept, and the stored bytes stand where they are (R23, R77, R138). -/
def State.fullReset (s : State) : State :=
  { s with
    ports := vmap PortState.resetFull s.ports
    store := { Store.reset with mem := s.store.mem }
    route := .reset
    action := .reset
    disposing := Vector.replicate 4 none
    buckets := Vector.replicate 32 .reset
    slots := Vector.replicate 32 .reset
    agent := { Agent.reset with tokenCounter := s.agent.tokenCounter }
    events := .resetDone s.now 1
    transit := []
    resetDue := false }

/-! ## RESET FORWARDING (R171) -/

/-- The receive side of a port at RESET FORWARDING: a reception in progress is abandoned and counted (R8, R14). -/
def PortState.abandonedRx (P : PortState) : PortState :=
  match P.rx with
  | .idle => P
  | .receiving _ _ => { P.tally .rxAborted with rx := .idle }
  | .ignoring .cutOff => { P.tally .rxLength with rx := .idle }
  | .ignoring _ => { P with rx := .idle }

/-- The transmit side of a port at RESET FORWARDING: a frame being sent is ended with ABORT, its entry removed and counted
TX-ABORTED (R8, R17). -/
def PortState.abandonedTx (P : PortState) : PortState :=
  match P.tx with
  | .idle => P
  | .sending e => { (P.endSending e).tally .txAborted with sent := P.sent ++ [.abort] }

/-- A port at RESET FORWARDING: reception and transmission abandoned, queues flushed and counted; link state,
configuration and partner HOLD kept (R8, R106). -/
def PortState.resetForwarding (P : PortState) : PortState := P.abandonedRx.abandonedTx.flushed

/-- The Frame Store at RESET FORWARDING: every count 0, the stack in reset order, no episode; the episode counter kept
(R37). -/
def Store.rebuilt (f : Store) : Store :=
  { f with count := Vector.replicate 128 0, free := Store.resetOrder, episode := .none }

/-- The Management Agent at RESET FORWARDING: request queue emptied, execution ended, reset pending ended; session, token
counter and counters kept (R149). -/
def Agent.resetForwarding (a : Agent) : Agent := { a with queue := [], executing := none, resetPending := none }

/-- Everything RESET FORWARDING does before the Event Queue raises RESET-DONE (R171). GO is asked on every UP port where
an episode was in progress (R37). -/
def State.forwardingCore (s : State) : State :=
  let t := { s with
    ports := vmap PortState.resetForwarding s.ports
    store := s.store.rebuilt
    disposing := Vector.replicate 4 none
    buckets := vmap Bucket.refillWhole s.buckets
    slots := vmap (·.restarted s.now) s.slots
    agent := s.agent.resetForwarding
    events := { s.events with outstanding := false, timer := none }
    resetDue := false }
  if s.store.episode = .none then t else t.askUp .go

/-- RESET FORWARDING takes effect on every block; RESET-DONE FORWARDING is raised and the delivery conditions are tested
(R171, R182). -/
def State.forwardingReset (s : State) : State := (s.forwardingCore.note .resetDone 0 2).tryDeliver

/-! ## When a pending reset takes effect (R148) -/

/-- The reset of a scope. -/
def State.resetEffect (s : State) : ResetScope → State
  | .full => s.fullReset
  | .forwarding => s.forwardingReset

/-- The end of a command: where a happening of R148 was taken within it, reset pending ends and the reset takes effect. -/
def State.finish (s : State) : State :=
  if s.resetDue then
    match s.agent.resetPending with
    | some r => s.resetEffect r.scope
    | none => { s with resetDue := false }
  else s

/-- RSTN_RELEASE: every block at its power-up values, NODE sampled, the 1 ms initialization started (R2). The commands
that wait are not the part's. -/
def execRstnRelease (node : Node) (s : State) : Answer State := .next { State.powerUp node with pending := s.pending }

/-- The place of the raise taken where the one in place `k` is chosen: that place, but for a PORT-UP the place of the oldest
PORT-UP, since PORT-UP notices are numbered in the order in which the ports enter UP (R181). -/
def inTurn (rs : List Raise) (k : Nat) : Nat :=
  match rs[k]? with
  | some r => if r.kind = .portUp then rs.findIdx fun q => decide (q.kind = .portUp) else k
  | none => k

/-- The Event Queue takes the raise chosen by place `k` of those that wait, where there is one (R174, R181). -/
def State.takeWaiting (s : State) (k : Nat) : State :=
  match s.transit[inTurn s.transit k]? with
  | some r => ({ s with transit := s.transit.eraseIdx (inTurn s.transit k) }.takeRaise r).finish
  | none => s

/-- The limit deadline of a pending reset, where it is reached (R148). -/
def State.takeResetLimit (s : State) : State :=
  match s.agent.resetPending with
  | some r => if reached s.now r.limit then { s with resetDue := true }.finish else s
  | none => s

/-- RESET_LIMIT_EXPIRY: the limit deadline of a pending reset is reached, and the reset takes effect (R148); nothing where
no reset is pending or its limit is not reached. -/
def execResetLimitExpiry (s : State) : Answer State := .next s.takeResetLimit

end Sys2Proof.Machine
end

