-- ==== Sys2Proof/Machine/Routes.lean ====
section
/-! DEFINITION. The Route Table (chapter 3): roles, lookup, staging writes, commit, the copier, and the command
COPY_DONE. -/

namespace Sys2Proof.Machine

/-- A bank role (R38). -/
inductive BankRole where
  | active | staging
  deriving DecidableEq, Repr

/-- The other bank. -/
def BankName.other : BankName → BankName
  | .a => .b
  | .b => .a

/-- The entries of a bank. -/
def RouteTable.bank (t : RouteTable) : BankName → Vector RouteEntry 64
  | .a => t.bankA
  | .b => t.bankB

/-- The Route Table with a bank's entries replaced. -/
def RouteTable.setBank (t : RouteTable) (n : BankName) (v : Vector RouteEntry 64) : RouteTable :=
  match n with
  | .a => { t with bankA := v }
  | .b => { t with bankB := v }

/-- The bank that lookups read (R46). -/
def RouteTable.activeBank (t : RouteTable) : Vector RouteEntry 64 := t.bank t.active

/-- The bank that management writes (R38). -/
def RouteTable.stagingBank (t : RouteTable) : Vector RouteEntry 64 := t.bank t.active.other

/-- The bank a role names (R38, R54). -/
def RouteTable.byRole (t : RouteTable) : BankRole → Vector RouteEntry 64
  | .active => t.activeBank
  | .staging => t.stagingBank

/-- A valid entry matches a frame received on port `p` with header `h` (R39); an entry that is not valid matches none
(R46). -/
def RouteEntry.hits (e : RouteEntry) (p : Port) (h : Header) : Bool :=
  e.valid && PortSet.has e.portMask p && decide (h.label &&& e.labelMask = e.labelKey) &&
    decide (h.source &&& e.sourceMask = e.sourceKey) && decide (e.minClass ≤ h.cls)

/-- The lookup: the action index of the lowest-numbered entry of the active bank that matches, or a miss (R46). -/
def RouteTable.lookup (t : RouteTable) (p : Port) (h : Header) : Option RecordIdx :=
  (t.activeBank.toList.find? fun e => e.hits p h).map (·.action)

/-- The checks on a valid entry's masks (R40). -/
def RouteEntry.accepted (e : RouteEntry) : Bool :=
  decide (e.portMask ≠ 0) && decide (e.labelKey &&& ~~~e.labelMask = 0) &&
    decide (e.sourceKey &&& ~~~e.sourceMask = 0)

/-- One staging entry written; the state becomes MODIFIED (R51, R52). -/
def RouteTable.writeStaging (t : RouteTable) (i : RouteIdx) (e : RouteEntry) : RouteTable :=
  { t.setBank t.active.other (vset t.stagingBank i e) with staging := .modified }

/-- A bank with entries `first` to `first + count - 1` cleared. -/
def clearRange (v : Vector RouteEntry 64) (first count : Nat) : Vector RouteEntry 64 :=
  Vector.ofFn fun i : Fin 64 => if first ≤ i.val ∧ i.val < first + count then .cleared else v[i]

/-- A range of staging entries cleared; the state becomes MODIFIED (R52). -/
def RouteTable.clearStaging (t : RouteTable) (first count : Nat) : RouteTable :=
  { t.setBank t.active.other (clearRange t.stagingBank first count) with staging := .modified }

/-- The copier started at entry 0; the state becomes COPYING (R55). -/
def RouteTable.startCopy (t : RouteTable) (now : Tick) : RouteTable :=
  { t with copier := some { next := 0, begun := now }, staging := .copying }

/-- COMMIT: the roles exchanged, the epoch advanced, the copier started (R53). -/
def RouteTable.commit (t : RouteTable) (now : Tick) : RouteTable :=
  { t with active := t.active.other, epoch := t.epoch + 1 }.startCopy now

/-- The copier copies its next entry whole, valid flag and all fields; after entry 63 it has none left to copy (R55). -/
def RouteTable.copyNext (t : RouteTable) : RouteTable :=
  match t.copier with
  | none => t
  | some c =>
    if h : c.next < 64 then
      { t.setBank t.active.other (vset t.stagingBank ⟨c.next, h⟩ t.activeBank[c.next]) with
        copier := some { c with next := c.next + 1 } }
    else t

/-- A bank with the entries from `next` on copied from another (R55). -/
def copyFrom (src dst : Vector RouteEntry 64) (next : Nat) : Vector RouteEntry 64 :=
  Vector.ofFn fun i : Fin 64 => if next ≤ i.val then src[i] else dst[i]

/-- Copy done: the entries not yet copied are copied, the copier is idle and the state CLEAN (R55). -/
def RouteTable.copyDone (t : RouteTable) : RouteTable :=
  match t.copier with
  | none => t
  | some c =>
    { t.setBank t.active.other (copyFrom t.activeBank t.stagingBank c.next) with copier := none, staging := .clean }

/-- The revert request of a closing session (R56). -/
def RouteTable.revert (t : RouteTable) (now : Tick) : RouteTable :=
  match t.staging with
  | .clean => t
  | .modified => t.startCopy now
  | .copying => t

/-- The copier's next entry, between commands (R55; log entry 4). -/
def State.copyEntry (s : State) : State := { s with route := s.route.copyNext }

/-- A copy that started before the last advance ends: copy done comes no later than 100 µs after the start, and so before a
second advance (R55). -/
def State.endStaleCopy (s : State) : State :=
  match s.route.copier with
  | some c => if c.begun = s.now then s else { s with route := s.route.copyDone }
  | none => s

/-- COPY_DONE: the bank copier finishes (R55); nothing where it is idle. -/
def execCopyDone (s : State) : Answer State := .next { s with route := s.route.copyDone }

end Sys2Proof.Machine
end

