-- ==== Sys2Proof/Machine/Disposition.lean ====
section
/-! DEFINITION. Frame disposition (sections 3.2 to 3.4, chapter 4, R82 to R84): what becomes of one good transit frame.
Each stage is taken whole; between two of them other happenings may be taken (R44). -/

namespace Sys2Proof.Machine

/-- A disposition as the receiver hands the frame on: the applied header starts equal to the received (R42, R43). -/
def State.openDisposal (s : State) (b : BufNo) : Disposal :=
  { buf := b, received := s.headerAt b, len := s.lengthAt b, base := none, final := none, applied := s.headerAt b,
    egress := 0, directed := 0, stage := .lookup, taken := 0, begun := s.now }

/-- The part with a Route Table counter changed. -/
def State.onRoute (s : State) (f : RouteTable → RouteTable) : State := { s with route := f s.route }

/-- The part with the Action Table changed. -/
def State.onAction (s : State) (f : ActionTable → ActionTable) : State := { s with action := f s.action }

/-- AGE-DROPPED counted (R50). -/
def State.countAgeDropped (s : State) : State :=
  s.onRoute fun t => { t with ageDropped := bump t.ageDropped }

/-! ## Stage 2: resolve (R63 to R68) -/

/-- The record a selector chooses in the base record's block of sixteen (R64). -/
def dispatchTarget (base : RecordIdx) (selector : BitVec 4) : RecordIdx :=
  ⟨base.val / 16 * 16 + (base.val % 16 + selector.toNat) % 16, by omega⟩

/-- The selector: the payload byte at the dispatch offset with every bit outside the mask cleared (R64). -/
def State.selector (s : State) (b : BufNo) (d : DispatchPart) : BitVec 4 :=
  (s.byteAt b (5 + d.offset.val)).extractLsb' 0 4 &&& d.mask

/-- Outcomes of a resolve (R64 to R66). -/
inductive Resolved where
  /-- The final record is the base record or the one dispatch chose. -/
  | final (i : RecordIdx)
  /-- The payload is too short to dispatch: the base record serves (R65). -/
  | short (i : RecordIdx)
  /-- Dispatch chose a record with a dispatch part: the frame is dropped (R66). -/
  | nested
  deriving DecidableEq, Repr

/-- The choice of the final record (R64 to R66). -/
def State.resolve (s : State) (base : RecordIdx) (b : BufNo) (len : Nat) : Resolved :=
  match s.action.records[base].dispatch with
  | none => .final base
  | some d =>
    if len ≤ d.offset.val then .short base
    else if s.action.records[dispatchTarget base (s.selector b d)].dispatch.isSome then .nested
    else .final (dispatchTarget base (s.selector b d))

/-- A hit counted on a record (R67). -/
def ActionTable.hit (t : ActionTable) (i : RecordIdx) : ActionTable :=
  { t with hits := vset t.hits i (bump t.hits[i]) }

/-- The counts a resolve makes (R65 to R68). -/
def ActionTable.countResolve (t : ActionTable) : Resolved → ActionTable
  | .final i => t.hit i
  | .short i => { t.hit i with dispatchShort := bump t.dispatchShort }
  | .nested => { t with dispatchNest := bump t.dispatchNest }

/-- The applied class under a class policy (R72). -/
def ClassPolicy.apply : ClassPolicy → Class → Class
  | .keep, c => c
  | .set c, _ => c

/-- The applied age under an age policy, for a received Age above 0 (R74). -/
def AgePolicy.apply : AgePolicy → Age → Age
  | .decrement, a => a - 1
  | .keep, a => a
  | .set n, _ => n

/-- The directed set of a FORWARD record: its egress mask without the ingress port (R69, R71). -/
def ActionRecord.directedSet (r : ActionRecord) (p : Port) : PortSet := PortSet.without r.egress p

/-- The ports of a set that are UP at this moment (R71). -/
def State.upOf (s : State) (m : PortSet) : PortSet := PortSet.ofPred fun p => PortSet.has m p && s.isUp p

/-- EGRESS-DOWN counted on each port of the set that is not UP (R71). -/
def State.countDown (s : State) (m : PortSet) : State :=
  { s with ports := Vector.ofFn fun p : Port =>
      if PortSet.has m p && !s.isUp p then s.ports[p].tally .egressDown else s.ports[p] }

/-- The disposition with its next stage named, one stage more taken. -/
def Disposal.next (d : Disposal) (stage : Stage) : Disposal := { d with stage := stage, taken := d.taken + 1 }

/-- The part with the disposition of ingress port `p` gone on to this. -/
def State.goOn (s : State) (p : Port) (d : Disposal) : State := { s with disposing := vset s.disposing p (some d) }

/-- Stage 7, the end of a disposition: its reception reference is released (R29, R42). -/
def State.endDisposal (s : State) (p : Port) (d : Disposal) : State :=
  { s with disposing := vset s.disposing p none }.release d.buf

/-! ## The stages (R42) -/

/-- Stage 1: the lookup, and on a miss the ingress port's miss action as it stands (R46, R48, R49). -/
def State.stageLookup (s : State) (p : Port) (d : Disposal) : State :=
  match s.route.lookup p d.received with
  | some base => s.goOn p ({ d with base := some base }.next .resolve)
  | none =>
    match s.ports[p].cfg.missAction with
    | .drop => (s.onRoute fun t => { t with missDropped := bump t.missDropped }).endDisposal p d
    | .flood => (s.onRoute fun t => { t with missFlooded := bump t.missFlooded }).goOn p (d.next .ageCheck)

/-- The end of stage 2 for final record `r`: its contents copied, class policy and label rewrite applied, and for a
FORWARD record both port sets formed (R69 to R73). The dispatch part is not copied. -/
def Disposal.resolveTo (d : Disposal) (s : State) (p : Port) (r : ActionRecord) : Disposal :=
  { d with
    final := some { r with dispatch := none }
    applied := { d.applied with
      cls := r.classPolicy.apply d.received.cls
      label := r.labelRewrite.getD d.received.label }
    directed := if r.disposition = .forward then r.directedSet p else 0
    egress := if r.disposition = .forward then s.upOf (r.directedSet p) else 0 }

/-- Stage 2 for a base record: the final record chosen and counted, its contents copied; a nested dispatch ends the
disposition (R63 to R71). -/
def State.stageResolve (s : State) (p : Port) (d : Disposal) (base : RecordIdx) : State :=
  let res := s.resolve base d.buf d.len
  let t := s.onAction (·.countResolve res)
  match res with
  | .nested => t.endDisposal p d
  | .final i => (t.countDown (d.resolveTo s p s.action.records[i]).directed).goOn p
      ((d.resolveTo s p s.action.records[i]).next .ageCheck)
  | .short i => (t.countDown (d.resolveTo s p s.action.records[i]).directed).goOn p
      ((d.resolveTo s p s.action.records[i]).next .ageCheck)

/-- A flooded frame: every port that is UP at this moment but the ingress port, the Age less 1 (R48). -/
def Disposal.flood (d : Disposal) (s : State) (p : Port) : Disposal :=
  { d with
    egress := PortSet.ofPred fun q => decide (q ≠ p) && s.isUp q
    applied := { d.received with age := d.received.age - 1 } }

/-- Stage 3: a frame received with Age 0 is dropped on the miss path and under a FORWARD record, and the Age to send is set
(R48, R70, R74). After the drop stage 7 follows as a stage of its own, so that happenings may fall before it (R44). -/
def State.stageAge (s : State) (p : Port) (d : Disposal) : State :=
  match d.final with
  | none =>
    if d.received.age = 0 then s.countAgeDropped.goOn p (d.next .release)
    else s.goOn p ((d.flood s p).next .enqueue)
  | some r =>
    if r.disposition = .forward then
      if d.received.age = 0 then s.countAgeDropped.goOn p (d.next .release)
      else s.goOn p ({ d with applied := { d.applied with age := r.agePolicy.apply d.received.age } }.next .bucket)
    else s.goOn p (d.next .bucket)

/-- Stage 4: the copied bucket part charged; without one the frame passes; DEMOTE sets the applied class to 0 (R72, R75, R83,
R84). -/
def State.stageBucket (s : State) (p : Port) (d : Disposal) (r : ActionRecord) : State :=
  match r.bucket with
  | none => s.goOn p (d.next .arrival)
  | some n =>
    match s.chargeBucket n (frameCost d.len) with
    | (t, .drop) => t.endDisposal p d
    | (t, .pass) => t.goOn p (d.next .arrival)
    | (t, .demote) => t.goOn p ({ d with applied := { d.applied with cls := 0 } }.next .arrival)

/-- The hold an arrival of this frame would take (R121). -/
def Disposal.hold (d : Disposal) : Held :=
  { buf := d.buf, egress := d.directed, label := d.applied.label, cls := d.applied.cls, age := d.applied.age,
    source := d.received.source }

/-- Stage 5: the copied slot part credited, a hold offered for a FORWARD record alone; a DROP record goes on to stage 7 (R70,
R119, R121). -/
def State.stageArrival (s : State) (p : Port) (d : Disposal) (r : ActionRecord) : State :=
  let t := match r.slot with
    | none => s
    | some n => s.arrive n (if r.disposition = Disposition.forward then some d.hold else none)
  if r.disposition = .forward then t.goOn p (d.next .enqueue) else t.goOn p (d.next .release)

/-- Stage 6, one attempt: the lowest port of the egress set still to be tried; with none the disposition ends (R29, R97). -/
def State.stageEnqueue (s : State) (p : Port) (d : Disposal) : State :=
  match PortSet.ports d.egress with
  | [] => s.endDisposal p d
  | [q] => (s.attempt q d.buf d.applied .transit).goOn p ({ d with egress := PortSet.without d.egress q }.next .release)
  | q :: _ :: _ =>
    (s.attempt q d.buf d.applied .transit).goOn p ({ d with egress := PortSet.without d.egress q }.next .enqueue)

/-- One stage of the disposition of ingress port `p`, taken whole (R42). A disposition without the record its stage works from
ends, as no disposition in a run is. -/
def State.takeStage (s : State) (p : Port) (d : Disposal) : State :=
  match d.stage, d.base, d.final with
  | .lookup, _, _ => s.stageLookup p d
  | .resolve, some base, _ => s.stageResolve p d base
  | .resolve, none, _ => s.endDisposal p d
  | .ageCheck, _, _ => s.stageAge p d
  | .bucket, _, some r => s.stageBucket p d r
  | .bucket, _, none => s.endDisposal p d
  | .arrival, _, some r => s.stageArrival p d r
  | .arrival, _, none => s.endDisposal p d
  | .enqueue, _, _ => s.stageEnqueue p d
  | .release, _, _ => s.endDisposal p d

/-- Up to `fuel` stages of the disposition of ingress port `p`, one after another. A reset that takes effect ends it
(R44). -/
def State.takeStages : Nat → Port → State → State
  | 0, _, s => s
  | fuel + 1, p, s =>
    if s.resetDue then s
    else
      match s.disposing[p] with
      | none => s
      | some d => State.takeStages fuel p (s.takeStage p d)

/-- The most stages a disposition takes: five, an attempt for each port, and the release. -/
def allStages : Nat := 10

/-- The good transit frame in buffer `b`, received on port `p`, passes to disposition, and as many stages as `pace` says
follow at once (R13, R42, R44). -/
def State.dispose (s : State) (p : Port) (b : BufNo) (pace : Pace) : State :=
  State.takeStages (match pace with | .whole => allStages | .upTo n => n.val) p (s.goOn p (s.openDisposal b))

/-- The disposition of ingress port `p` brought to its end (R45). -/
def State.settle (s : State) (p : Port) : State :=
  match s.disposing[p] with
  | none => s
  | some _ => (State.takeStages allStages p s).finish

/-! ## While no command waits -/

/-- The ports whose disposition is in progress. -/
def State.inProgress (s : State) : List (Port × BufNo × Nat) :=
  Port.all.filterMap fun p => s.disposing[p].map fun d => (p, d.buf, d.taken)

/-- The ingress port whose disposition goes on: where two or more are in progress a free value says which (R45; log entry 7),
the lowest of them, `first`, where the free value names a port without one. -/
def State.turn (s : State) (first : Port) : Port :=
  if s.disposing[Config.nextDisposition s.inProgress].isSome then Config.nextDisposition s.inProgress else first

/-- One disposition in progress takes its next stage, or nothing happens. -/
def State.idleStage (s : State) : State :=
  match s.inProgress with
  | [] => s
  | [(p, _, _)] => (State.takeStages 1 p s).finish
  | (p, _, _) :: _ :: _ => (State.takeStages 1 (s.turn p) s).finish

/-- The place among these waiting raises of the one a free value says is taken next (R174; log entry 25). -/
def raiseTurn (rs : List Raise) (busy : List (Port × BufNo × Nat)) : Nat :=
  Config.nextRaise (rs.map fun r => (r.kind.code, r.subject, r.tick, r.detail)) busy

/-- What the part does while no command waits: the Event Queue takes one of the raises that wait, or a disposition in
progress takes its next stage; a free value says which where there are several (R44, R174), the first raise where it names
none and no disposition is in progress. With neither left the copier copies its next entry, which no request and no lookup
can see (R55; log entry 4). -/
def State.idle (s : State) : State :=
  match s.transit, s.inProgress with
  | [], [] => s.copyEntry
  | [], _ :: _ => s.idleStage
  | [_], [] => s.takeWaiting 0
  | r :: q :: rs, [] =>
    if raiseTurn (r :: q :: rs) [] < (r :: q :: rs).length then s.takeWaiting (raiseTurn (r :: q :: rs) [])
    else s.takeWaiting 0
  | r :: rs, d :: ds =>
    if raiseTurn (r :: rs) (d :: ds) < (r :: rs).length then s.takeWaiting (raiseTurn (r :: rs) (d :: ds))
    else s.idleStage

end Sys2Proof.Machine
end

