-- ==== Sys2Proof/Machine/Link.lean ====
section
/-! DEFINITION. The commands of a Link Port: symbols on its receive pair, link supervision, its deadlines and its
transmitter (chapter 1). A symbol command on a port that does not evaluate symbols changes nothing (R1, R2). -/

namespace Sys2Proof.Machine

/-! ## Link supervision (R3 to R7) -/

/-- A valid symbol counted in DOWN; a run of 16 enters TRAINING (R3). -/
def PortState.countValid (P : PortState) (now : Tick) : PortState :=
  if 16 ≤ P.validRun + 1 then
    { P with link := .training, trainingDeadline := some (now + 20), validRun := 0, quiet := false }
  else { P with validRun := P.validRun + 1, quiet := false }

/-- A port back at the start of DOWN (R3, R4, R6, R7): both runs 0, no training deadline. -/
def PortState.restartLink (P : PortState) (dest : LinkState) : PortState :=
  { P with link := dest, trainingDeadline := none, validRun := 0, invalidRun := 0 }

/-- A reception in progress ends at ABORT, a new START, the loss of the link or a disable: RECEIVING gives its buffer back
and counts RX-ABORTED, IGNORING after a cut-off counts RX-LENGTH, any other IGNORING counts nothing (R6, R11, R14). -/
def State.abandonRx (s : State) (p : Port) : State :=
  match s.ports[p].rx with
  | .idle => s
  | .receiving b _ => (s.onPort p fun P => { P.tally .rxAborted with rx := .idle }).release b
  | .ignoring .cutOff => s.onPort p fun P => { P.tally .rxLength with rx := .idle }
  | .ignoring _ => s.onPort p fun P => { P with rx := .idle }

/-- Partner HOLD cleared, and the asked symbols of a transmitter that no longer sends any dropped (R6 item 4, R33). -/
def PortState.clearFlow (P : PortState) : PortState :=
  { P with partnerHold := false, holdDeadline := none, asked := [] }

/-- The effects of R6 in their order: reception, transmission without ABORT, queues, partner HOLD. -/
def State.dropLink (s : State) (p : Port) : State :=
  (((s.abandonRx p).abandonTx p false).flush p).onPort p PortState.clearFlow

/-- A port leaves UP for DOWN on link loss: PORT-DOWN is raised with the cause as detail, and the effects of R6 follow
(R5). -/
def State.linkLoss (s : State) (p : Port) (cause : BitVec 32) : State :=
  ((s.onPort p (·.restartLink .down)).raise .portDown (BitVec.ofNat 8 p.val) cause).dropLink p

/-- A port leaves UP for DISABLED: ABORT for a frame being sent first, then reception, queues and partner HOLD, then the
link state; no notice (R7). -/
def State.disableUp (s : State) (p : Port) : State :=
  ((((s.abandonTx p true).abandonRx p).flush p).onPort p PortState.clearFlow).onPort p (·.restartLink .disabled)

/-- Entry to UP (R4): runs, flags and states clear; during an episode HOLD is sent before anything else. -/
def PortState.enterUp (P : PortState) (episode : Episode) : PortState :=
  { P with
    link := .up, trainingDeadline := none, validRun := 0, invalidRun := 0, rx := .idle, tx := .idle
    partnerHold := false, holdDeadline := none
    asked := []
    sent := if episode = .none then P.sent else P.sent ++ [.flow .hold] }

/-! ## Symbols (R1) -/

/-- A valid symbol on port `p`: link supervision by the link state, and `inUp` for its effect in UP (R1, R3 to R5). -/
def State.takeValid (s : State) (p : Port) (inUp : State → State) : State :=
  if s.initializing then s
  else
    match s.ports[p].link with
    | .disabled => s
    | .down => s.onPort p (·.countValid s.now)
    | .training => s.onPort p fun P => { P with quiet := false }
    | .up => inUp (s.onPort p fun P => { P with invalidRun := 0, quiet := false })

/-- A new frame begins: a buffer is popped, or RX-NOBUF is counted and the frame ignored (R9). -/
def State.beginFrame (s : State) (p : Port) : State :=
  match s.pop with
  | none => s.onPort p fun P => { P.tally .rxNobuf with rx := .ignoring .nobuf }
  | some (b, t) => t.onPort p fun P => { P with rx := .receiving b 0 }

/-- START in UP (R1, R9). -/
def State.startInUp (s : State) (p : Port) : State := (s.abandonRx p).beginFrame p

/-- The Label comparison at the second data byte: a transit frame is abandoned where the stack holds fewer than 4 buffers
(R10). -/
def State.labelCheck (s : State) (p : Port) (b : BufNo) : State :=
  if (s.headerAt b).label ≠ ownLabel s.node ∧ s.store.depth < 4 then
    (s.onPort p fun P => { P.tally .rxNobuf with rx := .ignoring .reserve }).release b
  else s

/-- A data byte stored at the next position (R11). -/
def State.storeByte (s : State) (p : Port) (b : BufNo) (count : Nat) (v : Byte) : State :=
  (s.putBytes b count [v]).onPort p fun P => { P with rx := .receiving b (count + 1) }

/-- A data byte in UP (R1, R10, R11). -/
def State.dataInUp (s : State) (p : Port) (v : Byte) : State :=
  match s.ports[p].rx with
  | .idle => s
  | .ignoring _ => s
  | .receiving b count =>
    if count < 71 then
      if count = 1 then (s.storeByte p b count v).labelCheck p b else s.storeByte p b count v
    else (s.onPort p fun P => { P with rx := .ignoring .cutOff }).release b

/-- The length test of R12: the byte count at least 7, the stored Length 64 or less, and the two in agreement. -/
def State.lengthOk (s : State) (b : BufNo) (count : Nat) : Bool :=
  decide (7 ≤ count) && decide (s.lengthAt b ≤ 64) && decide (count = 5 + s.lengthAt b + 2)

/-- The Check test of R12: the CRC over header and payload as received equals the received Check. -/
def State.checkOk (s : State) (b : BufNo) : Bool :=
  crc16 (s.bytesAt b 0 (5 + s.lengthAt b)) =
    word16 (s.byteAt b (5 + s.lengthAt b)) (s.byteAt b (6 + s.lengthAt b))

/-- A request arrives at the request queue, which holds up to 4 (R133). -/
def State.requestArrival (s : State) (p : Port) (b : BufNo) : State :=
  if s.agent.queue.length < 4 then
    { s with agent := { s.agent with queue := s.agent.queue ++ [{ buf := b, port := p }] } }
  else { s with agent := { s.agent with mgmtOverrun := bump s.agent.mgmtOverrun } }.release b

/-- A good frame passes on by its Label and Source (R13). -/
def State.handOn (s : State) (p : Port) (b : BufNo) (pace : Pace) : State :=
  if (s.headerAt b).label = ownLabel s.node then
    if s.ports[p].cfg.admitMgmt then s.requestArrival p b else (s.tally p .rxMgmtRefused).release b
  else if (s.headerAt b).source = ownSource s.node then (s.tally p .rxLooped).release b
  else s.dispose p b pace

/-- END in RECEIVING: the checks of R12 in their order; the receive state is IDLE whatever the outcome. -/
def State.endOfFrame (s : State) (p : Port) (b : BufNo) (count : Nat) (pace : Pace) : State :=
  if s.lengthOk b count = false then (s.onPort p fun P => { P.tally .rxLength with rx := .idle }).release b
  else if s.checkOk b = false then (s.onPort p fun P => { P.tally .rxCheck with rx := .idle }).release b
  else (s.onPort p fun P => { P.tally .rxGood with rx := .idle }).handOn p b pace

/-- END in UP (R1, R12). -/
def State.endInUp (s : State) (p : Port) (pace : Pace) : State :=
  match s.ports[p].rx with
  | .idle => s
  | .receiving b count => s.endOfFrame p b count pace
  | .ignoring _ => s.abandonRx p

/-- The previous frame's disposition has ended before the next frame of the same port reaches END, be that frame received or
ignored (R45). -/
def State.beforeEnd (s : State) (p : Port) : State :=
  if s.ports[p].rx ≠ .idle ∧ s.initializing = false ∧ s.isUp p = true then s.settle p else s

/-- An invalid symbol or an IDLE inside a frame: RECEIVING gives its buffer back, counts RX-CODE and ignores the rest of
the frame (R14). -/
def State.codeError (s : State) (p : Port) : State :=
  match s.ports[p].rx with
  | .receiving b _ => (s.onPort p fun P => { P.tally .rxCode with rx := .ignoring .code }).release b
  | .idle => s
  | .ignoring _ => s

/-- HOLD in UP (R19). -/
def State.holdInUp (s : State) (p : Port) : State :=
  s.onPort p fun P =>
    if P.partnerHold then P
    else { P with
      partnerHold := true
      holdDeadline := if P.cfg.holdLimit = 0 then none else some (s.now + ticksOfMs P.cfg.holdLimit.toNat) }

/-- GO in UP (R19). -/
def State.goInUp (s : State) (p : Port) : State :=
  if s.ports[p].partnerHold then
    (s.onPort p fun P => { P with partnerHold := false, holdDeadline := none }).askNext p
  else s

/-- An invalid symbol in UP: inside a frame it costs the frame, and the fourth in a row costs the link (R5, R14). -/
def State.invalidInUp (s : State) (p : Port) : State :=
  let t := (s.codeError p).onPort p fun P => { P with invalidRun := P.invalidRun + 1 }
  if 4 ≤ s.ports[p].invalidRun + 1 then t.linkLoss p 1 else t

/-! ## The commands -/

/-- The initialization ends at the advance to 10, and every port begins DOWN behaviour (R2, R77). -/
def State.takeInitEnd (s : State) : State :=
  if s.initializing && reached s.now 10 then
    { s with initializing := false, ports := vmap (·.restartLink .down) s.ports }
  else s

/-- PORT_INIT_END: the initialization ends when the tick counter reaches 10 (R2, R77); nothing before that or once it has
ended. -/
def execPortInitEnd (s : State) : Answer State := .next s.takeInitEnd

/-- RX_START (R9). -/
def execRxStart (p : Port) (s : State) : Answer State := .next (s.takeValid p (·.startInUp p)).finish

/-- RX_DATA_BYTE (R11). -/
def execRxDataByte (p : Port) (v : Byte) (s : State) : Answer State := .next (s.takeValid p (·.dataInUp p v))

/-- RX_END (R12, R13), with as much of the disposition of a good transit frame as its pace says (R42, R44). -/
def execRxEnd (e : FrameEnd) (s : State) : Answer State :=
  .next ((s.beforeEnd e.port).takeValid e.port (·.endInUp e.port e.pace)).finish

/-- RX_ABORT (R14). -/
def execRxAbort (p : Port) (s : State) : Answer State := .next (s.takeValid p (·.abandonRx p))

/-- RX_IDLE: no effect outside a frame, as an invalid symbol inside one; it is a valid symbol for the link (R1, R14). -/
def execRxIdle (p : Port) (s : State) : Answer State := .next (s.takeValid p (·.codeError p))

/-- RX_INVALID_SYMBOL (R3 to R5, R14). -/
def execRxInvalidSymbol (p : Port) (s : State) : Answer State :=
  if s.initializing then .next s
  else
    match s.ports[p].link with
    | .disabled => .next s
    | .down => .next (s.onPort p fun P => { P with validRun := 0 })
    | .training => .next (s.onPort p (·.restartLink .down))
    | .up => .next (s.invalidInUp p).finish

/-- SIGNAL_TIMEOUT: 50 µs without a signal transition (R3 to R5). -/
def execSignalTimeout (p : Port) (s : State) : Answer State :=
  if s.initializing then .next s
  else
    match s.ports[p].link with
    | .disabled => .next s
    | .down => .next (s.onPort p fun P => { P with validRun := 0, quiet := true })
    | .training => .next (s.onPort p fun P => { P.restartLink .down with quiet := true })
    | .up => .next ((s.onPort p fun P => { P with quiet := true }).linkLoss p 2).finish

/-- RX_HOLD (R19). -/
def execRxHold (p : Port) (s : State) : Answer State := .next (s.takeValid p (·.holdInUp p))

/-- RX_GO (R19). -/
def execRxGo (p : Port) (s : State) : Answer State := .next (s.takeValid p (·.goInUp p)).finish

/-- The training deadline of a port, where it is reached: the port enters UP and raises PORT-UP, and its transmitter asks
(R4). -/
def State.takeTrainingDeadline (s : State) (p : Port) : State :=
  if s.ports[p].link = .training ∧ due s.now s.ports[p].trainingDeadline = true then
    (((s.onPort p (·.enterUp s.store.episode)).raise .portUp (BitVec.ofNat 8 p.val) 0).askNext p).finish
  else s

/-- TRAINING_DEADLINE (R4); nothing where the port is not in TRAINING with its deadline reached. -/
def execTrainingDeadline (p : Port) (s : State) : Answer State := .next (s.takeTrainingDeadline p)

/-- The hold deadline's effects (R20): the queues flushed, HOLD-STUCK counted, the deadline none, the notice raised; the
partner-HOLD flag stays set. -/
def State.holdStuck (s : State) (p : Port) : State :=
  ((s.flush p).onPort p fun P => { P.tally .holdStuck with holdDeadline := none }).raise .holdStuck
    (BitVec.ofNat 8 p.val) 0

/-- The hold deadline of a port, where it is reached with the partner-HOLD flag set (R20). -/
def State.takeHoldDeadline (s : State) (p : Port) : State :=
  if s.ports[p].partnerHold = true ∧ due s.now s.ports[p].holdDeadline = true then (s.holdStuck p).finish else s

/-- HOLD_DEADLINE (R20); nothing where the flag is clear or no deadline is reached. -/
def execHoldDeadline (p : Port) (s : State) : Answer State := .next (s.takeHoldDeadline p)

/-- END of a frame sent (R16, R102): the entry leaves, its reference is released, TX-FRAMES is counted and the frame has
been on the line. -/
def State.frameSent (s : State) (p : Port) (e : Entry) : State :=
  ((s.onPort p fun P =>
      { (P.endSending e).tally .txFrames with sent := P.sent ++ [.frame (s.frameBytes e)] }).release
    e.buf).reportEntry e

/-- TX_END: the transmitter has sent END, and asks for the next entry (R16); nothing where it sends no frame. -/
def execTxEnd (p : Port) (s : State) : Answer State :=
  match s.ports[p].tx with
  | .idle => .next s
  | .sending e => .next ((s.frameSent p e).askNext p).finish

/-- SEND_CONTROL_SYMBOL: the transmitter of a port in UP sends the oldest asked HOLD or GO (R18); nothing where none is
asked. -/
def execSendControlSymbol (p : Port) (s : State) : Answer State :=
  match s.ports[p].link, s.ports[p].asked with
  | .up, c :: rest => .next (s.onPort p fun P => { P with asked := rest, sent := P.sent ++ [.flow c] })
  | .up, [] => .next s
  | .disabled, _ => .next s
  | .down, _ => .next s
  | .training, _ => .next s

/-- The end of a slot's start window, where it is reached (R123). -/
def State.takeStartWindow (s : State) (n : SlotNo) : State :=
  if s.windowExpired n then (s.slotNeverSeen n).finish else s

/-- SLOT_START_WINDOW_EXPIRY (R123); nothing where the slot is not WAITING with its deadline reached. -/
def execSlotStartWindowExpiry (n : SlotNo) (s : State) : Answer State := .next (s.takeStartWindow n)

/-- The deadline of a slot, where it is reached in FRESH or LATE (R124, R125). -/
def State.takeSlotDeadline (s : State) (n : SlotNo) : State := if s.slotDue n then (s.slotMiss n).finish else s

/-- SLOT_DEADLINE (R124, R125); nothing where the slot is not FRESH or LATE with its deadline reached. -/
def execSlotDeadline (n : SlotNo) (s : State) : Answer State := .next (s.takeSlotDeadline n)

/-- The expiry of the retransmit timer, where it is reached: the timer stops, the outstanding flag is cleared and delivery is
tried (R178). -/
def State.takeRetransmit (s : State) : State :=
  if due s.now s.events.timer then
    ({ s with events := { s.events with outstanding := false, timer := none } }.tryDeliver).finish
  else s

/-- RETRANSMIT_EXPIRY (R178); nothing where the timer is stopped or its expiry tick is not reached. -/
def execRetransmitExpiry (s : State) : Answer State := .next s.takeRetransmit

/-! ## What a transmitter sends when it sends nothing else -/

/-- What fills a transmit pair between symbols and frames (R2, R18). -/
inductive LineFill where
  | silent | idle
  deriving DecidableEq, Repr

/-- Nothing in DISABLED and during the 1 ms initialization, IDLE otherwise (R2, R18). -/
def State.lineFill (s : State) (p : Port) : LineFill :=
  if s.initializing then .silent
  else
    match s.ports[p].link with
    | .disabled => .silent
    | .down => .idle
    | .training => .idle
    | .up => .idle

end Sys2Proof.Machine
end

