-- ==== Sys2Proof/Machine/Operands.lean ====
section
/-! DEFINITION. The operands of management commands as bytes, in both directions (chapter 11): command and status codes,
the argument fields with their RANGE checks, and the results. A bit that carries no field is ignored on receipt and sent
as 0 (chapter 11, third convention). -/

namespace Sys2Proof.Machine

/-! ## Codes -/

/-- The management commands (chapter 9). -/
inductive Command where
  | identify | openSession | closeSession | keepalive | readRoute | writeRoute | clearRoutes | commit | readAction
  | writeAction | readBucket | writeBucket | readSlot | writeSlot | arm | disarm | readPort | setPort | readCounters
  | setEvents | ackEvents | reset
  deriving DecidableEq, Repr

/-- The command an opcode byte names, if it names one (section 11.4, R185). -/
def commandOf (op : Byte) : Option Command :=
  if op = 0x01 then some .identify
  else if op = 0x02 then some .openSession
  else if op = 0x03 then some .closeSession
  else if op = 0x04 then some .keepalive
  else if op = 0x10 then some .readRoute
  else if op = 0x11 then some .writeRoute
  else if op = 0x12 then some .clearRoutes
  else if op = 0x13 then some .commit
  else if op = 0x18 then some .readAction
  else if op = 0x19 then some .writeAction
  else if op = 0x20 then some .readBucket
  else if op = 0x21 then some .writeBucket
  else if op = 0x28 then some .readSlot
  else if op = 0x29 then some .writeSlot
  else if op = 0x2A then some .arm
  else if op = 0x2B then some .disarm
  else if op = 0x30 then some .readPort
  else if op = 0x31 then some .setPort
  else if op = 0x38 then some .readCounters
  else if op = 0x40 then some .setEvents
  else if op = 0x41 then some .ackEvents
  else if op = 0x48 then some .reset
  else none

/-- The number of argument bytes a command takes (section 11.4). -/
def Command.argBytes : Command → Nat
  | .identify => 0
  | .openSession => 3
  | .closeSession => 0
  | .keepalive => 0
  | .readRoute => 3
  | .writeRoute => 11
  | .clearRoutes => 2
  | .commit => 3
  | .readAction => 2
  | .writeAction => 12
  | .readBucket => 1
  | .writeBucket => 7
  | .readSlot => 1
  | .writeSlot => 9
  | .arm => 1
  | .disarm => 1
  | .readPort => 1
  | .setPort => 14
  | .readCounters => 3
  | .setEvents => 2
  | .ackEvents => 2
  | .reset => 1

/-- Status codes (R184). -/
def Status.code : Status → BitVec 7
  | .ok => 0x00
  | .held => 0x01
  | .noSession => 0x02
  | .sequence => 0x03
  | .busy => 0x04
  | .range => 0x05
  | .state => 0x06
  | .staleEpoch => 0x07
  | .badOpcode => 0x08
  | .length => 0x09

/-- The part code of the Ulmic 440 (R153). -/
def partCode : BitVec 16 := 0x0440

/-- The silicon revision number (R153). -/
def siliconRevision : Byte := 1

/-! ## Argument fields -/

/-- Argument byte `k`. -/
def arg (args : List Byte) (k : Nat) : Byte := args.getD k 0

/-- The two-byte argument at `k`. -/
def arg16 (args : List Byte) (k : Nat) : BitVec 16 := word16 (arg args k) (arg args (k + 1))

/-- A byte below `n` as a number below `n`. -/
def below (n : Nat) (b : Byte) : Option (Fin n) := if h : b.toNat < n then some ⟨b.toNat, h⟩ else none

/-- 00h = no, 01h = yes (section 11.3). -/
def yesNo (b : Byte) : Option Bool := if b = 0 then some false else if b = 1 then some true else none

/-- 00h = FLOOD, 01h = DROP. -/
def parseMissAction (b : Byte) : Option MissAction :=
  if b = 0 then some .flood else if b = 1 then some .drop else none

/-- 00h = DROP, 01h = DEMOTE. -/
def parseExceed (b : Byte) : Option ExceedAction :=
  if b = 0 then some .drop else if b = 1 then some .demote else none

/-- 00h = ACTIVE, 01h = STAGING. -/
def parseRole (b : Byte) : Option BankRole :=
  if b = 0 then some .active else if b = 1 then some .staging else none

/-- 00h = FORWARDING, 01h = FULL. -/
def parseScope (b : Byte) : Option ResetScope :=
  if b = 0 then some .forwarding else if b = 1 then some .full else none

/-- Bit 7 present, bits 6 to 0 a number below `n`; the number of an absent part is not examined (R185, R186). -/
def parsePart (n : Nat) (b : Byte) : Option (Option (Fin n)) :=
  if b.msb then (below n (b &&& 0x7F)).map some else some none

/-- A class policy byte: bit 7 SET, bits 6 to 0 the class (R186). -/
def parseClassPolicy (b : Byte) : Option ClassPolicy :=
  if b.msb then (below 4 (b &&& 0x7F)).map .set else some .keep

/-- An age policy byte: bits 7 to 6 the policy, bits 5 to 0 the Age for SET (R186). -/
def parseAgePolicy (b : Byte) : Option AgePolicy :=
  if b.extractLsb' 6 2 = 0 then some .decrement
  else if b.extractLsb' 6 2 = 1 then some .keep
  else if b.extractLsb' 6 2 = 2 then
    (if (b &&& 0x3F).toNat ≤ 15 then some (.set (b.extractLsb' 0 4)) else none)
  else none

/-- A dispatch part: bit 7 of the offset byte present, the mask 1 to 15 (R61, R186). -/
def parseDispatch (offset mask : Byte) : Option (Option DispatchPart) :=
  if offset.msb then
    match below 64 (offset &&& 0x7F) with
    | none => none
    | some o =>
      if 1 ≤ mask.toNat ∧ mask.toNat ≤ 15 then some (some { offset := o, mask := mask.extractLsb' 0 4 }) else none
  else some none

/-- A route entry from ten bytes at `k`, with every RANGE check of R40 but the index (R40, R186): with valid = no the
cleared entry, whatever the other bytes hold. -/
def parseRouteEntry (args : List Byte) (k : Nat) : Option RouteEntry :=
  if (arg args k).getLsbD 0 = false then some .cleared
  else
    match below 4 (arg args (k + 8)), below 128 (arg args (k + 9)) with
    | some c, some a =>
      let e : RouteEntry :=
        { valid := true, portMask := (arg args (k + 1)).extractLsb' 0 4
          labelKey := arg16 args (k + 2), labelMask := arg16 args (k + 4)
          sourceKey := arg args (k + 6), sourceMask := arg args (k + 7)
          minClass := c, action := a }
      if e.accepted then some e else none
    | some _, none => none
    | none, _ => none

/-- An action record from ten bytes at `k`, with every RANGE check of R61 but the index (R61, R186). -/
def parseActionRecord (args : List Byte) (k : Nat) : Option ActionRecord := do
  let cp ← parseClassPolicy (arg args (k + 2))
  let ap ← parseAgePolicy (arg args (k + 3))
  let bucket ← parsePart 32 (arg args (k + 6))
  let slot ← parsePart 32 (arg args (k + 7))
  let dispatch ← parseDispatch (arg args (k + 8)) (arg args (k + 9))
  some
    { disposition := if (arg args k).getLsbD 0 then .forward else .drop
      egress := (arg args (k + 1)).extractLsb' 0 4
      classPolicy := cp
      labelRewrite := if (arg args k).getLsbD 1 then some (arg16 args (k + 4)) else none
      agePolicy := ap, bucket := bucket, slot := slot, dispatch := dispatch }

/-- The configuration WRITE SLOT carries from byte `k` on, with the RANGE checks of R115. -/
def parseSlotConfig (args : List Byte) (k : Nat) : Option SlotConfig :=
  let c : SlotConfig :=
    { period := arg16 args k, grace := arg16 args (k + 2), lossCount := (arg args (k + 4)).toNat
      startWindow := arg16 args (k + 5), hold := (arg args (k + 7)).getLsbD 0
      substitute := (arg args (k + 7)).getLsbD 1 }
  if c.period = 0 ∨ c.lossCount = 0 ∨ 15 < c.lossCount ∨ (c.substitute = true ∧ c.hold = false) then none else some c

/-- The configuration SET PORT carries from byte `k` on, with the RANGE checks of R162. -/
def parsePortConfig (args : List Byte) (k : Nat) : Option PortConfig := do
  let enable ← yesNo (arg args k)
  let missAction ← parseMissAction (arg args (k + 1))
  let admitMgmt ← yesNo (arg args (k + 2))
  if 255 < (arg16 args (k + 3)).toNat then none
  else
    some
      { enable := enable, missAction := missAction, admitMgmt := admitMgmt, holdLimit := arg args (k + 4)
        residence := #v[arg16 args (k + 5), arg16 args (k + 7), arg16 args (k + 9), arg16 args (k + 11)] }

/-! ## Results -/

/-- No = 00h, yes = 01h. -/
def boolByte (b : Bool) : Byte := if b then 1 else 0

/-- A small number as one byte. -/
def numByte (n : Nat) : Byte := BitVec.ofNat 8 n

/-- A deadline: a flag byte, then the tick, 0 when none (section 11.3). -/
def deadlineBytes : Option Tick → List Byte
  | none => [0, 0, 0, 0, 0]
  | some d => 1 :: bytes32 d

/-- A port set: bits 3 to 0 = ports 3 to 0 (R186). -/
def portSetByte (m : PortSet) : Byte := m.setWidth 8

/-- An optional part: bit 7 present, the number below it; 0 when absent (R186). -/
def partByte {n : Nat} : Option (Fin n) → Byte
  | none => 0
  | some i => 0x80#8 ||| numByte i.val

/-- A route entry's ten bytes (R186). -/
def RouteEntry.bytes (e : RouteEntry) : List Byte :=
  [boolByte e.valid, portSetByte e.portMask] ++ bytes16 e.labelKey ++ bytes16 e.labelMask ++
    [e.sourceKey, e.sourceMask, numByte e.minClass.val, numByte e.action.val]

/-- A class policy byte (R186). -/
def ClassPolicy.byte : ClassPolicy → Byte
  | .keep => 0
  | .set c => 0x80#8 ||| numByte c.val

/-- An age policy byte (R186). -/
def AgePolicy.byte : AgePolicy → Byte
  | .decrement => 0x00
  | .keep => 0x40
  | .set a => 0x80#8 ||| a.setWidth 8

/-- The offset and mask bytes of a dispatch part (R186). -/
def dispatchBytes : Option DispatchPart → List Byte
  | none => [0, 0]
  | some d => [0x80#8 ||| numByte d.offset.val, d.mask.setWidth 8]

/-- The first byte of an action record: disposition and label rewrite present (R186). -/
def ActionRecord.byte0 (r : ActionRecord) : Byte :=
  boolByte (decide (r.disposition = .forward)) ||| (boolByte r.labelRewrite.isSome <<< 1)

/-- An action record's ten bytes (R186). -/
def ActionRecord.bytes (r : ActionRecord) : List Byte :=
  [r.byte0, portSetByte r.egress, r.classPolicy.byte, r.agePolicy.byte] ++ bytes16 (r.labelRewrite.getD 0) ++
    [partByte r.bucket, partByte r.slot] ++ dispatchBytes r.dispatch

/-- The held buffer byte and the stored send header, 0 while no buffer is held (section 11.4). -/
def heldBytes : Option Held → List Byte
  | none => [0, 0, 0, 0, 0, 0, 0]
  | some h =>
    [0x80#8 ||| numByte h.buf.val, portSetByte h.egress] ++ bytes16 h.label ++
      [numByte h.cls.val, h.age.setWidth 8, h.source]

/-- Slot states (section 11.3). -/
def SlotState.code : SlotState → Byte
  | .off => 0
  | .waiting => 1
  | .fresh => 2
  | .late => 3
  | .lost => 4

/-- Link states (section 11.3). -/
def LinkState.code : LinkState → Byte
  | .disabled => 0
  | .down => 1
  | .training => 2
  | .up => 3

/-- Staging states (section 11.3). -/
def StagingState.code : StagingState → Byte
  | .clean => 0
  | .modified => 1
  | .copying => 2

/-- The results of READ SLOT: 26 bytes (section 11.4). -/
def Slot.bytes (x : Slot) : List Byte :=
  bytes16 x.cfg.period ++ bytes16 x.cfg.grace ++ [numByte x.cfg.lossCount] ++ bytes16 x.cfg.startWindow ++
    [boolByte x.cfg.hold ||| (boolByte x.cfg.substitute <<< 1), x.state.code] ++ deadlineBytes x.deadline ++
    [numByte x.miss] ++ bytes32 x.lastArrival ++ heldBytes x.held

/-- The results of READ BUCKET: 8 bytes (section 11.4). -/
def Bucket.bytes (x : Bucket) : List Byte :=
  [boolByte x.enabled] ++ bytes16 (BitVec.ofNat 16 x.rate) ++ bytes16 (BitVec.ofNat 16 x.depth) ++
    [boolByte (decide (x.exceed = .demote))] ++ bytes16 (BitVec.ofNat 16 x.credit)

/-- The results of READ PORT: 19 bytes (section 11.4). An entry being sent is counted in its queue (R110). -/
def PortState.bytes (P : PortState) : List Byte :=
  [P.link.code, boolByte P.partnerHold, boolByte P.cfg.enable, boolByte (decide (P.cfg.missAction = .drop)),
    boolByte P.cfg.admitMgmt] ++ bytes16 (P.cfg.holdLimit.setWidth 16) ++
    P.cfg.residence.toList.flatMap bytes16 ++ P.queues.toList.map fun q => numByte q.length

/-- The results of IDENTIFY: 18 bytes (R153, section 11.4). -/
def State.identityBytes (s : State) : List Byte :=
  bytes16 partCode ++ [siliconRevision, numByte s.node.val, boolByte s.agent.session.isOpen, s.agent.session.holder] ++
    deadlineBytes s.agent.session.leaseDeadline ++ bytes16 s.route.epoch ++ [s.route.staging.code] ++ bytes32 s.now

/-! ## Counter groups (R164, R165) -/

/-- The counter groups. -/
inductive CounterGroup where
  | port (p : Port)
  | device
  | bucket (n : BucketNo)
  | slot (n : SlotNo)
  deriving DecidableEq, Repr

/-- The group a kind byte and a number byte name, if they name one (R164). -/
def parseGroup (kind number : Byte) : Option CounterGroup :=
  if kind = 0 then (below 4 number).map .port
  else if kind = 1 then (if number = 0 then some .device else none)
  else if kind = 2 then (below 32 number).map .bucket
  else if kind = 3 then (below 32 number).map .slot
  else none

/-- A port's counters in result order (R165). -/
def PortCounters.list (c : PortCounters) : List Counter :=
  [c.rxGood, c.rxCheck, c.rxLength, c.rxCode, c.rxAborted, c.rxNobuf, c.rxLooped, c.rxMgmtRefused, c.txFrames,
    c.txAborted, c.qFull, c.qExpired, c.qFlushed, c.egressDown, c.holdStuck]

/-- The device counters in result order (R165). -/
def State.deviceCounters (s : State) : List Counter :=
  [s.store.lowEpisodes, s.route.missFlooded, s.route.missDropped, s.route.ageDropped, s.action.dispatchShort,
    s.action.dispatchNest, s.agent.mgmtOverrun, s.agent.mgmtMalformed, s.agent.respLost]

/-- The counters of a group in result order (R165). -/
def State.counters (s : State) : CounterGroup → List Counter
  | .port p => s.ports[p].ctr.list
  | .device => s.deviceCounters
  | .bucket n => [s.buckets[n].conform, s.buckets[n].exceeds]
  | .slot n => [s.slots[n].arrivals, s.slots[n].misses, s.slots[n].substitutes, s.slots[n].recoveries]

/-- The part with the counters of a group at 0 (R166). -/
def State.clearCounters (s : State) : CounterGroup → State
  | .port p => s.onPort p fun P => { P with ctr := .zero }
  | .device =>
    { s with
      store := { s.store with lowEpisodes := 0 }
      route := { s.route with missFlooded := 0, missDropped := 0, ageDropped := 0 }
      action := { s.action with dispatchShort := 0, dispatchNest := 0 }
      agent := { s.agent with mgmtOverrun := 0, mgmtMalformed := 0, respLost := 0 } }
  | .bucket n => s.setBucket n { s.buckets[n] with conform := 0, exceeds := 0 }
  | .slot n =>
    s.setSlot n { s.slots[n] with arrivals := 0, misses := 0, substitutes := 0, recoveries := 0 }

end Sys2Proof.Machine
end

