-- ==== Sys2Proof/Machine/Session.lean ====
section
/-! DEFINITION. How the Management Agent takes a request, admits or refuses it, answers it and closes a session
(chapter 8): the operations every management command is one line over, and the command LEASE_EXPIRY. -/

namespace Sys2Proof.Machine

/-! ## A request as its bytes stand (R135, R184) -/

/-- A taken request: its fixed fields, its Source and its argument bytes. -/
structure RequestView where
  req    : Request
  opcode : Byte
  token  : Byte
  seq    : Byte
  reply  : Label
  source : Byte
  args   : List Byte
  deriving DecidableEq, Repr

/-- The fields of a request from its buffer, for a Length of at least 5 (R135, R184). -/
def State.viewRequest (s : State) (r : Request) : RequestView :=
  { req := r, opcode := s.byteAt r.buf 5, token := s.byteAt r.buf 6, seq := s.byteAt r.buf 7
    reply := word16 (s.byteAt r.buf 8) (s.byteAt r.buf 9), source := s.byteAt r.buf 2
    args := s.bytesAt r.buf 10 (s.lengthAt r.buf - 5) }

/-! ## Closing a session (R146) -/

/-- The closing: every session field takes its CLOSED value, the Route Table takes a revert request, and the Event Queue
clears its flag and stops its timer (R146, R180). -/
def State.closeSession (s : State) : State :=
  { s with
    agent := { s.agent with session := .closed }
    route := s.route.revert s.now
    events := { s.events with outstanding := false, timer := none } }

/-- The lease deadline, where it is reached: the session closes and LEASE-EXPIRED is raised with the holder Source as detail
(R145). -/
def State.takeLeaseDeadline (s : State) : State :=
  if s.agent.session.isOpen = true ∧ due s.now s.agent.session.leaseDeadline = true then
    (s.closeSession.raise .leaseExpired 0 (s.agent.session.holder.setWidth 32)).finish
  else s

/-- LEASE_EXPIRY (R145); nothing where the session is CLOSED or the deadline not reached. -/
def execLeaseExpiry (s : State) : Answer State := .next s.takeLeaseDeadline

/-! ## Responses (R136, R137) -/

/-- A response payload (R184). -/
def responseBytes (opcode token seq : Byte) (replay : Bool) (status : Status) (results : List Byte) : List Byte :=
  [opcode, token, seq, BitVec.ofBool replay ++ status.code] ++ results

/-- The request under execution ends: its reception reference is released and the agent is IDLE (R137). -/
def State.endRequest (s : State) (b : BufNo) : State :=
  let t := s.release b
  { t with agent := { t.agent with executing := none } }

/-- A response refused at its enqueue: RESP-LOST is counted, and a reset pending on it takes effect (R137, R148). -/
def State.responseLost (s : State) (b : BufNo) : State :=
  { s with agent := { s.agent with respLost := bump s.agent.respLost } }.report b

/-- A response payload written over the request, one enqueue attempt on class 3 of the ingress port under the request's
reply label, then the request's end (R136, R137). -/
def State.sendResponse (s : State) (v : RequestView) (payload : List Byte) : State :=
  match (s.putPayload v.req.buf payload).enqueue v.req.port v.req.buf (s.relayHeader v.reply) .response with
  | (t, .accepted) => t.endRequest v.req.buf
  | (t, .down) => (t.responseLost v.req.buf).endRequest v.req.buf
  | (t, .full) => (t.responseLost v.req.buf).endRequest v.req.buf

/-- The request answered with this status and these results (R136). -/
def State.answer (s : State) (v : RequestView) (status : Status) (results : List Byte) : State :=
  s.sendResponse v (responseBytes v.opcode v.token v.seq false status results)

/-! ## Execution (R142, R151) -/

/-- What a command asks of the agent beyond its answer (R146, R147). -/
inductive FollowUp where
  | nothing
  | close
  | reset (scope : ResetScope)
  deriving DecidableEq, Repr

/-- What a command answers: its status, its results, and what follows. -/
structure Reply where
  status  : Status
  results : List Byte
  follow  : FollowUp
  deriving DecidableEq, Repr

/-- OK with these results. -/
def Reply.ok (results : List Byte) : Reply := { status := .ok, results := results, follow := .nothing }

/-- A refusal that carries no results. -/
def Reply.refuse (status : Status) : Reply := { status := status, results := [], follow := .nothing }

/-- A command's own checks and effect: from its argument bytes and the part, the part after it and its answer. -/
abbrev Body := List Byte → State → State × Reply

/-- Steps 5 and 6 of the ladder: LENGTH, then the command's own checks and effect (R151, R185). -/
def Body.checked (body : Body) (c : Command) (args : List Byte) (s : State) : State × Reply :=
  if args.length = c.argBytes then body args s else (s, .refuse .length)

/-- An unsessioned read served: no session field is touched (R144). -/
def State.serveRead (c : Command) (body : Body) (v : RequestView) (s : State) : State :=
  let (t, r) := body.checked c v.args s
  t.answer v r.status r.results

/-- Admission of a sessioned request (R142). -/
def State.admitRequest (s : State) (v : RequestView) : State :=
  { s with agent := { s.agent with session := { s.agent.session with
      expected := s.agent.session.expected + 1
      leaseDeadline := some (s.now + ticksOf10Ms s.agent.session.leaseLength.toNat)
      eventPort := v.req.port } } }

/-- The response of an executed sessioned request stored in the replay cache (R142). -/
def State.cacheResponse (s : State) (v : RequestView) (r : Reply) : State :=
  { s with agent := { s.agent with session := { s.agent.session with
      cache := some { opcode := v.opcode, sequence := v.seq, status := r.status, replay := false,
                      results := r.results } } } }

/-- Reset pending entered: scope, response buffer, limit deadline now + 500 (R147). -/
def State.enterReset (s : State) (v : RequestView) (scope : ResetScope) : State :=
  { s with agent := { s.agent with
      resetPending := some { scope := scope, buf := v.req.buf, limit := s.now + 500 } } }

/-- An executed sessioned request answered: response cached, then enqueued, with what CLOSE and RESET add (R142, R146,
R147). -/
def State.answerExecuted (s : State) (v : RequestView) (r : Reply) : State :=
  match r.follow with
  | .nothing => (s.cacheResponse v r).answer v r.status r.results
  | .close => ((s.cacheResponse v r).answer v r.status r.results).closeSession
  | .reset scope => ((s.cacheResponse v r).enterReset v scope).answer v r.status r.results

/-- A replay: the cached response with REPLAY set, lease and event port taken anew, nothing executed (R143). -/
def State.replay (s : State) (v : RequestView) (c : CachedResponse) : State :=
  { s with agent := { s.agent with session := { s.agent.session with
      leaseDeadline := some (s.now + ticksOf10Ms s.agent.session.leaseLength.toNat)
      eventPort := v.req.port } } }.sendResponse v
    (responseBytes c.opcode v.token c.sequence true c.status c.results)

/-- How a sessioned request is judged (R141 to R143). -/
inductive Judgement where
  | noSession
  | admitted
  | replayed (c : CachedResponse)
  | sequence
  deriving DecidableEq, Repr

/-- Token, then sequence (R141 to R143). -/
def Session.judge (x : Session) (token seq : Byte) : Judgement :=
  if x.isOpen = false ∨ token ≠ x.token then .noSession
  else if seq = x.expected then .admitted
  else if seq = x.expected - 1 then
    match x.cache with
    | some c => .replayed c
    | none => .sequence
  else .sequence

/-- A sessioned command (R141 to R143, R151). -/
def State.serveSessioned (c : Command) (body : Body) (v : RequestView) (s : State) : State :=
  match s.agent.session.judge v.token v.seq with
  | .noSession => s.answer v .noSession []
  | .sequence => s.answer v .sequence [s.agent.session.expected]
  | .replayed r => s.replay v r
  | .admitted =>
    let (t, r) := body.checked c v.args (s.admitRequest v)
    t.answerExecuted v r

/-! ## Taking a request (R134, R135) -/

/-- The oldest request taken off the queue: EXECUTING with it (R134). -/
def State.beginRequest (s : State) (r : Request) (rest : List Request) : State :=
  { s with agent := { s.agent with queue := rest, executing := some r } }

/-- A request with Length below 5 dropped: MGMT-MALFORMED counted, its reference released, no response (R135). -/
def State.dropMalformed (s : State) (r : Request) : State :=
  { s with agent := { s.agent with mgmtMalformed := bump s.agent.mgmtMalformed } }.endRequest r.buf

/-- One management command of the table: the agent takes the oldest request where it is one of the row's, as `mine`
says, drops it as malformed or answers it BUSY while a reset is pending, or serves it (R134, R135, R147). A malformed
request is taken by whichever row comes. Where the queue is empty, or its oldest request belongs to another row, the
row's happening does not occur. -/
def State.takeRequest (mine : RequestView → Bool) (serve : RequestView → State → State) (s : State) : State :=
  match s.agent.queue with
  | [] => s
  | r :: rest =>
    if s.lengthAt r.buf < 5 then (s.beginRequest r rest).dropMalformed r
    else if mine (s.viewRequest r) = false then s
    else if s.agent.resetPending.isSome then (s.beginRequest r rest).answer (s.viewRequest r) .busy []
    else serve (s.viewRequest r) (s.beginRequest r rest)

/-- The request's opcode names this command. -/
def RequestView.names (c : Command) (v : RequestView) : Bool := commandOf v.opcode = some c

/-- The row of a command served as an unsessioned read. -/
def State.readRow (c : Command) (body : Body) (s : State) : Answer State :=
  .next (s.takeRequest (·.names c) (State.serveRead c body)).finish

/-- The row of a sessioned command. -/
def State.sessionedRow (c : Command) (body : Body) (s : State) : Answer State :=
  .next (s.takeRequest (·.names c) (State.serveSessioned c body)).finish

end Sys2Proof.Machine
end

