-- ==== Sys2Proof/Machine/Commands.lean ====
section
/-! DEFINITION. The management commands (chapter 9): each one's own checks and effect, over the shared ladder of
Machine/Session.lean. A body is handed argument bytes whose number is right (R185). -/

namespace Sys2Proof.Machine

/-! ## Identity and the lease (section 9.2) -/

/-- IDENTIFY's results (R153). -/
def identifyBody : Body := fun _ s => (s, .ok s.identityBytes)

/-- IDENTIFY (R153). -/
def execIdentify (s : State) : Answer State := s.readRow .identify identifyBody

/-- The token counter advanced: 1 to 255 and then back to 1 (R138). -/
def nextToken (t : Byte) : Byte := if t = 255 then 1 else t + 1

/-- The session opened for, or renewed by, the request's Source (R139, R140). -/
def State.grantSession (s : State) (v : RequestView) (lease : BitVec 16) (events : Bool) : State :=
  { s with agent := { s.agent with
      session :=
        { isOpen := true, holder := v.source, replyLabel := v.reply, eventPort := v.req.port
          token := s.agent.tokenCounter, expected := v.seq + 1, leaseLength := lease
          leaseDeadline := some (s.now + ticksOf10Ms lease.toNat), eventsEnabled := events, cache := none }
      tokenCounter := nextToken s.agent.tokenCounter } }

/-- OPEN's checks and effect: RANGE for a lease length of 0 or above 6000 or an events byte of neither value; then HELD
from another Source while OPEN, or the session opened or renewed and, with events enabled, delivery tried (R139, R140,
R176). -/
def openBody (v : RequestView) : Body := fun args s =>
  match yesNo (arg args 2) with
  | none => (s, .refuse .range)
  | some events =>
    if arg16 args 0 = 0 ∨ 6000 < (arg16 args 0).toNat then (s, .refuse .range)
    else if s.agent.session.isOpen = true ∧ v.source ≠ s.agent.session.holder then
      (s, { status := .held, results := [s.agent.session.holder], follow := .nothing })
    else
      ((s.grantSession v (arg16 args 0) events).tryDeliver,
        .ok (s.agent.tokenCounter :: bytes16 (arg16 args 0)))

/-- OPEN served: neither the token nor the sequence is judged, and the answer is not stored (R139). -/
def State.serveOpen (v : RequestView) (s : State) : State :=
  let (t, r) := (openBody v).checked .openSession v.args s
  t.answer v r.status r.results

/-- OPEN (R139, R140). -/
def execOpen (s : State) : Answer State := .next (s.takeRequest (·.names .openSession) State.serveOpen).finish

/-- CLOSE: OK, and the session closes once the answer has been enqueued (R146). -/
def closeBody : Body := fun _ s => (s, { status := .ok, results := [], follow := .close })

/-- CLOSE (R146). -/
def execClose (s : State) : Answer State := s.sessionedRow .closeSession closeBody

/-- The lease deadline's tick, 0 where there is none. -/
def leaseTick (x : Session) : Tick := x.leaseDeadline.getD 0

/-- KEEPALIVE: the lease length and the deadline that admission set (R154). -/
def keepaliveBody : Body := fun _ s =>
  (s, .ok (bytes16 s.agent.session.leaseLength ++ bytes32 (leaseTick s.agent.session)))

/-- KEEPALIVE (R154). -/
def execKeepalive (s : State) : Answer State := s.sessionedRow .keepalive keepaliveBody

/-! ## Route commands (section 9.3) -/

/-- READ ROUTE (R54, R155): the role, then BUSY, then the range. -/
def readRouteBody : Body := fun args s =>
  let first := (arg args 1).toNat
  let count := (arg args 2).toNat
  match parseRole (arg args 0) with
  | none => (s, .refuse .range)
  | some role =>
    if role = .staging ∧ s.route.staging = .copying then (s, .refuse .busy)
    else if 63 < first ∨ count = 0 ∨ 6 < count ∨ 64 < first + count then (s, .refuse .range)
    else (s, .ok ((((s.route.byRole role).toList.drop first).take count).flatMap RouteEntry.bytes))

/-- READ ROUTE (R155). -/
def execReadRoute (s : State) : Answer State := s.readRow .readRoute readRouteBody

/-- WRITE ROUTE (R40, R156): BUSY in COPYING, then the RANGE checks. -/
def writeRouteBody : Body := fun args s =>
  if s.route.staging = .copying then (s, .refuse .busy)
  else
    match below 64 (arg args 0), parseRouteEntry args 1 with
    | some i, some e => (s.onRoute (·.writeStaging i e), .ok [])
    | some _, none => (s, .refuse .range)
    | none, _ => (s, .refuse .range)

/-- WRITE ROUTE (R156). -/
def execWriteRoute (s : State) : Answer State := s.sessionedRow .writeRoute writeRouteBody

/-- CLEAR ROUTES (R52, R156). -/
def clearRoutesBody : Body := fun args s =>
  let first := (arg args 0).toNat
  let count := (arg args 1).toNat
  if s.route.staging = .copying then (s, .refuse .busy)
  else if 63 < first ∨ count = 0 ∨ 64 < count ∨ 64 < first + count then (s, .refuse .range)
  else (s.onRoute (·.clearStaging first count), .ok [])

/-- CLEAR ROUTES (R52). -/
def execClearRoutes (s : State) : Answer State := s.sessionedRow .clearRoutes clearRoutesBody

/-- COMMIT (R53, R157): BUSY in COPYING, then the epoch mode's range, then the expected epoch. -/
def commitBody : Body := fun args s =>
  if s.route.staging = .copying then (s, .refuse .busy)
  else
    match yesNo (arg args 0) with
    | none => (s, .refuse .range)
    | some any =>
      if any = false ∧ arg16 args 1 ≠ s.route.epoch then
        (s, { status := .staleEpoch, results := bytes16 s.route.epoch, follow := .nothing })
      else (s.onRoute (·.commit s.now), .ok (bytes16 (s.route.epoch + 1)))

/-- COMMIT (R157). -/
def execCommit (s : State) : Answer State := s.sessionedRow .commit commitBody

/-! ## Action, bucket and slot commands (section 9.4) -/

/-- An action record with its hit counter: 14 bytes (R186). -/
def ActionTable.entryBytes (t : ActionTable) (i : RecordIdx) : List Byte :=
  t.records[i].bytes ++ bytes32 t.hits[i]

/-- READ ACTION (R62). -/
def readActionBody : Body := fun args s =>
  let first := (arg args 0).toNat
  let count := (arg args 1).toNat
  if 127 < first ∨ count = 0 ∨ 4 < count ∨ 128 < first + count then (s, .refuse .range)
  else (s, .ok ((((List.finRange 128).drop first).take count).flatMap s.action.entryBytes))

/-- READ ACTION (R62, R158). -/
def execReadAction (s : State) : Answer State := s.readRow .readAction readActionBody

/-- A record stored whole, its hit counter cleared where asked (R61). -/
def ActionTable.write (t : ActionTable) (i : RecordIdx) (r : ActionRecord) (clear : Bool) : ActionTable :=
  { t with
    records := vset t.records i r
    hits := if clear then vset t.hits i 0 else t.hits }

/-- WRITE ACTION (R61). -/
def writeActionBody : Body := fun args s =>
  match below 128 (arg args 0), parseActionRecord args 1, yesNo (arg args 11) with
  | some i, some r, some clear => (s.onAction (·.write i r clear), .ok [])
  | some _, some _, none => (s, .refuse .range)
  | some _, none, _ => (s, .refuse .range)
  | none, _, _ => (s, .refuse .range)

/-- WRITE ACTION (R61, R158). -/
def execWriteAction (s : State) : Answer State := s.sessionedRow .writeAction writeActionBody

/-- READ BUCKET (R88). -/
def readBucketBody : Body := fun args s =>
  match below 32 (arg args 0) with
  | none => (s, .refuse .range)
  | some n => (s, .ok s.buckets[n].bytes)

/-- READ BUCKET (R88, R159). -/
def execReadBucket (s : State) : Answer State := s.readRow .readBucket readBucketBody

/-- WRITE BUCKET (R87): bucket number, rate 1 to 4095, depth 69 or above, state and exceed action. -/
def writeBucketBody : Body := fun args s =>
  let rate := (arg16 args 2).toNat
  let depth := (arg16 args 4).toNat
  match below 32 (arg args 0), yesNo (arg args 1), parseExceed (arg args 6) with
  | some n, some enabled, some exceed =>
    if rate = 0 ∨ 4095 < rate ∨ depth < 69 then (s, .refuse .range)
    else (s.setBucket n (s.buckets[n].write enabled rate depth exceed), .ok [])
  | some _, some _, none => (s, .refuse .range)
  | some _, none, _ => (s, .refuse .range)
  | none, _, _ => (s, .refuse .range)

/-- WRITE BUCKET (R87, R159). -/
def execWriteBucket (s : State) : Answer State := s.sessionedRow .writeBucket writeBucketBody

/-- READ SLOT (R118). -/
def readSlotBody : Body := fun args s =>
  match below 32 (arg args 0) with
  | none => (s, .refuse .range)
  | some n => (s, .ok s.slots[n].bytes)

/-- READ SLOT (R118, R160). -/
def execReadSlot (s : State) : Answer State := s.readRow .readSlot readSlotBody

/-- WRITE SLOT (R115): the slot number, then STATE, then RANGE. -/
def writeSlotBody : Body := fun args s =>
  match below 32 (arg args 0) with
  | none => (s, .refuse .range)
  | some n =>
    if s.slots[n].state ≠ .off then (s, .refuse .state)
    else
      match parseSlotConfig args 1 with
      | none => (s, .refuse .range)
      | some c => (s.onSlot n fun x => { x with cfg := c }, .ok [])

/-- WRITE SLOT (R115, R160). -/
def execWriteSlot (s : State) : Answer State := s.sessionedRow .writeSlot writeSlotBody

/-- ARM (R116). -/
def armBody : Body := fun args s =>
  match below 32 (arg args 0) with
  | none => (s, .refuse .range)
  | some n =>
    if s.slots[n].state ≠ .off ∨ s.slots[n].cfg.period = 0 then (s, .refuse .state)
    else (s.onSlot n (·.armed s.now), .ok (deadlineBytes (s.slots[n].cfg.armDeadline s.now)))

/-- ARM (R116, R160). -/
def execArm (s : State) : Answer State := s.sessionedRow .arm armBody

/-- DISARM (R117). -/
def disarmBody : Body := fun args s =>
  match below 32 (arg args 0) with
  | none => (s, .refuse .range)
  | some n => ((s.onSlot n Slot.disarmed).releaseHeld s.slots[n].held, .ok [])

/-- DISARM (R117, R160). -/
def execDisarm (s : State) : Answer State := s.sessionedRow .disarm disarmBody

/-! ## Port commands (section 9.5) -/

/-- READ PORT (R110, R161). -/
def readPortBody : Body := fun args s =>
  match below 4 (arg args 0) with
  | none => (s, .refuse .range)
  | some p => (s, .ok s.ports[p].bytes)

/-- READ PORT (R161). -/
def execReadPort (s : State) : Answer State := s.readRow .readPort readPortBody

/-- The link effect of a SET PORT with this enable item (R7). -/
def State.applyEnable (s : State) (p : Port) (enable : Bool) : State :=
  match enable, s.ports[p].link with
  | false, .up => s.disableUp p
  | false, .disabled => s
  | false, .down => s.onPort p (·.restartLink .disabled)
  | false, .training => s.onPort p (·.restartLink .disabled)
  | true, .disabled => s.onPort p (·.restartLink .down)
  | true, .down => s
  | true, .training => s
  | true, .up => s

/-- SET PORT (R7, R162): all five items written, then the enable or disable. -/
def setPortBody : Body := fun args s =>
  match below 4 (arg args 0), parsePortConfig args 1 with
  | some p, some c => ((s.onPort p fun P => { P with cfg := c }).applyEnable p c.enable, .ok [])
  | some _, none => (s, .refuse .range)
  | none, _ => (s, .refuse .range)

/-- SET PORT (R162). -/
def execSetPort (s : State) : Answer State := s.sessionedRow .setPort setPortBody

/-! ## Counters (section 9.6) -/

/-- A READ COUNTERS request classed as an unsessioned read: payload position 7 holds 00h in a payload of Length 8 or more
(R135, R185). -/
def RequestView.readsOnly (v : RequestView) : Bool := decide (3 ≤ v.args.length) && decide (arg v.args 2 = 0)

/-- READ COUNTERS with the flag clear (R164). -/
def readCountersBody : Body := fun args s =>
  match parseGroup (arg args 0) (arg args 1) with
  | none => (s, .refuse .range)
  | some g => (s, .ok ((s.counters g).flatMap bytes32))

/-- READ COUNTERS, unsessioned (R164). -/
def execReadCounters (s : State) : Answer State :=
  .next (s.takeRequest (fun v => v.names .readCounters && v.readsOnly)
    (State.serveRead .readCounters readCountersBody)).finish

/-- READ COUNTERS as a sessioned command: the flag must be 01h, and the counters are zeroed as they are read (R164,
R166). -/
def readCountersClearBody : Body := fun args s =>
  match parseGroup (arg args 0) (arg args 1) with
  | none => (s, .refuse .range)
  | some g =>
    if arg args 2 ≠ 1 then (s, .refuse .range)
    else (s.clearCounters g, .ok ((s.counters g).flatMap bytes32))

/-- READ COUNTERS, sessioned (R166). -/
def execReadCountersClear (s : State) : Answer State :=
  .next (s.takeRequest (fun v => v.names .readCounters && !v.readsOnly)
    (State.serveSessioned .readCounters readCountersClearBody)).finish

/-! ## Event commands (section 9.7) -/

/-- The session's events enabled field and the retransmit interval set (R167). -/
def State.configureEvents (s : State) (enabled : Bool) (interval : BitVec 8) : State :=
  { s with
    agent := { s.agent with session := { s.agent.session with eventsEnabled := enabled } }
    events := { s.events with interval := interval } }

/-- SET EVENTS (R167): enabling tries delivery. -/
def setEventsBody : Body := fun args s =>
  match yesNo (arg args 0) with
  | none => (s, .refuse .range)
  | some enabled =>
    if arg args 1 = 0 then (s, .refuse .range)
    else ((s.configureEvents enabled (arg args 1)).tryDeliver, .ok [])

/-- SET EVENTS (R167). -/
def execSetEvents (s : State) : Answer State := s.sessionedRow .setEvents setEventsBody

/-- How many notices an acknowledgement of sequence `k` removes: those up to and including the one it names, or none where
it names no queued notice (R168). -/
def EventQueue.acknowledged (q : EventQueue) (k : BitVec 16) : Option Nat :=
  match q.notices with
  | [] => none
  | o :: _ =>
    if (k - o.sequence).toNat < q.notices.length then some ((k - o.sequence).toNat + 1) else none

/-- The Event Queue after an acknowledgement of `n` notices: they are removed, the flag cleared and the timer stopped
(R168). -/
def EventQueue.drop (q : EventQueue) (n : Nat) : EventQueue :=
  { q with notices := q.notices.drop n, outstanding := false, timer := none }

/-- ACK EVENTS (R168). The number still queued is counted before the delivery attempt that the command starts, and so without
a notice of that attempt's own pop (R179; DESIGN CHOICE, unsafe, log entry 26). -/
def ackEventsBody : Body := fun args s =>
  match s.events.acknowledged (arg16 args 0) with
  | none => (s, .refuse .range)
  | some n =>
    ({ s with events := s.events.drop n }.tryDeliver,
      .ok [numByte n, numByte (s.events.notices.length - n)])

/-- ACK EVENTS (R168). -/
def execAckEvents (s : State) : Answer State := s.sessionedRow .ackEvents ackEventsBody

/-! ## Reset commands (section 9.8) -/

/-- RESET: OK and reset pending with this scope, or RANGE (R147, R169). -/
def resetBody : Body := fun args s =>
  match parseScope (arg args 0) with
  | none => (s, .refuse .range)
  | some scope => (s, { status := .ok, results := [], follow := .reset scope })

/-- A RESET request that names this scope in a single argument byte. -/
def RequestView.resetsTo (scope : ResetScope) (v : RequestView) : Bool :=
  decide (v.args.length = 1) && decide (parseScope (arg v.args 0) = some scope)

/-- RESET FULL: the row takes every RESET request but a well-formed one of scope FORWARDING (R169). -/
def execResetFull (s : State) : Answer State :=
  .next (s.takeRequest (fun v => v.names .reset && !v.resetsTo .forwarding)
    (State.serveSessioned .reset resetBody)).finish

/-- RESET FORWARDING: the row takes every RESET request but a well-formed one of scope FULL (R169). -/
def execResetForwarding (s : State) : Answer State :=
  .next (s.takeRequest (fun v => v.names .reset && !v.resetsTo .full)
    (State.serveSessioned .reset resetBody)).finish

/-! ## No command (R185) -/

/-- BAD_OPCODE: a request whose opcode names no command is answered BAD-OPCODE before any session check (R135, R185). -/
def execBadOpcode (s : State) : Answer State :=
  .next (s.takeRequest (fun v => decide (commandOf v.opcode = none)) fun v t => t.answer v .badOpcode []).finish

end Sys2Proof.Machine
end

