-- ==== Sys2Proof/Machine/Ticks.lean ====
section
/-! DEFINITION. The command TICK, and the tick happenings that an advance of the counter delivers to every block (R77 to
R79). The table has a command for each of them; one that has not been taken when the counter advances again is taken first,
so that no block acts later than at the advance that reached its deadline. -/

namespace Sys2Proof.Machine

/-- The tick happenings of one port (R79). -/
def State.takePortTick (s : State) (p : Port) : State := (s.takeTrainingDeadline p).takeHoldDeadline p

/-- The tick happening of one slot (R79). -/
def State.takeSlotTick (s : State) (n : SlotNo) : State := (s.takeStartWindow n).takeSlotDeadline n

/-- The tick happenings of the Management Agent (R79). -/
def State.takeAgentTick (s : State) : State := s.takeLeaseDeadline.takeResetLimit

/-- A disposition of port `p` that began before the last advance, brought to its end: its work takes less than the time of
the shortest frame, and so much less than a tick (R45). -/
def State.settleStale (s : State) (p : Port) : State :=
  match s.disposing[p] with
  | some d => if d.begun = s.now then s else s.settle p
  | none => s

/-- The places of the waiting raises made before the last advance. -/
def State.staleRaises (s : State) : List Nat :=
  (List.range s.transit.length).filter fun k => s.transit[k]?.any fun r => decide (r.tick ≠ s.now)

/-- Waiting raises made before the last advance, taken one after another: R174 has two raises change places only where both
fall within one tick (DEDUCED, log entry 25). Where several are left a free value says which is taken next. -/
def State.takeStaleRaises : Nat → State → State
  | 0, s => s
  | fuel + 1, s =>
    match s.staleRaises with
    | [] => s
    | [k] => State.takeStaleRaises fuel (s.takeWaiting k)
    | k :: j :: ks =>
      if raiseTurn s.transit [] ∈ k :: j :: ks then State.takeStaleRaises fuel (s.takeWaiting (raiseTurn s.transit []))
      else State.takeStaleRaises fuel (s.takeWaiting k)

/-- All that is due at the counter's present value and has not been taken yet, block by block. The blocks' ticks have no
order between them (R79), and the commands take them in any other order (log entry 6). Dispositions left from before the last
advance come first. Where several are left, R45 and R86 let their stages, and so their charges, be taken in either order;
that they are taken in ascending port order, each to its end, is the model's choice (DESIGN CHOICE, unsafe, log entry 7).
Raises left from before the last advance follow, and a copy left from before it ends (R55). -/
def State.takeDue (s : State) : State :=
  let settled := Port.all.foldl State.settleStale s
  let told := State.takeStaleRaises settled.transit.length settled
  (((List.finRange 32).foldl State.takeSlotTick
    (Port.all.foldl State.takePortTick told.endStaleCopy.takeInitEnd)).takeAgentTick).takeRetransmit

/-- Whether raises wait from now to the next TICK: a free value (R174; log entry 25). -/
def State.drawPace (s : State) : State := { s with raisesWait := Config.raisesWait s.now }

/-- TICK: the tick counter advances by 1 and the Rate Buckets take their tick, once every block has taken its own of the
value the counter leaves (R77, R78, R79, R85). A free value says whether the raises made from now to the next TICK wait
(R174; log entry 25). -/
def execTick (s : State) : Answer State := .next s.takeDue.advance.drawPace

end Sys2Proof.Machine
end

