-- ==== Sys2Proof/Machine/Dispatch.lean ====
section
/-! DEFINITION. The effect of each command on everything but the queue of waiting commands: one arm per row of
spec/opcode_table.json, in the table's order. -/

namespace Sys2Proof.Machine

def exec (i : Instr) (s : State) : Host.Outcome State Fault Refusal :=
  match i with
  | .rstnRelease node => Sys2Proof.Machine.execRstnRelease node s
  | .portInitEnd => Sys2Proof.Machine.execPortInitEnd s
  | .rxStart p => Sys2Proof.Machine.execRxStart p s
  | .rxDataByte p b => Sys2Proof.Machine.execRxDataByte p b s
  | .rxEnd e => Sys2Proof.Machine.execRxEnd e s
  | .rxAbort p => Sys2Proof.Machine.execRxAbort p s
  | .rxIdle p => Sys2Proof.Machine.execRxIdle p s
  | .rxInvalidSymbol p => Sys2Proof.Machine.execRxInvalidSymbol p s
  | .signalTimeout p => Sys2Proof.Machine.execSignalTimeout p s
  | .rxHold p => Sys2Proof.Machine.execRxHold p s
  | .rxGo p => Sys2Proof.Machine.execRxGo p s
  | .trainingDeadline p => Sys2Proof.Machine.execTrainingDeadline p s
  | .holdDeadline p => Sys2Proof.Machine.execHoldDeadline p s
  | .txEnd p => Sys2Proof.Machine.execTxEnd p s
  | .sendControlSymbol p => Sys2Proof.Machine.execSendControlSymbol p s
  | .tick => Sys2Proof.Machine.execTick s
  | .copyDone => Sys2Proof.Machine.execCopyDone s
  | .slotStartWindowExpiry n => Sys2Proof.Machine.execSlotStartWindowExpiry n s
  | .slotDeadline n => Sys2Proof.Machine.execSlotDeadline n s
  | .leaseExpiry => Sys2Proof.Machine.execLeaseExpiry s
  | .resetLimitExpiry => Sys2Proof.Machine.execResetLimitExpiry s
  | .retransmitExpiry => Sys2Proof.Machine.execRetransmitExpiry s
  | .identify => Sys2Proof.Machine.execIdentify s
  | .openSession => Sys2Proof.Machine.execOpen s
  | .closeSession => Sys2Proof.Machine.execClose s
  | .keepalive => Sys2Proof.Machine.execKeepalive s
  | .readRoute => Sys2Proof.Machine.execReadRoute s
  | .writeRoute => Sys2Proof.Machine.execWriteRoute s
  | .clearRoutes => Sys2Proof.Machine.execClearRoutes s
  | .commit => Sys2Proof.Machine.execCommit s
  | .readAction => Sys2Proof.Machine.execReadAction s
  | .writeAction => Sys2Proof.Machine.execWriteAction s
  | .readBucket => Sys2Proof.Machine.execReadBucket s
  | .writeBucket => Sys2Proof.Machine.execWriteBucket s
  | .readSlot => Sys2Proof.Machine.execReadSlot s
  | .writeSlot => Sys2Proof.Machine.execWriteSlot s
  | .arm => Sys2Proof.Machine.execArm s
  | .disarm => Sys2Proof.Machine.execDisarm s
  | .readPort => Sys2Proof.Machine.execReadPort s
  | .setPort => Sys2Proof.Machine.execSetPort s
  | .readCounters => Sys2Proof.Machine.execReadCounters s
  | .readCountersClear => Sys2Proof.Machine.execReadCountersClear s
  | .setEvents => Sys2Proof.Machine.execSetEvents s
  | .ackEvents => Sys2Proof.Machine.execAckEvents s
  | .resetFull => Sys2Proof.Machine.execResetFull s
  | .resetForwarding => Sys2Proof.Machine.execResetForwarding s
  | .badOpcode => Sys2Proof.Machine.execBadOpcode s

end Sys2Proof.Machine
end

