-- ==== Sys2Proof/Machine/Step.lean ====
section
/-! DEFINITION. One step: the command at the front of the queue is taken and executed with the queue's rest; with none
waiting, the part goes on with what is in progress. -/

namespace Sys2Proof.Machine

/-- The oldest waiting command is taken off the queue and executed. With none waiting, a disposition in progress takes its
next stage (R44) or the Event Queue takes a raise that waits (R174), without them the bank copier copies its next entry
(R55), and with nothing under way nothing happens (DESIGN CHOICE, log entries 4, 5, 7 and 25). -/
def step (s : State) : Host.Outcome State Fault Refusal :=
  match s.pending with
  | [] => .next s.idle
  | c :: rest => exec c { s with pending := rest }

/-- The part with the command the word spells put at the front of the queue; unchanged where the word spells none, as
every word does (`decodeTableWord`). -/
def State.withFetchWord (s : State) (nbits w : Nat) : State :=
  match decodeTableWord nbits w with
  | some c => { s with pending := c :: s.pending }
  | none => s

end Sys2Proof.Machine
end

