-- ==== Sys2Proof/WellFormed.lean ====
section
/-! DEFINITION. Well-formed records. Every operand of a command is within its range by its type (Syntax.lean), so a
command needs no check. The manual's ranges that the types leave open are those of the records a manager writes and of
the notices; each is one check here. -/

namespace Sys2Proof.Machine

/-- A route entry the table may hold: the cleared entry, or a valid one whose port mask is not empty and whose keys lie
within their masks (R39, R40). -/
def RouteEntry.wf (e : RouteEntry) : Bool := decide (e = .cleared) || (e.valid && e.accepted)

/-- A dispatch mask is 1 to 15 (R59). -/
def DispatchPart.wf (d : DispatchPart) : Bool := decide (d.mask ≠ 0)

/-- An action record the table may hold (R59, R61). -/
def ActionRecord.wf (r : ActionRecord) : Bool := r.dispatch.all DispatchPart.wf

/-- A bucket record: rate 1 to 4095, depth 69 to 65535, credit 0 to depth, and 0 while DISABLED (R81, R85). -/
def Bucket.wf (x : Bucket) : Bool :=
  decide (1 ≤ x.rate ∧ x.rate ≤ 4095) && decide (69 ≤ x.depth ∧ x.depth ≤ 65535) && decide (x.credit ≤ x.depth) &&
    (x.enabled || decide (x.credit = 0))

/-- A slot's configuration: the reset values of an unconfigured slot, or a period of at least 1, a loss count of 1 to 15
and no substitute without hold (R112, R115). -/
def SlotConfig.wf (c : SlotConfig) : Bool :=
  decide (c = .reset) ||
    (decide (c.period ≠ 0) && decide (1 ≤ c.lossCount ∧ c.lossCount ≤ 15) && (!c.substitute || c.hold))

/-- The number of subjects a kind of notice has: ports, slots, or the one subject 0 (R173). -/
def NoticeKind.subjects : NoticeKind → Nat
  | .portUp => 4
  | .portDown => 4
  | .holdStuck => 4
  | .slotLate => 32
  | .slotLost => 32
  | .slotRecovered => 32
  | .slotNeverSeen => 32
  | .bufferLow => 1
  | .bufferEmpty => 1
  | .leaseExpired => 1
  | .noticesLost => 1
  | .resetDone => 1

/-- A notice: its subject is one its kind has, and a NOTICES-LOST notice counts 1 to 65535 (R173, R175). -/
def Notice.wf (n : Notice) : Bool :=
  decide (n.subject.toNat < n.kind.subjects) &&
    (decide (n.kind ≠ .noticesLost) || decide (1 ≤ n.detail.toNat ∧ n.detail.toNat ≤ 65535))

/-- A raise of a block: its subject is one its kind has, and NOTICES-LOST and RESET-DONE are the Event Queue's own (R173). -/
def Raise.wf (r : Raise) : Bool :=
  decide (r.subject.toNat < r.kind.subjects) && decide (r.kind ≠ .noticesLost) && decide (r.kind ≠ .resetDone)

end Sys2Proof.Machine
end

