-- ==== Sys2Proof/Safety.lean ====
section
/-! DEFINITION. What the statements about the Ulmic 440 are made of: the laws the manual's blocks hold, the parts of a
port that service and flow control may touch, and what it is for a request to be served and answered. -/

namespace Sys2Proof.Machine

/-! ## Laws of the blocks

Each is a property of one state that a step keeps. -/

/-- The Frame Store's two laws (R25): no buffer stands twice on the free stack, and a buffer is on it exactly when its
count is zero. -/
def State.StoreLaw (s : State) : Prop :=
  s.store.free.Nodup ∧ ∀ b : BufNo, b ∈ s.store.free ↔ s.store.count[b] = 0

/-- The number of buffers whose reference count is above zero (R25). -/
def Store.claimed (f : Store) : Nat := (List.finRange 128).countP fun b : BufNo => decide (f.count[b] ≠ 0)

/-- A receiver fills buffer `b`. -/
def RxState.fills (r : RxState) (b : BufNo) : Bool :=
  match r with
  | .receiving c _ => decide (c = b)
  | .idle => false
  | .ignoring _ => false

/-- Claims of reception on a buffer that is written or read in place: receivers that fill it, requests that wait in it or are
executed in it (R24). -/
def State.receptions (s : State) (b : BufNo) : Nat :=
  Port.all.countP (fun p => s.ports[p].rx.fills b) + s.agent.queue.countP (fun r => decide (r.buf = b)) +
    s.agent.executing.toList.countP (fun r => decide (r.buf = b))

/-- Claims of reception that dispositions in progress keep on a buffer (R24, R42). -/
def State.disposals (s : State) (b : BufNo) : Nat :=
  Port.all.countP fun p => s.disposing[p].any fun d => decide (d.buf = b)

/-- Entries of one port that name a buffer (R24). -/
def PortState.naming (P : PortState) (b : BufNo) : Nat :=
  ((List.finRange 4).map fun c : Class => P.queues[c].countP fun e => decide (e.buf = b)).sum

/-- Queue references of a buffer: the entries of every port that name it (R24). -/
def State.queueReferences (s : State) (b : BufNo) : Nat := (Port.all.map fun p => s.ports[p].naming b).sum

/-- The slot holds buffer `b`. -/
def Slot.holds (x : Slot) (b : BufNo) : Bool := x.held.any fun h => decide (h.buf = b)

/-- Hold references of a buffer: the slots that hold it (R24). -/
def State.holdReferences (s : State) (b : BufNo) : Nat :=
  (List.finRange 32).countP fun n : SlotNo => s.slots[n].holds b

/-- The reference count of a buffer is the number of claims on it (R24). -/
def State.CountLaw (s : State) : Prop :=
  ∀ b : BufNo, s.store.count[b] = s.receptions b + s.disposals b + s.queueReferences b + s.holdReferences b

/-- A buffer being filled, and the buffer of a waiting request, has that one claim alone (R23). -/
def State.WriterLaw (s : State) : Prop := ∀ b : BufNo, 0 < s.receptions b → s.store.count[b] = 1

/-- The four class queues of every port hold at most 16 entries each, every entry in the queue of its own class, and an
entry being sent stands at the head of its queue (R91, R92, R102). -/
def PortState.QueueLaw (P : PortState) : Prop :=
  (∀ c : Class, P.queues[c].length ≤ 16 ∧ ∀ e ∈ P.queues[c], e.hdr.cls = c) ∧
    ∀ e, P.tx = .sending e → P.queues[e.hdr.cls].head? = some e

/-- Outside UP a port receives nothing, sends nothing, queues nothing and is held by nobody (R1 to R8). -/
def PortState.Quiescent (P : PortState) : Prop :=
  P.rx = .idle ∧ P.tx = .idle ∧ (∀ c : Class, P.queues[c] = []) ∧ P.partnerHold = false ∧ P.holdDeadline = none ∧
    P.asked = []

/-- Link supervision of a port: the runs within their bounds, a training deadline exactly in TRAINING, a byte count of
at most 71, a hold deadline only while held, and quiescence outside UP (R3 to R7, R11, R19). -/
def PortState.LinkLaw (P : PortState) : Prop :=
  P.validRun < 16 ∧ P.invalidRun < 4 ∧ (P.trainingDeadline.isSome = true ↔ P.link = .training) ∧
    (∀ b n, P.rx = .receiving b n → n ≤ 71) ∧ (P.partnerHold = false → P.holdDeadline = none) ∧
    (P.link ≠ .up → P.Quiescent)

/-- Every port keeps its queue and link laws, and during the 1 ms initialization no port is past DOWN (R2). -/
def State.PortLaw (s : State) : Prop :=
  ∀ p : Port, s.ports[p].QueueLaw ∧ s.ports[p].LinkLaw ∧
    (s.initializing = true → s.ports[p].link = .down ∨ s.ports[p].link = .disabled)

/-- The last control symbol a list of symbols holds. -/
def PortState.lastFlow (P : PortState) : Option FlowSymbol :=
  ((P.sent.filterMap fun
    | .flow c => some c
    | .frame _ => none
    | .abort => none) ++ P.asked).getLast?

/-- Low stock (R31 to R33): without an episode the depth is above 8; within one it is below 24, empty-reported stands
before the first depth of 0, and the last control symbol sent or asked on every UP link is HOLD. -/
def State.StockLaw (s : State) : Prop :=
  (s.store.episode = .none → 8 < s.store.depth) ∧
    (s.store.episode ≠ .none → s.store.depth < 24) ∧
    (s.store.episode = .low false → 0 < s.store.depth) ∧
    (s.store.episode ≠ .none → ∀ p : Port, s.ports[p].link = .up → s.ports[p].lastFlow = some .hold)

/-- Every entry of both banks is one the table may hold; CLEAN banks are equal; the copier runs exactly in COPYING and
has made the entries below its index equal (R39, R40, R51, R55). -/
def State.BankLaw (s : State) : Prop :=
  (∀ i : RouteIdx, s.route.bankA[i].wf = true ∧ s.route.bankB[i].wf = true) ∧
    (s.route.staging = .clean → s.route.bankA = s.route.bankB) ∧
    (s.route.staging = .copying ↔ s.route.copier.isSome = true) ∧
    ∀ c, s.route.copier = some c → c.next ≤ 64 ∧ ∀ i : RouteIdx, i.val < c.next → s.route.bankA[i] = s.route.bankB[i]

/-- Every action record is one the table may hold (R59, R61). -/
def State.RecordLaw (s : State) : Prop := ∀ i : RecordIdx, s.action.records[i].wf = true

/-- Every bucket's rate, depth and credit are in range (R81). -/
def State.CreditLaw (s : State) : Prop := ∀ n : BucketNo, s.buckets[n].wf = true

/-- Freshness of one slot (R112 to R132, the table of section 7.2): a buffer is held only while FRESH or LATE; a
deadline stands exactly in FRESH and LATE, and in WAITING where the start window is above 0; an armed slot is configured;
the miss count is below the loss count while LATE, and 0 or the loss count while LOST. -/
def Slot.FreshnessLaw (x : Slot) : Prop :=
  x.cfg.wf = true ∧ (x.state ≠ .off → x.cfg.period ≠ 0) ∧
    (x.held.isSome = true → x.state = .fresh ∨ x.state = .late) ∧
    match x.state with
    | .off => x.deadline = none ∧ x.miss = 0
    | .waiting => (x.deadline.isSome = true ↔ x.cfg.startWindow ≠ 0) ∧ x.miss = 0
    | .fresh => x.deadline.isSome = true ∧ x.miss = 0
    | .late => x.deadline.isSome = true ∧ 1 ≤ x.miss ∧ x.miss < x.cfg.lossCount
    | .lost => x.deadline = none ∧ (x.miss = 0 ∨ x.miss = x.cfg.lossCount)

/-- Every slot keeps the law of its states (R121). -/
def State.SlotLaw (s : State) : Prop := ∀ n : SlotNo, s.slots[n].FreshnessLaw

/-- The session (R138, R184): CLOSED it holds its CLOSED values; OPEN its token is not 0, its lease is 1 to 6000 and runs,
and a cached response is an executed one of at most 60 result bytes; and the token counter never holds 0. -/
def State.SessionLaw (s : State) : Prop :=
  s.agent.tokenCounter ≠ 0 ∧
    (s.agent.session.isOpen = false → s.agent.session = .closed) ∧
    (s.agent.session.isOpen = true →
      s.agent.session.token ≠ 0 ∧ 1 ≤ s.agent.session.leaseLength.toNat ∧ s.agent.session.leaseLength.toNat ≤ 6000 ∧
        s.agent.session.leaseDeadline.isSome = true ∧
        ∀ c, s.agent.session.cache = some c → c.replay = false ∧ c.results.length ≤ 60)

/-- Between commands the agent executes no request, at most four wait, and no reset has been left half taken (R133,
R134, R148). -/
def State.AgentLaw (s : State) : Prop :=
  s.agent.queue.length ≤ 4 ∧ s.agent.executing = none ∧ s.resetDue = false

/-- A list of notices numbered consecutively modulo 65536 up to just below `next`. -/
def consecutive (next : BitVec 16) (ns : List Notice) : Prop :=
  ∀ k (h : k < ns.length), ns[k].sequence = next - BitVec.ofNat 16 (ns.length - k)

/-- The Event Queue (R174): at most 16 notices, numbered consecutively up to the next sequence, with at most one
NOTICES-LOST, the newest; each in range; the timer runs exactly while a frame is outstanding, and the interval is at
least 1; and each raise that waits for it is one a block makes (R173, R175 to R178, R182). -/
def State.NoticeLaw (s : State) : Prop :=
  s.events.notices.length ≤ 16 ∧ consecutive s.events.nextSequence s.events.notices ∧
    (∀ n ∈ s.events.notices.dropLast, n.kind ≠ .noticesLost) ∧
    (s.events.notices.length = 16 → s.events.overflowed = true) ∧
    (∀ n ∈ s.events.notices, n.wf = true) ∧
    (s.events.outstanding = true ↔ s.events.timer.isSome = true) ∧ s.events.interval ≠ 0 ∧
    ∀ r ∈ s.transit, r.wf = true

/-- A disposition in progress on ingress port `p`: the ingress port is in neither of its port sets, and one that may still
reach a queue was received with an Age above 0 (R42, R48, R71, R74). -/
def Disposal.Law (d : Disposal) (p : Port) : Prop :=
  PortSet.has d.egress p = false ∧ PortSet.has d.directed p = false ∧
    (d.stage = .enqueue → d.received.age ≠ 0) ∧
    (d.stage = .bucket ∨ d.stage = .arrival →
      ∀ r, d.final = some r → r.disposition = .forward → d.received.age ≠ 0)

/-- Every disposition in progress keeps its law. -/
def State.DispositionLaw (s : State) : Prop := ∀ (p : Port) (d : Disposal), s.disposing[p] = some d → d.Law p

/-- The bytes of the store stand in canonical form: the model's own representation of R23. -/
def State.MemoryLaw (s : State) : Prop := Memory.wf s.store.mem = true

/-- The commands that are tick happenings of a block, one for each deadline (R79), and the end of the initialization
(R77). -/
def tickHappenings : List Instr :=
  [.portInitEnd, .leaseExpiry, .resetLimitExpiry, .retransmitExpiry] ++
    (Port.all.flatMap fun p => [.trainingDeadline p, .holdDeadline p]) ++
    (List.finRange 32).flatMap fun n : SlotNo => [.slotStartWindowExpiry n, .slotDeadline n]

/-- Neither a disposition nor a copy in progress began before the counter's last advance (R45, R55). -/
def State.NoneStale (s : State) : Prop :=
  (∀ (p : Port) (d : Disposal), s.disposing[p] = some d → d.begun = s.now) ∧
    ∀ c, s.route.copier = some c → c.begun = s.now

/-- All that the counter's present value brings has been taken: no deadline stands reached, the initialization has ended where
the counter has reached 10, and no disposition or copy began and no waiting raise was made before the last advance (R45, R55,
R77 to R79, R174). -/
def State.DeadlinesTaken (s : State) : Prop :=
  (s.initializing = true → reached s.now 10 = false) ∧ s.NoneStale ∧
  (∀ p : Port, due s.now s.ports[p].trainingDeadline = false ∧ due s.now s.ports[p].holdDeadline = false) ∧
    (∀ n : SlotNo, due s.now s.slots[n].deadline = false) ∧
    due s.now s.agent.session.leaseDeadline = false ∧
    (∀ r, s.agent.resetPending = some r → reached s.now r.limit = false) ∧
    due s.now s.events.timer = false ∧ ∀ r ∈ s.transit, r.tick = s.now

/-- A deadline lies at the counter's present value or ahead of it, as the signed comparison of R78 reads it. -/
def ahead (now : Tick) (deadline : Option Tick) : Prop := ∀ d, deadline = some d → 0 ≤ (d - now).toInt

/-- No deadline lies behind the counter: each is acted on at the advance that reaches it. The initialization does not last
beyond 10, and neither a disposition, a copy nor a waiting raise beyond the tick after the one it began in (R45, R55, R77 to
R79, R174). -/
def State.TimelyLaw (s : State) : Prop :=
  (s.initializing = true → s.now.toNat ≤ 10) ∧
    (∀ (p : Port) (d : Disposal), s.disposing[p] = some d → (s.now - d.begun).toNat ≤ 1) ∧
    (∀ p : Port, ahead s.now s.ports[p].trainingDeadline ∧ ahead s.now s.ports[p].holdDeadline) ∧
    (∀ n : SlotNo, ahead s.now s.slots[n].deadline) ∧ ahead s.now s.agent.session.leaseDeadline ∧
    (∀ r, s.agent.resetPending = some r → ahead s.now (some r.limit)) ∧ ahead s.now s.events.timer ∧
    (∀ r ∈ s.transit, (s.now - r.tick).toNat ≤ 1) ∧
    ∀ c, s.route.copier = some c → (s.now - c.begun).toNat ≤ 1

/-! ## What flow control and service touch -/

/-- `Q` is `P` but for HOLD and GO symbols asked in addition. -/
def PortState.FlowOnly (P Q : PortState) : Prop := ∃ more, Q = { P with asked := P.asked ++ more }

/-- `Q` is `P` but for what service at an enqueue or a choice does: heads expired and counted, an entry chosen, control
symbols asked. -/
def PortState.ServiceOnly (P Q : PortState) : Prop :=
  ∃ more tx queues expired,
    Q = { P with asked := P.asked ++ more, tx := tx, queues := queues, ctr := { P.ctr with qExpired := expired } }

/-- `t` is `s` in every block but the ports, the Frame Store and the Event Queue with the raises on their way to it. -/
def State.SameTables (s t : State) : Prop :=
  t.node = s.node ∧ t.initializing = s.initializing ∧ t.now = s.now ∧ t.route = s.route ∧ t.action = s.action ∧
    t.buckets = s.buckets ∧ t.slots = s.slots ∧ t.agent = s.agent ∧ t.pending = s.pending ∧ t.disposing = s.disposing ∧
    t.raisesWait = s.raisesWait

/-- `t` has the Event Queue of `s`, and the raises that wait for it (R174). -/
def State.SameEvents (s t : State) : Prop := t.events = s.events ∧ t.transit = s.transit

/-! ## A management request served -/

/-- The oldest request waits before `rest` and is long enough to be read, and its response will find room: its port is
UP and class 3 there is not full; its buffer is its own, as `State.WriterLaw` and `State.CountLaw` give; the store's bytes
stand in canonical form, as `State.MemoryLaw` gives. `v` is the request as its bytes stand. -/
structure State.Waiting (s : State) (v : RequestView) (rest : List Request) : Prop where
  oldest   : s.agent.queue = v.req :: rest
  idle     : s.agent.executing = none
  long     : 5 ≤ s.lengthAt v.req.buf
  bytes    : s.viewRequest v.req = v
  settled  : s.resetDue = false
  portUp   : s.isUp v.req.port = true
  room     : s.ports[v.req.port].queues[(3 : Class)].length < 16
  own      : s.store.count[v.req.buf] = 1
  unnamed  : ∀ c : Class, ∀ e ∈ s.ports[v.req.port].queues[c], e.buf ≠ v.req.buf
  memory   : s.MemoryLaw

/-- A waiting request, with no reset pending. -/
structure State.Ready (s : State) (v : RequestView) (rest : List Request) : Prop extends State.Waiting s v rest where
  noReset  : s.agent.resetPending = none

/-- A sessioned request the session admits: OPEN, its token, the expected sequence (R141, R142). -/
structure State.Admits (s : State) (v : RequestView) : Prop where
  isOpen   : s.agent.session.isOpen = true
  token    : v.token = s.agent.session.token
  sequence : v.seq = s.agent.session.expected

/-- The agent once a request has been taken and has ended, its session record being `x` (R134, R137). -/
def Agent.served (a : Agent) (rest : List Request) (x : Session) : Agent :=
  { a with queue := rest, executing := none, session := x }

/-- The session record after an admitted request on port `p` at `now` that is answered with this status and these
results: the sequence advanced, the lease restarted, the event port taken, the response cached (R142). -/
def Session.executed (x : Session) (now : Tick) (p : Port) (opcode : Byte) (status : Status) (results : List Byte) :
    Session :=
  { x with
    expected := x.expected + 1
    leaseDeadline := some (now + BitVec.ofNat 32 (100 * x.leaseLength.toNat))
    eventPort := p
    cache := some { opcode := opcode, sequence := x.expected, status := status, replay := false, results := results } }

/-- The part once the oldest request, `v`, has been admitted and executed with this status and these results, its answer
apart (R134, R142). -/
def State.executed (s : State) (v : RequestView) (rest : List Request) (status : Status) (results : List Byte) : State :=
  { s with agent := s.agent.served rest (s.agent.session.executed s.now v.req.port v.opcode status results) }

/-- The part once the oldest request has been taken and no session field touched, its answer apart (R134, R144). -/
def State.unexecuted (s : State) (rest : List Request) : State :=
  { s with agent := s.agent.served rest s.agent.session }

/-- From `u`, in which everything but the answer has been done, `t` has the answer `payload` to request `v` besides: the
payload and its length stand in the request's buffer and every other byte of the store as before; the RESPONSE entry with
the request's reply label stands last in class 3 of the ingress port, behind entries that were there; the buffer has
passed from the request to the entry; other ports may have been asked for control symbols, and nothing else differs
(R93, R136, R137). -/
structure State.Answered (u t : State) (v : RequestView) (payload : List Byte) : Prop where
  written  : t.payloadAt v.req.buf = payload
  header   : t.bytesAt v.req.buf 0 4 = u.bytesAt v.req.buf 0 4
  bytes    : ∀ a, a < storeAddr v.req.buf 4 ∨ storeAddr v.req.buf 5 + payload.length ≤ a →
               Memory.read t.store.mem a = Memory.read u.store.mem a
  entry    : ∃ ahead, ahead <:+ u.ports[v.req.port].queues[(3 : Class)] ∧
               t.ports[v.req.port].queues[(3 : Class)] = ahead ++
                 [{ buf := v.req.buf, hdr := u.relayHeader v.reply, enqueuedAt := u.now, origin := .response }]
  lower    : ∀ c : Class, c ≠ 3 → t.ports[v.req.port].queues[c] <:+ u.ports[v.req.port].queues[c]
  port     : (u.ports[v.req.port]).ServiceOnly (t.ports[v.req.port])
  others   : ∀ p : Port, p ≠ v.req.port → (u.ports[p]).FlowOnly (t.ports[p])
  count    : t.store.count[v.req.buf] = 1
  counts   : ∀ b : BufNo, b ≠ v.req.buf → (∀ c : Class, ∀ e ∈ u.ports[v.req.port].queues[c], e.buf ≠ b) →
               t.store.count[b] = u.store.count[b]
  episodes : t.store.lowEpisodes = u.store.lowEpisodes
  events   : u.SameEvents t
  tables   : u.SameTables t
  settled  : t.resetDue = u.resetDue

/-- The response payload of an executed request (R184). -/
def RequestView.response (v : RequestView) (status : Status) (results : List Byte) : List Byte :=
  [v.opcode, v.token, v.seq, 0#1 ++ status.code] ++ results

/-- The row of the table that serves a request, by the codes of section 11.4: READ COUNTERS is sessioned unless payload
position 7 is present and 00h (R185), and RESET is two rows, one a scope (R169). -/
def RequestView.row (v : RequestView) : Instr :=
  if v.opcode = 0x01 then .identify
  else if v.opcode = 0x02 then .openSession
  else if v.opcode = 0x03 then .closeSession
  else if v.opcode = 0x04 then .keepalive
  else if v.opcode = 0x10 then .readRoute
  else if v.opcode = 0x11 then .writeRoute
  else if v.opcode = 0x12 then .clearRoutes
  else if v.opcode = 0x13 then .commit
  else if v.opcode = 0x18 then .readAction
  else if v.opcode = 0x19 then .writeAction
  else if v.opcode = 0x20 then .readBucket
  else if v.opcode = 0x21 then .writeBucket
  else if v.opcode = 0x28 then .readSlot
  else if v.opcode = 0x29 then .writeSlot
  else if v.opcode = 0x2A then .arm
  else if v.opcode = 0x2B then .disarm
  else if v.opcode = 0x30 then .readPort
  else if v.opcode = 0x31 then .setPort
  else if v.opcode = 0x38 then (if v.args[2]? = some 0x00 then .readCounters else .readCountersClear)
  else if v.opcode = 0x40 then .setEvents
  else if v.opcode = 0x41 then .ackEvents
  else if v.opcode = 0x48 then (if v.args = [0x00] then .resetForwarding else .resetFull)
  else .badOpcode

/-- The twenty-five rows that are the Management Agent taking a request. -/
def managementRows : List Instr :=
  [.identify, .openSession, .closeSession, .keepalive, .readRoute, .writeRoute, .clearRoutes, .commit, .readAction,
    .writeAction, .readBucket, .writeBucket, .readSlot, .writeSlot, .arm, .disarm, .readPort, .setPort,
    .readCounters, .readCountersClear, .setEvents, .ackEvents, .resetFull, .resetForwarding, .badOpcode]

/-- The rows that are served without a session: OPEN, the unsessioned reads and an opcode that names no command (R135). -/
def unsessionedRows : List Instr :=
  [.identify, .openSession, .readRoute, .readAction, .readBucket, .readSlot, .readPort, .readCounters, .badOpcode]

/-- The number of argument bytes a request's row takes, by the table of section 11.4. -/
def argumentCount (i : Instr) : Nat :=
  if i ∈ [.writeAction] then 12
  else if i ∈ [.writeRoute] then 11
  else if i ∈ [.writeSlot] then 9
  else if i ∈ [.setPort] then 14
  else if i ∈ [.writeBucket] then 7
  else if i ∈ [.openSession, .readRoute, .commit, .readCounters, .readCountersClear] then 3
  else if i ∈ [.clearRoutes, .readAction, .setEvents, .ackEvents] then 2
  else if i ∈ [.readBucket, .readSlot, .arm, .disarm, .readPort, .resetFull, .resetForwarding] then 1
  else 0

/-! ## Symbols, frames and service -/

/-- The commands that carry a control symbol other than END to port `p` (R1). -/
def validSymbols (p : Port) : List Instr :=
  [.rxStart p, .rxAbort p, .rxIdle p, .rxHold p, .rxGo p]

/-- A command that carries a valid symbol to port `p`: a control symbol or a data byte (R1). -/
def isValidSymbol (i : Instr) (p : Port) : Prop :=
  i ∈ validSymbols p ∨ (∃ v, i = .rxDataByte p v) ∨ ∃ pace, i = .rxEnd { port := p, pace := pace }

/-- A port once it has heard a valid symbol in UP (R5). -/
def PortState.heard (P : PortState) : PortState := { P with invalidRun := 0, quiet := false }

/-- Port `p` evaluates symbols in UP, and no reset has been left half taken. -/
structure State.Listens (s : State) (p : Port) : Prop where
  started : s.initializing = false
  up      : s.ports[p].link = .up
  settled : s.resetDue = false

/-- Port `p` fills buffer `b`, the receiver's own, with `n` bytes so far (R11, R23). -/
structure State.Fills (s : State) (p : Port) (b : BufNo) (n : Nat) : Prop extends State.Listens s p where
  filling : s.ports[p].rx = .receiving b n
  own     : s.store.count[b] = 1

/-- Port `p` fills buffer `b` with `n` bytes so far, and the disposition of its previous frame has ended (R45). -/
structure State.Ends (s : State) (p : Port) (b : BufNo) (n : Nat) : Prop extends State.Fills s p b n where
  disposed : s.disposing[p] = none

/-- The part with buffer `b`, whose last reference ends, pushed on the free stack (R25). The push that brings the depth to 24
in a low-stock episode ends the episode and has GO asked on every UP port (R33). -/
def State.pushed (s : State) (b : BufNo) : State :=
  let store := { s.store with count := vset s.store.count b 0, free := b :: s.store.free }
  if s.store.free.length + 1 = 24 ∧ s.store.episode ≠ .none then
    { s with
      store := { store with episode := .none }
      ports := vmap (fun P : PortState => if P.link = .up then { P with asked := P.asked ++ [.go] } else P) s.ports }
  else { s with store := store }

/-- The length test of R12. -/
def State.LengthGood (s : State) (b : BufNo) (n : Nat) : Prop :=
  7 ≤ n ∧ s.lengthAt b ≤ 64 ∧ n = 5 + s.lengthAt b + 2

/-- The Check test of R12: the CRC over header and payload as received equals the two bytes after them. -/
def State.CheckGood (s : State) (b : BufNo) : Prop :=
  crc16 (s.bytesAt b 0 (5 + s.lengthAt b)) = s.byteAt b (5 + s.lengthAt b) ++ s.byteAt b (6 + s.lengthAt b)

/-- A frame about to end that passes both tests of R12. -/
structure State.GoodFrame (s : State) (p : Port) (b : BufNo) (n : Nat) : Prop extends State.Ends s p b n where
  length  : s.LengthGood b n
  check   : s.CheckGood b

/-- The port once a good frame has ended on it (R12, R13). -/
def PortState.tookGood (P : PortState) : PortState :=
  { P.heard with rx := .idle, ctr := { P.ctr with rxGood := bump P.ctr.rxGood } }

/-- A good frame that passes to disposition: neither management nor looped (R13). -/
structure State.TransitFrame (s : State) (p : Port) (b : BufNo) (n : Nat) : Prop extends State.GoodFrame s p b n where
  label   : (s.headerAt b).label ≠ ownLabel s.node
  source  : (s.headerAt b).source ≠ ownSource s.node

/-- A transit frame where no reset is pending, the ports keep their laws, and no entry names the frame's buffer
(`State.PortLaw`, `State.WriterLaw`). -/
structure State.Transit (s : State) (p : Port) (b : BufNo) (n : Nat) : Prop extends State.TransitFrame s p b n where
  noReset : s.agent.resetPending = none
  laws    : s.PortLaw
  unnamed : ∀ (q : Port) (c : Class), ∀ e ∈ s.ports[q].queues[c], e.buf ≠ b

/-- An entry of the active bank matches a frame received on port `p` with header `h` (R39, R46). -/
def RouteEntry.Matches (e : RouteEntry) (p : Port) (h : Header) : Prop :=
  e.valid = true ∧ PortSet.has e.portMask p = true ∧ h.label &&& e.labelMask = e.labelKey ∧
    h.source &&& e.sourceMask = e.sourceKey ∧ e.minClass ≤ h.cls

/-- The lookup of a frame misses (R46). -/
def State.Misses (s : State) (p : Port) (h : Header) : Prop :=
  ∀ i : RouteIdx, ¬ ((s.route.bank s.route.active)[i]).Matches p h

/-- Entry `i` of the active bank is the lowest-numbered one that matches (R46). -/
def State.Wins (s : State) (p : Port) (h : Header) (i : RouteIdx) : Prop :=
  ((s.route.bank s.route.active)[i]).Matches p h ∧
    ∀ j : RouteIdx, j < i → ¬ ((s.route.bank s.route.active)[j]).Matches p h

/-- Base record `base` sends the frame in buffer `b` to final record `i`: itself without a dispatch part or with too short
a payload, and by the payload byte otherwise (R64, R65). -/
def State.Resolves (s : State) (base i : RecordIdx) (b : BufNo) : Prop :=
  match s.action.records[base].dispatch with
  | none => i = base
  | some d =>
    if s.lengthAt b ≤ d.offset.val then i = base
    else
      i.val = base.val - base.val % 16 +
          (base.val % 16 + (s.byteAt b (5 + d.offset.val) &&& d.mask.setWidth 8).toNat) % 16 ∧
        s.action.records[i].dispatch = none

/-- The Action Table once a frame has resolved to record `i`: the hit, and DISPATCH-SHORT where the base has a dispatch part
and the payload is too short for it (R65, R67). -/
def State.counted (s : State) (base i : RecordIdx) (b : BufNo) : ActionTable :=
  { s.action with
    hits := vset s.action.hits i (bump s.action.hits[i])
    dispatchShort :=
      match s.action.records[base].dispatch with
      | none => s.action.dispatchShort
      | some d => if s.lengthAt b ≤ d.offset.val then bump s.action.dispatchShort else s.action.dispatchShort }

/-- The header a FORWARD record gives a frame received with header `h` and an Age above 0 (R72 to R75). -/
def ActionRecord.applied (r : ActionRecord) (h : Header) : Header :=
  { label := match r.labelRewrite with
      | none => h.label
      | some l => l
    source := h.source
    cls := match r.classPolicy with
      | .keep => h.cls
      | .set c => c
    stale := h.stale
    age := match r.agePolicy with
      | .decrement => h.age - 1
      | .keep => h.age
      | .set a => a }

/-- Port `t` has taken a new entry for buffer `b` with header `h` at the tail of its class queue, behind entries that port
`s` had there, and otherwise differs by service alone (R92, R95, R99). -/
def PortState.Took (P Q : PortState) (b : BufNo) (h : Header) (now : Tick) (o : Origin) : Prop :=
  (∃ ahead, ahead <:+ P.queues[h.cls] ∧
      Q.queues[h.cls] = ahead ++ [{ buf := b, hdr := h, enqueuedAt := now, origin := o }]) ∧
    (∀ c : Class, c ≠ h.cls → Q.queues[c] <:+ P.queues[c]) ∧ P.ServiceOnly Q

/-- The first entry that survives its residence test, in the order of service: class 3 down to class 0, and in each class
from the head (R99, R100). -/
def PortState.firstSurvivor (P : PortState) (now : Tick) : Option Entry :=
  ([3, 2, 1, 0] : List Class).findSome? fun c => (P.queues[c].dropWhile (P.expired now)).head?

/-- The part after `n` steps on an empty queue. -/
def State.idling : Nat → State → State
  | 0, s => s
  | n + 1, s =>
    match step { s with pending := [] } with
    | .next t => State.idling n t
    | .fault _ => s
    | .refused _ => s

/-- No event frame may be built now: the session is CLOSED or its events are not enabled, or one is outstanding (R176). -/
def State.Undelivered (s : State) : Prop :=
  s.agent.session.isOpen = false ∨ s.agent.session.eventsEnabled = false ∨ s.events.outstanding = true

/-- The notice list has room for an ordinary notice (R174). -/
def State.NoticeRoom (s : State) : Prop :=
  s.events.notices.length ≤ 14 ∧ ∀ n ∈ s.events.notices, n.kind ≠ .noticesLost

/-- The Event Queue with a notice appended at `now` (R174). -/
def EventQueue.plus (q : EventQueue) (kind : NoticeKind) (subject : Byte) (now : Tick) (detail : BitVec 32) :
    EventQueue :=
  { q with
    notices := q.notices ++
      [{ sequence := q.nextSequence, kind := kind, subject := subject, tick := now, detail := detail }]
    nextSequence := q.nextSequence + 1 }

/-- The part once a block has raised a notice where no event frame may be built and the list has room: the notice stands last
in the list, or the raise stands last among those that wait: where raises wait, and for a PORT-UP behind another (R174,
R181). -/
def State.raised (s : State) (kind : NoticeKind) (subject : Byte) (detail : BitVec 32) : State :=
  if s.raisesWait = true ∨ (kind = .portUp ∧ ∃ r ∈ s.transit, r.kind = .portUp) then
    { s with transit := s.transit ++ [{ kind := kind, subject := subject, tick := s.now, detail := detail }] }
  else { s with events := s.events.plus kind subject s.now detail }

end Sys2Proof.Machine
end

