-- ==== Sys2Proof/Certificates/Slice0/Obligations.lean ====
section
/-! DEFINITION. The statements for the provers, in the order of the chapters they come from. Each says in its own words
what the rules say; the words it is made of are those of Sys2Proof/Safety.lean and, for bytes and records, of the model. -/

open Sys2Proof Sys2Proof.Machine

/-! ## The queue of commands, power-up and initialization -/

/-- Taking a command: step of a part with a command in front is that command's effect on the part with the rest. With no
command waiting, no disposition in progress, no raise that waits and no entry to copy a step changes nothing. The queue of
commands, and a step on an empty one, are the model's own (log entry 5). -/
def Obligations.StepTakesOldestCommand : Prop :=
  (∀ (c : Instr) (rest : List Instr) (s : State), s.pending = c :: rest → step s = exec c { s with pending := rest }) ∧
    ∀ s : State, s.pending = [] → (∀ p : Port, s.disposing[p] = none) → s.transit = [] →
      (∀ c, s.route.copier = some c → 64 ≤ c.next) → step s = .next s

/-- What RSTN leaves; the queue of commands, the model's own, is left as it is (log entry 5), and that raises do not wait
before the first TICK is the model's choice (log entry 25) (R2, R21, R22, R35, R43,
R57, R60, R68, R77, R81, R111, R131, R138, R149, R181). -/
def Obligations.RstnReleaseGivesPowerUpValues : Prop :=
  ∀ (node : Node) (s : State), ∃ t, exec (.rstnRelease node) s = .next t ∧
    t.node = node ∧ t.initializing = true ∧ t.now = 0 ∧ t.pending = s.pending ∧
    (∀ p : Port, t.disposing[p] = none) ∧ t.transit = [] ∧ t.raisesWait = false ∧
    (∀ p : Port, t.ports[p].link = .down ∧ t.ports[p].validRun = 0 ∧ t.ports[p].invalidRun = 0 ∧
      t.ports[p].trainingDeadline = none ∧ t.ports[p].rx = .idle ∧ t.ports[p].tx = .idle ∧
      t.ports[p].partnerHold = false ∧ t.ports[p].holdDeadline = none ∧
      (∀ c : Sys2Proof.Class, t.ports[p].queues[c] = [] ∧ t.ports[p].cfg.residence[c] = 0) ∧
      t.ports[p].cfg.enable = true ∧ t.ports[p].cfg.missAction = .flood ∧ t.ports[p].cfg.admitMgmt = true ∧
      t.ports[p].cfg.holdLimit = 100 ∧ ∀ c ∈ t.ports[p].ctr.list, c = 0) ∧
    (∀ b : BufNo, t.store.count[b] = 0) ∧ t.store.free = List.finRange 128 ∧ t.store.episode = .none ∧
    t.store.lowEpisodes = 0 ∧
    t.route.active = .a ∧ t.route.epoch = 0 ∧ t.route.staging = .clean ∧ t.route.copier = none ∧
    (∀ i : RouteIdx, t.route.bankA[i] = .cleared ∧ t.route.bankB[i] = .cleared) ∧
    (∀ i : RecordIdx, t.action.hits[i] = 0 ∧ t.action.records[i] =
      { disposition := .drop, egress := 0, classPolicy := .keep, labelRewrite := none, agePolicy := .decrement,
        bucket := none, slot := none, dispatch := none }) ∧
    (∀ n : BucketNo, t.buckets[n] =
      { enabled := false, rate := 1, depth := 69, credit := 0, exceed := .drop, conform := 0, exceeds := 0 }) ∧
    (∀ n : SlotNo, t.slots[n] =
      { cfg := { period := 0, grace := 0, lossCount := 0, startWindow := 0, hold := false, substitute := false }
        state := .off, deadline := none, miss := 0, lastArrival := 0, held := none, arrivals := 0, misses := 0
        substitutes := 0, recoveries := 0 }) ∧
    t.agent.queue = [] ∧ t.agent.executing = none ∧ t.agent.tokenCounter = 1 ∧ t.agent.resetPending = none ∧
    t.agent.session =
      { isOpen := false, holder := 0, replyLabel := 0, eventPort := 0, token := 0, expected := 0, leaseLength := 0
        leaseDeadline := none, eventsEnabled := false, cache := none } ∧
    (∀ c ∈ t.deviceCounters, c = 0) ∧
    t.events =
      { notices := [{ sequence := 0, kind := .resetDone, subject := 0, tick := 0, detail := 0 }]
        nextSequence := 1, outstanding := false, timer := none, interval := 20 }

/-- The end of the 1 ms initialization, at the tick counter's value 10, which the model reads from R2 and R77 (log entry 21).
-/
def Obligations.PortInitEndBeginsDown : Prop :=
  ∀ s : State, s.initializing = true → reached s.now 10 = true →
    exec .portInitEnd s = .next { s with
      initializing := false
      ports := vmap (fun P => { P with link := .down, trainingDeadline := none, validRun := 0, invalidRun := 0 })
        s.ports }

/-! ## Link supervision (section 1.2) -/

/-- Outside UP a symbol, or its absence, is evaluated for link supervision alone. In DOWN a valid symbol of whatever kind
adds one to the run, the sixteenth enters TRAINING with a deadline 20 ticks ahead, and an invalid symbol or 50 µs without a
transition sets the run to 0; in TRAINING the first changes no link state and the others return the port to DOWN; in DISABLED
nothing is evaluated (R1, R3, R4, R7). The mark `quiet` is the model's own (log entry 14). -/
def Obligations.SymbolsOutsideUpDriveTraining : Prop :=
  (∀ (c : Instr) (p : Port) (s : State), isValidSymbol c p → s.initializing = false → s.resetDue = false →
    (s.ports[p].link = .down → s.ports[p].validRun < 15 →
      exec c s = .next (s.onPort p fun P => { P with validRun := P.validRun + 1, quiet := false })) ∧
    (s.ports[p].link = .down → s.ports[p].validRun = 15 →
      exec c s = .next (s.onPort p fun P =>
        { P with link := .training, trainingDeadline := some (s.now + 20), validRun := 0, quiet := false })) ∧
    (s.ports[p].link = .training → exec c s = .next (s.onPort p fun P => { P with quiet := false }))) ∧
  (∀ (p : Port) (s : State), s.initializing = false →
    (s.ports[p].link = .down →
      exec (.rxInvalidSymbol p) s = .next (s.onPort p fun P => { P with validRun := 0 }) ∧
      exec (.signalTimeout p) s = .next (s.onPort p fun P => { P with validRun := 0, quiet := true })) ∧
    (s.ports[p].link = .training →
      exec (.rxInvalidSymbol p) s = .next (s.onPort p fun P =>
        { P with link := .down, trainingDeadline := none, validRun := 0, invalidRun := 0 }) ∧
      exec (.signalTimeout p) s = .next (s.onPort p fun P =>
        { P with link := .down, trainingDeadline := none, validRun := 0, invalidRun := 0, quiet := true }))) ∧
  ∀ (c : Instr) (p : Port) (s : State), isValidSymbol c p ∨ c = .rxInvalidSymbol p ∨ c = .signalTimeout p →
    s.ports[p].link = .disabled → s.resetDue = false → exec c s = .next s

/-- The training deadline, reached in TRAINING, takes the port to UP: runs and flags clear, PORT-UP raised, and during an
episode HOLD sent before anything else (R4, R173). The PORT-UP stands in the list, or it waits: which raises wait is free, and
that a PORT-UP also waits behind another that waits, where raises do not wait and after retraining too, is log entry 25's
deduction from R181. The record `sent` of the line is the model's own (log entry 13). Stated
where no event frame may be built and the list has room. -/
def Obligations.TrainingDeadlineEntersUp : Prop :=
  ∀ (p : Port) (s : State) (d : Tick), s.ports[p].link = .training → s.ports[p].trainingDeadline = some d →
    reached s.now d = true → s.PortLaw → s.resetDue = false → s.Undelivered → s.NoticeRoom →
    exec (.trainingDeadline p) s = .next
      ((s.raised .portUp (BitVec.ofNat 8 p.val) 0).onPort p fun P =>
        { P with
          link := .up, trainingDeadline := none, validRun := 0, invalidRun := 0, rx := .idle, tx := .idle
          partnerHold := false, holdDeadline := none, asked := []
          sent := match s.store.episode with
            | .none => P.sent
            | .low _ => P.sent ++ [.flow .hold] })

/-- The fourth invalid symbol in a row, and 50 µs without a transition, take an UP port to DOWN: reception and transmission
abandoned without ABORT, queues flushed, partner HOLD cleared, PORT-DOWN raised with its cause (R5, R6, R105, R173). That a
HOLD or GO asked and not yet sent is dropped is the model's reading (log entry 12), and the record `sent` of the line is the
model's own (log entry 13). Stated where no reset is pending and no event frame may be built. Whether the raise is taken at
once or waits is free (log entry 25). -/
def Obligations.LinkLossTakesPortDown : Prop :=
  ∀ (c : Instr) (cause : BitVec 32) (p : Port) (s : State),
    (c = .rxInvalidSymbol p ∧ s.ports[p].invalidRun = 3 ∧ cause = 1) ∨ (c = .signalTimeout p ∧ cause = 2) →
    s.Listens p → s.agent.resetPending = none → s.Undelivered → s.NoticeRoom →
    ∃ t, exec c s = .next t ∧
      t.ports[p].link = .down ∧ t.ports[p].Quiescent ∧ t.ports[p].trainingDeadline = none ∧
      t.ports[p].validRun = 0 ∧ t.ports[p].invalidRun = 0 ∧ t.ports[p].cfg = s.ports[p].cfg ∧
      t.ports[p].sent = s.ports[p].sent ∧
      t.ports[p].ctr.qFlushed = bumpBy (s.ports[p].allWaiting.length) s.ports[p].ctr.qFlushed ∧
      (s.ports[p].tx = .idle → t.ports[p].ctr.txAborted = s.ports[p].ctr.txAborted) ∧
      (∀ e, s.ports[p].tx = .sending e → t.ports[p].ctr.txAborted = bump s.ports[p].ctr.txAborted) ∧
      (∀ b n, s.ports[p].rx = .receiving b n → c = .signalTimeout p →
        t.ports[p].ctr.rxAborted = bump s.ports[p].ctr.rxAborted) ∧
      (∀ b n, s.ports[p].rx = .receiving b n → c = .rxInvalidSymbol p →
        t.ports[p].ctr.rxCode = bump s.ports[p].ctr.rxCode) ∧
      (s.ports[p].rx = .ignoring .cutOff → t.ports[p].ctr.rxLength = bump s.ports[p].ctr.rxLength) ∧
      (∀ q : Port, q ≠ p → (s.ports[q]).FlowOnly (t.ports[q])) ∧
      (s.raised .portDown (BitVec.ofNat 8 p.val) cause).SameEvents t ∧
      t.store.mem = s.store.mem ∧ s.SameTables t

/-! ## Reception (section 1.3) and taking a buffer (sections 2.2 to 2.4) -/

/-- START takes the top buffer of the free stack with count 1; with the stack empty it counts RX-NOBUF and the frame is
ignored; inside a frame it counts RX-ABORTED and gives the buffer back, and the new frame takes that same buffer, the one
most recently pushed; in IGNORING it ends the ignored frame, with RX-LENGTH where that was cut off, and a new frame begins as
from IDLE (R1, R9, R11, R14, R25, R26). Stated away from the pops that begin an episode or report the stock empty. -/
def Obligations.StartTakesTheTopBuffer : Prop :=
  ∀ (p : Port) (s : State), s.Listens p →
    (∀ (b : BufNo) (rest : List BufNo), s.ports[p].rx = .idle → s.store.free = b :: rest →
      ¬(rest.length = 8 ∧ s.store.episode = .none) → ¬(rest.length = 0 ∧ s.store.episode = .low false) →
      exec (.rxStart p) s = .next
        (({ s with store := { s.store with count := vset s.store.count b 1, free := rest } } : State).onPort p fun P =>
          { P.heard with rx := .receiving b 0 })) ∧
    (s.ports[p].rx = .idle → s.store.free = [] →
      exec (.rxStart p) s = .next (s.onPort p fun P =>
        { P.heard with rx := .ignoring .nobuf, ctr := { P.ctr with rxNobuf := bump P.ctr.rxNobuf } })) ∧
    (∀ (b : BufNo) (n : Nat), s.Fills p b n → ¬(s.store.depth = 8 ∧ s.store.episode = .none) →
      ¬(s.store.depth = 0 ∧ s.store.episode = .low false) →
      exec (.rxStart p) s = .next (({ s.pushed b with
          store := { (s.pushed b).store with count := s.store.count, free := s.store.free } } : State).onPort p fun P =>
        { P.heard with rx := .receiving b 0, ctr := { P.ctr with rxAborted := bump P.ctr.rxAborted } })) ∧
    ∀ cause : IgnoreCause, s.ports[p].rx = .ignoring cause →
      (∀ (b : BufNo) (rest : List BufNo), s.store.free = b :: rest →
        ¬(rest.length = 8 ∧ s.store.episode = .none) → ¬(rest.length = 0 ∧ s.store.episode = .low false) →
        exec (.rxStart p) s = .next
          (({ s with store := { s.store with count := vset s.store.count b 1, free := rest } } : State).onPort p fun P =>
            { P.heard with
              rx := .receiving b 0
              ctr := { P.ctr with rxLength := if cause = .cutOff then bump P.ctr.rxLength else P.ctr.rxLength } })) ∧
      (s.store.free = [] →
        exec (.rxStart p) s = .next (s.onPort p fun P =>
          { P.heard with
            rx := .ignoring .nobuf
            ctr := { P.ctr with
              rxNobuf := bump P.ctr.rxNobuf
              rxLength := if cause = .cutOff then bump P.ctr.rxLength else P.ctr.rxLength } }))

/-- The pop that leaves 8 buffers begins an episode: it is counted, HOLD is asked on every UP port, and BUFFER-LOW is raised
with the count as detail. The first pop of an episode that leaves the stack empty sets the empty-reported mark and raises
BUFFER-EMPTY with the count (R31, R32). Whether the raise is taken at once or waits is free (log entry 25). -/
def Obligations.PopAtEightBeginsEpisode : Prop :=
  ∀ (p : Port) (s : State) (b : BufNo) (rest : List BufNo), s.Listens p → s.ports[p].rx = .idle →
    s.store.free = b :: rest → s.Undelivered → s.NoticeRoom →
    (rest.length = 8 → s.store.episode = .none →
      exec (.rxStart p) s = .next
        (({ s.raised .bufferLow 0 (bump s.store.lowEpisodes) with
            store := { s.store with
              count := vset s.store.count b 1, free := rest, episode := .low false
              lowEpisodes := bump s.store.lowEpisodes }
            ports := vmap (fun P : PortState => if P.link = .up then { P with asked := P.asked ++ [.hold] } else P)
              s.ports } : State).onPort p fun P =>
          { P.heard with rx := .receiving b 0 })) ∧
    (rest = [] → s.store.episode = .low false →
      exec (.rxStart p) s = .next
        (({ s.raised .bufferEmpty 0 s.store.lowEpisodes with
            store := { s.store with
              count := vset s.store.count b 1, free := [], episode := .low true } } : State).onPort p fun P =>
          { P.heard with rx := .receiving b 0 }))

/-- A data byte stands at the next position, and the byte count rises by one; after the second byte a frame for the own
management label, and any frame while the stack holds 4 buffers or more, goes on. Two data bytes end a reception: the second
of a transit frame while the stack holds fewer than 4 buffers, with RX-NOBUF, and the 72nd, which is not stored and leaves
the count for the frame's end (R10, R11, R30). -/
def Obligations.DataByteIsStoredOrEndsReception : Prop :=
  (∀ (p : Port) (s : State) (b : BufNo) (n : Nat) (v : Byte), s.Fills p b n → n ≤ 70 → s.MemoryLaw →
    (n = 1 → 4 ≤ s.store.depth ∨ s.byteAt b 0 ++ v = ownLabel s.node) →
    ∃ t, exec (.rxDataByte p v) s = .next t ∧ t.byteAt b n = v ∧
      (∀ a, a ≠ storeAddr b n → Memory.read t.store.mem a = Memory.read s.store.mem a) ∧
      t = { s.onPort p fun P => { P.heard with rx := .receiving b (n + 1) } with
        store := { s.store with mem := t.store.mem } }) ∧
  (∀ (p : Port) (s : State) (b : BufNo) (v : Byte), s.Fills p b 1 → s.MemoryLaw → s.store.depth < 4 →
    s.byteAt b 0 ++ v ≠ ownLabel s.node →
    ∃ t, exec (.rxDataByte p v) s = .next t ∧
      (∀ a, a ≠ storeAddr b 1 → Memory.read t.store.mem a = Memory.read s.store.mem a) ∧
      t = { (s.onPort p fun P =>
              { P.heard with rx := .ignoring .reserve, ctr := { P.ctr with rxNobuf := bump P.ctr.rxNobuf } }) with
        store := { s.store with
          mem := t.store.mem, count := vset s.store.count b 0, free := b :: s.store.free } }) ∧
  ∀ (p : Port) (s : State) (b : BufNo) (v : Byte), s.Fills p b 71 →
    exec (.rxDataByte p v) s =
      .next ((s.pushed b).onPort p fun P => { P.heard with rx := .ignoring .cutOff })

/-- END refuses a frame at the first check it fails: RX-LENGTH before RX-CHECK, one count, the buffer pushed, the receive
state IDLE (R12). -/
def Obligations.EndRefusesBadFrame : Prop :=
  ∀ (p : Port) (pace : Pace) (s : State) (b : BufNo) (n : Nat), s.Ends p b n →
    (¬ s.LengthGood b n →
      exec (.rxEnd { port := p, pace := pace }) s = .next ((s.pushed b).onPort p fun P =>
        { P.heard with rx := .idle, ctr := { P.ctr with rxLength := bump P.ctr.rxLength } })) ∧
    (s.LengthGood b n → ¬ s.CheckGood b →
      exec (.rxEnd { port := p, pace := pace }) s = .next ((s.pushed b).onPort p fun P =>
        { P.heard with rx := .idle, ctr := { P.ctr with rxCheck := bump P.ctr.rxCheck } }))

/-- A good frame for the own management label becomes a request where its port admits management and fewer than 4 wait, and
is dropped with MGMT-OVERRUN or RX-MGMT-REFUSED otherwise; any other good frame with the own source number is dropped as
RX-LOOPED (R13, R133). -/
def Obligations.EndHandsOnOwnFrames : Prop :=
  ∀ (p : Port) (pace : Pace) (s : State) (b : BufNo) (n : Nat), s.GoodFrame p b n →
    ((s.headerAt b).label = ownLabel s.node → s.ports[p].cfg.admitMgmt = true → s.agent.queue.length < 4 →
      exec (.rxEnd { port := p, pace := pace }) s = .next (({ s with agent := { s.agent with
        queue := s.agent.queue ++ [{ buf := b, port := p }] } } : State).onPort p PortState.tookGood)) ∧
    ((s.headerAt b).label = ownLabel s.node → s.ports[p].cfg.admitMgmt = true → 4 ≤ s.agent.queue.length →
      exec (.rxEnd { port := p, pace := pace }) s = .next ((({ s with agent := { s.agent with
        mgmtOverrun := bump s.agent.mgmtOverrun } } : State).pushed b).onPort p PortState.tookGood)) ∧
    ((s.headerAt b).label = ownLabel s.node → s.ports[p].cfg.admitMgmt = false →
      exec (.rxEnd { port := p, pace := pace }) s = .next ((s.pushed b).onPort p fun P =>
        { P.tookGood with ctr := { P.tookGood.ctr with rxMgmtRefused := bump P.ctr.rxMgmtRefused } })) ∧
    ((s.headerAt b).label ≠ ownLabel s.node → (s.headerAt b).source = ownSource s.node →
      exec (.rxEnd { port := p, pace := pace }) s = .next ((s.pushed b).onPort p fun P =>
        { P.tookGood with ctr := { P.tookGood.ctr with rxLooped := bump P.ctr.rxLooped } }))

/-- ABORT ends a frame in RECEIVING with RX-ABORTED, and END or ABORT an ignored frame: with RX-LENGTH where it was cut off,
without a count otherwise. IDLE or an invalid symbol inside a frame costs the frame: RX-CODE, the buffer pushed, the rest
ignored; an invalid symbol short of the fourth in a row adds to the run of R5, which IDLE sets to 0. END is stated where the
port's earlier disposition has ended, as it has when END is taken (R1, R5, R11, R14, R45). -/
def Obligations.AbortsAndCodeErrorsEndFrames : Prop :=
  (∀ (p : Port) (s : State) (b : BufNo) (n : Nat), s.Fills p b n →
    exec (.rxAbort p) s = .next ((s.pushed b).onPort p fun P =>
      { P.heard with rx := .idle, ctr := { P.ctr with rxAborted := bump P.ctr.rxAborted } }) ∧
    exec (.rxIdle p) s = .next ((s.pushed b).onPort p fun P =>
      { P.heard with rx := .ignoring .code, ctr := { P.ctr with rxCode := bump P.ctr.rxCode } }) ∧
    (s.ports[p].invalidRun < 3 →
      exec (.rxInvalidSymbol p) s = .next ((s.pushed b).onPort p fun P =>
        { P with
          rx := .ignoring .code, ctr := { P.ctr with rxCode := bump P.ctr.rxCode }
          invalidRun := P.invalidRun + 1 }))) ∧
  ∀ (c : Instr) (p : Port) (s : State),
    c = .rxAbort p ∨ (s.disposing[p] = none ∧ ∃ pace, c = .rxEnd { port := p, pace := pace }) → s.Listens p →
    (s.ports[p].rx = .ignoring .cutOff →
      exec c s = .next (s.onPort p fun P =>
        { P.heard with rx := .idle, ctr := { P.ctr with rxLength := bump P.ctr.rxLength } })) ∧
    ∀ cause, cause ≠ .cutOff → s.ports[p].rx = .ignoring cause →
      exec c s = .next (s.onPort p fun P => { P.heard with rx := .idle })

/-! ## Transmission, flow control and service (sections 1.4, 1.5, 6.3) -/

/-- The transmitter sends the header rebuilt from the entry, the Length and payload of the buffer and a fresh Check; at END
the entry leaves, its reference ends, TX-FRAMES is counted, and the next entry in the order of service is taken unless the
port is held (R15, R16, R99, R100, R102, R183). The record `sent` of the line is the model's own (log entry 13). -/
def Obligations.TxEndSendsRebuiltFrameAndServesNext : Prop :=
  ∀ (p : Port) (s : State) (e : Entry), s.ports[p].tx = .sending e → s.PortLaw → s.resetDue = false →
    s.agent.resetPending = none →
    ∃ t, exec (.txEnd p) s = .next t ∧
      (∃ frame, t.ports[p].sent = s.ports[p].sent ++ [.frame frame] ∧
        frame = bytes16 e.hdr.label ++ [e.hdr.source, BitVec.ofNat 8 (64 * e.hdr.cls.val +
            (if e.hdr.stale then 32 else 0) + e.hdr.age.toNat), s.byteAt e.buf 4] ++ s.payloadAt e.buf ++
          bytes16 (crc16 (bytes16 e.hdr.label ++ [e.hdr.source, BitVec.ofNat 8 (64 * e.hdr.cls.val +
            (if e.hdr.stale then 32 else 0) + e.hdr.age.toNat), s.byteAt e.buf 4] ++ s.payloadAt e.buf))) ∧
      t.ports[p].ctr.txFrames = bump s.ports[p].ctr.txFrames ∧
      t.ports[p].queues[e.hdr.cls] <:+ s.ports[p].queues[e.hdr.cls].tail ∧
      (∀ c : Sys2Proof.Class, c ≠ e.hdr.cls → t.ports[p].queues[c] <:+ s.ports[p].queues[c]) ∧
      (s.ports[p].partnerHold = true → t.ports[p].tx = .idle) ∧
      (s.ports[p].partnerHold = false → t.ports[p].tx =
        match (s.ports[p].dropHead e.hdr.cls).firstSurvivor s.now with
        | some x => .sending x
        | none => .idle) ∧
      ((∀ c : Sys2Proof.Class, ∀ x ∈ s.ports[p].queues[c], s.ports[p].expired s.now x = true → x.buf ≠ e.buf) →
        t.store.count[e.buf] = s.store.count[e.buf] - 1) ∧
      t.ports[p].rx = s.ports[p].rx ∧ t.ports[p].link = s.ports[p].link ∧ t.ports[p].cfg = s.ports[p].cfg ∧
      (∀ q : Port, q ≠ p → (s.ports[q]).FlowOnly (t.ports[q])) ∧
      t.store.mem = s.store.mem ∧ s.SameEvents t ∧ s.SameTables t

/-- HOLD sets the partner-HOLD flag with a deadline of ten times the hold limit in ticks, none for a limit of 0; a HOLD while
the flag is set leaves the deadline, and a GO without HOLD changes nothing but what hearing a symbol does. Control symbols
asked go out one at a time in the order asked, without touching the frame being sent (R18, R19). The record `sent` of the
line is the model's own (log entry 13). -/
def Obligations.ControlSymbolsAreHeardAndSent : Prop :=
  (∀ (p : Port) (s : State), s.Listens p →
    (s.ports[p].partnerHold = false →
      exec (.rxHold p) s = .next (s.onPort p fun P => { P.heard with
        partnerHold := true
        holdDeadline :=
          if P.cfg.holdLimit = 0 then none else some (s.now + BitVec.ofNat 32 (10 * P.cfg.holdLimit.toNat)) }) ∧
      exec (.rxGo p) s = .next (s.onPort p PortState.heard)) ∧
    (s.ports[p].partnerHold = true → exec (.rxHold p) s = .next (s.onPort p PortState.heard))) ∧
  ∀ (p : Port) (s : State) (c : FlowSymbol) (rest : List FlowSymbol), s.ports[p].link = .up →
    s.ports[p].asked = c :: rest →
    exec (.sendControlSymbol p) s = .next (s.onPort p fun P => { P with asked := rest, sent := P.sent ++ [.flow c] })

/-- GO clears the flag and the deadline, and an idle transmitter takes the next entry: in strict class order, expired heads
discarded and counted on the way, the classes below the one served untouched (R19, R99, R100, R101). -/
def Obligations.GoServesStrictlyByClass : Prop :=
  ∀ (p : Port) (s : State), s.Listens p → s.ports[p].partnerHold = true → s.ports[p].tx = .idle → s.PortLaw →
    s.agent.resetPending = none →
    ∃ t, exec (.rxGo p) s = .next t ∧ t.ports[p].partnerHold = false ∧ t.ports[p].holdDeadline = none ∧
      (∀ x, s.ports[p].firstSurvivor s.now = some x →
        t.ports[p].tx = .sending x ∧
        (∀ c : Sys2Proof.Class, x.hdr.cls < c → t.ports[p].queues[c] = []) ∧
        t.ports[p].queues[x.hdr.cls] =
          s.ports[p].queues[x.hdr.cls].dropWhile (s.ports[p].expired s.now) ∧
        ∀ c : Sys2Proof.Class, c < x.hdr.cls → t.ports[p].queues[c] = s.ports[p].queues[c]) ∧
      (s.ports[p].firstSurvivor s.now = none →
        t.ports[p].tx = .idle ∧ ∀ c : Sys2Proof.Class, t.ports[p].queues[c] = []) ∧
      t.ports[p].ctr.qExpired =
        bumpBy (s.ports[p].entries - t.ports[p].entries) s.ports[p].ctr.qExpired ∧
      t.ports[p].rx = s.ports[p].rx ∧ t.ports[p].cfg = s.ports[p].cfg ∧
      (∀ q : Port, q ≠ p → (s.ports[q]).FlowOnly (t.ports[q])) ∧
      t.store.mem = s.store.mem ∧ s.SameEvents t ∧ s.SameTables t

/-- The hold deadline flushes the port: every entry but the one being sent is released and counted, HOLD-STUCK is counted and
raised, the deadline becomes none and the flag stays set (R20, R105, R106). Whether the raise is taken at once or waits is
free (log entry 25). -/
def Obligations.HoldDeadlineFlushesThePort : Prop :=
  ∀ (p : Port) (s : State) (d : Tick), s.ports[p].partnerHold = true → s.ports[p].holdDeadline = some d →
    reached s.now d = true → s.PortLaw → s.resetDue = false → s.agent.resetPending = none → s.Undelivered →
    s.NoticeRoom →
    ∃ t, exec (.holdDeadline p) s = .next t ∧
      t.ports[p].partnerHold = true ∧ t.ports[p].holdDeadline = none ∧ t.ports[p].tx = s.ports[p].tx ∧
      (s.ports[p].tx = .idle → ∀ c : Sys2Proof.Class, t.ports[p].queues[c] = []) ∧
      (∀ e, s.ports[p].tx = .sending e → t.ports[p].queues[e.hdr.cls] = [e] ∧
        ∀ c : Sys2Proof.Class, c ≠ e.hdr.cls → t.ports[p].queues[c] = []) ∧
      t.ports[p].ctr.qFlushed =
        bumpBy (s.ports[p].entries - t.ports[p].entries) s.ports[p].ctr.qFlushed ∧
      t.ports[p].ctr.holdStuck = bump s.ports[p].ctr.holdStuck ∧
      t.ports[p].rx = s.ports[p].rx ∧ t.ports[p].link = s.ports[p].link ∧ t.ports[p].cfg = s.ports[p].cfg ∧
      (∀ q : Port, q ≠ p → (s.ports[q]).FlowOnly (t.ports[q])) ∧
      (s.raised .holdStuck (BitVec.ofNat 8 p.val) 0).SameEvents t ∧
      t.store.mem = s.store.mem ∧ s.SameTables t

/-! ## Disposition (chapters 3 to 5) -/

/-- A miss on a FLOOD port with Age 0 counts MISS-FLOODED and AGE-DROPPED; with a greater Age the frame reaches every other
port that is UP and has room, with the received header and the Age less 1 (R48, R94 to R97). Stated for a disposition whose
stages follow at once (log entry 7). -/
def Obligations.FloodReachesEveryOtherUpPort : Prop :=
  ∀ (p : Port) (s : State) (b : BufNo) (n : Nat) (h : Header), s.Transit p b n → s.headerAt b = h → s.Misses p h →
    s.ports[p].cfg.missAction = .flood →
    (h.age = 0 →
      exec (.rxEnd { port := p, pace := .whole }) s = .next ((({ s with route := { s.route with
        missFlooded := bump s.route.missFlooded
        ageDropped := bump s.route.ageDropped } } : State).pushed b).onPort p PortState.tookGood)) ∧
    (h.age ≠ 0 →
      ∃ t, exec (.rxEnd { port := p, pace := .whole }) s = .next t ∧
        (∀ q : Port, q ≠ p → s.isUp q = true → s.ports[q].queues[h.cls].length < 16 →
          (s.ports[q]).Took (t.ports[q]) b { h with age := h.age - 1 } s.now .transit) ∧
        (∀ q : Port, q ≠ p → s.isUp q = true → 16 ≤ s.ports[q].queues[h.cls].length →
          ({ s.ports[q] with ctr := { s.ports[q].ctr with
            qFull := bump s.ports[q].ctr.qFull } } : PortState).FlowOnly (t.ports[q])) ∧
        (∀ q : Port, q ≠ p → s.isUp q = false → (s.ports[q]).FlowOnly (t.ports[q])) ∧
        (s.ports[p].tookGood).FlowOnly (t.ports[p]) ∧
        t.store.count[b] = Port.all.countP (fun q =>
          decide (q ≠ p ∧ s.isUp q = true ∧ s.ports[q].queues[h.cls].length < 16)) ∧
        t.store.mem = s.store.mem ∧ s.SameEvents t ∧
        ({ s with route := { s.route with missFlooded := bump s.route.missFlooded } } : State).SameTables t)

/-- A frame resolved to a FORWARD record: received with Age 0 it is dropped, AGE-DROPPED counted, no bucket charged, no slot
credited and its buffer pushed, after EGRESS-DOWN has been counted on the ports of its directed set that are not UP. With a
greater Age and a record without bucket and slot it leaves on every port of the egress mask but its ingress port, with the
label, class and age of the record's policies and its received Source and Stale mark; EGRESS-DOWN is counted where a port is
not UP, Q-FULL where its class queue is full (R39, R46, R64, R65, R67, R69 to R75, R94 to R97). Stated for a disposition whose
stages follow at once (log entry 7). -/
def Obligations.ForwardRecordSendsAppliedHeader : Prop :=
  ∀ (p : Port) (s : State) (b : BufNo) (n : Nat) (h : Header) (i : RouteIdx) (f : RecordIdx) (r : ActionRecord),
    s.Transit p b n → s.headerAt b = h → s.Wins p h i → s.Resolves ((s.route.bank s.route.active)[i]).action f b →
    s.action.records[f] = r → r.disposition = .forward →
    (h.age = 0 →
      exec (.rxEnd { port := p, pace := .whole }) s = .next ((({ s with
        action := s.counted ((s.route.bank s.route.active)[i]).action f b
        route := { s.route with ageDropped := bump s.route.ageDropped }
        ports := Vector.ofFn fun q : Port =>
          if q ≠ p ∧ PortSet.has r.egress q = true ∧ s.isUp q = false then
            { s.ports[q] with ctr := { s.ports[q].ctr with egressDown := bump s.ports[q].ctr.egressDown } }
          else s.ports[q] } : State).pushed b).onPort p PortState.tookGood)) ∧
    (h.age ≠ 0 → r.bucket = none → r.slot = none →
      ∃ t, exec (.rxEnd { port := p, pace := .whole }) s = .next t ∧
        (∀ q : Port, q ≠ p → PortSet.has r.egress q = true → s.isUp q = true →
          s.ports[q].queues[(r.applied h).cls].length < 16 →
          (s.ports[q]).Took (t.ports[q]) b (r.applied h) s.now .transit) ∧
        (∀ q : Port, q ≠ p → PortSet.has r.egress q = true → s.isUp q = true →
          16 ≤ s.ports[q].queues[(r.applied h).cls].length →
          ({ s.ports[q] with ctr := { s.ports[q].ctr with
            qFull := bump s.ports[q].ctr.qFull } } : PortState).FlowOnly (t.ports[q])) ∧
        (∀ q : Port, q ≠ p → PortSet.has r.egress q = true → s.isUp q = false →
          ({ s.ports[q] with ctr := { s.ports[q].ctr with
            egressDown := bump s.ports[q].ctr.egressDown } } : PortState).FlowOnly (t.ports[q])) ∧
        (∀ q : Port, q ≠ p → PortSet.has r.egress q = false → (s.ports[q]).FlowOnly (t.ports[q])) ∧
        (s.ports[p].tookGood).FlowOnly (t.ports[p]) ∧
        t.store.count[b] = Port.all.countP (fun q => decide (q ≠ p ∧ PortSet.has r.egress q = true ∧
          s.isUp q = true ∧ s.ports[q].queues[(r.applied h).cls].length < 16)) ∧
        t.store.mem = s.store.mem ∧ s.SameEvents t ∧
        ({ s with action := s.counted ((s.route.bank s.route.active)[i]).action f b } : State).SameTables t)

/-- Three ways in which a frame reaches no queue and gives its buffer back. A miss on a DROP port: MISS-DROPPED and nothing
else, whatever the Age (R49). A dispatch that lands on a record with a dispatch part: DISPATCH-NEST, no hit, no bucket, no
slot (R64, R66). A DROP record with neither bucket nor slot: the hit and nothing else, whatever the Age (R67, R70). Stated for
a disposition whose stages follow at once (log entry 7). -/
def Obligations.DroppedFramesReachNoQueue : Prop :=
  (∀ (p : Port) (s : State) (b : BufNo) (n : Nat), s.TransitFrame p b n →
    s.Misses p (s.headerAt b) → s.ports[p].cfg.missAction = .drop →
    exec (.rxEnd { port := p, pace := .whole }) s = .next ((({ s with route := { s.route with
      missDropped := bump s.route.missDropped } } : State).pushed b).onPort p PortState.tookGood)) ∧
  (∀ (p : Port) (s : State) (b : BufNo) (n : Nat) (i : RouteIdx) (base f : RecordIdx) (d : DispatchPart),
    s.TransitFrame p b n → s.Wins p (s.headerAt b) i →
    ((s.route.bank s.route.active)[i]).action = base → s.action.records[base].dispatch = some d →
    d.offset.val < s.lengthAt b →
    f.val = base.val - base.val % 16 +
      (base.val % 16 + (s.byteAt b (5 + d.offset.val) &&& d.mask.setWidth 8).toNat) % 16 →
    s.action.records[f].dispatch ≠ none →
    exec (.rxEnd { port := p, pace := .whole }) s = .next ((({ s with action := { s.action with
      dispatchNest := bump s.action.dispatchNest } } : State).pushed b).onPort p PortState.tookGood)) ∧
  ∀ (p : Port) (s : State) (b : BufNo) (n : Nat) (i : RouteIdx) (f : RecordIdx),
    s.TransitFrame p b n → s.Wins p (s.headerAt b) i →
    s.Resolves ((s.route.bank s.route.active)[i]).action f b → s.action.records[f].disposition = .drop →
    s.action.records[f].bucket = none → s.action.records[f].slot = none →
    exec (.rxEnd { port := p, pace := .whole }) s = .next ((({ s with
      action := s.counted ((s.route.bank s.route.active)[i]).action f b } : State).pushed b).onPort p
        PortState.tookGood)

/-- Stage 4: an ENABLED bucket whose credit covers the frame's cost of 5 + Length is charged and counts CONFORM; otherwise it
keeps its credit and counts EXCEED, and its exceed action drops the frame before its slot and its queues, or sends it on in
class 0; a DISABLED bucket is left as it is. A frame that conforms, or meets a DISABLED bucket, goes on with its applied class
unchanged: a FORWARD frame to its queues, a frame of a DROP record to none (R70, R82 to R84). Stated for a disposition whose
stages follow at once (log entry 7). -/
def Obligations.BucketChargesOrExceeds : Prop :=
  ∀ (p : Port) (s : State) (b : BufNo) (n : Nat) (h : Header) (i : RouteIdx) (f : RecordIdx) (r : ActionRecord)
    (k : BucketNo) (x : Bucket),
    s.Transit p b n → s.headerAt b = h → s.Wins p h i → s.Resolves ((s.route.bank s.route.active)[i]).action f b →
    s.action.records[f] = r → r.bucket = some k → s.buckets[k] = x → r.disposition = .drop ∨ h.age ≠ 0 →
    ∃ t, exec (.rxEnd { port := p, pace := .whole }) s = .next t ∧
      (∀ j : BucketNo, j ≠ k → t.buckets[j] = s.buckets[j]) ∧
      (x.enabled = false → t.buckets[k] = x) ∧
      (x.enabled = true → 5 + s.lengthAt b ≤ x.credit →
        t.buckets[k] = { x with credit := x.credit - (5 + s.lengthAt b), conform := bump x.conform }) ∧
      (x.enabled = false ∨ 5 + s.lengthAt b ≤ x.credit → r.disposition = .forward → r.slot = none →
        ∀ q : Port, q ≠ p → PortSet.has r.egress q = true → s.isUp q = true →
          s.ports[q].queues[(r.applied h).cls].length < 16 →
          (s.ports[q]).Took (t.ports[q]) b (r.applied h) s.now .transit) ∧
      (r.disposition = .drop → r.slot = none → t.store.count[b] = 0 ∧
        ∀ (q : Port) (c : Sys2Proof.Class), t.ports[q].queues[c] = s.ports[q].queues[c]) ∧
      (x.enabled = true → x.credit < 5 + s.lengthAt b →
        t.buckets[k] = { x with exceeds := bump x.exceeds } ∧
        (x.exceed = .drop → t.slots = s.slots ∧ t.store.count[b] = 0 ∧
          ∀ (q : Port) (c : Sys2Proof.Class), t.ports[q].queues[c] = s.ports[q].queues[c]) ∧
        (x.exceed = .demote → r.disposition = .forward → r.slot = none →
          ∀ q : Port, q ≠ p → PortSet.has r.egress q = true → s.isUp q = true →
            s.ports[q].queues[(0 : Sys2Proof.Class)].length < 16 →
            (s.ports[q]).Took (t.ports[q]) b { r.applied h with cls := 0 } s.now .transit)) ∧
      t.action = s.counted ((s.route.bank s.route.active)[i]).action f b ∧ t.route = s.route ∧ t.now = s.now

/-- Stage 5: an arrival at an armed slot makes it FRESH with a deadline one period and one grace ahead, counts ARRIVALS and,
from LATE or LOST, RECOVERIES with SLOT-RECOVERED; a FORWARD frame becomes the held one where hold is on, and goes on to its
queues; a frame of a DROP record reaches no queue and gives its buffer back; a slot that is OFF is left as it is (R70, R119
to R121, R129). Stated for a disposition whose stages follow at once (log entry 7). Whether the raise is taken at once or
waits is free (log entry 25). -/
def Obligations.ArrivalMakesSlotFresh : Prop :=
  ∀ (p : Port) (s : State) (b : BufNo) (n : Nat) (h : Header) (i : RouteIdx) (f : RecordIdx) (r : ActionRecord)
    (k : SlotNo) (x : Slot),
    s.Transit p b n → s.headerAt b = h → s.Wins p h i → s.Resolves ((s.route.bank s.route.active)[i]).action f b →
    s.action.records[f] = r → r.bucket = none → r.slot = some k → s.slots[k] = x →
    r.disposition = .drop ∨ h.age ≠ 0 → s.Undelivered → s.NoticeRoom →
    ∃ t, exec (.rxEnd { port := p, pace := .whole }) s = .next t ∧
      (∀ j : SlotNo, j ≠ k → t.slots[j] = s.slots[j]) ∧
      (x.state = .off → t.slots[k] = x ∧ s.SameEvents t) ∧
      (x.state ≠ .off → t.slots[k] = { x with
        state := .fresh
        deadline := some (s.now + x.cfg.period.setWidth 32 + x.cfg.grace.setWidth 32)
        miss := 0
        lastArrival := s.now
        held := if r.disposition = .forward ∧ x.cfg.hold = true then
            some { buf := b, egress := r.egress &&& ~~~(1#4 <<< p.val), label := (r.applied h).label
                   cls := (r.applied h).cls, age := (r.applied h).age, source := h.source }
          else x.held
        arrivals := bump x.arrivals
        recoveries := if x.state = .late ∨ x.state = .lost then bump x.recoveries else x.recoveries }) ∧
      (x.state = .waiting ∨ x.state = .fresh → s.SameEvents t) ∧
      (x.state = .late ∨ x.state = .lost →
        (s.raised .slotRecovered (BitVec.ofNat 8 k.val) (BitVec.ofNat 32 x.miss)).SameEvents t) ∧
      (r.disposition = .forward → ∀ q : Port, q ≠ p → PortSet.has r.egress q = true → s.isUp q = true →
        s.ports[q].queues[(r.applied h).cls].length < 16 →
        (s.ports[q]).Took (t.ports[q]) b (r.applied h) s.now .transit) ∧
      (r.disposition = .drop → t.store.count[b] = 0 ∧
        ∀ (q : Port) (c : Sys2Proof.Class), t.ports[q].queues[c] = s.ports[q].queues[c]) ∧
      t.action = s.counted ((s.route.bank s.route.active)[i]).action f b ∧ t.route = s.route ∧
      t.buckets = s.buckets ∧ t.now = s.now

/-- Between two stages of a disposition other happenings may be taken (R44, R45). However many stages follow END at once, the
part takes the others while no command waits, to the same end, as stated where raises do not wait and no copy runs. No
command but RX_END, TICK and the resets touches a disposition in progress. An attempt is made as its port stands at its own
moment: an entry accepted carries the tick of its acceptance, and a port that has left UP since the egress set was formed
counts EGRESS-DOWN (R71, R93, R94, R98). And a port's earlier disposition ends before its next frame, received or ignored,
reaches END. The pace, and the step on an empty queue, are the model's own (log entry 7). -/
def Obligations.DispositionsPauseBetweenStages : Prop :=
  (∀ (p : Port) (k : Fin 10) (s t u : State), s.pending = [] → s.resetDue = false → s.agent.resetPending = none →
    (∀ q : Port, s.disposing[q] = none) → s.transit = [] → s.raisesWait = false → s.route.copier = none →
    exec (.rxEnd { port := p, pace := .whole }) s = .next t →
    exec (.rxEnd { port := p, pace := .upTo k }) s = .next u → u.idling 10 = t) ∧
  (∀ (c : Instr) (s t : State), exec c s = .next t → s.resetDue = false → s.agent.resetPending = none →
    (∀ e, c ≠ .rxEnd e) → (∀ node, c ≠ .rstnRelease node) → c ≠ .tick → c ≠ .resetFull → c ≠ .resetForwarding →
    t.disposing = s.disposing) ∧
  (∀ (p q : Port) (d : Disposal) (s : State), s.pending = [] → s.resetDue = false → s.agent.resetPending = none →
    s.disposing[p] = some d → (∀ p' : Port, p' ≠ p → s.disposing[p'] = none) → s.transit = [] → d.stage = .enqueue →
    PortSet.has d.egress q = true → (∀ q' : Port, q' < q → PortSet.has d.egress q' = false) → s.PortLaw →
    ∃ t, step s = .next t ∧
      t.disposing = vset s.disposing p (some { d with
        egress := d.egress &&& ~~~(1#4 <<< q.val), taken := d.taken + 1
        stage := if d.egress &&& ~~~(1#4 <<< q.val) = 0 then .release else .enqueue }) ∧
      (s.isUp q = true → s.ports[q].queues[d.applied.cls].length < 16 →
        (s.ports[q]).Took (t.ports[q]) d.buf d.applied s.now .transit) ∧
      (s.isUp q = true → 16 ≤ s.ports[q].queues[d.applied.cls].length →
        t.ports = vset s.ports q { s.ports[q] with ctr := { s.ports[q].ctr with
          qFull := bump s.ports[q].ctr.qFull } }) ∧
      (s.isUp q = false →
        t.ports = vset s.ports q { s.ports[q] with ctr := { s.ports[q].ctr with
          egressDown := bump s.ports[q].ctr.egressDown } })) ∧
  ∀ (p : Port) (pace : Pace) (s : State), s.Listens p → s.ports[p].rx ≠ .idle →
    exec (.rxEnd { port := p, pace := pace }) s = exec (.rxEnd { port := p, pace := pace }) (s.settle p) ∧
      (s.settle p).disposing[p] = none

/-- Every step keeps the law of the dispositions in progress: neither port set of a disposition holds its ingress port, and one
that may still reach a queue was received with an Age above 0. So a step adds a TRANSIT entry only for a frame that came in on
another port, and for one in disposition only with a received Age above 0 (R42, R48, R71, R74). -/
def Obligations.DispositionLawIsKept : Prop :=
  ∀ s t : State, s.DispositionLaw → step s = .next t →
    t.DispositionLaw ∧
      ∀ (q : Port) (c : Sys2Proof.Class), ∀ e ∈ t.ports[q].queues[c], e.origin = .transit →
        e ∈ s.ports[q].queues[c] ∨
          ∃ p : Port, p ≠ q ∧
            ((∃ d, s.disposing[p] = some d ∧ d.buf = e.buf ∧ d.received.age ≠ 0) ∨
              ∃ n, s.ports[p].rx = .receiving e.buf n ∧ (s.disposing[p] = none → (s.headerAt e.buf).age ≠ 0))

/-! ## Time, copy and deadlines (chapters 3, 5, 7, 8, 10) -/

/-- A tick adds 1 to the counter and the rate to the credit of every ENABLED bucket, up to its depth, and leaves every
DISABLED bucket; after `k` ticks the credit is the lesser of the depth and the credit plus `k` times the rate (R77, R85).
Stated where all that the counter's present value brings has been taken. What has not been taken is taken first, so that each
block has acted on one value of the counter before the next (R78, R79): where one tick happening is left, TICK is that
happening and then the tick. The order in which TICK takes several is the model's (log entry 6), and whether the raises that
follow wait is free (log entry 25). -/
def Obligations.RefillsRaiseCreditToDepth : Prop :=
  (∀ s : State, s.DeadlinesTaken → ∃ t, exec .tick s = .next t ∧
    t = { s with now := s.now + 1, buckets := t.buckets, raisesWait := t.raisesWait } ∧
    ∀ n : BucketNo, (s.buckets[n].enabled = false → t.buckets[n] = s.buckets[n]) ∧
      (s.buckets[n].enabled = true → t.buckets[n] = { s.buckets[n] with
        credit := min s.buckets[n].depth (s.buckets[n].credit + s.buckets[n].rate) })) ∧
  (∀ (k : Nat) (f : Nat → State), (∀ j, j < k → (f j).DeadlinesTaken ∧ exec .tick (f j) = .next (f (j + 1))) →
    ∀ n : BucketNo, (f 0).buckets[n].enabled = true → (f 0).buckets[n].credit ≤ (f 0).buckets[n].depth →
      (f k).buckets[n] = { (f 0).buckets[n] with
        credit := min (f 0).buckets[n].depth ((f 0).buckets[n].credit + k * (f 0).buckets[n].rate) }) ∧
  ∀ (c : Instr) (s t : State), c ∈ tickHappenings → s.NoneStale → (∀ r ∈ s.transit, r.tick = s.now) →
    (∀ c' ∈ tickHappenings, c' ≠ c → exec c' s = .next s) → exec c s = .next t →
    (∀ c' ∈ tickHappenings, exec c' t = .next t) → exec .tick s = exec .tick t

/-- The copier takes entry after entry, each whole, from the active bank to the staging bank, and when it has taken entry 63
the banks are equal and the state is COPYING still. Copy done makes whatever is left equal: the copier is idle, the state
CLEAN. The active bank, the roles and the epoch stand throughout. A copy that started before the last advance has ended before
the next (R55). That entries are copied while no command waits, and the others at copy done, is the model's choice, and so is
that copy done changes nothing where the copier is idle (log entries 3 and 4). -/
def Obligations.CopyMakesBanksEqual : Prop :=
  (∀ (s : State) (c : BankCopy) (i : RouteIdx), s.pending = [] → s.transit = [] →
    (∀ p : Port, s.disposing[p] = none) → s.route.copier = some c → c.next = i.val →
    ∃ t, step s = .next t ∧
      t = { s with route := { s.route with
        bankA := t.route.bankA, bankB := t.route.bankB, copier := some { c with next := c.next + 1 } } } ∧
      t.route.bank s.route.active = s.route.bank s.route.active ∧
      ∀ j : RouteIdx, (t.route.bank s.route.active.other)[j] =
        if j = i then (s.route.bank s.route.active)[i] else (s.route.bank s.route.active.other)[j]) ∧
  (∀ (s : State) (c : BankCopy), s.transit = [] → s.pending = [] → (∀ p : Port, s.disposing[p] = none) →
    s.route.copier = some c → s.BankLaw →
    s.idling (64 - c.next) = { s with route := { s.route with
      bankA := s.route.bank s.route.active, bankB := s.route.bank s.route.active
      copier := some { c with next := 64 } } }) ∧
  (∀ (s : State) (c : BankCopy), s.route.copier = some c → s.BankLaw →
    exec .copyDone s = .next { s with route := { s.route with
      bankA := s.route.bank s.route.active, bankB := s.route.bank s.route.active, staging := .clean
      copier := none } }) ∧
  (∀ (s t : State) (c : BankCopy), s.route.copier = some c → c.begun ≠ s.now →
    (∀ (p : Port) (d : Disposal), s.disposing[p] = some d → d.begun = s.now) → (∀ r ∈ s.transit, r.tick = s.now) →
    exec .copyDone s = .next t → exec .tick s = exec .tick t) ∧
  ∀ s : State, s.route.copier = none → exec .copyDone s = .next s

/-- The start window passes in WAITING: the slot is LOST without a deadline, and SLOT-NEVER-SEEN with the start window is
raised, and taken as the list stands: appended, folded into NOTICES-LOST in the sixteenth place, or counted on it; or the raise
waits. A miss counts once. Short of the loss count, where no substitute is due, the slot is LATE, its deadline one period after
the one reached, and the first miss raises SLOT-LATE with the last arrival. The miss that reaches the loss count makes it LOST:
no deadline, no held buffer, no substitute, SLOT-LOST with the last arrival, and the reference of a held buffer ends (R123 to
R125, R129, R174, R175). Which raises wait is free (log entry 25). -/
def Obligations.SlotDeadlinesMakeLateOrLost : Prop :=
  (∀ (n : SlotNo) (s : State) (d : Tick), s.slots[n].state = .waiting → s.slots[n].deadline = some d →
    reached s.now d = true → s.resetDue = false → s.Undelivered →
    ∃ t, exec (.slotStartWindowExpiry n) s = .next t ∧
      t = { s with
        slots := vset s.slots n { s.slots[n] with state := .lost, deadline := none }
        events := t.events, transit := t.transit } ∧
      (s.NoticeRoom → (s.raised .slotNeverSeen (BitVec.ofNat 8 n.val)
        (s.slots[n].cfg.startWindow.setWidth 32)).SameEvents t) ∧
      (s.raisesWait = false → s.events.notices.length = 15 → (∀ x ∈ s.events.notices, x.kind ≠ .noticesLost) →
        t.events = s.events.plus .noticesLost 0 s.now 1 ∧ t.transit = s.transit) ∧
      (∀ older x, s.raisesWait = false → s.events.notices = older ++ [x] → (∀ y ∈ older, y.kind ≠ .noticesLost) →
        x.kind = .noticesLost →
        t.events = { s.events with notices := older ++
          [{ x with detail := if x.detail.toNat < 65535 then x.detail + 1 else x.detail }] } ∧
        t.transit = s.transit)) ∧
  ∀ (n : SlotNo) (s : State) (d : Tick) (x : Slot), s.slots[n] = x → x.state = .fresh ∨ x.state = .late →
    x.deadline = some d → reached s.now d = true → s.resetDue = false → s.Undelivered → s.NoticeRoom →
    (x.miss + 1 < x.cfg.lossCount → x.cfg.substitute = false ∨ x.held = none →
      exec (.slotDeadline n) s = .next {
        (if x.state = .fresh then s.raised .slotLate (BitVec.ofNat 8 n.val) x.lastArrival else s) with
        slots := vset s.slots n { x with
          state := .late, miss := x.miss + 1, misses := bump x.misses
          deadline := some (d + x.cfg.period.setWidth 32) } }) ∧
    (x.miss + 1 = x.cfg.lossCount →
      ∃ t, exec (.slotDeadline n) s = .next t ∧
        t.slots = vset s.slots n { x with
          state := .lost, miss := x.miss + 1, misses := bump x.misses, deadline := none, held := none } ∧
        (s.raised .slotLost (BitVec.ofNat 8 n.val) x.lastArrival).SameEvents t ∧
        (x.held = none → t.store = s.store ∧ t.ports = s.ports) ∧
        (∀ h, x.held = some h →
          t.store.count = vset s.store.count h.buf (s.store.count[h.buf] - 1) ∧
          t.store.free = (if s.store.count[h.buf] = 1 then h.buf :: s.store.free else s.store.free) ∧
          ∀ p : Port, (s.ports[p]).FlowOnly (t.ports[p])) ∧
        t.store.mem = s.store.mem ∧ ({ s with slots := t.slots } : State).SameTables t)

/-- A miss short of the loss count, of a slot with substitute on and a buffer held: SUBSTITUTES is counted once, and every port
of the stored egress set that is UP and has room takes an entry for the held buffer with the stored header and Stale set; the
hold stands. The first miss, of a FRESH slot, raises SLOT-LATE in the same happening (R124, R126); that one is stated where no
event frame may be built. Whether the raise is taken at once or waits is free (log entry 25). -/
def Obligations.SubstitutesCarryStoredHeaderAndStale : Prop :=
  ∀ (n : SlotNo) (s : State) (d : Tick) (x : Slot) (h : Held), s.slots[n] = x →
    x.state = .late ∨ (x.state = .fresh ∧ s.Undelivered ∧ s.NoticeRoom) →
    x.deadline = some d → reached s.now d = true → x.miss + 1 < x.cfg.lossCount → x.cfg.substitute = true →
    x.held = some h → s.PortLaw → s.resetDue = false → s.agent.resetPending = none → 0 < s.store.count[h.buf] →
    ∃ t, exec (.slotDeadline n) s = .next t ∧
      (∀ q : Port, PortSet.has h.egress q = true → s.isUp q = true → s.ports[q].queues[h.cls].length < 16 →
        (s.ports[q]).Took (t.ports[q]) h.buf
          { label := h.label, source := h.source, cls := h.cls, stale := true, age := h.age } s.now .substitute) ∧
      (∀ q : Port, PortSet.has h.egress q = true → s.isUp q = true → 16 ≤ s.ports[q].queues[h.cls].length →
        ({ s.ports[q] with ctr := { s.ports[q].ctr with
          qFull := bump s.ports[q].ctr.qFull } } : PortState).FlowOnly (t.ports[q])) ∧
      (∀ q : Port, PortSet.has h.egress q = true → s.isUp q = false →
        ({ s.ports[q] with ctr := { s.ports[q].ctr with
          egressDown := bump s.ports[q].ctr.egressDown } } : PortState).FlowOnly (t.ports[q])) ∧
      (∀ q : Port, PortSet.has h.egress q = false → (s.ports[q]).FlowOnly (t.ports[q])) ∧
      t.store.mem = s.store.mem ∧
      (if x.state = .fresh then s.raised .slotLate (BitVec.ofNat 8 n.val) x.lastArrival else s).SameEvents t ∧
      ({ s with slots := vset s.slots n { x with
          state := .late, miss := x.miss + 1, misses := bump x.misses, substitutes := bump x.substitutes
          deadline := some (d + x.cfg.period.setWidth 32) } } : State).SameTables t

/-- The lease deadline closes the session: every session field takes its CLOSED value, staged entries not committed are given
up to a copy, the Event Queue clears its flag and stops its timer, and LEASE-EXPIRED with the holder Source is raised (R56,
R145, R146, R180). Whether the raise is taken at once or waits is free (log entry 25). -/
def Obligations.LeaseExpiryClosesTheSession : Prop :=
  ∀ (s : State) (d : Tick), s.agent.session.isOpen = true → s.agent.session.leaseDeadline = some d →
    reached s.now d = true → s.resetDue = false → s.NoticeRoom →
    exec .leaseExpiry s = .next { s.raised .leaseExpired 0 (s.agent.session.holder.setWidth 32) with
      agent := { s.agent with session :=
        { isOpen := false, holder := 0, replyLabel := 0, eventPort := 0, token := 0, expected := 0, leaseLength := 0
          leaseDeadline := none, eventsEnabled := false, cache := none } }
      route := (match s.route.staging with
        | .modified => { s.route with staging := .copying, copier := some { next := 0, begun := s.now } }
        | .clean => s.route
        | .copying => s.route)
      events := { (s.raised .leaseExpired 0 (s.agent.session.holder.setWidth 32)).events with
        outstanding := false, timer := none } }

/-- RESET FULL, at its 50 ms limit, leaves every block at its reset values but for the tick counter, NODE, the token counter
and the stored bytes, which the model leaves standing (log entry 20); every disposition in progress ends; a frame being sent
ends in ABORT; RESET-DONE FULL is the one notice (R8, R36, R44, R57, R60, R131, R148, R149, R170, R181). That a raise that
waits ends with the reset, so that RESET-DONE FULL is the one notice, is the model's deduction (log entry 25), that HOLD and
GO asked and not yet sent are dropped is its reading (log entry 12), and the record `sent` of the line is its own (log entry
13). -/
def Obligations.ResetFullTakesEffectAtItsLimit : Prop :=
  ∀ (s : State) (r : PendingReset), s.agent.resetPending = some r → r.scope = .full → reached s.now r.limit = true →
    ∃ t, exec .resetLimitExpiry s = .next t ∧
      t.node = s.node ∧ t.initializing = s.initializing ∧ t.now = s.now ∧ t.pending = s.pending ∧ t.resetDue = false ∧
      (∀ p : Port, t.disposing[p] = none) ∧ t.transit = [] ∧ t.raisesWait = s.raisesWait ∧
      t.store = { mem := s.store.mem, count := Vector.replicate 128 0, free := List.finRange 128, episode := .none
                  lowEpisodes := 0 } ∧
      t.route = .reset ∧ t.action = .reset ∧ t.buckets = Vector.replicate 32 .reset ∧
      t.slots = Vector.replicate 32 .reset ∧
      t.agent = { queue := [], executing := none, session := .closed, tokenCounter := s.agent.tokenCounter
                  resetPending := none, mgmtOverrun := 0, mgmtMalformed := 0, respLost := 0 } ∧
      t.events = { notices := [{ sequence := 0, kind := .resetDone, subject := 0, tick := s.now, detail := 1 }]
                   nextSequence := 1, outstanding := false, timer := none, interval := 20 } ∧
      ∀ p : Port, t.ports[p].link = .down ∧ t.ports[p].Quiescent ∧ t.ports[p].trainingDeadline = none ∧
        t.ports[p].validRun = 0 ∧ t.ports[p].invalidRun = 0 ∧ t.ports[p].cfg = .reset ∧ t.ports[p].ctr = .zero ∧
        (s.ports[p].tx = .idle → t.ports[p].sent = s.ports[p].sent) ∧
        ∀ e, s.ports[p].tx = .sending e → t.ports[p].sent = s.ports[p].sent ++ [.abort]

/-- RESET FORWARDING, at its 50 ms limit, empties what is under way and keeps what is configured: links, port configuration,
tables, session and counters stand; receptions, transmissions and queues end with RX-ABORTED or RX-LENGTH, TX-ABORTED and
Q-FLUSHED; dispositions in progress end; every ENABLED bucket is full, every armed slot waits anew, every buffer is free, GO
is asked where an episode was on; RESET-DONE FORWARDING is queued, and a delivery attempt follows at once where its
conditions hold (R8, R37, R44, R58, R90, R106, R132, R148, R149, R171, R182). That a raise that waits goes on waiting, and
that RESET-DONE FORWARDING is taken at once even where raises wait, are the model's deductions (log entry 25), that the
stored bytes stand is its choice (log entry 20), and the record `sent` of the line is the model's own (log entry 13). -/
def Obligations.ResetForwardingTakesEffectAtItsLimit : Prop :=
  ∀ (s : State) (r : PendingReset), s.agent.resetPending = some r → r.scope = .forwarding →
    reached s.now r.limit = true → s.NoticeRoom →
    ∃ u : State, exec .resetLimitExpiry s = .next u.tryDeliver ∧
      u.node = s.node ∧ u.initializing = s.initializing ∧ u.now = s.now ∧ u.pending = s.pending ∧ u.resetDue = false ∧
      (∀ p : Port, u.disposing[p] = none) ∧ u.transit = s.transit ∧ u.raisesWait = s.raisesWait ∧
      u.route = s.route ∧ u.action = s.action ∧
      (∀ n : BucketNo, u.buckets[n] = if s.buckets[n].enabled then
          { s.buckets[n] with credit := s.buckets[n].depth } else s.buckets[n]) ∧
      (∀ n : SlotNo, (s.slots[n].state = .off → u.slots[n] = s.slots[n]) ∧
        (s.slots[n].state ≠ .off → u.slots[n] = { s.slots[n] with
          state := .waiting, miss := 0, held := none
          deadline := if s.slots[n].cfg.startWindow = 0 then none
            else some (s.now + s.slots[n].cfg.startWindow.setWidth 32) })) ∧
      u.agent = { s.agent with queue := [], executing := none, resetPending := none } ∧
      u.events = { s.events.plus .resetDone 0 s.now 2 with outstanding := false, timer := none } ∧
      u.store = { s.store with count := Vector.replicate 128 0, free := List.finRange 128, episode := .none } ∧
      ∀ p : Port, u.ports[p] = { s.ports[p] with
        rx := .idle, tx := .idle, queues := Vector.replicate 4 []
        asked := s.ports[p].asked ++ (if s.store.episode ≠ .none ∧ s.ports[p].link = .up then [.go] else [])
        sent := match s.ports[p].tx with
          | .idle => s.ports[p].sent
          | .sending _ => s.ports[p].sent ++ [.abort]
        ctr := { s.ports[p].ctr with
          rxAborted := match s.ports[p].rx with
            | .receiving _ _ => bump s.ports[p].ctr.rxAborted
            | .idle => s.ports[p].ctr.rxAborted
            | .ignoring _ => s.ports[p].ctr.rxAborted
          rxLength := if s.ports[p].rx = .ignoring .cutOff then bump s.ports[p].ctr.rxLength
            else s.ports[p].ctr.rxLength
          txAborted := match s.ports[p].tx with
            | .idle => s.ports[p].ctr.txAborted
            | .sending _ => bump s.ports[p].ctr.txAborted
          qFlushed := bumpBy s.ports[p].allWaiting.length s.ports[p].ctr.qFlushed } }

/-- A pending reset takes effect before its limit in the happening that reports its response: at the END of the frame that
carries it, at its refusal at the enqueue, and at its loss, by a flush or with the link. That the
happening's own effects come first, its notice among them, and the reset after them, as at the limit, is the model's reading
(log entry 10); the record `sent` of the line and the mark `quiet` are the model's own (log entries 13 and 14) (R16, R20, R100,
R107, R137, R147, R148). Whether the raise is taken at once or waits is free (log entry 25). -/
def Obligations.PendingResetTakesEffect : Prop :=
  (∀ (p : Port) (s : State) (e : Entry) (r : PendingReset), s.ports[p].tx = .sending e → e.origin = .response →
    s.agent.resetPending = some r → r.buf = e.buf → s.store.count[e.buf] = 1 → s.resetDue = false →
    exec (.txEnd p) s = exec .resetLimitExpiry (({ s.pushed e.buf with
      agent := { s.agent with resetPending := some { r with limit := s.now } } } : State).onPort p fun P =>
        { P.dropHead e.hdr.cls with
          tx := .idle, sent := P.sent ++ [.frame (s.frameBytes e)]
          ctr := { P.ctr with txFrames := bump P.ctr.txFrames } })) ∧
  (∀ (i : Instr) (scope : ResetScope) (s : State) (v : RequestView) (rest : List Request), s.Admits v →
    s.agent.queue = v.req :: rest → s.agent.executing = none → 5 ≤ s.lengthAt v.req.buf → s.viewRequest v.req = v →
    s.resetDue = false → s.agent.resetPending = none → s.store.count[v.req.buf] = 1 → v.opcode = 0x48 →
    (i = .resetFull ∧ scope = .full ∧ v.args = [0x01]) ∨
      (i = .resetForwarding ∧ scope = .forwarding ∧ v.args = [0x00]) →
    ∀ u : State, u = { s with
        agent := { s.agent.served rest (s.agent.session.executed s.now v.req.port 0x48 .ok []) with
          respLost := bump s.agent.respLost
          resetPending := some { scope := scope, buf := v.req.buf, limit := s.now } } } →
      (s.isUp v.req.port = false →
        exec i s = exec .resetLimitExpiry ((u.putPayload v.req.buf (v.response .ok [])).pushed v.req.buf)) ∧
      (s.isUp v.req.port = true → 16 ≤ s.ports[v.req.port].queues[(3 : Sys2Proof.Class)].length →
        exec i s = exec .resetLimitExpiry
          (((u.putPayload v.req.buf (v.response .ok [])).pushed v.req.buf).onPort v.req.port fun P =>
            { P with ctr := { P.ctr with qFull := bump P.ctr.qFull } }))) ∧
  (∀ (p : Port) (s : State) (d : Tick) (c : Sys2Proof.Class) (e : Entry) (r : PendingReset), e ∈ s.ports[p].waiting c →
    e.origin = .response → s.agent.resetPending = some r → r.buf = e.buf → s.ports[p].partnerHold = true →
    s.ports[p].holdDeadline = some d → reached s.now d = true → s.resetDue = false → s.store.episode = .none →
    s.NoticeRoom →
    exec (.holdDeadline p) s = exec .resetLimitExpiry (({ s.raised .holdStuck (BitVec.ofNat 8 p.val) 0 with
      agent := { s.agent with resetPending := some { r with limit := s.now } } } : State).onPort p fun P =>
        { P with
          queues := #v[P.unflushed 0, P.unflushed 1, P.unflushed 2, P.unflushed 3], holdDeadline := none
          ctr := { P.ctr with
            qFlushed := bumpBy P.allWaiting.length P.ctr.qFlushed, holdStuck := bump P.ctr.holdStuck } })) ∧
  ∀ (p : Port) (s : State) (e : Entry) (r : PendingReset), s.Listens p → s.ports[p].tx = .sending e →
    e.origin = .response → s.agent.resetPending = some r → r.buf = e.buf → r.scope = .full → s.Undelivered →
    exec (.signalTimeout p) s = exec .resetLimitExpiry (({ s with
      agent := { s.agent with resetPending := some { r with limit := s.now } } } : State).onPort p fun P =>
        { P with tx := .idle, quiet := true })

/-- The retransmit expiry builds an event frame afresh from the oldest four notices in the buffer on top of the stack and
queues it in class 3 of the event port under the session's reply label; the flag is set and the timer runs one interval. With
no buffer the timer runs all the same; without the delivery conditions the flag is clear and the timer stopped (R176 to R178,
R187). -/
def Obligations.RetransmitExpirySendsOldestNotices : Prop :=
  ∀ (s : State) (d : Tick), s.events.timer = some d → reached s.now d = true → s.resetDue = false →
    (s.agent.session.isOpen = false ∨ s.agent.session.eventsEnabled = false ∨ s.events.notices = [] →
      exec .retransmitExpiry s = .next { s with events := { s.events with outstanding := false, timer := none } }) ∧
    (s.agent.session.isOpen = true → s.agent.session.eventsEnabled = true → s.events.notices ≠ [] →
      s.store.free = [] →
      exec .retransmitExpiry s = .next { s with events := { s.events with
        outstanding := true, timer := some (s.now + BitVec.ofNat 32 (100 * s.events.interval.toNat)) } }) ∧
    ∀ (b : BufNo) (rest : List BufNo), s.agent.session.isOpen = true → s.agent.session.eventsEnabled = true →
      s.events.notices ≠ [] → s.store.free = b :: rest → ¬(rest.length = 8 ∧ s.store.episode = .none) →
      ¬(rest.length = 0 ∧ s.store.episode = .low false) → s.isUp s.agent.session.eventPort = true →
      s.ports[s.agent.session.eventPort].queues[(3 : Sys2Proof.Class)].length < 16 →
      s.agent.resetPending = none → s.MemoryLaw →
      (∀ c : Sys2Proof.Class, ∀ e ∈ s.ports[s.agent.session.eventPort].queues[c], e.buf ≠ b) →
      ∃ t, exec .retransmitExpiry s = .next t ∧
        t.payloadAt b = [0x80#8, BitVec.ofNat 8 (min 4 s.events.notices.length)] ++
          (s.events.notices.take 4).flatMap (fun x =>
            bytes16 x.sequence ++ [x.kind.code, x.subject] ++ bytes32 x.tick ++ bytes32 x.detail) ∧
        (s.ports[s.agent.session.eventPort]).Took (t.ports[s.agent.session.eventPort]) b
          { label := s.agent.session.replyLabel, source := 0xF0 + BitVec.ofNat 8 s.node.val, cls := 3, stale := false
            age := 15 } s.now .event ∧
        t.store.count[b] = 1 ∧
        t.events = { s.events with
          outstanding := true, timer := some (s.now + BitVec.ofNat 32 (100 * s.events.interval.toNat)) } ∧
        (∀ q : Port, q ≠ s.agent.session.eventPort → (s.ports[q]).FlowOnly (t.ports[q])) ∧ s.SameTables t ∧
        t.transit = s.transit

/-- Raises that wait are taken one at a time while no command waits, each numbered as it is taken, with the tick it was made
at: appended where the list has room, folded into NOTICES-LOST otherwise; and an appended one starts a delivery attempt where
its conditions hold. Of two, either may be taken first, but for two PORT-UPs, which are numbered in the order in which the
ports entered UP (R181; that a PORT-UP raised while another waits also waits, and that the order holds after retraining too,
is log entry 25's deduction). One made before the last advance is taken by the next TICK, before the counter goes on (R173 to
R176). Which raises wait, and for how long, is free within that (log entry 25). -/
def Obligations.RaisesAreTakenInEitherOrder : Prop :=
  (∀ (s : State) (r : Raise), s.pending = [] → s.transit = [r] → (∀ p : Port, s.disposing[p] = none) →
    s.resetDue = false → s.agent.resetPending = none →
    (s.NoticeRoom → step s = .next (State.tryDeliver
      { s with transit := [], events := s.events.plus r.kind r.subject r.tick r.detail })) ∧
    (s.events.notices.length = 15 → (∀ x ∈ s.events.notices, x.kind ≠ .noticesLost) →
      step s = .next (State.tryDeliver { s with transit := [], events := s.events.plus .noticesLost 0 r.tick 1 })) ∧
    ∀ older x, s.events.notices = older ++ [x] → (∀ y ∈ older, y.kind ≠ .noticesLost) → x.kind = .noticesLost →
      step s = .next { s with
        transit := []
        events := { s.events with notices := older ++
          [{ x with detail := if x.detail.toNat < 65535 then x.detail + 1 else x.detail }] } }) ∧
  (∀ (s : State) (a b : Raise), s.pending = [] → s.transit = [a, b] → (∀ p : Port, s.disposing[p] = none) →
    s.resetDue = false → s.Undelivered → s.NoticeRoom →
    step s = .next { s with transit := [b], events := s.events.plus a.kind a.subject a.tick a.detail } ∨
      (¬(a.kind = .portUp ∧ b.kind = .portUp) ∧
        step s = .next { s with transit := [a], events := s.events.plus b.kind b.subject b.tick b.detail })) ∧
  ∀ (s : State) (r : Raise), s.transit = [r] → r.tick ≠ s.now → s.NoneStale → s.resetDue = false → s.Undelivered →
    s.NoticeRoom →
    exec .tick s = exec .tick { s with transit := [], events := s.events.plus r.kind r.subject r.tick r.detail }

/-! ## Management: unsessioned reads and OPEN (chapters 8 and 9) -/

/-- IDENTIFY, READ ROUTE and READ ACTION answer OK with what the blocks hold, whoever asks and whatever the session, and
touch no session field; READ ROUTE of the staging bank is refused BUSY in COPYING (R54, R62, R144, R153, R155, R158, R186).
-/
def Obligations.TableReadsAnswerWhatStands : Prop :=
  ∀ (s : State) (v : RequestView) (rest : List Request), s.Ready v rest →
    (v.opcode = 0x01 → v.args = [] → ∃ t, exec .identify s = .next t ∧
      State.Answered (s.unexecuted rest) t v
        (v.response .ok ([0x04, 0x40, 0x01, BitVec.ofNat 8 s.node.val, boolByte s.agent.session.isOpen,
          s.agent.session.holder] ++ deadlineBytes s.agent.session.leaseDeadline ++ bytes16 s.route.epoch ++
          [s.route.staging.code] ++ bytes32 s.now))) ∧
    (∀ (role : BankRole) (first count : Nat), v.opcode = 0x10 →
      v.args = [(match role with | .active => 0 | .staging => 1), BitVec.ofNat 8 first, BitVec.ofNat 8 count] →
      1 ≤ count → count ≤ 6 → first + count ≤ 64 →
      (role = .active ∨ s.route.staging ≠ .copying → ∃ t, exec .readRoute s = .next t ∧
        State.Answered (s.unexecuted rest) t v
          (v.response .ok ((((s.route.byRole role).toList.drop first).take count).flatMap RouteEntry.bytes))) ∧
      (role = .staging → s.route.staging = .copying → ∃ t, exec .readRoute s = .next t ∧
        State.Answered (s.unexecuted rest) t v (v.response .busy []))) ∧
    ∀ first count : Nat, v.opcode = 0x18 → v.args = [BitVec.ofNat 8 first, BitVec.ofNat 8 count] → 1 ≤ count →
      count ≤ 4 → first + count ≤ 128 → ∃ t, exec .readAction s = .next t ∧
        State.Answered (s.unexecuted rest) t v
          (v.response .ok ((((List.finRange 128).drop first).take count).flatMap fun i : RecordIdx =>
            s.action.records[i].bytes ++ bytes32 s.action.hits[i]))

/-- READ BUCKET, READ SLOT, READ PORT and READ COUNTERS without clear answer OK with the record or the counters of the number
named, and refuse with RANGE, without results, a number out of range, and READ COUNTERS a group kind that is none of the four;
they touch no session field (R88, R110, R118, R144, R161, R164, R165). -/
def Obligations.RecordReadsAnswerWhatStands : Prop :=
  ∀ (s : State) (v : RequestView) (rest : List Request) (k : Nat), s.Ready v rest → k < 256 →
    (v.args = [BitVec.ofNat 8 k] →
      (v.opcode = 0x20 → ∃ t, exec .readBucket s = .next t ∧
        State.Answered (s.unexecuted rest) t v
          (if h : k < 32 then v.response .ok (s.buckets[k]).bytes else v.response .range [])) ∧
      (v.opcode = 0x28 → ∃ t, exec .readSlot s = .next t ∧
        State.Answered (s.unexecuted rest) t v
          (if h : k < 32 then v.response .ok (s.slots[k]).bytes else v.response .range [])) ∧
      (v.opcode = 0x30 → ∃ t, exec .readPort s = .next t ∧
        State.Answered (s.unexecuted rest) t v
          (if h : k < 4 then v.response .ok (s.ports[k]).bytes else v.response .range []))) ∧
    (∀ number : Nat, v.opcode = 0x38 → v.args = [BitVec.ofNat 8 k, BitVec.ofNat 8 number, 0x00] → number < 256 →
      (k = 0 ∧ 3 < number) ∨ (k = 1 ∧ number ≠ 0) ∨ ((k = 2 ∨ k = 3) ∧ 31 < number) ∨ 3 < k →
      ∃ t, exec .readCounters s = .next t ∧ State.Answered (s.unexecuted rest) t v (v.response .range [])) ∧
    ∀ g : CounterGroup, v.opcode = 0x38 →
      v.args = (match g with
        | .port p => [0x00, BitVec.ofNat 8 p.val, 0x00]
        | .device => [0x01, 0x00, 0x00]
        | .bucket n => [0x02, BitVec.ofNat 8 n.val, 0x00]
        | .slot n => [0x03, BitVec.ofNat 8 n.val, 0x00]) →
      ∃ t, exec .readCounters s = .next t ∧
        State.Answered (s.unexecuted rest) t v
          (v.response .ok ((s.counters g).flatMap bytes32))

/-- OPEN opens a CLOSED session, or renews the holder's: the new token is the token counter's value, the counter advances
past 255 to 1, the expected sequence is one above the request's, the lease runs 100 ticks a unit, and the cache is empty; a
delivery attempt follows where its conditions hold (R176), and that it comes before the response is queued is the model's
reading (log entry 18). Another Source is answered HELD with the holder, and nothing changes (R138 to R140). -/
def Obligations.OpenStartsOrRenewsTheSession : Prop :=
  ∀ (s : State) (v : RequestView) (rest : List Request) (lease : BitVec 16) (events : Bool), s.Ready v rest →
    v.opcode = 0x02 → v.args = bytes16 lease ++ [boolByte events] → 1 ≤ lease.toNat → lease.toNat ≤ 6000 →
    (s.agent.session.isOpen = false ∨ v.source = s.agent.session.holder → s.StoreLaw →
      s.ports[v.req.port].queues[(3 : Sys2Proof.Class)].length < 15 →
      ∃ t, exec .openSession s = .next t ∧
        State.Answered
          (({ s with agent := { s.agent with
                queue := rest
                executing := none
                tokenCounter := if s.agent.tokenCounter = 255 then 1 else s.agent.tokenCounter + 1
                session :=
                  { isOpen := true, holder := v.source, replyLabel := v.reply, eventPort := v.req.port
                    token := s.agent.tokenCounter, expected := v.seq + 1, leaseLength := lease
                    leaseDeadline := some (s.now + BitVec.ofNat 32 (100 * lease.toNat)), eventsEnabled := events
                    cache := none } } } : State).tryDeliver) t v
          (v.response .ok ([s.agent.tokenCounter] ++ bytes16 lease))) ∧
    (s.agent.session.isOpen = true → v.source ≠ s.agent.session.holder →
      ∃ t, exec .openSession s = .next t ∧
        State.Answered (s.unexecuted rest) t v (v.response .held [s.agent.session.holder]))

/-! ## Management: the ladder (sections 8.1 to 8.4, 9.1) -/

/-- A sessioned request under a CLOSED session or another token is refused NO-SESSION: the command is not executed, and the
expected sequence, the cache and the lease stand (R141). -/
def Obligations.WrongTokenIsRefusedNoSession : Prop :=
  ∀ (s : State) (v : RequestView) (rest : List Request), s.Ready v rest → v.row ∉ unsessionedRows →
    s.agent.session.isOpen = false ∨ v.token ≠ s.agent.session.token →
    ∃ t, exec v.row s = .next t ∧ State.Answered (s.unexecuted rest) t v (v.response .noSession [])

/-- A sessioned request that repeats the sequence before the expected one, with a response cached, receives that response
with REPLAY set and its own token; nothing is executed, the lease starts anew and the event port is the request's. With any
other sequence that is not the expected one, or with nothing cached, it is refused SEQUENCE with the expected sequence and
changes no session field (R143, R184). -/
def Obligations.UnexpectedSequenceReplaysOrIsRefused : Prop :=
  ∀ (s : State) (v : RequestView) (rest : List Request), s.Ready v rest → v.row ∉ unsessionedRows →
    s.agent.session.isOpen = true → v.token = s.agent.session.token → v.seq ≠ s.agent.session.expected →
    (∀ c : CachedResponse, v.seq = s.agent.session.expected - 1 → s.agent.session.cache = some c →
      c.results.length ≤ 60 →
      ∃ t, exec v.row s = .next t ∧
        State.Answered
          { s with agent := s.agent.served rest { s.agent.session with
              leaseDeadline := some (s.now + BitVec.ofNat 32 (100 * s.agent.session.leaseLength.toNat))
              eventPort := v.req.port } } t v
          ([c.opcode, v.token, c.sequence, 1#1 ++ c.status.code] ++ c.results)) ∧
    (v.seq ≠ s.agent.session.expected - 1 ∨ s.agent.session.cache = none →
      ∃ t, exec v.row s = .next t ∧
        State.Answered (s.unexecuted rest) t v
          (v.response .sequence [s.agent.session.expected]))

/-- An admitted request with another number of argument bytes than its command takes is answered LENGTH, an execution: the
sequence advances, the lease starts anew, and the refusal is cached (R142, R151, R185). -/
def Obligations.WrongLengthIsAnExecution : Prop :=
  ∀ (s : State) (v : RequestView) (rest : List Request), s.Ready v rest → v.row ∉ unsessionedRows → s.Admits v →
    v.args.length ≠ argumentCount v.row →
    ∃ t, exec v.row s = .next t ∧
      State.Answered
        (s.executed v rest .length []) t v (v.response .length [])

/-- What comes before any session check (R135, R147, R185): a request whose Length is below 5 is dropped without a response,
MGMT-MALFORMED is counted and its buffer pushed, whichever of the 25 management rows comes, which is the model's reading (log
entry 9); a request taken while a reset is pending is answered BUSY, whatever its
opcode, token and sequence, and changes nothing; an opcode that names no command is answered BAD-OPCODE. -/
def Obligations.RequestsAnsweredBeforeAnyCheck : Prop :=
  (∀ (i : Instr) (s : State) (r : Request) (rest : List Request), i ∈ managementRows → s.agent.queue = r :: rest →
    s.agent.executing = none → s.lengthAt r.buf < 5 → s.store.count[r.buf] = 1 → s.resetDue = false →
    exec i s = .next (({ s with agent := { s.agent with
      queue := rest, mgmtMalformed := bump s.agent.mgmtMalformed } } : State).pushed r.buf)) ∧
  (∀ (s : State) (v : RequestView) (rest : List Request) (r : PendingReset), s.Waiting v rest →
    s.agent.resetPending = some r → r.buf ≠ v.req.buf →
    (∀ c : Sys2Proof.Class, ∀ e ∈ s.ports[v.req.port].queues[c],
      s.ports[v.req.port].expired s.now e = true → e.buf ≠ r.buf) →
    ∃ t, exec v.row s = .next t ∧ State.Answered (s.unexecuted rest) t v (v.response .busy [])) ∧
  ∀ (s : State) (v : RequestView) (rest : List Request), s.Ready v rest → v.row = .badOpcode →
    ∃ t, exec .badOpcode s = .next t ∧ State.Answered (s.unexecuted rest) t v (v.response .badOpcode [])

/-! ## Management: sessioned commands (chapter 9) -/

/-- KEEPALIVE answers OK with the lease length and the deadline its admission set; CLOSE answers OK, and then the session
closes as at its lease deadline but without a notice; RESET of either scope answers OK, cached before it is queued, and leaves
a reset pending on that response, with a limit 500 ticks ahead, and nothing reset yet (R142, R145 to R147, R154, R169). -/
def Obligations.KeepaliveCloseAndResetAnswer : Prop :=
  ∀ (s : State) (v : RequestView) (rest : List Request), s.Ready v rest → s.Admits v →
    (v.opcode = 0x04 → v.args = [] → ∀ results, results = bytes16 s.agent.session.leaseLength ++
        bytes32 (s.now + BitVec.ofNat 32 (100 * s.agent.session.leaseLength.toNat)) →
      ∃ t, exec .keepalive s = .next t ∧
        State.Answered (s.executed v rest .ok results) t v (v.response .ok results)) ∧
    (v.opcode = 0x03 → v.args = [] →
      ∃ t, State.Answered (s.executed v rest .ok []) t v (v.response .ok []) ∧
        exec .closeSession s = .next { t with
          agent := { t.agent with session := .closed }
          route := (match s.route.staging with
            | .modified => { s.route with staging := .copying, copier := some { next := 0, begun := s.now } }
            | .clean => s.route
            | .copying => s.route)
          events := { s.events with outstanding := false, timer := none } }) ∧
    ∀ (i : Instr) (scope : ResetScope), v.opcode = 0x48 →
      (i = .resetFull ∧ scope = .full ∧ v.args = [0x01]) ∨
        (i = .resetForwarding ∧ scope = .forwarding ∧ v.args = [0x00]) →
      ∃ t, exec i s = .next t ∧
        State.Answered
          { s with agent := { s.agent.served rest (s.agent.session.executed s.now v.req.port 0x48 .ok []) with
              resetPending := some { scope := scope, buf := v.req.buf, limit := s.now + 500 } } } t v
          (v.response .ok [])

/-- WRITE ROUTE stores an entry the table may hold in the staging bank, or the cleared entry where valid is no, whatever the
other bytes; that a valid byte whose bit 0 is clear, such as FEh, is read as no is the model's reading (log entry 17). CLEAR
ROUTES clears its range; both make the state MODIFIED and leave the active bank, and both are refused BUSY in COPYING
(R38, R40, R51, R52, R156, R186). -/
def Obligations.StagingWritesReachTheStagingBank : Prop :=
  ∀ (s : State) (v : RequestView) (rest : List Request), s.Ready v rest → s.Admits v →
    (s.route.staging ≠ .copying →
      (∀ (i : RouteIdx) (e : RouteEntry) (bytes : List Byte), v.opcode = 0x11 →
        (e.valid = true ∧ e.wf = true ∧ bytes = e.bytes) ∨
          (e = .cleared ∧ bytes.length = 10 ∧ (bytes.headD 0).getLsbD 0 = false) →
        v.args = BitVec.ofNat 8 i.val :: bytes →
        ∃ t, exec .writeRoute s = .next t ∧
          State.Answered
            { s.executed v rest .ok [] with
              route := (match s.route.active with
                | .a => { s.route with bankB := vset s.route.bankB i e, staging := .modified }
                | .b => { s.route with bankA := vset s.route.bankA i e, staging := .modified }) } t v
            (v.response .ok [])) ∧
      ∀ first count : Nat, v.opcode = 0x12 → v.args = [BitVec.ofNat 8 first, BitVec.ofNat 8 count] → 1 ≤ count →
        first + count ≤ 64 →
        ∃ t u, exec .clearRoutes s = .next t ∧
          State.Answered { s.executed v rest .ok [] with route := u } t v (v.response .ok []) ∧
          u = { s.route with bankA := u.bankA, bankB := u.bankB, staging := .modified } ∧
          u.bank s.route.active = s.route.bank s.route.active ∧
          ∀ i : RouteIdx, (u.bank s.route.active.other)[i] =
            if first ≤ i.val ∧ i.val < first + count then .cleared else (s.route.bank s.route.active.other)[i]) ∧
    (s.route.staging = .copying → v.row = .writeRoute ∨ v.row = .clearRoutes →
      v.args.length = argumentCount v.row →
      ∃ t, exec v.row s = .next t ∧
        State.Answered (s.executed v rest .busy []) t v (v.response .busy []))

/-- COMMIT with the current epoch or "any" exchanges the roles, changes no entry, adds 1 to the epoch and starts the copy;
with another epoch it is answered STALE-EPOCH with the current one, and in COPYING BUSY (R41, R51, R53, R157). -/
def Obligations.CommitExchangesTheBanks : Prop :=
  ∀ (s : State) (v : RequestView) (rest : List Request) (mode : Bool) (epoch : BitVec 16), s.Ready v rest →
    s.Admits v → v.opcode = 0x13 → v.args = [boolByte mode] ++ bytes16 epoch →
    (s.route.staging ≠ .copying → mode = true ∨ epoch = s.route.epoch →
      ∃ t, exec .commit s = .next t ∧
        State.Answered
          { s.executed v rest .ok (bytes16 (s.route.epoch + 1)) with
            route := { s.route with
              active := (match s.route.active with | .a => .b | .b => .a), epoch := s.route.epoch + 1
              staging := .copying, copier := some { next := 0, begun := s.now } } } t v
          (v.response .ok (bytes16 (s.route.epoch + 1)))) ∧
    (s.route.staging ≠ .copying → mode = false → epoch ≠ s.route.epoch →
      ∃ t, exec .commit s = .next t ∧
        State.Answered (s.executed v rest .staleEpoch (bytes16 s.route.epoch)) t v
          (v.response .staleEpoch (bytes16 s.route.epoch))) ∧
    (s.route.staging = .copying →
      ∃ t, exec .commit s = .next t ∧
        State.Answered (s.executed v rest .busy []) t v (v.response .busy []))

/-- WRITE ACTION stores a record whole and clears its hit counter where asked; WRITE BUCKET sets the four fields and the
credit to the depth or to 0; each answers OK and touches no other record (R61, R87, R158, R159). -/
def Obligations.ActionAndBucketWritesTakeEffect : Prop :=
  ∀ (s : State) (v : RequestView) (rest : List Request), s.Ready v rest → s.Admits v →
    (∀ (i : RecordIdx) (r : ActionRecord) (clear : Bool), v.opcode = 0x19 → r.wf = true →
      v.args = [BitVec.ofNat 8 i.val] ++ r.bytes ++ [boolByte clear] →
      ∃ t, exec .writeAction s = .next t ∧
        State.Answered
          { s.executed v rest .ok [] with
            action := { s.action with
              records := vset s.action.records i r
              hits := if clear then vset s.action.hits i 0 else s.action.hits } } t v (v.response .ok [])) ∧
    ∀ (n : BucketNo) (on : Bool) (rate depth : BitVec 16) (exceed : ExceedAction), v.opcode = 0x21 →
      1 ≤ rate.toNat → rate.toNat ≤ 4095 → 69 ≤ depth.toNat →
      v.args = [BitVec.ofNat 8 n.val, boolByte on] ++ bytes16 rate ++ bytes16 depth ++
        [boolByte (decide (exceed = .demote))] →
      ∃ t, exec .writeBucket s = .next t ∧
        State.Answered
          { s.executed v rest .ok [] with
            buckets := vset s.buckets n { s.buckets[n] with
              enabled := on, rate := rate.toNat, depth := depth.toNat, exceed := exceed
              credit := if on then depth.toNat else 0 } } t v (v.response .ok [])

/-- WRITE SLOT stores the six fields of a slot that is OFF; ARM starts a configured OFF slot in WAITING and answers its
deadline; both refuse another state with STATE. DISARM takes a slot to OFF from any state, and the reference of a buffer it
held ends (R112, R115 to R117, R160). -/
def Obligations.SlotCommandsTakeEffect : Prop :=
  ∀ (s : State) (v : RequestView) (rest : List Request) (n : SlotNo) (x : Slot), s.Ready v rest → s.Admits v →
    s.slots[n] = x →
    (∀ (c : SlotConfig), v.opcode = 0x29 → c.period ≠ 0 → 1 ≤ c.lossCount → c.lossCount ≤ 15 →
      (c.substitute = true → c.hold = true) →
      v.args = [BitVec.ofNat 8 n.val] ++ bytes16 c.period ++ bytes16 c.grace ++ [BitVec.ofNat 8 c.lossCount] ++
        bytes16 c.startWindow ++
        [BitVec.ofNat 8 ((if c.hold then 1 else 0) + (if c.substitute then 2 else 0))] →
      (x.state = .off → ∃ t, exec .writeSlot s = .next t ∧
        State.Answered
          { s.executed v rest .ok [] with
            slots := vset s.slots n { x with cfg := c } } t v (v.response .ok [])) ∧
      (x.state ≠ .off → ∃ t, exec .writeSlot s = .next t ∧
        State.Answered (s.executed v rest .state []) t v (v.response .state []))) ∧
    (v.opcode = 0x2A → v.args = [BitVec.ofNat 8 n.val] →
      (x.state = .off → x.cfg.period ≠ 0 → ∀ deadline,
        deadline = (if x.cfg.startWindow = 0 then none else some (s.now + x.cfg.startWindow.setWidth 32)) →
        ∃ t, exec .arm s = .next t ∧
          State.Answered
            { s.executed v rest .ok (deadlineBytes deadline) with
              slots := vset s.slots n { x with state := .waiting, miss := 0, deadline := deadline } } t v
            (v.response .ok (deadlineBytes deadline))) ∧
      (x.state ≠ .off ∨ x.cfg.period = 0 → ∃ t, exec .arm s = .next t ∧
        State.Answered (s.executed v rest .state []) t v (v.response .state []))) ∧
    (v.opcode = 0x2B → v.args = [BitVec.ofNat 8 n.val] → (∀ h, x.held = some h → h.buf ≠ v.req.buf) →
      ∃ t, exec .disarm s = .next t ∧
        State.Answered
          (({ s.executed v rest .ok [] with
              slots := vset s.slots n
                { x with state := .off, deadline := none, miss := 0, held := none } } : State).releaseHeld x.held) t v
          (v.response .ok []))

/-- SET PORT writes all five items. An enabled port that is not DISABLED keeps its link state, a DISABLED one goes to DOWN;
enable = no leaves a DISABLED port as it is and takes a port in DOWN or TRAINING to DISABLED at once. It takes an UP port to
DISABLED too: ABORT for a frame being sent, reception, queues and partner HOLD ended, no PORT-DOWN. Where that is the request's
own ingress port the response is refused DOWN: RESP-LOST is counted and the OK stands in the cache (R7, R21, R106, R162, R163).
That a HOLD or GO asked and not yet sent is dropped is the model's reading (log entry 12), and the record `sent` of the line is
the model's own (log entry 13). -/
def Obligations.SetPortWritesAllItems : Prop :=
  ∀ (s : State) (v : RequestView) (rest : List Request) (p : Port) (c : PortConfig), s.Ready v rest → s.Admits v →
    v.opcode = 0x31 →
    v.args = [BitVec.ofNat 8 p.val, boolByte c.enable,
        (match c.missAction with | .flood => 0x00 | .drop => 0x01), boolByte c.admitMgmt, 0x00, c.holdLimit] ++
      bytes16 c.residence[0] ++ bytes16 c.residence[1] ++ bytes16 c.residence[2] ++ bytes16 c.residence[3] →
    (∀ u : PortState → PortState,
      (c.enable = true ∧ s.ports[p].link ≠ .disabled ∧ u = fun P => { P with cfg := c }) ∨
        (c.enable = true ∧ s.ports[p].link = .disabled ∧ u = fun P =>
          { P with cfg := c, link := .down, trainingDeadline := none, validRun := 0, invalidRun := 0 }) ∨
        (c.enable = false ∧ s.ports[p].link = .disabled ∧ u = fun P => { P with cfg := c }) ∨
        (c.enable = false ∧ (s.ports[p].link = .down ∨ s.ports[p].link = .training) ∧ u = fun P =>
          { P with cfg := c, link := .disabled, trainingDeadline := none, validRun := 0, invalidRun := 0 }) →
      ∃ t, exec .setPort s = .next t ∧
        State.Answered ((s.executed v rest .ok []).onPort p u) t v (v.response .ok [])) ∧
    (c.enable = false → s.ports[p].link = .up →
      ∃ t, exec .setPort s = .next t ∧ t.ports[p].link = .disabled ∧ t.ports[p].Quiescent ∧ t.ports[p].cfg = c ∧
        t.ports[p].trainingDeadline = none ∧ t.ports[p].validRun = 0 ∧ t.ports[p].invalidRun = 0 ∧
        t.ports[p].ctr.qFlushed = bumpBy s.ports[p].allWaiting.length s.ports[p].ctr.qFlushed ∧
        (s.ports[p].tx = .idle → t.ports[p].sent = s.ports[p].sent) ∧
        (∀ e, s.ports[p].tx = .sending e → t.ports[p].sent = s.ports[p].sent ++ [.abort] ∧
          t.ports[p].ctr.txAborted = bump s.ports[p].ctr.txAborted) ∧
        t.agent = { s.agent.served rest (s.agent.session.executed s.now v.req.port 0x31 .ok []) with
          respLost := if p = v.req.port then bump s.agent.respLost else s.agent.respLost } ∧
        s.SameEvents t ∧ t.route = s.route ∧ t.action = s.action ∧ t.buckets = s.buckets ∧ t.slots = s.slots ∧
        t.now = s.now)

/-- READ COUNTERS with clear answers OK with the counters of the group as they stood, keeps them in the cache, and leaves
them 0; every other counter of the part stands, and so does all else an executed request does not touch (R164 to R166). -/
def Obligations.ClearingReadZeroesItsGroup : Prop :=
  ∀ (s u w : State) (v : RequestView) (rest : List Request) (g : CounterGroup), s.Ready v rest → s.Admits v →
    v.opcode = 0x38 →
    v.args = (match g with
      | .port p => [0x00, BitVec.ofNat 8 p.val, 0x01]
      | .device => [0x01, 0x00, 0x01]
      | .bucket n => [0x02, BitVec.ofNat 8 n.val, 0x01]
      | .slot n => [0x03, BitVec.ofNat 8 n.val, 0x01]) →
    s.executed v rest .ok ((s.counters g).flatMap bytes32) = u →
    w = (match g with
      | .port p => u.onPort p fun P => { P with ctr := .zero }
      | .device => { u with
          store := { u.store with lowEpisodes := 0 }
          route := { u.route with missFlooded := 0, missDropped := 0, ageDropped := 0 }
          action := { u.action with dispatchShort := 0, dispatchNest := 0 }
          agent := { u.agent with mgmtOverrun := 0, mgmtMalformed := 0, respLost := 0 } }
      | .bucket n => { u with buckets := vset u.buckets n { u.buckets[n] with conform := 0, exceeds := 0 } }
      | .slot n => { u with
          slots := vset u.slots n
            { u.slots[n] with arrivals := 0, misses := 0, substitutes := 0, recoveries := 0 } }) →
    (∃ t, exec .readCountersClear s = .next t ∧
      State.Answered w t v (v.response .ok ((s.counters g).flatMap bytes32))) ∧
    ∀ k, w.counters k = if k = g then (s.counters g).map (fun _ => 0) else s.counters k

/-- SET EVENTS sets events enabled and the interval; ACK EVENTS removes the notices up to the one it names, clears the flag
and stops the timer, answering how many went and how many remain. A delivery attempt follows each where its conditions hold
(R176); that it comes before the response is queued is the model's reading (log entry 18), and that the number
answered is the number before the attempt is its choice (log entry 26). ACK EVENTS of a number that names no notice is refused
with RANGE (R167, R168, R179). -/
def Obligations.EventCommandsTakeEffect : Prop :=
  ∀ (s : State) (v : RequestView) (rest : List Request), s.Ready v rest → s.Admits v → s.StoreLaw →
    s.ports[v.req.port].queues[(3 : Sys2Proof.Class)].length < 15 →
    (∀ (on : Bool) (interval : Byte), v.opcode = 0x40 → v.args = [boolByte on, interval] → interval ≠ 0 →
      ∃ t, exec .setEvents s = .next t ∧
        State.Answered
          (({ s with
              agent := s.agent.served rest
                { s.agent.session.executed s.now v.req.port 0x40 .ok [] with eventsEnabled := on }
              events := { s.events with interval := interval } } : State).tryDeliver) t v (v.response .ok [])) ∧
    ∀ (k : BitVec 16), v.opcode = 0x41 → v.args = bytes16 k →
      (∀ (o : Notice) (more : List Notice) (i : Nat), s.events.notices = o :: more → i = (k - o.sequence).toNat →
        i ≤ more.length → more.length < 16 →
        ∀ results, results = [BitVec.ofNat 8 (i + 1), BitVec.ofNat 8 (more.length - i)] →
        ∃ t, exec .ackEvents s = .next t ∧
          State.Answered
            (({ s.executed v rest .ok results with
                events := { s.events with
                  notices := more.drop i, outstanding := false, timer := none } } : State).tryDeliver) t v
            (v.response .ok results)) ∧
      (s.events.notices = [] ∨
        (∃ o more, s.events.notices = o :: more ∧ more.length < (k - o.sequence).toNat) →
        ∃ t, exec .ackEvents s = .next t ∧
          State.Answered (s.executed v rest .range []) t v (v.response .range []))

/-- Route entries and action records read back as they were written: the bytes of every record the tables may hold name that
record (R40, R61, R186). -/
def Obligations.RecordsReadBackAsWritten : Prop :=
  (∀ e : RouteEntry, e.wf = true → parseRouteEntry e.bytes 0 = some e) ∧
    ∀ r : ActionRecord, r.wf = true → parseActionRecord r.bytes 0 = some r

/-! ## Laws every step keeps -/

/-- Reset meets every law of Safety.lean. -/
def Obligations.ResetMeetsEveryLaw : Prop :=
  State.reset.StoreLaw ∧ State.reset.CountLaw ∧ State.reset.WriterLaw ∧ State.reset.PortLaw ∧
    State.reset.StockLaw ∧ State.reset.BankLaw ∧ State.reset.RecordLaw ∧ State.reset.CreditLaw ∧
    State.reset.SlotLaw ∧ State.reset.SessionLaw ∧ State.reset.AgentLaw ∧ State.reset.NoticeLaw ∧
    State.reset.MemoryLaw ∧ State.reset.DispositionLaw ∧ State.reset.TimelyLaw

/-- The Frame Store's two laws (R25): a buffer is on the free stack exactly when its count is zero, never twice, and the
depth plus the number of claimed buffers is 128. The bytes of the buffers keep their canonical form, the model's own (log
entry 1). -/
def Obligations.FrameStoreLawsAreKept : Prop :=
  (∀ s t : State, s.StoreLaw → step s = .next t → t.StoreLaw ∧ t.store.depth + t.store.claimed = 128) ∧
    ∀ s t : State, s.MemoryLaw → step s = .next t → t.MemoryLaw

/-- Every reference count is the number of claims on its buffer, and a buffer that is written has one claim (R23, R24, R27,
R28). -/
def Obligations.ReferenceCountsAreClaims : Prop :=
  ∀ s t : State, s.StoreLaw → s.CountLaw → s.WriterLaw → s.PortLaw → s.SlotLaw → s.AgentLaw → step s = .next t →
    t.CountLaw ∧ t.WriterLaw

/-- Class queues hold at most 16 entries of their own class, an entry being sent stands at its queue's head, and a port
outside UP holds nothing (R2 to R8, R91, R92, R102). That it keeps no HOLD or GO asked either is the model's reading (log
entry 12). -/
def Obligations.PortLawIsKept : Prop :=
  ∀ s t : State, s.PortLaw → step s = .next t → t.PortLaw

/-- At a depth of 8 or below every UP link has been sent or asked HOLD more recently than GO (R31 to R33). -/
def Obligations.LowStockHoldsEveryUpLink : Prop :=
  ∀ s t : State, s.StockLaw → s.PortLaw → step s = .next t →
    t.StockLaw ∧ (t.store.depth ≤ 8 → ∀ p : Port, t.ports[p].link = .up → t.ports[p].lastFlow = some .hold)

/-- CLEAN banks are equal, the copier runs exactly in COPYING, both tables hold only records they may hold, and every
bucket's credit stays between 0 and its depth, and 0 while DISABLED (R40, R51, R55, R61, R81, R85). -/
def Obligations.TableLawsAreKept : Prop :=
  ∀ s t : State, s.BankLaw → s.RecordLaw → s.CreditLaw → step s = .next t → t.BankLaw ∧ t.RecordLaw ∧ t.CreditLaw

/-- The active bank's entries change by no command but RSTN and a RESET FULL that takes effect, and the roles by those and
COMMIT; the tick counter moves by TICK and RSTN alone, and NODE by RSTN alone (R38, R77). -/
def Obligations.BankRolesAndClockMoveByTheirOwnCommands : Prop :=
  ∀ (c : Instr) (s t : State), exec c s = .next t → (∀ node, c ≠ .rstnRelease node) →
    t.node = s.node ∧ (c ≠ .tick → t.now = s.now) ∧
    (c ≠ .resetFull → (∀ r, s.agent.resetPending = some r → r.scope = .forwarding) →
      t.route.bank s.route.active = s.route.bank s.route.active ∧ (c ≠ .commit → t.route.active = s.route.active))

/-- A slot holds a buffer only while FRESH or LATE, and its deadline and miss count are those of its state (R112, R113, R121,
section 7.2). -/
def Obligations.SlotLawIsKept : Prop :=
  ∀ s t : State, s.SlotLaw → step s = .next t → t.SlotLaw

/-- At most one session is open, its token is never 0, a closed one holds its CLOSED values; at most four requests wait, and
none is left half executed (R133, R134, R138). That a request is executed within one command is the model's choice (log entry
7), and that a pending reset takes effect with the end of the command that brings it its reading (log entry 10). -/
def Obligations.SessionLawIsKept : Prop :=
  ∀ s t : State, s.SessionLaw → s.AgentLaw → step s = .next t → t.SessionLaw ∧ t.AgentLaw

/-- The Event Queue holds at most 16 notices numbered consecutively, at most one NOTICES-LOST and that the newest; the timer
runs exactly while a frame is outstanding; and the raises that wait are such as blocks make (R173, R174, R175, R177 to R179).
-/
def Obligations.NoticeLawIsKept : Prop :=
  ∀ s t : State, s.NoticeLaw → step s = .next t → t.NoticeLaw

/-- No deadline is acted on later than at the advance that reaches it: every step leaves every deadline at the counter's
value or ahead of it, the initialization ends with the counter's value 10, and a copy, a disposition and a waiting raise end
before the second advance after they began (R55, R77 to R79). That a happening due at one value of the counter, and a copy,
may be taken as late as the next TICK, before it, is the model's (log entries 4 and 6). The bounds of a disposition and of a
waiting raise are the model's, which R45 and R174 give no number for: that of a disposition log entry 7's choice, that of a
raise log entry 25's deduction. -/
def Obligations.TimelyLawIsKept : Prop :=
  ∀ s t : State, s.TimelyLaw → s.PortLaw → s.SlotLaw → s.SessionLaw → s.AgentLaw → s.NoticeLaw → step s = .next t →
    t.TimelyLaw
end

