-- ==== Sys2Proof/Laws/State.lean ====
section
/-! SUPPORT. The small lemmas of State: what each plain update of it changes, one lemma a field, and how the tables that
hold ports, slots and buckets are read after a write. Later proofs cite these and unfold no record update. -/

namespace Sys2Proof

/-! ## Tables -/

/-- Reading by a bounded number is reading by its value: the form the lemmas below are stated in. -/
@[simp] theorem vset_get_self {α : Type} {n : Nat} (v : Vector α n) (i : Fin n) (x : α) : (vset v i x)[i.val] = x := by
  simp [vset]

theorem vset_get {α : Type} {n : Nat} (v : Vector α n) (i : Fin n) (x : α) (j : Nat) (h : j < n) :
    (vset v i x)[j] = if j = i.val then x else v[j] := by
  simp [vset, Vector.getElem_set, eq_comm]

theorem vset_get_ne {α : Type} {n : Nat} (v : Vector α n) {i j : Fin n} (x : α) (h : j ≠ i) :
    (vset v i x)[j.val] = v[j.val] := by
  rw [vset_get, if_neg (fun e => h (Fin.ext e))]

@[simp] theorem vset_get_same {α : Type} {n : Nat} (v : Vector α n) (i : Fin n) : vset v i v[i.val] = v := by
  simp [vset]

@[simp] theorem vset_vset {α : Type} {n : Nat} (v : Vector α n) (i : Fin n) (x y : α) :
    vset (vset v i x) i y = vset v i y := by
  simp [vset]

@[simp] theorem vmap_get {α β : Type} {n : Nat} (f : α → β) (v : Vector α n) (i : Nat) (h : i < n) :
    (vmap f v)[i] = f v[i] := by
  simp [vmap, Vector.getElem_mk]

/-- Two tables with the same entries are the same. -/
theorem vector_ext {α : Type} {n : Nat} {v w : Vector α n} (h : ∀ i : Fin n, v[i.val] = w[i.val]) : v = w :=
  Vector.ext fun i hi => h ⟨i, hi⟩

namespace Machine

/-! ## Updates of the part -/

/-! ### onPort -/

@[simp] theorem State.onPort_node (s : State) (p : Port) (f : PortState → PortState) :
    (s.onPort p f).node = s.node := rfl
@[simp] theorem State.onPort_initializing (s : State) (p : Port) (f : PortState → PortState) :
    (s.onPort p f).initializing = s.initializing := rfl
@[simp] theorem State.onPort_now (s : State) (p : Port) (f : PortState → PortState) :
    (s.onPort p f).now = s.now := rfl
@[simp] theorem State.onPort_ports (s : State) (p : Port) (f : PortState → PortState) :
    (s.onPort p f).ports = vset s.ports p (f s.ports[p]) := rfl
@[simp] theorem State.onPort_store (s : State) (p : Port) (f : PortState → PortState) :
    (s.onPort p f).store = s.store := rfl
@[simp] theorem State.onPort_route (s : State) (p : Port) (f : PortState → PortState) :
    (s.onPort p f).route = s.route := rfl
@[simp] theorem State.onPort_action (s : State) (p : Port) (f : PortState → PortState) :
    (s.onPort p f).action = s.action := rfl
@[simp] theorem State.onPort_disposing (s : State) (p : Port) (f : PortState → PortState) :
    (s.onPort p f).disposing = s.disposing := rfl
@[simp] theorem State.onPort_buckets (s : State) (p : Port) (f : PortState → PortState) :
    (s.onPort p f).buckets = s.buckets := rfl
@[simp] theorem State.onPort_slots (s : State) (p : Port) (f : PortState → PortState) :
    (s.onPort p f).slots = s.slots := rfl
@[simp] theorem State.onPort_agent (s : State) (p : Port) (f : PortState → PortState) :
    (s.onPort p f).agent = s.agent := rfl
@[simp] theorem State.onPort_events (s : State) (p : Port) (f : PortState → PortState) :
    (s.onPort p f).events = s.events := rfl
@[simp] theorem State.onPort_transit (s : State) (p : Port) (f : PortState → PortState) :
    (s.onPort p f).transit = s.transit := rfl
@[simp] theorem State.onPort_raisesWait (s : State) (p : Port) (f : PortState → PortState) :
    (s.onPort p f).raisesWait = s.raisesWait := rfl
@[simp] theorem State.onPort_resetDue (s : State) (p : Port) (f : PortState → PortState) :
    (s.onPort p f).resetDue = s.resetDue := rfl
@[simp] theorem State.onPort_pending (s : State) (p : Port) (f : PortState → PortState) :
    (s.onPort p f).pending = s.pending := rfl

/-! ### setSlot -/

@[simp] theorem State.setSlot_node (s : State) (n : SlotNo) (x : Slot) : (s.setSlot n x).node = s.node := rfl
@[simp] theorem State.setSlot_initializing (s : State) (n : SlotNo) (x : Slot) :
    (s.setSlot n x).initializing = s.initializing := rfl
@[simp] theorem State.setSlot_now (s : State) (n : SlotNo) (x : Slot) : (s.setSlot n x).now = s.now := rfl
@[simp] theorem State.setSlot_ports (s : State) (n : SlotNo) (x : Slot) : (s.setSlot n x).ports = s.ports := rfl
@[simp] theorem State.setSlot_store (s : State) (n : SlotNo) (x : Slot) : (s.setSlot n x).store = s.store := rfl
@[simp] theorem State.setSlot_route (s : State) (n : SlotNo) (x : Slot) : (s.setSlot n x).route = s.route := rfl
@[simp] theorem State.setSlot_action (s : State) (n : SlotNo) (x : Slot) : (s.setSlot n x).action = s.action := rfl
@[simp] theorem State.setSlot_disposing (s : State) (n : SlotNo) (x : Slot) :
    (s.setSlot n x).disposing = s.disposing := rfl
@[simp] theorem State.setSlot_buckets (s : State) (n : SlotNo) (x : Slot) : (s.setSlot n x).buckets = s.buckets := rfl
@[simp] theorem State.setSlot_slots (s : State) (n : SlotNo) (x : Slot) :
    (s.setSlot n x).slots = vset s.slots n x := rfl
@[simp] theorem State.setSlot_agent (s : State) (n : SlotNo) (x : Slot) : (s.setSlot n x).agent = s.agent := rfl
@[simp] theorem State.setSlot_events (s : State) (n : SlotNo) (x : Slot) : (s.setSlot n x).events = s.events := rfl
@[simp] theorem State.setSlot_transit (s : State) (n : SlotNo) (x : Slot) : (s.setSlot n x).transit = s.transit := rfl
@[simp] theorem State.setSlot_raisesWait (s : State) (n : SlotNo) (x : Slot) :
    (s.setSlot n x).raisesWait = s.raisesWait := rfl
@[simp] theorem State.setSlot_resetDue (s : State) (n : SlotNo) (x : Slot) :
    (s.setSlot n x).resetDue = s.resetDue := rfl
@[simp] theorem State.setSlot_pending (s : State) (n : SlotNo) (x : Slot) : (s.setSlot n x).pending = s.pending := rfl

/-! ### onSlot -/

@[simp] theorem State.onSlot_node (s : State) (n : SlotNo) (f : Slot → Slot) : (s.onSlot n f).node = s.node := rfl
@[simp] theorem State.onSlot_initializing (s : State) (n : SlotNo) (f : Slot → Slot) :
    (s.onSlot n f).initializing = s.initializing := rfl
@[simp] theorem State.onSlot_now (s : State) (n : SlotNo) (f : Slot → Slot) : (s.onSlot n f).now = s.now := rfl
@[simp] theorem State.onSlot_ports (s : State) (n : SlotNo) (f : Slot → Slot) : (s.onSlot n f).ports = s.ports := rfl
@[simp] theorem State.onSlot_store (s : State) (n : SlotNo) (f : Slot → Slot) : (s.onSlot n f).store = s.store := rfl
@[simp] theorem State.onSlot_route (s : State) (n : SlotNo) (f : Slot → Slot) : (s.onSlot n f).route = s.route := rfl
@[simp] theorem State.onSlot_action (s : State) (n : SlotNo) (f : Slot → Slot) :
    (s.onSlot n f).action = s.action := rfl
@[simp] theorem State.onSlot_disposing (s : State) (n : SlotNo) (f : Slot → Slot) :
    (s.onSlot n f).disposing = s.disposing := rfl
@[simp] theorem State.onSlot_buckets (s : State) (n : SlotNo) (f : Slot → Slot) :
    (s.onSlot n f).buckets = s.buckets := rfl
@[simp] theorem State.onSlot_slots (s : State) (n : SlotNo) (f : Slot → Slot) :
    (s.onSlot n f).slots = vset s.slots n (f s.slots[n]) := rfl
@[simp] theorem State.onSlot_agent (s : State) (n : SlotNo) (f : Slot → Slot) : (s.onSlot n f).agent = s.agent := rfl
@[simp] theorem State.onSlot_events (s : State) (n : SlotNo) (f : Slot → Slot) :
    (s.onSlot n f).events = s.events := rfl
@[simp] theorem State.onSlot_transit (s : State) (n : SlotNo) (f : Slot → Slot) :
    (s.onSlot n f).transit = s.transit := rfl
@[simp] theorem State.onSlot_raisesWait (s : State) (n : SlotNo) (f : Slot → Slot) :
    (s.onSlot n f).raisesWait = s.raisesWait := rfl
@[simp] theorem State.onSlot_resetDue (s : State) (n : SlotNo) (f : Slot → Slot) :
    (s.onSlot n f).resetDue = s.resetDue := rfl
@[simp] theorem State.onSlot_pending (s : State) (n : SlotNo) (f : Slot → Slot) :
    (s.onSlot n f).pending = s.pending := rfl

/-! ### setBucket -/

@[simp] theorem State.setBucket_node (s : State) (n : BucketNo) (x : Bucket) : (s.setBucket n x).node = s.node := rfl
@[simp] theorem State.setBucket_initializing (s : State) (n : BucketNo) (x : Bucket) :
    (s.setBucket n x).initializing = s.initializing := rfl
@[simp] theorem State.setBucket_now (s : State) (n : BucketNo) (x : Bucket) : (s.setBucket n x).now = s.now := rfl
@[simp] theorem State.setBucket_ports (s : State) (n : BucketNo) (x : Bucket) :
    (s.setBucket n x).ports = s.ports := rfl
@[simp] theorem State.setBucket_store (s : State) (n : BucketNo) (x : Bucket) :
    (s.setBucket n x).store = s.store := rfl
@[simp] theorem State.setBucket_route (s : State) (n : BucketNo) (x : Bucket) :
    (s.setBucket n x).route = s.route := rfl
@[simp] theorem State.setBucket_action (s : State) (n : BucketNo) (x : Bucket) :
    (s.setBucket n x).action = s.action := rfl
@[simp] theorem State.setBucket_disposing (s : State) (n : BucketNo) (x : Bucket) :
    (s.setBucket n x).disposing = s.disposing := rfl
@[simp] theorem State.setBucket_buckets (s : State) (n : BucketNo) (x : Bucket) :
    (s.setBucket n x).buckets = vset s.buckets n x := rfl
@[simp] theorem State.setBucket_slots (s : State) (n : BucketNo) (x : Bucket) :
    (s.setBucket n x).slots = s.slots := rfl
@[simp] theorem State.setBucket_agent (s : State) (n : BucketNo) (x : Bucket) :
    (s.setBucket n x).agent = s.agent := rfl
@[simp] theorem State.setBucket_events (s : State) (n : BucketNo) (x : Bucket) :
    (s.setBucket n x).events = s.events := rfl
@[simp] theorem State.setBucket_transit (s : State) (n : BucketNo) (x : Bucket) :
    (s.setBucket n x).transit = s.transit := rfl
@[simp] theorem State.setBucket_raisesWait (s : State) (n : BucketNo) (x : Bucket) :
    (s.setBucket n x).raisesWait = s.raisesWait := rfl
@[simp] theorem State.setBucket_resetDue (s : State) (n : BucketNo) (x : Bucket) :
    (s.setBucket n x).resetDue = s.resetDue := rfl
@[simp] theorem State.setBucket_pending (s : State) (n : BucketNo) (x : Bucket) :
    (s.setBucket n x).pending = s.pending := rfl

/-! ### tally -/

@[simp] theorem State.tally_node (s : State) (p : Port) (k : PortCounter) : (s.tally p k).node = s.node := rfl
@[simp] theorem State.tally_initializing (s : State) (p : Port) (k : PortCounter) :
    (s.tally p k).initializing = s.initializing := rfl
@[simp] theorem State.tally_now (s : State) (p : Port) (k : PortCounter) : (s.tally p k).now = s.now := rfl
@[simp] theorem State.tally_ports (s : State) (p : Port) (k : PortCounter) :
    (s.tally p k).ports = vset s.ports p (s.ports[p].tally k) := rfl
@[simp] theorem State.tally_store (s : State) (p : Port) (k : PortCounter) : (s.tally p k).store = s.store := rfl
@[simp] theorem State.tally_route (s : State) (p : Port) (k : PortCounter) : (s.tally p k).route = s.route := rfl
@[simp] theorem State.tally_action (s : State) (p : Port) (k : PortCounter) : (s.tally p k).action = s.action := rfl
@[simp] theorem State.tally_disposing (s : State) (p : Port) (k : PortCounter) :
    (s.tally p k).disposing = s.disposing := rfl
@[simp] theorem State.tally_buckets (s : State) (p : Port) (k : PortCounter) :
    (s.tally p k).buckets = s.buckets := rfl
@[simp] theorem State.tally_slots (s : State) (p : Port) (k : PortCounter) : (s.tally p k).slots = s.slots := rfl
@[simp] theorem State.tally_agent (s : State) (p : Port) (k : PortCounter) : (s.tally p k).agent = s.agent := rfl
@[simp] theorem State.tally_events (s : State) (p : Port) (k : PortCounter) : (s.tally p k).events = s.events := rfl
@[simp] theorem State.tally_transit (s : State) (p : Port) (k : PortCounter) :
    (s.tally p k).transit = s.transit := rfl
@[simp] theorem State.tally_raisesWait (s : State) (p : Port) (k : PortCounter) :
    (s.tally p k).raisesWait = s.raisesWait := rfl
@[simp] theorem State.tally_resetDue (s : State) (p : Port) (k : PortCounter) :
    (s.tally p k).resetDue = s.resetDue := rfl
@[simp] theorem State.tally_pending (s : State) (p : Port) (k : PortCounter) :
    (s.tally p k).pending = s.pending := rfl

/-! ### putBytes -/

@[simp] theorem State.putBytes_node (s : State) (b : BufNo) (pos : Nat) (vs : List Byte) :
    (s.putBytes b pos vs).node = s.node := rfl
@[simp] theorem State.putBytes_initializing (s : State) (b : BufNo) (pos : Nat) (vs : List Byte) :
    (s.putBytes b pos vs).initializing = s.initializing := rfl
@[simp] theorem State.putBytes_now (s : State) (b : BufNo) (pos : Nat) (vs : List Byte) :
    (s.putBytes b pos vs).now = s.now := rfl
@[simp] theorem State.putBytes_ports (s : State) (b : BufNo) (pos : Nat) (vs : List Byte) :
    (s.putBytes b pos vs).ports = s.ports := rfl
@[simp] theorem State.putBytes_store (s : State) (b : BufNo) (pos : Nat) (vs : List Byte) :
    (s.putBytes b pos vs).store = { s.store with mem := Memory.writeMany s.store.mem (storeAddr b pos) vs } := rfl
@[simp] theorem State.putBytes_route (s : State) (b : BufNo) (pos : Nat) (vs : List Byte) :
    (s.putBytes b pos vs).route = s.route := rfl
@[simp] theorem State.putBytes_action (s : State) (b : BufNo) (pos : Nat) (vs : List Byte) :
    (s.putBytes b pos vs).action = s.action := rfl
@[simp] theorem State.putBytes_disposing (s : State) (b : BufNo) (pos : Nat) (vs : List Byte) :
    (s.putBytes b pos vs).disposing = s.disposing := rfl
@[simp] theorem State.putBytes_buckets (s : State) (b : BufNo) (pos : Nat) (vs : List Byte) :
    (s.putBytes b pos vs).buckets = s.buckets := rfl
@[simp] theorem State.putBytes_slots (s : State) (b : BufNo) (pos : Nat) (vs : List Byte) :
    (s.putBytes b pos vs).slots = s.slots := rfl
@[simp] theorem State.putBytes_agent (s : State) (b : BufNo) (pos : Nat) (vs : List Byte) :
    (s.putBytes b pos vs).agent = s.agent := rfl
@[simp] theorem State.putBytes_events (s : State) (b : BufNo) (pos : Nat) (vs : List Byte) :
    (s.putBytes b pos vs).events = s.events := rfl
@[simp] theorem State.putBytes_transit (s : State) (b : BufNo) (pos : Nat) (vs : List Byte) :
    (s.putBytes b pos vs).transit = s.transit := rfl
@[simp] theorem State.putBytes_raisesWait (s : State) (b : BufNo) (pos : Nat) (vs : List Byte) :
    (s.putBytes b pos vs).raisesWait = s.raisesWait := rfl
@[simp] theorem State.putBytes_resetDue (s : State) (b : BufNo) (pos : Nat) (vs : List Byte) :
    (s.putBytes b pos vs).resetDue = s.resetDue := rfl
@[simp] theorem State.putBytes_pending (s : State) (b : BufNo) (pos : Nat) (vs : List Byte) :
    (s.putBytes b pos vs).pending = s.pending := rfl

/-! ### askUp -/

@[simp] theorem State.askUp_node (s : State) (c : FlowSymbol) : (s.askUp c).node = s.node := rfl
@[simp] theorem State.askUp_initializing (s : State) (c : FlowSymbol) :
    (s.askUp c).initializing = s.initializing := rfl
@[simp] theorem State.askUp_now (s : State) (c : FlowSymbol) : (s.askUp c).now = s.now := rfl
@[simp] theorem State.askUp_ports (s : State) (c : FlowSymbol) :
    (s.askUp c).ports = vmap (fun P => if P.link = .up then { P with asked := P.asked ++ [c] } else P) s.ports := rfl
@[simp] theorem State.askUp_store (s : State) (c : FlowSymbol) : (s.askUp c).store = s.store := rfl
@[simp] theorem State.askUp_route (s : State) (c : FlowSymbol) : (s.askUp c).route = s.route := rfl
@[simp] theorem State.askUp_action (s : State) (c : FlowSymbol) : (s.askUp c).action = s.action := rfl
@[simp] theorem State.askUp_disposing (s : State) (c : FlowSymbol) : (s.askUp c).disposing = s.disposing := rfl
@[simp] theorem State.askUp_buckets (s : State) (c : FlowSymbol) : (s.askUp c).buckets = s.buckets := rfl
@[simp] theorem State.askUp_slots (s : State) (c : FlowSymbol) : (s.askUp c).slots = s.slots := rfl
@[simp] theorem State.askUp_agent (s : State) (c : FlowSymbol) : (s.askUp c).agent = s.agent := rfl
@[simp] theorem State.askUp_events (s : State) (c : FlowSymbol) : (s.askUp c).events = s.events := rfl
@[simp] theorem State.askUp_transit (s : State) (c : FlowSymbol) : (s.askUp c).transit = s.transit := rfl
@[simp] theorem State.askUp_raisesWait (s : State) (c : FlowSymbol) : (s.askUp c).raisesWait = s.raisesWait := rfl
@[simp] theorem State.askUp_resetDue (s : State) (c : FlowSymbol) : (s.askUp c).resetDue = s.resetDue := rfl
@[simp] theorem State.askUp_pending (s : State) (c : FlowSymbol) : (s.askUp c).pending = s.pending := rfl

/-! ### onRoute -/

@[simp] theorem State.onRoute_node (s : State) (f : RouteTable → RouteTable) : (s.onRoute f).node = s.node := rfl
@[simp] theorem State.onRoute_initializing (s : State) (f : RouteTable → RouteTable) :
    (s.onRoute f).initializing = s.initializing := rfl
@[simp] theorem State.onRoute_now (s : State) (f : RouteTable → RouteTable) : (s.onRoute f).now = s.now := rfl
@[simp] theorem State.onRoute_ports (s : State) (f : RouteTable → RouteTable) : (s.onRoute f).ports = s.ports := rfl
@[simp] theorem State.onRoute_store (s : State) (f : RouteTable → RouteTable) : (s.onRoute f).store = s.store := rfl
@[simp] theorem State.onRoute_route (s : State) (f : RouteTable → RouteTable) : (s.onRoute f).route = f s.route := rfl
@[simp] theorem State.onRoute_action (s : State) (f : RouteTable → RouteTable) :
    (s.onRoute f).action = s.action := rfl
@[simp] theorem State.onRoute_disposing (s : State) (f : RouteTable → RouteTable) :
    (s.onRoute f).disposing = s.disposing := rfl
@[simp] theorem State.onRoute_buckets (s : State) (f : RouteTable → RouteTable) :
    (s.onRoute f).buckets = s.buckets := rfl
@[simp] theorem State.onRoute_slots (s : State) (f : RouteTable → RouteTable) : (s.onRoute f).slots = s.slots := rfl
@[simp] theorem State.onRoute_agent (s : State) (f : RouteTable → RouteTable) : (s.onRoute f).agent = s.agent := rfl
@[simp] theorem State.onRoute_events (s : State) (f : RouteTable → RouteTable) :
    (s.onRoute f).events = s.events := rfl
@[simp] theorem State.onRoute_transit (s : State) (f : RouteTable → RouteTable) :
    (s.onRoute f).transit = s.transit := rfl
@[simp] theorem State.onRoute_raisesWait (s : State) (f : RouteTable → RouteTable) :
    (s.onRoute f).raisesWait = s.raisesWait := rfl
@[simp] theorem State.onRoute_resetDue (s : State) (f : RouteTable → RouteTable) :
    (s.onRoute f).resetDue = s.resetDue := rfl
@[simp] theorem State.onRoute_pending (s : State) (f : RouteTable → RouteTable) :
    (s.onRoute f).pending = s.pending := rfl

/-! ### onAction -/

@[simp] theorem State.onAction_node (s : State) (f : ActionTable → ActionTable) : (s.onAction f).node = s.node := rfl
@[simp] theorem State.onAction_initializing (s : State) (f : ActionTable → ActionTable) :
    (s.onAction f).initializing = s.initializing := rfl
@[simp] theorem State.onAction_now (s : State) (f : ActionTable → ActionTable) : (s.onAction f).now = s.now := rfl
@[simp] theorem State.onAction_ports (s : State) (f : ActionTable → ActionTable) :
    (s.onAction f).ports = s.ports := rfl
@[simp] theorem State.onAction_store (s : State) (f : ActionTable → ActionTable) :
    (s.onAction f).store = s.store := rfl
@[simp] theorem State.onAction_route (s : State) (f : ActionTable → ActionTable) :
    (s.onAction f).route = s.route := rfl
@[simp] theorem State.onAction_action (s : State) (f : ActionTable → ActionTable) :
    (s.onAction f).action = f s.action := rfl
@[simp] theorem State.onAction_disposing (s : State) (f : ActionTable → ActionTable) :
    (s.onAction f).disposing = s.disposing := rfl
@[simp] theorem State.onAction_buckets (s : State) (f : ActionTable → ActionTable) :
    (s.onAction f).buckets = s.buckets := rfl
@[simp] theorem State.onAction_slots (s : State) (f : ActionTable → ActionTable) :
    (s.onAction f).slots = s.slots := rfl
@[simp] theorem State.onAction_agent (s : State) (f : ActionTable → ActionTable) :
    (s.onAction f).agent = s.agent := rfl
@[simp] theorem State.onAction_events (s : State) (f : ActionTable → ActionTable) :
    (s.onAction f).events = s.events := rfl
@[simp] theorem State.onAction_transit (s : State) (f : ActionTable → ActionTable) :
    (s.onAction f).transit = s.transit := rfl
@[simp] theorem State.onAction_raisesWait (s : State) (f : ActionTable → ActionTable) :
    (s.onAction f).raisesWait = s.raisesWait := rfl
@[simp] theorem State.onAction_resetDue (s : State) (f : ActionTable → ActionTable) :
    (s.onAction f).resetDue = s.resetDue := rfl
@[simp] theorem State.onAction_pending (s : State) (f : ActionTable → ActionTable) :
    (s.onAction f).pending = s.pending := rfl

/-! ### countDown -/

@[simp] theorem State.countDown_node (s : State) (m : PortSet) : (s.countDown m).node = s.node := rfl
@[simp] theorem State.countDown_initializing (s : State) (m : PortSet) :
    (s.countDown m).initializing = s.initializing := rfl
@[simp] theorem State.countDown_now (s : State) (m : PortSet) : (s.countDown m).now = s.now := rfl
@[simp] theorem State.countDown_ports (s : State) (m : PortSet) :
    (s.countDown m).ports = Vector.ofFn fun p : Port =>
        if PortSet.has m p && !s.isUp p then s.ports[p].tally .egressDown else s.ports[p] := rfl
@[simp] theorem State.countDown_store (s : State) (m : PortSet) : (s.countDown m).store = s.store := rfl
@[simp] theorem State.countDown_route (s : State) (m : PortSet) : (s.countDown m).route = s.route := rfl
@[simp] theorem State.countDown_action (s : State) (m : PortSet) : (s.countDown m).action = s.action := rfl
@[simp] theorem State.countDown_disposing (s : State) (m : PortSet) : (s.countDown m).disposing = s.disposing := rfl
@[simp] theorem State.countDown_buckets (s : State) (m : PortSet) : (s.countDown m).buckets = s.buckets := rfl
@[simp] theorem State.countDown_slots (s : State) (m : PortSet) : (s.countDown m).slots = s.slots := rfl
@[simp] theorem State.countDown_agent (s : State) (m : PortSet) : (s.countDown m).agent = s.agent := rfl
@[simp] theorem State.countDown_events (s : State) (m : PortSet) : (s.countDown m).events = s.events := rfl
@[simp] theorem State.countDown_transit (s : State) (m : PortSet) : (s.countDown m).transit = s.transit := rfl
@[simp] theorem State.countDown_raisesWait (s : State) (m : PortSet) :
    (s.countDown m).raisesWait = s.raisesWait := rfl
@[simp] theorem State.countDown_resetDue (s : State) (m : PortSet) : (s.countDown m).resetDue = s.resetDue := rfl
@[simp] theorem State.countDown_pending (s : State) (m : PortSet) : (s.countDown m).pending = s.pending := rfl

/-! ### goOn -/

@[simp] theorem State.goOn_node (s : State) (p : Port) (d : Disposal) : (s.goOn p d).node = s.node := rfl
@[simp] theorem State.goOn_initializing (s : State) (p : Port) (d : Disposal) :
    (s.goOn p d).initializing = s.initializing := rfl
@[simp] theorem State.goOn_now (s : State) (p : Port) (d : Disposal) : (s.goOn p d).now = s.now := rfl
@[simp] theorem State.goOn_ports (s : State) (p : Port) (d : Disposal) : (s.goOn p d).ports = s.ports := rfl
@[simp] theorem State.goOn_store (s : State) (p : Port) (d : Disposal) : (s.goOn p d).store = s.store := rfl
@[simp] theorem State.goOn_route (s : State) (p : Port) (d : Disposal) : (s.goOn p d).route = s.route := rfl
@[simp] theorem State.goOn_action (s : State) (p : Port) (d : Disposal) : (s.goOn p d).action = s.action := rfl
@[simp] theorem State.goOn_disposing (s : State) (p : Port) (d : Disposal) :
    (s.goOn p d).disposing = vset s.disposing p (some d) := rfl
@[simp] theorem State.goOn_buckets (s : State) (p : Port) (d : Disposal) : (s.goOn p d).buckets = s.buckets := rfl
@[simp] theorem State.goOn_slots (s : State) (p : Port) (d : Disposal) : (s.goOn p d).slots = s.slots := rfl
@[simp] theorem State.goOn_agent (s : State) (p : Port) (d : Disposal) : (s.goOn p d).agent = s.agent := rfl
@[simp] theorem State.goOn_events (s : State) (p : Port) (d : Disposal) : (s.goOn p d).events = s.events := rfl
@[simp] theorem State.goOn_transit (s : State) (p : Port) (d : Disposal) : (s.goOn p d).transit = s.transit := rfl
@[simp] theorem State.goOn_raisesWait (s : State) (p : Port) (d : Disposal) :
    (s.goOn p d).raisesWait = s.raisesWait := rfl
@[simp] theorem State.goOn_resetDue (s : State) (p : Port) (d : Disposal) : (s.goOn p d).resetDue = s.resetDue := rfl
@[simp] theorem State.goOn_pending (s : State) (p : Port) (d : Disposal) : (s.goOn p d).pending = s.pending := rfl

/-! ### advance -/

@[simp] theorem State.advance_node (s : State) : s.advance.node = s.node := rfl
@[simp] theorem State.advance_initializing (s : State) : s.advance.initializing = s.initializing := rfl
@[simp] theorem State.advance_now (s : State) : s.advance.now = s.now + 1 := rfl
@[simp] theorem State.advance_ports (s : State) : s.advance.ports = s.ports := rfl
@[simp] theorem State.advance_store (s : State) : s.advance.store = s.store := rfl
@[simp] theorem State.advance_route (s : State) : s.advance.route = s.route := rfl
@[simp] theorem State.advance_action (s : State) : s.advance.action = s.action := rfl
@[simp] theorem State.advance_disposing (s : State) : s.advance.disposing = s.disposing := rfl
@[simp] theorem State.advance_buckets (s : State) : s.advance.buckets = vmap Bucket.refill s.buckets := rfl
@[simp] theorem State.advance_slots (s : State) : s.advance.slots = s.slots := rfl
@[simp] theorem State.advance_agent (s : State) : s.advance.agent = s.agent := rfl
@[simp] theorem State.advance_events (s : State) : s.advance.events = s.events := rfl
@[simp] theorem State.advance_transit (s : State) : s.advance.transit = s.transit := rfl
@[simp] theorem State.advance_raisesWait (s : State) : s.advance.raisesWait = s.raisesWait := rfl
@[simp] theorem State.advance_resetDue (s : State) : s.advance.resetDue = s.resetDue := rfl
@[simp] theorem State.advance_pending (s : State) : s.advance.pending = s.pending := rfl

/-! ### note -/

@[simp] theorem State.note_node (s : State) (kind : NoticeKind) (subject : Byte) (detail : BitVec 32) :
    (s.note kind subject detail).node = s.node := rfl
@[simp] theorem State.note_initializing (s : State) (kind : NoticeKind) (subject : Byte) (detail : BitVec 32) :
    (s.note kind subject detail).initializing = s.initializing := rfl
@[simp] theorem State.note_now (s : State) (kind : NoticeKind) (subject : Byte) (detail : BitVec 32) :
    (s.note kind subject detail).now = s.now := rfl
@[simp] theorem State.note_ports (s : State) (kind : NoticeKind) (subject : Byte) (detail : BitVec 32) :
    (s.note kind subject detail).ports = s.ports := rfl
@[simp] theorem State.note_store (s : State) (kind : NoticeKind) (subject : Byte) (detail : BitVec 32) :
    (s.note kind subject detail).store = s.store := rfl
@[simp] theorem State.note_route (s : State) (kind : NoticeKind) (subject : Byte) (detail : BitVec 32) :
    (s.note kind subject detail).route = s.route := rfl
@[simp] theorem State.note_action (s : State) (kind : NoticeKind) (subject : Byte) (detail : BitVec 32) :
    (s.note kind subject detail).action = s.action := rfl
@[simp] theorem State.note_disposing (s : State) (kind : NoticeKind) (subject : Byte) (detail : BitVec 32) :
    (s.note kind subject detail).disposing = s.disposing := rfl
@[simp] theorem State.note_buckets (s : State) (kind : NoticeKind) (subject : Byte) (detail : BitVec 32) :
    (s.note kind subject detail).buckets = s.buckets := rfl
@[simp] theorem State.note_slots (s : State) (kind : NoticeKind) (subject : Byte) (detail : BitVec 32) :
    (s.note kind subject detail).slots = s.slots := rfl
@[simp] theorem State.note_agent (s : State) (kind : NoticeKind) (subject : Byte) (detail : BitVec 32) :
    (s.note kind subject detail).agent = s.agent := rfl
@[simp] theorem State.note_events (s : State) (kind : NoticeKind) (subject : Byte) (detail : BitVec 32) :
    (s.note kind subject detail).events = s.events.take kind subject s.now detail := rfl
@[simp] theorem State.note_transit (s : State) (kind : NoticeKind) (subject : Byte) (detail : BitVec 32) :
    (s.note kind subject detail).transit = s.transit := rfl
@[simp] theorem State.note_raisesWait (s : State) (kind : NoticeKind) (subject : Byte) (detail : BitVec 32) :
    (s.note kind subject detail).raisesWait = s.raisesWait := rfl
@[simp] theorem State.note_resetDue (s : State) (kind : NoticeKind) (subject : Byte) (detail : BitVec 32) :
    (s.note kind subject detail).resetDue = s.resetDue := rfl
@[simp] theorem State.note_pending (s : State) (kind : NoticeKind) (subject : Byte) (detail : BitVec 32) :
    (s.note kind subject detail).pending = s.pending := rfl

/-! ### sendRaise -/

@[simp] theorem State.sendRaise_node (s : State) (r : Raise) : (s.sendRaise r).node = s.node := rfl
@[simp] theorem State.sendRaise_initializing (s : State) (r : Raise) :
    (s.sendRaise r).initializing = s.initializing := rfl
@[simp] theorem State.sendRaise_now (s : State) (r : Raise) : (s.sendRaise r).now = s.now := rfl
@[simp] theorem State.sendRaise_ports (s : State) (r : Raise) : (s.sendRaise r).ports = s.ports := rfl
@[simp] theorem State.sendRaise_store (s : State) (r : Raise) : (s.sendRaise r).store = s.store := rfl
@[simp] theorem State.sendRaise_route (s : State) (r : Raise) : (s.sendRaise r).route = s.route := rfl
@[simp] theorem State.sendRaise_action (s : State) (r : Raise) : (s.sendRaise r).action = s.action := rfl
@[simp] theorem State.sendRaise_disposing (s : State) (r : Raise) : (s.sendRaise r).disposing = s.disposing := rfl
@[simp] theorem State.sendRaise_buckets (s : State) (r : Raise) : (s.sendRaise r).buckets = s.buckets := rfl
@[simp] theorem State.sendRaise_slots (s : State) (r : Raise) : (s.sendRaise r).slots = s.slots := rfl
@[simp] theorem State.sendRaise_agent (s : State) (r : Raise) : (s.sendRaise r).agent = s.agent := rfl
@[simp] theorem State.sendRaise_events (s : State) (r : Raise) : (s.sendRaise r).events = s.events := rfl
@[simp] theorem State.sendRaise_transit (s : State) (r : Raise) : (s.sendRaise r).transit = s.transit ++ [r] := rfl
@[simp] theorem State.sendRaise_raisesWait (s : State) (r : Raise) : (s.sendRaise r).raisesWait = s.raisesWait := rfl
@[simp] theorem State.sendRaise_resetDue (s : State) (r : Raise) : (s.sendRaise r).resetDue = s.resetDue := rfl
@[simp] theorem State.sendRaise_pending (s : State) (r : Raise) : (s.sendRaise r).pending = s.pending := rfl

/-! ### armRetransmit -/

@[simp] theorem State.armRetransmit_node (s : State) : s.armRetransmit.node = s.node := rfl
@[simp] theorem State.armRetransmit_initializing (s : State) : s.armRetransmit.initializing = s.initializing := rfl
@[simp] theorem State.armRetransmit_now (s : State) : s.armRetransmit.now = s.now := rfl
@[simp] theorem State.armRetransmit_ports (s : State) : s.armRetransmit.ports = s.ports := rfl
@[simp] theorem State.armRetransmit_store (s : State) : s.armRetransmit.store = s.store := rfl
@[simp] theorem State.armRetransmit_route (s : State) : s.armRetransmit.route = s.route := rfl
@[simp] theorem State.armRetransmit_action (s : State) : s.armRetransmit.action = s.action := rfl
@[simp] theorem State.armRetransmit_disposing (s : State) : s.armRetransmit.disposing = s.disposing := rfl
@[simp] theorem State.armRetransmit_buckets (s : State) : s.armRetransmit.buckets = s.buckets := rfl
@[simp] theorem State.armRetransmit_slots (s : State) : s.armRetransmit.slots = s.slots := rfl
@[simp] theorem State.armRetransmit_agent (s : State) : s.armRetransmit.agent = s.agent := rfl
@[simp] theorem State.armRetransmit_events (s : State) :
    s.armRetransmit.events = { s.events with
        outstanding := true, timer := some (s.now + ticksOf10Ms s.events.interval.toNat) } := rfl
@[simp] theorem State.armRetransmit_transit (s : State) : s.armRetransmit.transit = s.transit := rfl
@[simp] theorem State.armRetransmit_raisesWait (s : State) : s.armRetransmit.raisesWait = s.raisesWait := rfl
@[simp] theorem State.armRetransmit_resetDue (s : State) : s.armRetransmit.resetDue = s.resetDue := rfl
@[simp] theorem State.armRetransmit_pending (s : State) : s.armRetransmit.pending = s.pending := rfl

/-! ### closeSession -/

@[simp] theorem State.closeSession_node (s : State) : s.closeSession.node = s.node := rfl
@[simp] theorem State.closeSession_initializing (s : State) : s.closeSession.initializing = s.initializing := rfl
@[simp] theorem State.closeSession_now (s : State) : s.closeSession.now = s.now := rfl
@[simp] theorem State.closeSession_ports (s : State) : s.closeSession.ports = s.ports := rfl
@[simp] theorem State.closeSession_store (s : State) : s.closeSession.store = s.store := rfl
@[simp] theorem State.closeSession_route (s : State) : s.closeSession.route = s.route.revert s.now := rfl
@[simp] theorem State.closeSession_action (s : State) : s.closeSession.action = s.action := rfl
@[simp] theorem State.closeSession_disposing (s : State) : s.closeSession.disposing = s.disposing := rfl
@[simp] theorem State.closeSession_buckets (s : State) : s.closeSession.buckets = s.buckets := rfl
@[simp] theorem State.closeSession_slots (s : State) : s.closeSession.slots = s.slots := rfl
@[simp] theorem State.closeSession_agent (s : State) :
    s.closeSession.agent = { s.agent with session := .closed } := rfl
@[simp] theorem State.closeSession_events (s : State) :
    s.closeSession.events = { s.events with outstanding := false, timer := none } := rfl
@[simp] theorem State.closeSession_transit (s : State) : s.closeSession.transit = s.transit := rfl
@[simp] theorem State.closeSession_raisesWait (s : State) : s.closeSession.raisesWait = s.raisesWait := rfl
@[simp] theorem State.closeSession_resetDue (s : State) : s.closeSession.resetDue = s.resetDue := rfl
@[simp] theorem State.closeSession_pending (s : State) : s.closeSession.pending = s.pending := rfl

/-! ### beginRequest -/

@[simp] theorem State.beginRequest_node (s : State) (r : Request) (rest : List Request) :
    (s.beginRequest r rest).node = s.node := rfl
@[simp] theorem State.beginRequest_initializing (s : State) (r : Request) (rest : List Request) :
    (s.beginRequest r rest).initializing = s.initializing := rfl
@[simp] theorem State.beginRequest_now (s : State) (r : Request) (rest : List Request) :
    (s.beginRequest r rest).now = s.now := rfl
@[simp] theorem State.beginRequest_ports (s : State) (r : Request) (rest : List Request) :
    (s.beginRequest r rest).ports = s.ports := rfl
@[simp] theorem State.beginRequest_store (s : State) (r : Request) (rest : List Request) :
    (s.beginRequest r rest).store = s.store := rfl
@[simp] theorem State.beginRequest_route (s : State) (r : Request) (rest : List Request) :
    (s.beginRequest r rest).route = s.route := rfl
@[simp] theorem State.beginRequest_action (s : State) (r : Request) (rest : List Request) :
    (s.beginRequest r rest).action = s.action := rfl
@[simp] theorem State.beginRequest_disposing (s : State) (r : Request) (rest : List Request) :
    (s.beginRequest r rest).disposing = s.disposing := rfl
@[simp] theorem State.beginRequest_buckets (s : State) (r : Request) (rest : List Request) :
    (s.beginRequest r rest).buckets = s.buckets := rfl
@[simp] theorem State.beginRequest_slots (s : State) (r : Request) (rest : List Request) :
    (s.beginRequest r rest).slots = s.slots := rfl
@[simp] theorem State.beginRequest_agent (s : State) (r : Request) (rest : List Request) :
    (s.beginRequest r rest).agent = { s.agent with queue := rest, executing := some r } := rfl
@[simp] theorem State.beginRequest_events (s : State) (r : Request) (rest : List Request) :
    (s.beginRequest r rest).events = s.events := rfl
@[simp] theorem State.beginRequest_transit (s : State) (r : Request) (rest : List Request) :
    (s.beginRequest r rest).transit = s.transit := rfl
@[simp] theorem State.beginRequest_raisesWait (s : State) (r : Request) (rest : List Request) :
    (s.beginRequest r rest).raisesWait = s.raisesWait := rfl
@[simp] theorem State.beginRequest_resetDue (s : State) (r : Request) (rest : List Request) :
    (s.beginRequest r rest).resetDue = s.resetDue := rfl
@[simp] theorem State.beginRequest_pending (s : State) (r : Request) (rest : List Request) :
    (s.beginRequest r rest).pending = s.pending := rfl

/-! ### admitRequest -/

@[simp] theorem State.admitRequest_node (s : State) (v : RequestView) : (s.admitRequest v).node = s.node := rfl
@[simp] theorem State.admitRequest_initializing (s : State) (v : RequestView) :
    (s.admitRequest v).initializing = s.initializing := rfl
@[simp] theorem State.admitRequest_now (s : State) (v : RequestView) : (s.admitRequest v).now = s.now := rfl
@[simp] theorem State.admitRequest_ports (s : State) (v : RequestView) : (s.admitRequest v).ports = s.ports := rfl
@[simp] theorem State.admitRequest_store (s : State) (v : RequestView) : (s.admitRequest v).store = s.store := rfl
@[simp] theorem State.admitRequest_route (s : State) (v : RequestView) : (s.admitRequest v).route = s.route := rfl
@[simp] theorem State.admitRequest_action (s : State) (v : RequestView) : (s.admitRequest v).action = s.action := rfl
@[simp] theorem State.admitRequest_disposing (s : State) (v : RequestView) :
    (s.admitRequest v).disposing = s.disposing := rfl
@[simp] theorem State.admitRequest_buckets (s : State) (v : RequestView) :
    (s.admitRequest v).buckets = s.buckets := rfl
@[simp] theorem State.admitRequest_slots (s : State) (v : RequestView) : (s.admitRequest v).slots = s.slots := rfl
@[simp] theorem State.admitRequest_agent (s : State) (v : RequestView) :
    (s.admitRequest v).agent = { s.agent with session := { s.agent.session with
        expected := s.agent.session.expected + 1
        leaseDeadline := some (s.now + ticksOf10Ms s.agent.session.leaseLength.toNat)
        eventPort := v.req.port } } := rfl
@[simp] theorem State.admitRequest_events (s : State) (v : RequestView) : (s.admitRequest v).events = s.events := rfl
@[simp] theorem State.admitRequest_transit (s : State) (v : RequestView) :
    (s.admitRequest v).transit = s.transit := rfl
@[simp] theorem State.admitRequest_raisesWait (s : State) (v : RequestView) :
    (s.admitRequest v).raisesWait = s.raisesWait := rfl
@[simp] theorem State.admitRequest_resetDue (s : State) (v : RequestView) :
    (s.admitRequest v).resetDue = s.resetDue := rfl
@[simp] theorem State.admitRequest_pending (s : State) (v : RequestView) :
    (s.admitRequest v).pending = s.pending := rfl

/-! ### cacheResponse -/

@[simp] theorem State.cacheResponse_node (s : State) (v : RequestView) (r : Reply) :
    (s.cacheResponse v r).node = s.node := rfl
@[simp] theorem State.cacheResponse_initializing (s : State) (v : RequestView) (r : Reply) :
    (s.cacheResponse v r).initializing = s.initializing := rfl
@[simp] theorem State.cacheResponse_now (s : State) (v : RequestView) (r : Reply) :
    (s.cacheResponse v r).now = s.now := rfl
@[simp] theorem State.cacheResponse_ports (s : State) (v : RequestView) (r : Reply) :
    (s.cacheResponse v r).ports = s.ports := rfl
@[simp] theorem State.cacheResponse_store (s : State) (v : RequestView) (r : Reply) :
    (s.cacheResponse v r).store = s.store := rfl
@[simp] theorem State.cacheResponse_route (s : State) (v : RequestView) (r : Reply) :
    (s.cacheResponse v r).route = s.route := rfl
@[simp] theorem State.cacheResponse_action (s : State) (v : RequestView) (r : Reply) :
    (s.cacheResponse v r).action = s.action := rfl
@[simp] theorem State.cacheResponse_disposing (s : State) (v : RequestView) (r : Reply) :
    (s.cacheResponse v r).disposing = s.disposing := rfl
@[simp] theorem State.cacheResponse_buckets (s : State) (v : RequestView) (r : Reply) :
    (s.cacheResponse v r).buckets = s.buckets := rfl
@[simp] theorem State.cacheResponse_slots (s : State) (v : RequestView) (r : Reply) :
    (s.cacheResponse v r).slots = s.slots := rfl
@[simp] theorem State.cacheResponse_agent (s : State) (v : RequestView) (r : Reply) :
    (s.cacheResponse v r).agent = { s.agent with session := { s.agent.session with
        cache := some { opcode := v.opcode, sequence := v.seq, status := r.status, replay := false,
                        results := r.results } } } := rfl
@[simp] theorem State.cacheResponse_events (s : State) (v : RequestView) (r : Reply) :
    (s.cacheResponse v r).events = s.events := rfl
@[simp] theorem State.cacheResponse_transit (s : State) (v : RequestView) (r : Reply) :
    (s.cacheResponse v r).transit = s.transit := rfl
@[simp] theorem State.cacheResponse_raisesWait (s : State) (v : RequestView) (r : Reply) :
    (s.cacheResponse v r).raisesWait = s.raisesWait := rfl
@[simp] theorem State.cacheResponse_resetDue (s : State) (v : RequestView) (r : Reply) :
    (s.cacheResponse v r).resetDue = s.resetDue := rfl
@[simp] theorem State.cacheResponse_pending (s : State) (v : RequestView) (r : Reply) :
    (s.cacheResponse v r).pending = s.pending := rfl

/-! ### enterReset -/

@[simp] theorem State.enterReset_node (s : State) (v : RequestView) (scope : ResetScope) :
    (s.enterReset v scope).node = s.node := rfl
@[simp] theorem State.enterReset_initializing (s : State) (v : RequestView) (scope : ResetScope) :
    (s.enterReset v scope).initializing = s.initializing := rfl
@[simp] theorem State.enterReset_now (s : State) (v : RequestView) (scope : ResetScope) :
    (s.enterReset v scope).now = s.now := rfl
@[simp] theorem State.enterReset_ports (s : State) (v : RequestView) (scope : ResetScope) :
    (s.enterReset v scope).ports = s.ports := rfl
@[simp] theorem State.enterReset_store (s : State) (v : RequestView) (scope : ResetScope) :
    (s.enterReset v scope).store = s.store := rfl
@[simp] theorem State.enterReset_route (s : State) (v : RequestView) (scope : ResetScope) :
    (s.enterReset v scope).route = s.route := rfl
@[simp] theorem State.enterReset_action (s : State) (v : RequestView) (scope : ResetScope) :
    (s.enterReset v scope).action = s.action := rfl
@[simp] theorem State.enterReset_disposing (s : State) (v : RequestView) (scope : ResetScope) :
    (s.enterReset v scope).disposing = s.disposing := rfl
@[simp] theorem State.enterReset_buckets (s : State) (v : RequestView) (scope : ResetScope) :
    (s.enterReset v scope).buckets = s.buckets := rfl
@[simp] theorem State.enterReset_slots (s : State) (v : RequestView) (scope : ResetScope) :
    (s.enterReset v scope).slots = s.slots := rfl
@[simp] theorem State.enterReset_agent (s : State) (v : RequestView) (scope : ResetScope) :
    (s.enterReset v scope).agent = { s.agent with
        resetPending := some { scope := scope, buf := v.req.buf, limit := s.now + 500 } } := rfl
@[simp] theorem State.enterReset_events (s : State) (v : RequestView) (scope : ResetScope) :
    (s.enterReset v scope).events = s.events := rfl
@[simp] theorem State.enterReset_transit (s : State) (v : RequestView) (scope : ResetScope) :
    (s.enterReset v scope).transit = s.transit := rfl
@[simp] theorem State.enterReset_raisesWait (s : State) (v : RequestView) (scope : ResetScope) :
    (s.enterReset v scope).raisesWait = s.raisesWait := rfl
@[simp] theorem State.enterReset_resetDue (s : State) (v : RequestView) (scope : ResetScope) :
    (s.enterReset v scope).resetDue = s.resetDue := rfl
@[simp] theorem State.enterReset_pending (s : State) (v : RequestView) (scope : ResetScope) :
    (s.enterReset v scope).pending = s.pending := rfl

/-! ### configureEvents -/

@[simp] theorem State.configureEvents_node (s : State) (enabled : Bool) (interval : BitVec 8) :
    (s.configureEvents enabled interval).node = s.node := rfl
@[simp] theorem State.configureEvents_initializing (s : State) (enabled : Bool) (interval : BitVec 8) :
    (s.configureEvents enabled interval).initializing = s.initializing := rfl
@[simp] theorem State.configureEvents_now (s : State) (enabled : Bool) (interval : BitVec 8) :
    (s.configureEvents enabled interval).now = s.now := rfl
@[simp] theorem State.configureEvents_ports (s : State) (enabled : Bool) (interval : BitVec 8) :
    (s.configureEvents enabled interval).ports = s.ports := rfl
@[simp] theorem State.configureEvents_store (s : State) (enabled : Bool) (interval : BitVec 8) :
    (s.configureEvents enabled interval).store = s.store := rfl
@[simp] theorem State.configureEvents_route (s : State) (enabled : Bool) (interval : BitVec 8) :
    (s.configureEvents enabled interval).route = s.route := rfl
@[simp] theorem State.configureEvents_action (s : State) (enabled : Bool) (interval : BitVec 8) :
    (s.configureEvents enabled interval).action = s.action := rfl
@[simp] theorem State.configureEvents_disposing (s : State) (enabled : Bool) (interval : BitVec 8) :
    (s.configureEvents enabled interval).disposing = s.disposing := rfl
@[simp] theorem State.configureEvents_buckets (s : State) (enabled : Bool) (interval : BitVec 8) :
    (s.configureEvents enabled interval).buckets = s.buckets := rfl
@[simp] theorem State.configureEvents_slots (s : State) (enabled : Bool) (interval : BitVec 8) :
    (s.configureEvents enabled interval).slots = s.slots := rfl
@[simp] theorem State.configureEvents_agent (s : State) (enabled : Bool) (interval : BitVec 8) :
    (s.configureEvents enabled interval).agent = { s.agent with session := { s.agent.session with eventsEnabled := enabled } } := rfl
@[simp] theorem State.configureEvents_events (s : State) (enabled : Bool) (interval : BitVec 8) :
    (s.configureEvents enabled interval).events = { s.events with interval := interval } := rfl
@[simp] theorem State.configureEvents_transit (s : State) (enabled : Bool) (interval : BitVec 8) :
    (s.configureEvents enabled interval).transit = s.transit := rfl
@[simp] theorem State.configureEvents_raisesWait (s : State) (enabled : Bool) (interval : BitVec 8) :
    (s.configureEvents enabled interval).raisesWait = s.raisesWait := rfl
@[simp] theorem State.configureEvents_resetDue (s : State) (enabled : Bool) (interval : BitVec 8) :
    (s.configureEvents enabled interval).resetDue = s.resetDue := rfl
@[simp] theorem State.configureEvents_pending (s : State) (enabled : Bool) (interval : BitVec 8) :
    (s.configureEvents enabled interval).pending = s.pending := rfl

/-! ## Updates of a port -/

/-! ### tally -/

@[simp] theorem PortState.tally_link (P : PortState) (k : PortCounter) : (P.tally k).link = P.link := rfl
@[simp] theorem PortState.tally_validRun (P : PortState) (k : PortCounter) : (P.tally k).validRun = P.validRun := rfl
@[simp] theorem PortState.tally_invalidRun (P : PortState) (k : PortCounter) :
    (P.tally k).invalidRun = P.invalidRun := rfl
@[simp] theorem PortState.tally_trainingDeadline (P : PortState) (k : PortCounter) :
    (P.tally k).trainingDeadline = P.trainingDeadline := rfl
@[simp] theorem PortState.tally_quiet (P : PortState) (k : PortCounter) : (P.tally k).quiet = P.quiet := rfl
@[simp] theorem PortState.tally_rx (P : PortState) (k : PortCounter) : (P.tally k).rx = P.rx := rfl
@[simp] theorem PortState.tally_tx (P : PortState) (k : PortCounter) : (P.tally k).tx = P.tx := rfl
@[simp] theorem PortState.tally_partnerHold (P : PortState) (k : PortCounter) :
    (P.tally k).partnerHold = P.partnerHold := rfl
@[simp] theorem PortState.tally_holdDeadline (P : PortState) (k : PortCounter) :
    (P.tally k).holdDeadline = P.holdDeadline := rfl
@[simp] theorem PortState.tally_cfg (P : PortState) (k : PortCounter) : (P.tally k).cfg = P.cfg := rfl
@[simp] theorem PortState.tally_ctr (P : PortState) (k : PortCounter) : (P.tally k).ctr = P.ctr.update bump k := rfl
@[simp] theorem PortState.tally_queues (P : PortState) (k : PortCounter) : (P.tally k).queues = P.queues := rfl
@[simp] theorem PortState.tally_asked (P : PortState) (k : PortCounter) : (P.tally k).asked = P.asked := rfl
@[simp] theorem PortState.tally_sent (P : PortState) (k : PortCounter) : (P.tally k).sent = P.sent := rfl

/-! ### dropHead -/

@[simp] theorem PortState.dropHead_link (P : PortState) (c : Class) : (P.dropHead c).link = P.link := rfl
@[simp] theorem PortState.dropHead_validRun (P : PortState) (c : Class) : (P.dropHead c).validRun = P.validRun := rfl
@[simp] theorem PortState.dropHead_invalidRun (P : PortState) (c : Class) :
    (P.dropHead c).invalidRun = P.invalidRun := rfl
@[simp] theorem PortState.dropHead_trainingDeadline (P : PortState) (c : Class) :
    (P.dropHead c).trainingDeadline = P.trainingDeadline := rfl
@[simp] theorem PortState.dropHead_quiet (P : PortState) (c : Class) : (P.dropHead c).quiet = P.quiet := rfl
@[simp] theorem PortState.dropHead_rx (P : PortState) (c : Class) : (P.dropHead c).rx = P.rx := rfl
@[simp] theorem PortState.dropHead_tx (P : PortState) (c : Class) : (P.dropHead c).tx = P.tx := rfl
@[simp] theorem PortState.dropHead_partnerHold (P : PortState) (c : Class) :
    (P.dropHead c).partnerHold = P.partnerHold := rfl
@[simp] theorem PortState.dropHead_holdDeadline (P : PortState) (c : Class) :
    (P.dropHead c).holdDeadline = P.holdDeadline := rfl
@[simp] theorem PortState.dropHead_cfg (P : PortState) (c : Class) : (P.dropHead c).cfg = P.cfg := rfl
@[simp] theorem PortState.dropHead_ctr (P : PortState) (c : Class) : (P.dropHead c).ctr = P.ctr := rfl
@[simp] theorem PortState.dropHead_queues (P : PortState) (c : Class) :
    (P.dropHead c).queues = vset P.queues c P.queues[c].tail := rfl
@[simp] theorem PortState.dropHead_asked (P : PortState) (c : Class) : (P.dropHead c).asked = P.asked := rfl
@[simp] theorem PortState.dropHead_sent (P : PortState) (c : Class) : (P.dropHead c).sent = P.sent := rfl

/-! ### flushed -/

@[simp] theorem PortState.flushed_link (P : PortState) : P.flushed.link = P.link := rfl
@[simp] theorem PortState.flushed_validRun (P : PortState) : P.flushed.validRun = P.validRun := rfl
@[simp] theorem PortState.flushed_invalidRun (P : PortState) : P.flushed.invalidRun = P.invalidRun := rfl
@[simp] theorem PortState.flushed_trainingDeadline (P : PortState) :
    P.flushed.trainingDeadline = P.trainingDeadline := rfl
@[simp] theorem PortState.flushed_quiet (P : PortState) : P.flushed.quiet = P.quiet := rfl
@[simp] theorem PortState.flushed_rx (P : PortState) : P.flushed.rx = P.rx := rfl
@[simp] theorem PortState.flushed_tx (P : PortState) : P.flushed.tx = P.tx := rfl
@[simp] theorem PortState.flushed_partnerHold (P : PortState) : P.flushed.partnerHold = P.partnerHold := rfl
@[simp] theorem PortState.flushed_holdDeadline (P : PortState) : P.flushed.holdDeadline = P.holdDeadline := rfl
@[simp] theorem PortState.flushed_cfg (P : PortState) : P.flushed.cfg = P.cfg := rfl
@[simp] theorem PortState.flushed_ctr (P : PortState) :
    P.flushed.ctr = P.ctr.update (bumpBy P.allWaiting.length) .qFlushed := rfl
@[simp] theorem PortState.flushed_queues (P : PortState) :
    P.flushed.queues = #v[P.unflushed 0, P.unflushed 1, P.unflushed 2, P.unflushed 3] := rfl
@[simp] theorem PortState.flushed_asked (P : PortState) : P.flushed.asked = P.asked := rfl
@[simp] theorem PortState.flushed_sent (P : PortState) : P.flushed.sent = P.sent := rfl

/-! ### endSending -/

@[simp] theorem PortState.endSending_link (P : PortState) (e : Entry) : (P.endSending e).link = P.link := rfl
@[simp] theorem PortState.endSending_validRun (P : PortState) (e : Entry) :
    (P.endSending e).validRun = P.validRun := rfl
@[simp] theorem PortState.endSending_invalidRun (P : PortState) (e : Entry) :
    (P.endSending e).invalidRun = P.invalidRun := rfl
@[simp] theorem PortState.endSending_trainingDeadline (P : PortState) (e : Entry) :
    (P.endSending e).trainingDeadline = P.trainingDeadline := rfl
@[simp] theorem PortState.endSending_quiet (P : PortState) (e : Entry) : (P.endSending e).quiet = P.quiet := rfl
@[simp] theorem PortState.endSending_rx (P : PortState) (e : Entry) : (P.endSending e).rx = P.rx := rfl
@[simp] theorem PortState.endSending_tx (P : PortState) (e : Entry) : (P.endSending e).tx = .idle := rfl
@[simp] theorem PortState.endSending_partnerHold (P : PortState) (e : Entry) :
    (P.endSending e).partnerHold = P.partnerHold := rfl
@[simp] theorem PortState.endSending_holdDeadline (P : PortState) (e : Entry) :
    (P.endSending e).holdDeadline = P.holdDeadline := rfl
@[simp] theorem PortState.endSending_cfg (P : PortState) (e : Entry) : (P.endSending e).cfg = P.cfg := rfl
@[simp] theorem PortState.endSending_ctr (P : PortState) (e : Entry) : (P.endSending e).ctr = P.ctr := rfl
@[simp] theorem PortState.endSending_queues (P : PortState) (e : Entry) :
    (P.endSending e).queues = vset P.queues e.hdr.cls P.queues[e.hdr.cls].tail := rfl
@[simp] theorem PortState.endSending_asked (P : PortState) (e : Entry) : (P.endSending e).asked = P.asked := rfl
@[simp] theorem PortState.endSending_sent (P : PortState) (e : Entry) : (P.endSending e).sent = P.sent := rfl

/-! ### restartLink -/

@[simp] theorem PortState.restartLink_link (P : PortState) (dest : LinkState) :
    (P.restartLink dest).link = dest := rfl
@[simp] theorem PortState.restartLink_validRun (P : PortState) (dest : LinkState) :
    (P.restartLink dest).validRun = 0 := rfl
@[simp] theorem PortState.restartLink_invalidRun (P : PortState) (dest : LinkState) :
    (P.restartLink dest).invalidRun = 0 := rfl
@[simp] theorem PortState.restartLink_trainingDeadline (P : PortState) (dest : LinkState) :
    (P.restartLink dest).trainingDeadline = none := rfl
@[simp] theorem PortState.restartLink_quiet (P : PortState) (dest : LinkState) :
    (P.restartLink dest).quiet = P.quiet := rfl
@[simp] theorem PortState.restartLink_rx (P : PortState) (dest : LinkState) : (P.restartLink dest).rx = P.rx := rfl
@[simp] theorem PortState.restartLink_tx (P : PortState) (dest : LinkState) : (P.restartLink dest).tx = P.tx := rfl
@[simp] theorem PortState.restartLink_partnerHold (P : PortState) (dest : LinkState) :
    (P.restartLink dest).partnerHold = P.partnerHold := rfl
@[simp] theorem PortState.restartLink_holdDeadline (P : PortState) (dest : LinkState) :
    (P.restartLink dest).holdDeadline = P.holdDeadline := rfl
@[simp] theorem PortState.restartLink_cfg (P : PortState) (dest : LinkState) : (P.restartLink dest).cfg = P.cfg := rfl
@[simp] theorem PortState.restartLink_ctr (P : PortState) (dest : LinkState) : (P.restartLink dest).ctr = P.ctr := rfl
@[simp] theorem PortState.restartLink_queues (P : PortState) (dest : LinkState) :
    (P.restartLink dest).queues = P.queues := rfl
@[simp] theorem PortState.restartLink_asked (P : PortState) (dest : LinkState) :
    (P.restartLink dest).asked = P.asked := rfl
@[simp] theorem PortState.restartLink_sent (P : PortState) (dest : LinkState) :
    (P.restartLink dest).sent = P.sent := rfl

/-! ### clearFlow -/

@[simp] theorem PortState.clearFlow_link (P : PortState) : P.clearFlow.link = P.link := rfl
@[simp] theorem PortState.clearFlow_validRun (P : PortState) : P.clearFlow.validRun = P.validRun := rfl
@[simp] theorem PortState.clearFlow_invalidRun (P : PortState) : P.clearFlow.invalidRun = P.invalidRun := rfl
@[simp] theorem PortState.clearFlow_trainingDeadline (P : PortState) :
    P.clearFlow.trainingDeadline = P.trainingDeadline := rfl
@[simp] theorem PortState.clearFlow_quiet (P : PortState) : P.clearFlow.quiet = P.quiet := rfl
@[simp] theorem PortState.clearFlow_rx (P : PortState) : P.clearFlow.rx = P.rx := rfl
@[simp] theorem PortState.clearFlow_tx (P : PortState) : P.clearFlow.tx = P.tx := rfl
@[simp] theorem PortState.clearFlow_partnerHold (P : PortState) : P.clearFlow.partnerHold = false := rfl
@[simp] theorem PortState.clearFlow_holdDeadline (P : PortState) : P.clearFlow.holdDeadline = none := rfl
@[simp] theorem PortState.clearFlow_cfg (P : PortState) : P.clearFlow.cfg = P.cfg := rfl
@[simp] theorem PortState.clearFlow_ctr (P : PortState) : P.clearFlow.ctr = P.ctr := rfl
@[simp] theorem PortState.clearFlow_queues (P : PortState) : P.clearFlow.queues = P.queues := rfl
@[simp] theorem PortState.clearFlow_asked (P : PortState) : P.clearFlow.asked = [] := rfl
@[simp] theorem PortState.clearFlow_sent (P : PortState) : P.clearFlow.sent = P.sent := rfl

/-! ## Reading a port, a slot or a bucket after an update -/

theorem State.onPort_get_ne (s : State) {p q : Port} (f : PortState → PortState) (h : q ≠ p) :
    (s.onPort p f).ports[q] = s.ports[q] := by simp [vset_get_ne _ _ h]

theorem State.onSlot_get_ne (s : State) {n m : SlotNo} (f : Slot → Slot) (h : m ≠ n) :
    (s.onSlot n f).slots[m] = s.slots[m] := by simp [vset_get_ne _ _ h]

@[simp] theorem State.onPort_onPort (s : State) (p : Port) (f g : PortState → PortState) :
    (s.onPort p f).onPort p g = s.onPort p fun P => g (f P) := by
  simp [State.onPort]

/-- HOLD or GO is asked of a port exactly where it is UP. -/
theorem State.askUp_get (s : State) (c : FlowSymbol) (p : Port) :
    (s.askUp c).ports[p] =
      if s.ports[p].link = .up then { s.ports[p] with asked := s.ports[p].asked ++ [c] } else s.ports[p] := by
  simp

end Machine

end Sys2Proof
end

