-- ==== Sys2Proof/Laws/Memory.lean ====
section
/-! SUPPORT. The Frame Store's bytes (R23): a read after a write, and the canonical form every write keeps. -/

namespace Sys2Proof.Machine

theorem Memory.above_mono {lo hi : Nat} (h : lo ≤ hi) : ∀ {m : List Host.Cell}, Memory.above hi m = true →
    Memory.above lo m = true
  | [], _ => rfl
  | (k, v) :: rest, hm => by
    simp only [Memory.above, Bool.and_eq_true, decide_eq_true_eq] at hm ⊢
    exact ⟨by omega, Memory.above_mono h hm.2⟩

/-- An address at or below every listed one reads as unwritten. -/
theorem Memory.read_of_above {a : Nat} : ∀ {m : List Host.Cell}, Memory.above a m = true →
    Memory.read m a = Config.unwrittenByte
  | [], _ => rfl
  | (k, v) :: rest, hm => by
    simp only [Memory.above, Bool.and_eq_true, decide_eq_true_eq] at hm
    have : k ≠ a := by omega
    simp [Memory.read, this, Memory.read_of_above hm.2]

theorem Memory.write_above {lo a : Nat} {v : Byte} (ha : lo < a) : ∀ {m : List Host.Cell}, Memory.above lo m = true →
    Memory.above lo (Memory.write m a v) = true
  | [], _ => by simp only [Memory.write]; split <;> simp [Memory.above, ha]
  | (k, w) :: rest, hm => by
    simp only [Memory.above, Bool.and_eq_true, decide_eq_true_eq] at hm
    simp only [Memory.write]
    split
    · split <;> simp [Memory.above, ha, hm]
    · split
      · split <;> simp [Memory.above, ha, hm]
      · simp [Memory.above, hm.1, Memory.write_above ha hm.2]

/-- A write keeps the canonical form. -/
theorem Memory.write_wf (a : Nat) (v : Byte) : ∀ {m : List Host.Cell}, Memory.wf m = true →
    Memory.wf (Memory.write m a v) = true
  | [], _ => by simp only [Memory.write]; split <;> simp_all [Memory.wf, Memory.above]
  | (k, w) :: rest, hm => by
    simp only [Memory.wf, Bool.and_eq_true, decide_eq_true_eq] at hm
    obtain ⟨⟨hw, hk⟩, hr⟩ := hm
    simp only [Memory.write]
    split
    · rename_i hlt
      split
      · simp [Memory.wf, hw, hk, hr]
      · rename_i hv
        simp [Memory.wf, Memory.above, hv, hw, hk, hr, hlt, Memory.above_mono (Nat.le_of_lt hlt) hk]
    · split
      · rename_i hnl he
        subst he
        split
        · exact hr
        · rename_i hv
          simp [Memory.wf, hv, hk, hr]
      · rename_i hnl hne
        have : k < a := by omega
        simp [Memory.wf, hw, Memory.write_above this hk, Memory.write_wf a v hr]

/-- The byte written is the byte read. -/
theorem Memory.read_write_same (a : Nat) (v : Byte) : ∀ {m : List Host.Cell}, Memory.wf m = true →
    Memory.read (Memory.write m a v) a = v
  | [], _ => by simp only [Memory.write]; split <;> simp_all [Memory.read]
  | (k, w) :: rest, hm => by
    simp only [Memory.wf, Bool.and_eq_true, decide_eq_true_eq] at hm
    obtain ⟨⟨hw, hk⟩, hr⟩ := hm
    simp only [Memory.write]
    split
    · rename_i hlt
      split
      · rename_i hv
        have hne : k ≠ a := by omega
        simp [Memory.read, hne, hv, Memory.read_of_above (Memory.above_mono (Nat.le_of_lt hlt) hk)]
      · simp [Memory.read]
    · split
      · rename_i hnl he
        subst he
        split
        · rename_i hv
          rw [hv]
          exact Memory.read_of_above hk
        · simp [Memory.read]
      · rename_i hnl hne
        have : k ≠ a := fun e => hne e.symm
        simp [Memory.read, this, Memory.read_write_same a v hr]

/-- Every other byte reads as before. -/
theorem Memory.read_write_ne {a c : Nat} (v : Byte) (h : c ≠ a) : ∀ (m : List Host.Cell),
    Memory.read (Memory.write m a v) c = Memory.read m c
  | [] => by simp only [Memory.write]; split <;> simp [Memory.read, Ne.symm h]
  | (k, w) :: rest => by
    simp only [Memory.write]
    split
    · split <;> simp [Memory.read, Ne.symm h]
    · split
      · rename_i hnl he
        subst he
        split <;> simp [Memory.read, Ne.symm h]
      · simp only [Memory.read, Memory.read_write_ne v h rest]

/-! ## Several bytes -/

theorem Memory.writeMany_wf : ∀ (vs : List Byte) (a : Nat) {m : List Host.Cell}, Memory.wf m = true →
    Memory.wf (Memory.writeMany m a vs) = true
  | [], _, _, h => h
  | v :: vs, a, _, h => Memory.writeMany_wf vs (a + 1) (Memory.write_wf a v h)

/-- A byte outside the bytes written reads as before. -/
theorem Memory.read_writeMany_outside {c : Nat} : ∀ (vs : List Byte) (a : Nat) (m : List Host.Cell),
    c < a ∨ a + vs.length ≤ c → Memory.read (Memory.writeMany m a vs) c = Memory.read m c
  | [], _, _, _ => rfl
  | v :: vs, a, m, h => by
    simp only [List.length_cons] at h
    rw [Memory.writeMany, Memory.read_writeMany_outside vs (a + 1) _ (by omega),
      Memory.read_write_ne v (by omega : c ≠ a)]

/-- Bytes read where others were written are as before. -/
theorem Memory.readMany_writeMany_outside (vs : List Byte) (a : Nat) (m : List Host.Cell) : ∀ (n c : Nat),
    c + n ≤ a ∨ a + vs.length ≤ c →
    Memory.readMany (Memory.writeMany m a vs) c n = Memory.readMany m c n
  | 0, _, _ => rfl
  | n + 1, c, h => by
    have hc : c < a ∨ a + vs.length ≤ c := by omega
    simp only [Memory.readMany, Memory.read_writeMany_outside vs a m hc,
      Memory.readMany_writeMany_outside vs a m n (c + 1) (by omega)]

/-- The bytes written are the bytes read. -/
theorem Memory.readMany_writeMany_same : ∀ (vs : List Byte) (a : Nat) {m : List Host.Cell}, Memory.wf m = true →
    Memory.readMany (Memory.writeMany m a vs) a vs.length = vs
  | [], _, _, _ => rfl
  | v :: vs, a, m, h => by
    have hw := Memory.write_wf a v h
    have hr : Memory.read (Memory.writeMany (Memory.write m a v) (a + 1) vs) a = v := by
      rw [Memory.read_writeMany_outside vs (a + 1) _ (by omega), Memory.read_write_same a v h]
    simp only [Memory.writeMany, List.length_cons, Memory.readMany, hr,
      Memory.readMany_writeMany_same vs (a + 1) hw]

/-! ## A payload written into a buffer (R136, R177) -/

/-- A payload written is the payload read, where its length fits the Length byte. -/
theorem State.payloadAt_putPayload (s : State) (b : BufNo) (pl : List Byte) (hm : Memory.wf s.store.mem = true)
    (hl : pl.length < 256) : (s.putPayload b pl).payloadAt b = pl := by
  have hw := Memory.write_wf (storeAddr b 4) (BitVec.ofNat 8 pl.length) hm
  have h4 : (s.putPayload b pl).lengthAt b = pl.length := by
    simp only [State.putPayload, State.lengthAt, State.byteAt, State.putBytes_store, Memory.writeMany]
    rw [Memory.read_writeMany_outside _ _ _ (by simp [storeAddr]), Memory.read_write_same _ _ hm]
    simp [Nat.mod_eq_of_lt hl]
  simp only [State.payloadAt, State.bytesAt, h4]
  simp only [State.putPayload, State.putBytes_store, Memory.writeMany]
  exact Memory.readMany_writeMany_same pl _ hw

/-- Every byte outside the Length and the payload written reads as before. -/
theorem State.read_putPayload_outside (s : State) (b : BufNo) (pl : List Byte) {a : Nat}
    (h : a < storeAddr b 4 ∨ storeAddr b 5 + pl.length ≤ a) :
    Memory.read (s.putPayload b pl).store.mem a = Memory.read s.store.mem a := by
  simp only [storeAddr] at h
  simp only [State.putPayload, State.putBytes_store]
  rw [Memory.read_writeMany_outside _ _ _ (by simp only [storeAddr]; omega),
    Memory.read_writeMany_outside _ _ _ (by simp only [storeAddr, List.length_cons, List.length_nil]; omega)]

/-- Writing a payload keeps the canonical form. -/
theorem State.putPayload_wf (s : State) (b : BufNo) (pl : List Byte) (hm : Memory.wf s.store.mem = true) :
    Memory.wf (s.putPayload b pl).store.mem = true := by
  simp only [State.putPayload, State.putBytes_store]
  exact Memory.writeMany_wf _ _ (Memory.writeMany_wf _ _ hm)

/-- The memory after RSTN lists nothing, in canonical form. -/
theorem State.reset_memory_wf : Memory.wf State.reset.store.mem = true := rfl

end Sys2Proof.Machine
end

