-- ==== Sys2Proof/Laws/Ops.lean ====
section
/-! SUPPORT. What each shared operation of Machine/Ops.lean can do, said once: what releases and rises of references, the
choice of an entry, an enqueue attempt and a flush change, and that they change nothing else. -/

namespace Sys2Proof.Machine

/-! ## Counters (00_scope.md, "Counters") -/

theorem bump_saturated : bump 0xFFFFFFFF#32 = 0xFFFFFFFF#32 := rfl

theorem bump_below {c : Counter} (h : c ≠ 0xFFFFFFFF#32) : bump c = c + 1 := by simp [bump, h]

/-! ## Relations between two states: reflexive, and composed -/

theorem PortState.FlowOnly.refl (P : PortState) : P.FlowOnly P := ⟨[], by simp⟩

theorem PortState.FlowOnly.trans {P Q R : PortState} (h : P.FlowOnly Q) (k : Q.FlowOnly R) : P.FlowOnly R := by
  obtain ⟨m, rfl⟩ := h
  obtain ⟨n, rfl⟩ := k
  exact ⟨m ++ n, by simp⟩

theorem PortState.ServiceOnly.refl (P : PortState) : P.ServiceOnly P :=
  ⟨[], P.tx, P.queues, P.ctr.qExpired, by simp⟩

theorem PortState.ServiceOnly.trans {P Q R : PortState} (h : P.ServiceOnly Q) (k : Q.ServiceOnly R) :
    P.ServiceOnly R := by
  obtain ⟨m, _, _, _, rfl⟩ := h
  obtain ⟨n, t, q, x, rfl⟩ := k
  exact ⟨m ++ n, t, q, x, by simp⟩

theorem PortState.FlowOnly.service {P Q : PortState} (h : P.FlowOnly Q) : P.ServiceOnly Q := by
  obtain ⟨m, rfl⟩ := h
  exact ⟨m, P.tx, P.queues, P.ctr.qExpired, rfl⟩

theorem State.SameTables.refl (s : State) : s.SameTables s := ⟨rfl, rfl, rfl, rfl, rfl, rfl, rfl, rfl, rfl, rfl, rfl⟩

theorem State.SameTables.trans {s t u : State} (h : s.SameTables t) (k : t.SameTables u) : s.SameTables u := by
  obtain ⟨a, b, c, d, e, f, g, i, j, l, m⟩ := h
  obtain ⟨a', b', c', d', e', f', g', i', j', l', m'⟩ := k
  exact ⟨a'.trans a, b'.trans b, c'.trans c, d'.trans d, e'.trans e, f'.trans f, g'.trans g, i'.trans i, j'.trans j,
    l'.trans l, m'.trans m⟩

theorem State.SameEvents.refl (s : State) : s.SameEvents s := ⟨rfl, rfl⟩

theorem State.SameEvents.trans {s t u : State} (h : s.SameEvents t) (k : t.SameEvents u) : s.SameEvents u :=
  ⟨k.1.trans h.1, k.2.trans h.2⟩

/-- `t` is `s` but for buffer counts, the free stack, the end of an episode and GO symbols asked. -/
structure State.FlowFrame (s t : State) : Prop where
  tables   : s.SameTables t
  events   : s.SameEvents t
  due      : t.resetDue = s.resetDue
  mem      : t.store.mem = s.store.mem
  episodes : t.store.lowEpisodes = s.store.lowEpisodes
  ports    : ∀ p : Port, (s.ports[p]).FlowOnly (t.ports[p])

theorem State.FlowFrame.refl (s : State) : s.FlowFrame s :=
  ⟨.refl s, .refl s, rfl, rfl, rfl, fun _ => .refl _⟩

theorem State.FlowFrame.trans {s t u : State} (h : s.FlowFrame t) (k : t.FlowFrame u) : s.FlowFrame u :=
  ⟨h.tables.trans k.tables, h.events.trans k.events, k.due.trans h.due, k.mem.trans h.mem,
    k.episodes.trans h.episodes, fun p => (h.ports p).trans (k.ports p)⟩

/-! ## References (R25 to R28, R33) -/

theorem State.endEpisode_frame (s : State) : s.FlowFrame s.endEpisode := by
  unfold State.endEpisode
  split
  · refine ⟨⟨rfl, rfl, rfl, rfl, rfl, rfl, rfl, rfl, rfl, rfl, rfl⟩, ⟨rfl, rfl⟩, rfl, rfl, rfl, fun p => ?_⟩
    rw [State.askUp_get]
    split
    · exact ⟨[.go], rfl⟩
    · exact .refl _
  · exact .refl s

@[simp] theorem State.endEpisode_count (s : State) : s.endEpisode.store.count = s.store.count := by
  unfold State.endEpisode; split <;> rfl

@[simp] theorem State.endEpisode_free (s : State) : s.endEpisode.store.free = s.store.free := by
  unfold State.endEpisode; split <;> rfl

/-- What a release can do: nothing to a buffer without references; otherwise the count falls by one, and a buffer whose
count falls to 0 is pushed in the same happening (R25, R28). -/
theorem State.release_store (s : State) (b : BufNo) :
    (s.release b).store.count = vset s.store.count b (s.store.count[b] - 1) ∧
      (s.release b).store.free = if s.store.count[b] = 1 then b :: s.store.free else s.store.free := by
  unfold State.release
  split
  · rename_i h
    have h' : s.store.count[b.val] = 0 := h
    refine ⟨?_, by simp [h']⟩
    rw [show s.store.count[b] - 1 = s.store.count[b.val] by simp [h'], vset_get_same]
  · rename_i h
    have h' : s.store.count[b.val] = 1 := h
    simp [h']
  · rename_i n h
    have h' : s.store.count[b.val] = n + 2 := h
    simp [h']

/-- A release changes the counts and the free stack, and may end an episode; nothing else. -/
theorem State.release_frame (s : State) (b : BufNo) : s.FlowFrame (s.release b) := by
  unfold State.release
  split
  · exact .refl s
  · refine State.FlowFrame.trans ?_ (State.endEpisode_frame _)
    exact ⟨.refl _, ⟨rfl, rfl⟩, rfl, rfl, rfl, fun _ => .refl _⟩
  · exact ⟨.refl _, ⟨rfl, rfl⟩, rfl, rfl, rfl, fun _ => .refl _⟩

/-- A rise adds one reference to a buffer that has one (R27). -/
theorem State.addRef_store (s : State) (b : BufNo) (h : s.store.count[b] ≠ 0) :
    (s.addRef b).store = { s.store with count := vset s.store.count b (s.store.count[b] + 1) } := by
  unfold State.addRef
  split
  · rename_i k; exact absurd k h
  · rename_i n k
    have k' : s.store.count[b.val] = n + 1 := k
    simp [k']

/-- A rise leaves a buffer without references where it is: it is on the stack (R27). -/
theorem State.addRef_free (s : State) (b : BufNo) (h : s.store.count[b] = 0) : s.addRef b = s := by
  unfold State.addRef
  split
  · rfl
  · rename_i n k
    rw [h] at k
    exact absurd k (by simp)

theorem State.addRef_frame (s : State) (b : BufNo) : s.FlowFrame (s.addRef b) := by
  unfold State.addRef
  split
  · exact .refl s
  · exact ⟨.refl _, ⟨rfl, rfl⟩, rfl, rfl, rfl, fun _ => .refl _⟩

@[simp] theorem State.addRef_ports (s : State) (b : BufNo) : (s.addRef b).ports = s.ports := by
  unfold State.addRef; split <;> rfl

/-! ## Reports (R148) -/

theorem State.report_eq (s : State) (b : BufNo) : s.report b = { s with resetDue := (s.report b).resetDue } := by
  unfold State.report; split <;> (try split) <;> rfl

/-- Without a pending reset a report does nothing. -/
theorem State.report_none (s : State) (b : BufNo) (h : s.agent.resetPending = none) : s.report b = s := by
  simp [State.report, h]

theorem State.reportEntry_eq (s : State) (e : Entry) :
    s.reportEntry e = { s with resetDue := (s.reportEntry e).resetDue } := by
  unfold State.reportEntry; split
  · exact State.report_eq s e.buf
  · rfl

theorem State.reportEntry_none (s : State) (e : Entry) (h : s.agent.resetPending = none) : s.reportEntry e = s := by
  unfold State.reportEntry; split
  · exact State.report_none s e.buf h
  · rfl

@[simp] theorem State.reportEntry_ports (s : State) (e : Entry) : (s.reportEntry e).ports = s.ports := by
  rw [State.reportEntry_eq]

@[simp] theorem State.reportEntry_store (s : State) (e : Entry) : (s.reportEntry e).store = s.store := by
  rw [State.reportEntry_eq]

/-! ## Service (R99, R100) -/

/-- No entry at port `p` that names buffer `b` fails its residence test now. -/
def State.Spares (p : Port) (b : BufNo) (s : State) : Prop :=
  ∀ c : Class, ∀ e ∈ s.ports[p].queues[c], s.ports[p].expired s.now e = true → e.buf ≠ b

/-- What service at port `p` can do: heads leave that port's queues from the front, an entry may be chosen, references
of expired entries end, control symbols may be asked; nothing else. -/
structure State.ServiceFrame (p : Port) (s t : State) : Prop where
  tables   : s.SameTables t
  events   : s.SameEvents t
  due      : (∀ r, s.agent.resetPending = some r → State.Spares p r.buf s) → t.resetDue = s.resetDue
  mem      : t.store.mem = s.store.mem
  episodes : t.store.lowEpisodes = s.store.lowEpisodes
  port     : (s.ports[p]).ServiceOnly (t.ports[p])
  queues   : ∀ c : Class, t.ports[p].queues[c] <:+ s.ports[p].queues[c]
  others   : ∀ q : Port, q ≠ p → (s.ports[q]).FlowOnly (t.ports[q])
  counts   : ∀ b : BufNo, State.Spares p b s → t.store.count[b] = s.store.count[b]

theorem State.ServiceFrame.refl (p : Port) (s : State) : State.ServiceFrame p s s :=
  ⟨.refl s, .refl s, fun _ => rfl, rfl, rfl, .refl _, fun _ => List.suffix_refl _, fun _ _ => .refl _, fun _ _ => rfl⟩

theorem PortState.ServiceOnly.expired {P Q : PortState} (h : P.ServiceOnly Q) (now : Tick) (e : Entry) :
    Q.expired now e = P.expired now e := by
  obtain ⟨_, _, _, _, rfl⟩ := h
  rfl

theorem State.ServiceFrame.spares {p : Port} {s t : State} (h : State.ServiceFrame p s t) {b : BufNo}
    (hb : State.Spares p b s) : State.Spares p b t := by
  intro c e he hx
  rw [h.port.expired, h.tables.2.2.1] at hx
  exact hb c e ((h.queues c).subset he) hx

theorem State.ServiceFrame.trans {p : Port} {s t u : State} (h : State.ServiceFrame p s t)
    (k : State.ServiceFrame p t u) : State.ServiceFrame p s u where
  tables := h.tables.trans k.tables
  events := h.events.trans k.events
  due hr := (k.due fun r hq => h.spares (hr r (by rw [← h.tables.2.2.2.2.2.2.2.1]; exact hq))).trans (h.due hr)
  mem := k.mem.trans h.mem
  episodes := k.episodes.trans h.episodes
  port := h.port.trans k.port
  queues c := (k.queues c).trans (h.queues c)
  others q hq := (h.others q hq).trans (k.others q hq)
  counts b hb := (k.counts b (h.spares hb)).trans (h.counts b hb)

theorem PortState.topHead_mem {P : PortState} {e : Entry} (h : P.topHead = some e) : ∃ c : Class, e ∈ P.queues[c] := by
  unfold PortState.topHead at h
  split at h
  · cases h
  · rename_i c _
    exact ⟨c, List.mem_of_head? h⟩

/-- An expired head leaves: its queue loses its head, and its reference ends (R100). -/
theorem State.expireHead_frame (s : State) (p : Port) (e : Entry) (h : ∃ c : Class, e ∈ s.ports[p].queues[c])
    (hexp : s.ports[p].expired s.now e = true) : State.ServiceFrame p s (s.expireHead p e) := by
  have hr := State.release_frame (s.onPort p fun P => (P.dropHead e.hdr.cls).tally .qExpired) e.buf
  have hc := (State.release_store (s.onPort p fun P => (P.dropHead e.hdr.cls).tally .qExpired) e.buf).1
  generalize hu : (s.onPort p fun P => (P.dropHead e.hdr.cls).tally .qExpired).release e.buf = u at hr hc
  have hx : s.expireHead p e = u.reportEntry e := by rw [State.expireHead, hu]
  have hself : (s.onPort p fun P => (P.dropHead e.hdr.cls).tally .qExpired).ports[p] =
      (s.ports[p].dropHead e.hdr.cls).tally .qExpired := by simp
  have hports : (s.expireHead p e).ports = u.ports := by rw [hx, State.reportEntry_eq]
  have hstore : (s.expireHead p e).store = u.store := by rw [hx, State.reportEntry_eq]
  obtain ⟨more, hm⟩ := hr.ports p
  rw [hself] at hm
  refine ⟨?_, ?_, ?_, ?_, ?_, ?_, ?_, ?_, ?_⟩
  · refine State.SameTables.trans (t := u) (State.SameTables.trans (t := s.onPort p _) ?_ hr.tables) ?_
    · exact ⟨rfl, rfl, rfl, rfl, rfl, rfl, rfl, rfl, rfl, rfl, rfl⟩
    · rw [hx, State.reportEntry_eq]; exact ⟨rfl, rfl, rfl, rfl, rfl, rfl, rfl, rfl, rfl, rfl, rfl⟩
  · rw [hx, State.reportEntry_eq]; exact hr.events
  · intro hp
    obtain ⟨c, hc'⟩ := h
    have hag : u.agent = s.agent := hr.tables.2.2.2.2.2.2.2.1
    have hid : u.reportEntry e = u := by
      unfold State.reportEntry State.report
      split
      · split
        · rename_i r hq
          rw [if_neg (fun k => hp r (by rw [← hag]; exact hq) c e hc' hexp k.symm)]
        · rfl
      · rfl
    rw [hx, hid]; exact hr.due
  · rw [hstore]; exact hr.mem
  · rw [hstore]; exact hr.episodes
  · rw [hports, hm]
    exact ⟨more, s.ports[p].tx, vset s.ports[p].queues e.hdr.cls s.ports[p].queues[e.hdr.cls].tail,
      bump s.ports[p].ctr.qExpired, rfl⟩
  · intro c
    rw [hports, hm]
    simp only [PortState.tally_queues, PortState.dropHead_queues, Fin.getElem_fin, vset_get]
    split
    · rename_i hce
      have : c = e.hdr.cls := Fin.ext hce
      subst this
      exact List.tail_suffix _
    · exact List.suffix_refl _
  · intro q hq
    rw [hports]
    have := hr.ports q
    rwa [State.onPort_get_ne s _ hq] at this
  · intro b hb
    obtain ⟨c, hc'⟩ := h
    have hne : b ≠ e.buf := fun k => hb c e hc' hexp k.symm
    rw [hstore, Fin.getElem_fin, hc]
    rw [vset_get_ne _ _ hne]; rfl

/-- What the choice can do (R99, R100). -/
theorem State.choose_frame : ∀ (fuel : Nat) (p : Port) (s : State), State.ServiceFrame p s (State.choose fuel p s)
  | 0, p, s => .refl p s
  | fuel + 1, p, s => by
    simp only [State.choose]
    split
    · exact .refl p s
    · rename_i e he
      split
      · rename_i hexp
        have hx := State.expireHead_frame s p e (PortState.topHead_mem he) hexp
        split
        · exact hx
        · exact hx.trans (State.choose_frame fuel p _)
      · refine ⟨⟨rfl, rfl, rfl, rfl, rfl, rfl, rfl, rfl, rfl, rfl, rfl⟩, ⟨rfl, rfl⟩, fun _ => rfl, rfl, rfl, ?_, ?_, ?_, fun _ _ => rfl⟩
        · exact ⟨[], .sending e, s.ports[p].queues, s.ports[p].ctr.qExpired, by simp⟩
        · intro c; simp
        · intro q hq; rw [State.onPort_get_ne s _ hq]; exact .refl _

/-- What asking for the next entry can do (R15, R99). -/
theorem State.askNext_frame (s : State) (p : Port) : State.ServiceFrame p s (s.askNext p) := by
  unfold State.askNext; split
  · exact State.choose_frame _ p s
  · exact .refl p s

theorem PortState.topHead_three {P : PortState} {e : Entry} {es : List Entry} (h : P.queues[(3 : Class)] = e :: es) :
    P.topHead = some e := by
  have h' : P.queues[3] = e :: es := h
  simp [PortState.topHead, Class.urgentFirst, PortState.nonEmpty, h']

/-- The queues of the port after an expired head has left (R100). -/
theorem State.expireHead_queues (s : State) (p : Port) (e : Entry) :
    (s.expireHead p e).ports[p].queues = vset s.ports[p].queues e.hdr.cls s.ports[p].queues[e.hdr.cls].tail := by
  obtain ⟨more, hm⟩ :=
    (State.release_frame (s.onPort p fun P => (P.dropHead e.hdr.cls).tally .qExpired) e.buf).ports p
  rw [State.expireHead, State.reportEntry_ports, hm]
  simp

theorem State.expireHead_cfg (s : State) (p : Port) (e x : Entry) :
    (s.expireHead p e).ports[p].expired (s.expireHead p e).now x = s.ports[p].expired s.now x := by
  have hf := State.release_frame (s.onPort p fun P => (P.dropHead e.hdr.cls).tally .qExpired) e.buf
  obtain ⟨more, hm⟩ := hf.ports p
  have hn : (s.expireHead p e).now = s.now := by
    rw [State.expireHead, State.reportEntry_eq]; exact hf.tables.2.2.1
  rw [hn, State.expireHead, State.reportEntry_ports, hm]
  simp [PortState.expired]

/-- An entry at the tail of class 3 that passes its residence test stays there through a choice (R99, R100). -/
theorem State.choose_keeps_tail : ∀ (fuel : Nat) (p : Port) (s : State) (ahead : List Entry) (x : Entry),
    s.ports[p].queues[(3 : Class)] = ahead ++ [x] → s.ports[p].expired s.now x = false →
    ∃ rest, rest <:+ ahead ∧ (State.choose fuel p s).ports[p].queues[(3 : Class)] = rest ++ [x]
  | 0, _, _, ahead, _, h, _ => ⟨ahead, List.suffix_refl _, h⟩
  | fuel + 1, p, s, ahead, x, h, hx => by
    cases ahead with
    | nil =>
      have ht := PortState.topHead_three (P := s.ports[p]) (e := x) (es := []) h
      refine ⟨[], List.suffix_refl _, ?_⟩
      have h' : s.ports[p.val].queues[3] = [x] := h
      simp only [State.choose, ht, hx]
      simp [h']
    | cons y ys =>
      have ht := PortState.topHead_three (P := s.ports[p]) (e := y) (es := ys ++ [x]) h
      have hq := State.expireHead_queues s p y
      have hnext : ∃ rest, rest <:+ (y :: ys) ∧ (s.expireHead p y).ports[p].queues[(3 : Class)] = rest ++ [x] := by
        rw [hq]
        by_cases hc : y.hdr.cls = 3
        · refine ⟨ys, List.suffix_cons y ys, ?_⟩
          have hk : ∀ k : Class, k = 3 →
              (vset s.ports[p].queues k s.ports[p].queues[k].tail)[(3 : Class)] = ys ++ [x] := by
            rintro _ rfl
            rw [h, Fin.getElem_fin, vset_get_self]; rfl
          exact hk _ hc
        · refine ⟨y :: ys, List.suffix_refl _, ?_⟩
          rw [Fin.getElem_fin, vset_get_ne _ _ (fun k => hc k.symm)]; exact h
      obtain ⟨rest, hs, hr⟩ := hnext
      simp only [State.choose, ht]
      split
      · split
        · exact ⟨rest, hs, hr⟩
        · obtain ⟨r', hs', hr'⟩ := State.choose_keeps_tail fuel p (s.expireHead p y) rest x hr
            (by rw [State.expireHead_cfg]; exact hx)
          exact ⟨r', hs'.trans hs, hr'⟩
      · refine ⟨y :: ys, List.suffix_refl _, ?_⟩
        have h' : s.ports[p.val].queues[3] = (y :: ys) ++ [x] := h
        simp [h']

/-- An entry accepted now has residence 0 and passes its test (R95, R104). -/
theorem PortState.fresh_not_expired (P : PortState) (now : Tick) (b : BufNo) (h : Header) (o : Origin) :
    P.expired now { buf := b, hdr := h, enqueuedAt := now, origin := o } = false := by
  simp [PortState.expired, elapsed]

/-! ## Enqueue attempts (R94 to R96) -/

/-- The part once an entry stands at the tail of its class queue with one reference more on its buffer, before the
transmitter asks (R95). -/
def State.joined (s : State) (p : Port) (b : BufNo) (h : Header) (o : Origin) : State :=
  (s.onPort p fun P =>
    { P with queues := vset P.queues h.cls
                (P.queues[h.cls] ++ [{ buf := b, hdr := h, enqueuedAt := s.now, origin := o }]) }).addRef b

theorem State.accept_frame (s : State) (p : Port) (b : BufNo) (h : Header) (o : Origin) :
    State.ServiceFrame p (s.joined p b h o) (s.accept p b h o) := State.askNext_frame _ p

/-- The three outcomes of an attempt, and what each leaves (R94 to R96). -/
theorem State.enqueue_cases (s : State) (p : Port) (b : BufNo) (h : Header) (o : Origin) :
    (s.isUp p = false ∧ s.enqueue p b h o = (s, .down)) ∨
      (s.isUp p = true ∧ 16 ≤ s.ports[p].queues[h.cls].length ∧ s.enqueue p b h o = (s.tally p .qFull, .full)) ∨
      (s.isUp p = true ∧ s.ports[p].queues[h.cls].length < 16 ∧ s.enqueue p b h o = (s.accept p b h o, .accepted)) := by
  unfold State.enqueue
  split
  · exact .inl ⟨by assumption, rfl⟩
  · rename_i hu
    have hu' : s.isUp p = true := by simpa using hu
    split
    · exact .inr (.inl ⟨hu', by assumption, rfl⟩)
    · exact .inr (.inr ⟨hu', by omega, rfl⟩)

/-! ## Flushes (R105) -/

/-- Releasing entries changes counts, the free stack and asked symbols, and may mark a reset due; nothing else. -/
theorem State.releaseEntries_frame : ∀ (es : List Entry) (s : State),
    (s.releaseEntries es).SameTables s ∧ s.SameEvents (s.releaseEntries es) ∧
      (s.releaseEntries es).store.mem = s.store.mem ∧
      (s.agent.resetPending = none → (s.releaseEntries es).resetDue = s.resetDue) ∧
      ∀ p : Port, (s.ports[p]).FlowOnly ((s.releaseEntries es).ports[p])
  | [], s => ⟨.refl s, .refl s, rfl, fun _ => rfl, fun _ => .refl _⟩
  | e :: es, s => by
    have hr := State.release_frame s e.buf
    have hq := State.reportEntry_eq (s.release e.buf) e
    obtain ⟨ht, he, hm, hd, hp⟩ := State.releaseEntries_frame es ((s.release e.buf).reportEntry e)
    have hstep : s.releaseEntries (e :: es) = ((s.release e.buf).reportEntry e).releaseEntries es := rfl
    rw [hstep]
    obtain ⟨a, b, c, d, f, g, i, j, k, l, w⟩ := hr.tables
    refine ⟨ht.trans ?_, ?_, ?_, ?_, ?_⟩
    · rw [hq]; exact ⟨a.symm, b.symm, c.symm, d.symm, f.symm, g.symm, i.symm, j.symm, k.symm, l.symm, w.symm⟩
    · rw [hq] at he ⊢; exact hr.events.trans he
    · rw [hm, hq]; exact hr.mem
    · intro hn
      have hn' : (s.release e.buf).agent.resetPending = none := by rw [j]; exact hn
      rw [hd (by rw [hq]; exact hn'), State.reportEntry_none _ e hn']; exact hr.due
    · intro p
      refine (hr.ports p).trans ?_
      have := hp p
      rwa [State.reportEntry_ports] at this

/-- Emptying one queue by its head, and then all four, is emptying all four. -/
theorem flatMap_dropHead (qs : Vector (List Entry) 4) (d : Class) :
    (qs[d].take 1 ++ Class.urgentFirst.flatMap fun i => (vset qs d qs[d].tail)[i]).Perm
      (Class.urgentFirst.flatMap fun i => qs[i]) := by
  rw [List.perm_iff_count]
  intro x
  have hq : ∀ l : List Entry, List.count x l = List.count x (l.take 1) + List.count x l.tail := by
    intro l; rw [← List.count_append]; cases l <;> rfl
  match d with
  | 0 => have := hq qs[(0 : Class)]; simp [Class.urgentFirst, vset, List.count_append] at this ⊢; omega
  | 1 => have := hq qs[(1 : Class)]; simp [Class.urgentFirst, vset, List.count_append] at this ⊢; omega
  | 2 => have := hq qs[(2 : Class)]; simp [Class.urgentFirst, vset, List.count_append] at this ⊢; omega
  | 3 => have := hq qs[(3 : Class)]; simp [Class.urgentFirst, vset, List.count_append] at this ⊢; omega

/-- The queue whose turn it is holds an entry. -/
theorem flushTurn_holds {qs : Vector (List Entry) 4} {c : Class} (h : qs[c] ≠ []) : qs[flushTurn qs c] ≠ [] := by
  unfold flushTurn
  split
  · exact h
  · rename_i hf; exact fun he => hf (List.isEmpty_iff.mpr he)

/-- A flush releases every entry it finds once, whatever the free order of the four queues (R105). -/
theorem drain_perm : ∀ (fuel : Nat) (qs : Vector (List Entry) 4),
    (Class.urgentFirst.flatMap fun i => qs[i]).length ≤ fuel →
      (drain fuel qs).Perm (Class.urgentFirst.flatMap fun i => qs[i])
  | 0, qs, h => by
    rw [List.eq_nil_of_length_eq_zero (Nat.le_zero.mp h)]; exact .refl _
  | fuel + 1, qs, h => by
    have sub : (Class.urgentFirst.flatMap fun i => qs[i]) =
        (Class.urgentFirst.filter fun c => !qs[c].isEmpty).flatMap fun i => qs[i] := by
      generalize Class.urgentFirst = l
      induction l with
      | nil => rfl
      | cons c l ih =>
        rw [List.flatMap_cons, ih, List.filter_cons]
        by_cases hc : qs[c].isEmpty = true
        · rw [if_neg (by simpa using hc), List.isEmpty_iff.mp hc]; rfl
        · rw [if_pos (by simpa using hc), List.flatMap_cons]
    have this : ∀ d : Class, qs[d] ≠ [] → (qs[d].take 1 ++ drain fuel (vset qs d qs[d].tail)).Perm
        (Class.urgentFirst.flatMap fun i => qs[i]) := by
      intro d hd
      have hp := flatMap_dropHead qs d
      have hl := hp.length_eq
      have h1 : (qs[d].take 1).length = 1 := by
        cases hq : qs[d] with
        | nil => exact absurd hq hd
        | cons a q => simp
      rw [List.length_append, h1] at hl
      exact ((drain_perm fuel (vset qs d qs[d].tail) (by omega)).append_left _).trans hp
    unfold drain
    split
    · rename_i he
      rw [sub, he]; exact .refl _
    · rename_i c he
      rw [sub, he]; simp
    · rename_i c c' l he
      have hc : qs[c] ≠ [] := by
        have : c ∈ Class.urgentFirst.filter fun c => !qs[c].isEmpty := by rw [he]; simp
        simpa using (List.mem_filter.mp this).2
      exact this (flushTurn qs c) (flushTurn_holds hc)

/-- What a flush releases is what waits (R105). -/
theorem PortState.allWaiting_perm (P : PortState) : P.allWaiting.Perm (Class.urgentFirst.flatMap P.waiting) := by
  have h : ∀ c : Class, (P.waiting c).length ≤ P.queues[c].length := by
    intro c; unfold PortState.waiting; split <;> simp
  have := drain_perm P.entries #v[P.waiting 0, P.waiting 1, P.waiting 2, P.waiting 3] (by
    have h0 := h 0; have h1 := h 1; have h2 := h 2; have h3 := h 3
    simp only [PortState.entries, Class.urgentFirst, List.flatMap_cons, List.flatMap_nil, List.length_append, List.length_nil]
    simp at *
    omega)
  simpa [Class.urgentFirst, PortState.allWaiting] using this

theorem PortState.allWaiting_length (P : PortState) :
    P.allWaiting.length =
      (P.waiting 3).length + (P.waiting 2).length + (P.waiting 1).length + (P.waiting 0).length := by
  rw [P.allWaiting_perm.length_eq]; simp [Class.urgentFirst]; omega

theorem PortState.mem_allWaiting (P : PortState) (e : Entry) : e ∈ P.allWaiting ↔ ∃ c : Class, e ∈ P.waiting c := by
  rw [P.allWaiting_perm.mem_iff, List.mem_flatMap]
  exact ⟨fun ⟨c, _, h⟩ => ⟨c, h⟩, fun ⟨c, h⟩ => ⟨c, by match c with | 0 | 1 | 2 | 3 => simp [Class.urgentFirst], h⟩⟩

/-- After a flush a port holds at most the entry it is sending, and nothing but its queues, its Q-FLUSHED counter and
asked symbols has changed on it (R105). -/
theorem State.flush_port (s : State) (p : Port) : (s.ports[p].flushed).FlowOnly ((s.flush p).ports[p]) := by
  have := (State.releaseEntries_frame s.ports[p].allWaiting (s.onPort p PortState.flushed)).2.2.2.2 p
  have hs : (s.onPort p PortState.flushed).ports[p] = s.ports[p].flushed := by simp
  rwa [hs] at this

/-- A flush leaves the other ports but for asked symbols. -/
theorem State.flush_others (s : State) (p q : Port) (h : q ≠ p) : (s.ports[q]).FlowOnly ((s.flush p).ports[q]) := by
  have := (State.releaseEntries_frame s.ports[p].allWaiting (s.onPort p PortState.flushed)).2.2.2.2 q
  rwa [State.onPort_get_ne s _ h] at this

/-- A flush leaves every block but the ports and the Frame Store. -/
theorem State.flush_tables (s : State) (p : Port) :
    (s.flush p).SameTables s ∧ s.SameEvents (s.flush p) ∧ (s.flush p).store.mem = s.store.mem ∧
      (s.agent.resetPending = none → (s.flush p).resetDue = s.resetDue) := by
  obtain ⟨ht, he, hm, hd, -⟩ := State.releaseEntries_frame s.ports[p].allWaiting (s.onPort p PortState.flushed)
  exact ⟨ht, he, hm, hd⟩

end Sys2Proof.Machine
end

