-- ==== Sys2Proof/Laws/Link.lean ====
section
/-! SUPPORT. What the operations of a receiver, of the free stack and of the Event Queue come to where nothing else is set
off: a symbol heard in UP, a good frame at END, a lookup, a push that ends no episode, a raise that starts no delivery. -/

namespace Sys2Proof.Machine

/-! ## The free stack and its episodes (R25, R31 to R33) -/

/-- Away from depth 24, and without an episode, a push ends none (R33). -/
theorem State.endEpisode_quiet {s : State} (h : ¬(s.store.depth = 24 ∧ s.store.episode ≠ .none)) : s.endEpisode = s := by
  unfold State.endEpisode; rw [if_neg h]

/-- Away from the two marks a pop raises nothing (R31, R32). -/
theorem State.episodeAfterPop_quiet {s : State} {raise : NoticeKind → BitVec 32 → State → State}
    (h8 : ¬(s.store.depth = 8 ∧ s.store.episode = .none)) (h0 : ¬(s.store.depth = 0 ∧ s.store.episode = .low false)) :
    s.episodeAfterPop raise = s := by
  unfold State.episodeAfterPop; rw [if_neg h8, if_neg h0]

/-- The release of a buffer's one reference pushes it, and may end an episode (R25, R28, R33). -/
theorem State.release_last {s : State} {b : BufNo} (h : s.store.count[b] = 1) : s.release b = s.pushed b := by
  unfold State.release State.pushed State.endEpisode
  simp only [h, Store.depth, List.length_cons]
  rfl

/-- A map over a table and a change of one entry may be taken in either order where they agree on that entry. -/
theorem vmap_vset {α : Type} {n : Nat} (g : α → α) (v : Vector α n) (i : Fin n) (x : α) :
    vmap g (vset v i x) = vset (vmap g v) i (g x) := by
  apply Vector.ext
  intro j hj
  rw [vmap_get, vset_get, vset_get, vmap_get]
  split <;> rfl

/-- A push and a change of one port that leaves its link state and its asked symbols alone may be taken in either order. -/
theorem State.pushed_onPort (s : State) (p : Port) (b : BufNo) (f : PortState → PortState)
    (hl : ∀ P, (f P).link = P.link)
    (ha : ∀ (P : PortState) (c : List FlowSymbol),
      f { P with asked := P.asked ++ c } = { f P with asked := (f P).asked ++ c }) :
    (s.onPort p f).pushed b = (s.pushed b).onPort p f := by
  by_cases h : s.store.free.length + 1 = 24 ∧ s.store.episode ≠ .none
  · unfold State.pushed State.onPort
    simp only [h, and_self, if_true, ne_eq, not_false_eq_true, vmap_vset, Fin.getElem_fin, vmap_get, hl]
    split
    · rw [ha]; simp only [hl]
    · rfl
  · unfold State.pushed State.onPort
    simp only [h, if_false]

/-! ## The Event Queue (R174 to R176) -/

theorem EventQueue.overflowed_false {q : EventQueue} (h : ∀ n ∈ q.notices, n.kind ≠ .noticesLost) :
    q.overflowed = false := by
  simp only [EventQueue.overflowed, List.any_eq_false]
  intro n hn; simpa using h n hn

/-- With room, a raise appends (R174). -/
theorem EventQueue.take_room {q : EventQueue} (h : q.notices.length ≤ 14) (hn : ∀ n ∈ q.notices, n.kind ≠ .noticesLost)
    (kind : NoticeKind) (subject : Byte) (tick : Tick) (detail : BitVec 32) :
    q.take kind subject tick detail = q.plus kind subject tick detail := by
  simp [EventQueue.take, EventQueue.overflowed_false hn, h, EventQueue.append, EventQueue.plus]

/-- A raise leaves the flag, the timer and the interval. -/
theorem EventQueue.take_outstanding (q : EventQueue) (kind : NoticeKind) (subject : Byte) (tick : Tick)
    (detail : BitVec 32) :
    (q.take kind subject tick detail).outstanding = q.outstanding ∧ (q.take kind subject tick detail).timer = q.timer ∧
      (q.take kind subject tick detail).interval = q.interval := by
  unfold EventQueue.take
  split
  · exact ⟨rfl, rfl, rfl⟩
  · split
    · exact ⟨rfl, rfl, rfl⟩
    · split <;> exact ⟨rfl, rfl, rfl⟩

/-- Where no delivery can start, a raise that is taken only reaches the list (R176). -/
theorem State.takeRaise_undelivered (s : State) (r : Raise) (h : s.Undelivered) :
    s.takeRaise r = { s with events := s.events.take r.kind r.subject r.tick r.detail } := by
  have hc : State.canDeliver { s with events := s.events.take r.kind r.subject r.tick r.detail } = false := by
    rcases h with h | h | h
    · simp [State.canDeliver, h]
    · simp [State.canDeliver, h]
    · have : (s.events.take r.kind r.subject r.tick r.detail).outstanding = true :=
        (EventQueue.take_outstanding _ _ _ _ _).1.trans h
      simp [State.canDeliver, this]
  unfold State.takeRaise
  split
  · rw [State.tryDeliver, hc]; rfl
  · rfl

/-- When a raise waits: while raises wait, and a PORT-UP behind another (R174, R181). -/
theorem State.waits_iff (s : State) (kind : NoticeKind) :
    (s.raisesWait || (decide (kind = .portUp) && entersUp s.transit)) = true ↔
      s.raisesWait = true ∨ (kind = .portUp ∧ ∃ r ∈ s.transit, r.kind = .portUp) := by
  simp [entersUp, List.any_eq_true]

/-- With room and no delivery to start, a raise appends its notice, or waits, and does nothing else (R174, R176). -/
theorem State.raise_room (s : State) (kind : NoticeKind) (subject : Byte) (detail : BitVec 32) (hu : s.Undelivered)
    (hr : s.NoticeRoom) : s.raise kind subject detail = s.raised kind subject detail := by
  unfold State.raise State.raised
  by_cases h : s.raisesWait = true ∨ (kind = .portUp ∧ ∃ r ∈ s.transit, r.kind = .portUp)
  · rw [if_pos (s.waits_iff kind |>.2 h), if_pos h]; rfl
  · rw [if_neg (mt (s.waits_iff kind).1 h), if_neg h, State.takeRaise_undelivered s _ hu,
      EventQueue.take_room hr.1 hr.2]

/-! ## Symbols (R1) -/

/-- A listening port does what the symbol does in UP, once it is heard. -/
theorem State.takeValid_up {s : State} {p : Port} (h : s.Listens p) (f : State → State) :
    s.takeValid p f = f (s.onPort p PortState.heard) := by
  simp only [State.takeValid, h.started, h.up]; rfl

/-- A port without a disposition in progress is settled (R45). -/
theorem State.settle_ended {s : State} {p : Port} (h : s.disposing[p] = none) : s.settle p = s := by
  unfold State.settle; rw [h]

/-- Where the port's earlier disposition has ended, nothing precedes END (R45). -/
theorem State.beforeEnd_ended {s : State} {p : Port} (h : s.disposing[p] = none) : s.beforeEnd p = s := by
  rw [State.beforeEnd, State.settle_ended h, ite_self]

/-- Outside UP nothing precedes END. -/
theorem State.beforeEnd_outside {s : State} {p : Port} (h : s.ports[p].link ≠ .up) : s.beforeEnd p = s := by
  rw [State.beforeEnd, if_neg (fun k => h (by simpa [State.isUp] using k.2.2))]

/-- Every command that carries a valid symbol is one use of `State.takeValid`; before END the port's earlier disposition ends,
which outside UP is nothing. -/
theorem exec_validSymbol {c : Instr} {p : Port} (hc : isValidSymbol c p) :
    ∃ f : State → State, ∀ s, s.disposing[p] = none ∨ s.ports[p].link ≠ .up →
      exec c s = .next (s.takeValid p f) ∨ exec c s = .next (s.takeValid p f).finish := by
  rcases hc with hc | ⟨v, rfl⟩ | ⟨pace, rfl⟩
  · simp only [validSymbols, List.mem_cons, List.not_mem_nil, or_false] at hc
    rcases hc with rfl | rfl | rfl | rfl | rfl <;>
      exact ⟨_, fun s _ => by first | exact .inl rfl | exact .inr rfl⟩
  · exact ⟨_, fun s _ => .inl rfl⟩
  · refine ⟨(·.endInUp p pace), fun s h => .inr ?_⟩
    show Host.Outcome.next ((s.beforeEnd p).takeValid p (·.endInUp p pace)).finish = _
    rcases h with h | h
    · rw [State.beforeEnd_ended h]
    · rw [State.beforeEnd_outside h]

theorem State.heard_rx (s : State) (p : Port) : (s.onPort p PortState.heard).ports[p].rx = s.ports[p].rx := by
  simp [PortState.heard]

/-- END of a good frame hands it on (R12, R13). -/
theorem State.exec_rxEnd_good {p : Port} {pace : Pace} {s : State} {b : BufNo} {n : Nat} (h : s.GoodFrame p b n) :
    exec (.rxEnd { port := p, pace := pace }) s =
      .next ((s.onPort p PortState.tookGood).handOn p b pace).finish := by
  have hF := h.toFills
  show Host.Outcome.next ((s.beforeEnd p).takeValid p (·.endInUp p pace)).finish = _
  rw [State.beforeEnd_ended h.disposed, State.takeValid_up hF.toListens]
  unfold State.endInUp
  rw [State.heard_rx, hF.filling]
  have hlen : (s.onPort p PortState.heard).lengthOk b n = true ↔ s.LengthGood b n := by
    unfold State.lengthOk State.LengthGood
    simp only [Bool.and_eq_true, decide_eq_true_iff, and_assoc]
    exact Iff.rfl
  have hchk : (s.onPort p PortState.heard).checkOk b = true ↔ s.CheckGood b := by
    unfold State.checkOk State.CheckGood; exact decide_eq_true_iff
  simp only []
  unfold State.endOfFrame
  rw [if_neg (by rw [hlen.2 h.length]; decide), if_neg (by rw [hchk.2 h.check]; decide)]
  simp [State.onPort, PortState.tally, PortCounters.update, PortState.heard, PortState.tookGood]

/-- END of a transit frame is its disposition (R13, R42). -/
theorem State.exec_rxEnd_transit {p : Port} {pace : Pace} {s : State} {b : BufNo} {n : Nat} (h : s.TransitFrame p b n) :
    exec (.rxEnd { port := p, pace := pace }) s =
      .next ((s.onPort p PortState.tookGood).dispose p b pace).finish := by
  rw [State.exec_rxEnd_good h.toGoodFrame]
  unfold State.handOn
  rw [if_neg (by exact h.label), if_neg (by exact h.source)]

/-! ## Lookup (R46) -/

theorem RouteEntry.hits_iff (e : RouteEntry) (p : Port) (h : Header) : e.hits p h = true ↔ e.Matches p h := by
  simp [RouteEntry.hits, RouteEntry.Matches, and_assoc]

/-- A lookup without a matching entry misses. -/
theorem RouteTable.lookup_miss {s : State} {p : Port} {h : Header} (hm : s.Misses p h) : s.route.lookup p h = none := by
  unfold RouteTable.lookup
  rw [Option.map_eq_none_iff, List.find?_eq_none]
  intro e he
  rw [Vector.mem_toList_iff, Vector.mem_iff_getElem] at he
  obtain ⟨i, hi, rfl⟩ := he
  rw [RouteEntry.hits_iff]
  exact hm ⟨i, hi⟩

/-- A lookup answers the action index of the lowest-numbered entry that matches. -/
theorem RouteTable.lookup_win {s : State} {p : Port} {h : Header} {i : RouteIdx} (hw : s.Wins p h i) :
    s.route.lookup p h = some ((s.route.bank s.route.active)[i]).action := by
  have : s.route.activeBank.toList.find? (fun e => e.hits p h) = some ((s.route.bank s.route.active)[i]) := by
    rw [List.find?_eq_some_iff_getElem]
    refine ⟨(RouteEntry.hits_iff _ _ _).2 hw.1, i.val, by simp, ?_, ?_⟩
    · simp [RouteTable.activeBank]
    · intro j hj
      have := hw.2 ⟨j, lt_trans hj i.isLt⟩ hj
      rw [← RouteEntry.hits_iff] at this
      simpa [RouteTable.activeBank] using this
  unfold RouteTable.lookup
  rw [this]; rfl

end Sys2Proof.Machine
end

