-- ==== Sys2Proof/Laws/Send.lean ====
section
/-! SUPPORT. What enqueue attempts, event deliveries, raises and pops can touch, said once for each. -/

namespace Sys2Proof.Machine

/-! ## Sending and raising (R94 to R97, R174 to R178) -/

/-- What attempts and deliveries can do: queues, transmit states, counters and asked symbols of the ports change, and the
Frame Store and the Event Queue; nothing else. -/
structure State.SendFrame (s t : State) : Prop where
  tables : s.SameTables t
  ports  : ∀ p : Port, ∃ more tx queues ctr,
    t.ports[p] = { s.ports[p] with asked := s.ports[p].asked ++ more, tx := tx, queues := queues, ctr := ctr }

theorem State.SendFrame.refl (s : State) : s.SendFrame s := ⟨.refl s, fun _ => ⟨[], _, _, _, by simp; rfl⟩⟩

theorem State.SendFrame.trans {s t u : State} (h : s.SendFrame t) (k : t.SendFrame u) : s.SendFrame u where
  tables := h.tables.trans k.tables
  ports p := by
    obtain ⟨m, a, b, c, h⟩ := h.ports p
    obtain ⟨n, d, e, f, k⟩ := k.ports p
    exact ⟨m ++ n, d, e, f, by rw [k, h]; simp⟩

/-- A change that leaves the tables and the ports. -/
theorem State.SendFrame.of_ports {s t : State} (h : s.SameTables t) (k : t.ports = s.ports) : s.SendFrame t :=
  ⟨h, fun p => ⟨[], s.ports[p].tx, s.ports[p].queues, s.ports[p].ctr, by simp [k]⟩⟩

theorem State.FlowFrame.sends {s t : State} (h : s.FlowFrame t) : s.SendFrame t where
  tables := h.tables
  ports p := by obtain ⟨m, h⟩ := h.ports p; exact ⟨m, _, _, _, h⟩

theorem State.ServiceFrame.sends {p : Port} {s t : State} (h : State.ServiceFrame p s t) : s.SendFrame t where
  tables := h.tables
  ports q := by
    by_cases hq : q = p
    · subst hq
      obtain ⟨m, a, b, c, h⟩ := h.port
      exact ⟨m, a, b, _, h⟩
    · obtain ⟨m, h⟩ := h.others q hq
      exact ⟨m, _, _, _, h⟩

/-- A change of one port's queues, transmit state and counters. -/
theorem State.SendFrame.onPort (s : State) (p : Port) (f : PortState → PortState)
    (h : ∃ tx queues ctr, f s.ports[p] = { s.ports[p] with tx := tx, queues := queues, ctr := ctr }) :
    s.SendFrame (s.onPort p f) where
  tables := ⟨rfl, rfl, rfl, rfl, rfl, rfl, rfl, rfl, rfl, rfl, rfl⟩
  ports q := by
    by_cases hq : q = p
    · subst hq
      obtain ⟨a, b, c, h⟩ := h
      exact ⟨[], a, b, c, by rw [show (s.onPort q f).ports[q] = f s.ports[q] by simp, h]; simp⟩
    · rw [State.onPort_get_ne s f hq]
      exact ⟨[], _, _, _, by simp; rfl⟩

theorem State.tally_sends (s : State) (p : Port) (c : PortCounter) : s.SendFrame (s.tally p c) :=
  State.SendFrame.onPort s p _ ⟨s.ports[p].tx, s.ports[p].queues, _, rfl⟩

theorem State.accept_sends (s : State) (p : Port) (b : BufNo) (h : Header) (o : Origin) :
    s.SendFrame (s.accept p b h o) := by
  unfold State.accept
  refine State.SendFrame.trans (State.SendFrame.trans ?_ (State.addRef_frame _ b).sends) (State.askNext_frame _ p).sends
  exact State.SendFrame.onPort s p _ ⟨s.ports[p].tx, _, s.ports[p].ctr, rfl⟩

theorem State.enqueue_sends (s : State) (p : Port) (b : BufNo) (h : Header) (o : Origin) :
    s.SendFrame (s.enqueue p b h o).1 := by
  unfold State.enqueue
  split
  · exact .refl s
  · split
    · exact State.tally_sends s p _
    · exact State.accept_sends s p b h o

/-- An attempt is the enqueue's, with EGRESS-DOWN counted where that was refused DOWN (R96). -/
theorem State.attempt_cases (s : State) (p : Port) (b : BufNo) (h : Header) (o : Origin) :
    (s.isUp p = false ∧ s.attempt p b h o = s.tally p .egressDown) ∨
      (s.isUp p = true ∧ 16 ≤ s.ports[p].queues[h.cls].length ∧ s.attempt p b h o = s.tally p .qFull) ∨
      (s.isUp p = true ∧ s.ports[p].queues[h.cls].length < 16 ∧ s.attempt p b h o = s.accept p b h o) := by
  unfold State.attempt State.enqueue
  by_cases hu : s.isUp p = false
  · exact .inl ⟨hu, by simp [hu]⟩
  · rw [if_neg hu]
    by_cases hf : 16 ≤ s.ports[p].queues[h.cls].length
    · exact .inr (.inl ⟨by simpa using hu, hf, by rw [if_pos hf]⟩)
    · exact .inr (.inr ⟨by simpa using hu, by omega, by rw [if_neg hf]⟩)

theorem State.attempt_sends (s : State) (p : Port) (b : BufNo) (h : Header) (o : Origin) :
    s.SendFrame (s.attempt p b h o) := by
  obtain ⟨-, hx⟩ | ⟨-, -, hx⟩ | ⟨-, -, hx⟩ := State.attempt_cases s p b h o
  · rw [hx]; exact State.tally_sends s p _
  · rw [hx]; exact State.tally_sends s p _
  · rw [hx]; exact State.accept_sends s p b h o

theorem State.attemptAll_sends (b : BufNo) (h : Header) (o : Origin) : ∀ (ports : List Port) (s : State),
    s.SendFrame (s.attemptAll ports b h o)
  | [], s => .refl s
  | p :: ps, s => by
    have hs : s.attemptAll (p :: ps) b h o = (if s.resetDue then s else s.attempt p b h o).attemptAll ps b h o := rfl
    rw [hs]
    refine State.SendFrame.trans ?_ (State.attemptAll_sends b h o ps _)
    split
    · exact .refl s
    · exact State.attempt_sends s p b h o

/-- What a pop can do: nothing from an empty stack; otherwise the top buffer leaves it with count 1, and an episode may
begin or report the stock empty, by the raise given (R26, R31, R32). -/
theorem State.episodeAfterPop_sends (raise : NoticeKind → BitVec 32 → State → State)
    (hr : ∀ k d u, State.SendFrame u (raise k d u)) (s : State) : s.SendFrame (s.episodeAfterPop raise) := by
  unfold State.episodeAfterPop
  split
  · refine State.SendFrame.trans ?_ (hr _ _ _)
    refine ⟨⟨rfl, rfl, rfl, rfl, rfl, rfl, rfl, rfl, rfl, rfl, rfl⟩, fun p => ?_⟩
    rw [State.askUp_get]
    split
    · exact ⟨[.hold], _, _, _, rfl⟩
    · exact ⟨[], s.ports[p].tx, s.ports[p].queues, s.ports[p].ctr, by simp⟩
  · split
    · refine State.SendFrame.trans ?_ (hr _ _ _)
      exact .of_ports ⟨rfl, rfl, rfl, rfl, rfl, rfl, rfl, rfl, rfl, rfl, rfl⟩ rfl
    · exact .refl s

theorem State.note_sends (s : State) (kind : NoticeKind) (subject : Byte) (detail : BitVec 32) :
    s.SendFrame (s.note kind subject detail) :=
  .of_ports ⟨rfl, rfl, rfl, rfl, rfl, rfl, rfl, rfl, rfl, rfl, rfl⟩ rfl

theorem State.takeTop_sends {s t : State} {b : BufNo} (h : s.takeTop = some (b, t)) : s.SendFrame t := by
  unfold State.takeTop at h
  split at h
  · cases h
  · cases h; exact .of_ports ⟨rfl, rfl, rfl, rfl, rfl, rfl, rfl, rfl, rfl, rfl, rfl⟩ rfl

theorem State.popQuietly_sends {s t : State} {b : BufNo} (h : s.popQuietly = some (b, t)) : s.SendFrame t := by
  obtain ⟨⟨c, u⟩, hu, hx⟩ := Option.map_eq_some_iff.mp h
  cases hx
  exact (State.takeTop_sends hu).trans (State.episodeAfterPop_sends _ (fun _ _ _ => State.note_sends _ _ _ _) _)

theorem State.sendEventFrame_sends (s : State) (b : BufNo) : s.SendFrame (s.sendEventFrame b) := by
  unfold State.sendEventFrame
  have hp : s.SendFrame (s.putPayload b (eventPayload s.events.carried)) :=
    .of_ports ⟨rfl, rfl, rfl, rfl, rfl, rfl, rfl, rfl, rfl, rfl, rfl⟩ rfl
  exact (hp.trans (State.enqueue_sends _ _ _ _ _)).trans (State.release_frame _ b).sends

/-- What a delivery attempt can do: the flag is set and the timer runs one interval from now, whatever became of the frame
(R177). -/
theorem State.deliver_sends (s : State) : s.SendFrame s.deliver ∧ s.deliver.events.outstanding = true ∧
    ∃ u : State, u.now = s.now ∧ s.deliver.events.timer = some (s.now + ticksOf10Ms u.events.interval.toNat) := by
  have ha : ∀ u : State, u.SendFrame u.armRetransmit := fun u =>
    .of_ports ⟨rfl, rfl, rfl, rfl, rfl, rfl, rfl, rfl, rfl, rfl, rfl⟩ rfl
  unfold State.deliver
  split
  · exact ⟨ha s, rfl, s, rfl, rfl⟩
  · rename_i b t h
    have hs := (State.popQuietly_sends h).trans (State.sendEventFrame_sends t b)
    have hn := hs.tables.2.2.1
    exact ⟨hs.trans (ha _), rfl, t.sendEventFrame b, hn, by rw [← hn]; rfl⟩

theorem State.tryDeliver_sends (s : State) : s.SendFrame s.tryDeliver := by
  unfold State.tryDeliver
  split
  · exact s.deliver_sends.1
  · exact .refl s

/-- What taking a raise can do outside the Event Queue: a delivery attempt (R174 to R176). -/
theorem State.takeRaise_sends (s : State) (r : Raise) : s.SendFrame (s.takeRaise r) := by
  have ht : s.SendFrame { s with events := s.events.take r.kind r.subject r.tick r.detail } :=
    .of_ports ⟨rfl, rfl, rfl, rfl, rfl, rfl, rfl, rfl, rfl, rfl, rfl⟩ rfl
  unfold State.takeRaise
  split
  · exact ht.trans (State.tryDeliver_sends _)
  · exact ht

/-- What a raise can do outside the Event Queue: it is taken, or it waits (R174). -/
theorem State.raise_sends (s : State) (kind : NoticeKind) (subject : Byte) (detail : BitVec 32) :
    s.SendFrame (s.raise kind subject detail) := by
  unfold State.raise
  split
  · exact .of_ports ⟨rfl, rfl, rfl, rfl, rfl, rfl, rfl, rfl, rfl, rfl, rfl⟩ rfl
  · exact State.takeRaise_sends s _

/-- A pop of a port receiver (R26). -/
theorem State.pop_sends {s t : State} {b : BufNo} (h : s.pop = some (b, t)) : s.SendFrame t := by
  obtain ⟨⟨c, u⟩, hu, hx⟩ := Option.map_eq_some_iff.mp h
  cases hx
  exact (State.takeTop_sends hu).trans (State.episodeAfterPop_sends _ (fun _ _ _ => State.raise_sends _ _ _ _) _)

end Sys2Proof.Machine
end

