-- ==== Sys2Proof/Laws/Session.lean ====
section
/-! SUPPORT. Management requests (chapter 8): what taking one, answering one and ending one can do, said once. -/

namespace Sys2Proof.Machine

/-! ## The end of a command -/

/-- Without a happening of R148 the end of a command does nothing. -/
theorem State.finish_of_settled (s : State) (h : s.resetDue = false) : s.finish = s := by simp [State.finish, h]

/-! ## Answering (R136, R137) -/

/-- The part once the request under execution has ended. -/
def State.idled (s : State) : State := { s with agent := { s.agent with executing := none } }

/-- An entry that has just joined adds one reference to its buffer, and leaves the rest of the store (R95). -/
theorem State.joined_store (s : State) (p : Port) (b : BufNo) (h : Header) (o : Origin) (hc : s.store.count[b] = 1) :
    (s.joined p b h o).store = { s.store with count := vset s.store.count b 2 } := by
  have hb : s.store.count[b.val] = 1 := hc
  unfold State.joined
  rw [State.addRef_store _ b (by simp [hb])]
  simp [hb]

/-- The entry that joins stands at the tail of its class queue (R95). -/
theorem State.joined_port (s : State) (p : Port) (b : BufNo) (h : Header) (o : Origin) :
    (s.joined p b h o).ports[p] = { s.ports[p] with
      queues := vset s.ports[p].queues h.cls
        (s.ports[p].queues[h.cls] ++ [{ buf := b, hdr := h, enqueuedAt := s.now, origin := o }]) } := by
  simp [State.joined]

theorem State.joined_port_ne (s : State) {p q : Port} (b : BufNo) (h : Header) (o : Origin) (hq : q ≠ p) :
    (s.joined p b h o).ports[q] = s.ports[q] := by
  rw [State.joined, State.addRef_ports, State.onPort_get_ne _ _ hq]

theorem State.joined_frame (s : State) (p : Port) (b : BufNo) (h : Header) (o : Origin) :
    s.SameTables (s.joined p b h o) ∧ s.SameEvents (s.joined p b h o) ∧
      (s.joined p b h o).resetDue = s.resetDue := by
  have hf := State.addRef_frame (s.onPort p fun P =>
    { P with queues := vset P.queues h.cls
                (P.queues[h.cls] ++ [{ buf := b, hdr := h, enqueuedAt := s.now, origin := o }]) }) b
  exact ⟨hf.tables, hf.events, hf.due⟩

/-- The entries of a port after one has joined: those that were there, and the new one. -/
theorem State.joined_mem {s : State} {p : Port} {b : BufNo} {h : Header} {o : Origin} {c : Class} {e : Entry}
    (he : e ∈ (s.joined p b h o).ports[p].queues[c]) :
    e ∈ s.ports[p].queues[c] ∨ e = { buf := b, hdr := h, enqueuedAt := s.now, origin := o } := by
  rw [State.joined_port] at he
  have hq := vset_get s.ports[p].queues h.cls
    (s.ports[p].queues[h.cls] ++ [{ buf := b, hdr := h, enqueuedAt := s.now, origin := o }]) c.val c.isLt
  simp only [Fin.getElem_fin] at he hq ⊢
  rw [hq] at he
  split at he
  · rename_i hch
    rcases List.mem_append.1 he with k | k
    · refine .inl ?_
      simpa only [hch] using k
    · exact .inr (List.mem_singleton.1 k)
  · exact .inl he

/-- An expiry at the choice after an acceptance takes no entry that names a buffer no waiting entry named: the entry
just accepted passes its test. -/
theorem State.joined_spares {s : State} {p : Port} {b c : BufNo} {h : Header} {o : Origin}
    (hun : ∀ k : Class, ∀ e ∈ s.ports[p].queues[k], e.buf ≠ c) : State.Spares p c (s.joined p b h o) := by
  intro k e he hx
  rcases State.joined_mem he with hm | hm
  · exact hun k e hm
  · subst hm
    rw [(State.joined_frame s p b h o).1.2.2.1, PortState.fresh_not_expired] at hx
    cases hx

/-- An entry accepted into class 3 stands last in it, behind entries that were there (R92, R95, R100). -/
theorem State.accept_tail (s : State) (p : Port) (b : BufNo) (h : Header) (o : Origin) (hc : h.cls = 3) :
    ∃ ahead, ahead <:+ s.ports[p].queues[(3 : Class)] ∧ (s.accept p b h o).ports[p].queues[(3 : Class)] =
      ahead ++ [{ buf := b, hdr := h, enqueuedAt := s.now, origin := o }] := by
  have hj : (s.joined p b h o).ports[p].queues[(3 : Class)] =
      s.ports[p].queues[(3 : Class)] ++ [{ buf := b, hdr := h, enqueuedAt := s.now, origin := o }] := by
    rw [State.joined_port]
    have hk : ∀ k : Class, k = 3 → (vset s.ports[p].queues k (s.ports[p].queues[k] ++
        [{ buf := b, hdr := h, enqueuedAt := s.now, origin := o }]))[(3 : Class)] =
        s.ports[p].queues[(3 : Class)] ++ [{ buf := b, hdr := h, enqueuedAt := s.now, origin := o }] := by
      rintro _ rfl
      exact vset_get_self _ _ _
    exact hk _ hc
  have hx : (s.joined p b h o).ports[p].expired (s.joined p b h o).now
      { buf := b, hdr := h, enqueuedAt := s.now, origin := o } = false := by
    rw [(State.joined_frame s p b h o).1.2.2.1]; exact PortState.fresh_not_expired _ _ _ _ _
  show ∃ ahead, ahead <:+ _ ∧ ((s.joined p b h o).askNext p).ports[p].queues[(3 : Class)] = _
  unfold State.askNext
  split
  · exact State.choose_keeps_tail _ _ _ _ _ hj hx
  · exact ⟨_, List.suffix_refl _, hj⟩

/-- What an acceptance into class 3 of a buffer with one claim leaves, as far as an answer needs it (R95). -/
structure State.AcceptedThree (s a : State) (p : Port) (b : BufNo) : Prop where
  tables   : s.SameTables a
  events   : s.SameEvents a
  due      : (∀ r, s.agent.resetPending = some r → r.buf = b) → a.resetDue = s.resetDue
  mem      : a.store.mem = s.store.mem
  episodes : a.store.lowEpisodes = s.store.lowEpisodes
  own      : a.store.count[b] = 2
  counts   : ∀ c : BufNo, c ≠ b → (∀ k : Class, ∀ e ∈ s.ports[p].queues[k], e.buf ≠ c) →
               a.store.count[c] = s.store.count[c]
  port     : (s.ports[p]).ServiceOnly (a.ports[p])
  lower    : ∀ c : Class, c ≠ 3 → a.ports[p].queues[c] <:+ s.ports[p].queues[c]
  others   : ∀ q : Port, q ≠ p → (s.ports[q]).FlowOnly (a.ports[q])

theorem State.accept_three (s : State) (p : Port) (b : BufNo) (h : Header) (o : Origin) (hc : h.cls = 3)
    (hown : s.store.count[b] = 1) (hun : ∀ k : Class, ∀ e ∈ s.ports[p].queues[k], e.buf ≠ b) :
    State.AcceptedThree s (s.accept p b h o) p b := by
  have hf := State.accept_frame s p b h o
  have hs := State.joined_store s p b h o hown
  have hj := State.joined_frame s p b h o
  have hp := State.joined_port s p b h o
  have hn := fun {q : Port} (hq : q ≠ p) => State.joined_port_ne s b h o hq
  have hsp := fun {c : BufNo} (k : ∀ k : Class, ∀ e ∈ s.ports[p].queues[k], e.buf ≠ c) =>
    State.joined_spares (s := s) (p := p) (b := b) (h := h) (o := o) k
  generalize s.joined p b h o = j at hf hs hj hp hn hsp
  generalize s.accept p b h o = a at hf ⊢
  refine ⟨hj.1.trans hf.tables, hj.2.1.trans hf.events, ?_, ?_, ?_, ?_, ?_, ?_, ?_, ?_⟩
  · intro hr
    rw [hf.due ?_, hj.2.2]
    intro r hq
    rw [hj.1.2.2.2.2.2.2.2.1] at hq
    rw [hr r hq]
    exact hsp hun
  · rw [hf.mem, hs]
  · rw [hf.episodes, hs]
  · rw [hf.counts b (hsp hun), hs]
    exact vset_get_self _ _ _
  · intro c hcb hk
    rw [hf.counts c (hsp hk), hs]
    exact vset_get_ne _ _ hcb
  · refine PortState.ServiceOnly.trans ?_ hf.port
    rw [hp]
    refine ⟨[], s.ports[p].tx, vset s.ports[p].queues h.cls
      (s.ports[p].queues[h.cls] ++ [{ buf := b, hdr := h, enqueuedAt := s.now, origin := o }]),
      s.ports[p].ctr.qExpired, ?_⟩
    simp
  · intro c hc3
    refine (hf.queues c).trans ?_
    rw [hp]
    have hne : c ≠ h.cls := fun k => hc3 (k.trans hc)
    have := vset_get_ne s.ports[p].queues
      (s.ports[p].queues[h.cls] ++ [{ buf := b, hdr := h, enqueuedAt := s.now, origin := o }]) hne
    simp only [Fin.getElem_fin] at this ⊢
    rw [this]
  · intro q hq
    have := hf.others q hq
    rwa [hn hq] at this

/-- A response that finds room is queued, and the request's claim on the buffer passes to the entry (R136, R137). -/
theorem State.sendResponse_answered (u : State) (v : RequestView) (payload : List Byte)
    (hup : u.isUp v.req.port = true) (hroom : u.ports[v.req.port].queues[(3 : Class)].length < 16)
    (hown : u.store.count[v.req.buf] = 1)
    (hun : ∀ c : Class, ∀ e ∈ u.ports[v.req.port].queues[c], e.buf ≠ v.req.buf)
    (hmem : Memory.wf u.store.mem = true) (hlen : payload.length < 256)
    (hres : ∀ r, u.agent.resetPending = some r → r.buf = v.req.buf) :
    u.idled.Answered (u.sendResponse v payload) v payload := by
  have hpay := State.payloadAt_putPayload u v.req.buf payload hmem hlen
  have hout := fun {x : Nat} hx => State.read_putPayload_outside u v.req.buf payload (a := x) hx
  have hhdr : (u.putPayload v.req.buf payload).bytesAt v.req.buf 0 4 = u.bytesAt v.req.buf 0 4 := by
    simp only [State.putPayload, State.bytesAt, State.putBytes_store]
    rw [Memory.readMany_writeMany_outside _ _ _ _ _ (by left; simp [storeAddr]),
      Memory.readMany_writeMany_outside _ _ _ _ _ (by left; simp [storeAddr])]
  have hst : (u.putPayload v.req.buf payload).store =
      { u.store with mem := (u.putPayload v.req.buf payload).store.mem } := rfl
  have hsend : u.sendResponse v payload =
      ((u.putPayload v.req.buf payload).accept v.req.port v.req.buf (u.relayHeader v.reply) .response).endRequest
        v.req.buf := by
    unfold State.sendResponse
    rcases State.enqueue_cases (u.putPayload v.req.buf payload) v.req.port v.req.buf (u.relayHeader v.reply) .response
      with h | h | h
    · have : (u.putPayload v.req.buf payload).isUp v.req.port = true := hup
      rw [this] at h; simp at h
    · have hl : (u.putPayload v.req.buf payload).ports[v.req.port].queues[(u.relayHeader v.reply).cls].length < 16 :=
        hroom
      omega
    · rw [h.2.2]
  have ht := State.accept_tail (u.putPayload v.req.buf payload) v.req.port v.req.buf (u.relayHeader v.reply) .response rfl
  have ha := State.accept_three (u.putPayload v.req.buf payload) v.req.port v.req.buf (u.relayHeader v.reply) .response
    rfl hown hun
  rw [hsend]
  clear hsend
  generalize (u.putPayload v.req.buf payload).accept v.req.port v.req.buf (u.relayHeader v.reply) .response = a at ht ha
  have hrs := (State.release_store a v.req.buf).1
  have hrf := State.release_frame a v.req.buf
  rw [ha.own] at hrs
  have hend : a.endRequest v.req.buf = (a.release v.req.buf).idled := rfl
  rw [hend]
  generalize a.release v.req.buf = t at hrs hrf ⊢
  have hm : t.store.mem = (u.putPayload v.req.buf payload).store.mem := hrf.mem.trans ha.mem
  obtain ⟨rest, hsuf, hrest⟩ := ht
  obtain ⟨mp, hmp⟩ := hrf.ports v.req.port
  have hq : ∀ c : Class, t.idled.ports[v.req.port].queues[c] = a.ports[v.req.port].queues[c] := by
    intro c
    show t.ports[v.req.port].queues[c] = _
    rw [hmp]
  constructor
  · rw [← hpay]
    simp only [State.payloadAt, State.bytesAt, State.lengthAt, State.byteAt, State.idled, hm]
  · rw [← show (u.putPayload v.req.buf payload).bytesAt v.req.buf 0 4 = u.idled.bytesAt v.req.buf 0 4 from hhdr]
    simp only [State.bytesAt, State.idled, hm]
  · intro x hx
    show Memory.read t.store.mem x = _
    rw [hm]; exact hout hx
  · exact ⟨rest, hsuf, by rw [hq]; exact hrest⟩
  · intro c hc
    rw [hq]; exact ha.lower c hc
  · exact ha.port.trans (hrf.ports v.req.port).service
  · intro q hqp
    exact (ha.others q hqp).trans (hrf.ports q)
  · show t.store.count[v.req.buf] = 1
    rw [hrs]; exact vset_get_self _ _ _
  · intro b hb hn
    show t.store.count[b] = u.store.count[b]
    rw [hrs, Fin.getElem_fin, vset_get_ne _ _ hb]
    exact ha.counts b hb hn
  · exact hrf.episodes.trans ha.episodes
  · exact ha.events.trans hrf.events
  · obtain ⟨h1, h2, h3, h4, h5, h6, h7, h8, h9⟩ := ha.tables.trans hrf.tables
    exact ⟨h1, h2, h3, h4, h5, h6, h7, congrArg (fun x : Agent => { x with executing := none }) h8, h9⟩
  · exact hrf.due.trans (ha.due hres)

/-! ## Taking (R134, R135) -/

/-- A ready request of the row's command is served: it is under execution and off the queue when its command begins. -/
theorem State.takeRequest_ready {s : State} {v : RequestView} {rest : List Request} (h : s.Ready v rest)
    (mine : RequestView → Bool) (serve : RequestView → State → State) (hm : mine v = true) :
    s.takeRequest mine serve = serve v (s.beginRequest v.req rest) := by
  have hl : ¬ s.lengthAt v.req.buf < 5 := Nat.not_lt.2 h.long
  simp [State.takeRequest, h.oldest, hl, h.bytes, hm, h.noReset]

/-- A row whose command the oldest request does not name leaves the part as it is. -/
theorem State.takeRequest_other {s : State} {r : Request} {rest : List Request} (h : s.agent.queue = r :: rest)
    (hl : 5 ≤ s.lengthAt r.buf) (mine : RequestView → Bool) (serve : RequestView → State → State)
    (hm : mine (s.viewRequest r) = false) : s.takeRequest mine serve = s := by
  have : ¬ s.lengthAt r.buf < 5 := Nat.not_lt.2 hl
  simp [State.takeRequest, h, this, hm]

/-- Without a waiting request a management row does nothing. -/
theorem State.takeRequest_empty {s : State} (h : s.agent.queue = []) (mine : RequestView → Bool)
    (serve : RequestView → State → State) : s.takeRequest mine serve = s := by
  simp [State.takeRequest, h]

/-- The session judges an admitted request so (R141, R142). -/
theorem Session.judge_admitted {x : Session} {token seq : Byte} (ho : x.isOpen = true) (ht : token = x.token)
    (hs : seq = x.expected) : x.judge token seq = .admitted := by
  simp [Session.judge, ho, ht, hs]

end Sys2Proof.Machine
end

