-- ==== Sys2Proof/Laws/Stages.lean ====
section
/-! SUPPORT. What a stage of a disposition can do, and that a tick happening which is not due does nothing. -/

namespace Sys2Proof.Machine

/-! ## Dispositions (R42 to R45) -/

/-- `t` is `s` but for ports, buffers, tables, buckets, slots and notices: NODE, the initialization, the tick counter, the
Management Agent, the dispositions in progress, the pace of raises and the queue stand. -/
structure State.Abides (s t : State) : Prop where
  node         : t.node = s.node
  initializing : t.initializing = s.initializing
  now          : t.now = s.now
  agent        : t.agent = s.agent
  disposing    : t.disposing = s.disposing
  pending      : t.pending = s.pending
  raisesWait   : t.raisesWait = s.raisesWait

theorem State.Abides.refl (s : State) : s.Abides s := ⟨rfl, rfl, rfl, rfl, rfl, rfl, rfl⟩

theorem State.Abides.trans {s t u : State} (h : s.Abides t) (k : t.Abides u) : s.Abides u :=
  ⟨k.node.trans h.node, k.initializing.trans h.initializing, k.now.trans h.now, k.agent.trans h.agent,
    k.disposing.trans h.disposing, k.pending.trans h.pending, k.raisesWait.trans h.raisesWait⟩

theorem State.SendFrame.abides {s t : State} (h : s.SendFrame t) : s.Abides t := by
  obtain ⟨a, b, c, -, -, -, -, d, e, f, g⟩ := h.tables
  exact ⟨a, b, c, d, f, e, g⟩

/-- What an arrival can do: the slot changes, a notice may be raised, and the reference of a replaced hold ends (R119 to
R121). -/
theorem State.arrive_abides (s : State) (n : SlotNo) (hold : Option Held) : s.Abides (s.arrive n hold) := by
  have hslot : ∀ (u : State) (f : Slot → Slot), u.Abides (u.onSlot n f) :=
    fun u f => ⟨rfl, rfl, rfl, rfl, rfl, rfl, rfl⟩
  have hcount : s.Abides (s.countArrival n) := by
    unfold State.countArrival
    split
    · exact (hslot s _).trans (State.raise_sends _ _ _ _).abides
    · exact hslot s _
  have hheld : ∀ (u : State) (x : Option Held), u.Abides (u.releaseHeld x) := by
    intro u x
    cases x with
    | none => exact .refl u
    | some h => exact (State.release_frame u h.buf).sends.abides
  unfold State.arrive
  split
  · exact .refl s
  · split
    · split
      · exact ((hcount.trans (hslot _ _)).trans ((State.addRef_frame _ _).sends.abides.trans (hslot _ _))).trans
          (hheld _ _)
      · exact hcount.trans (hslot _ _)
    · exact hcount.trans (hslot _ _)

/-- What a stage can do: it ends the disposition, or the disposition goes on with one stage more taken and the same frame, the
rest of the part abiding as `State.Abides` says (R42, R43). -/
theorem State.takeStage_cases (s : State) (p : Port) (d : Disposal) :
    ∃ t, s.Abides t ∧ (s.takeStage p d = t.endDisposal p d ∨
      ∃ d', s.takeStage p d = t.goOn p d' ∧ d'.buf = d.buf ∧ d'.received = d.received ∧ d'.len = d.len ∧
        d'.begun = d.begun ∧ d'.taken = d.taken + 1) := by
  have hplain : ∀ u : State, u = s ∨ (∃ f, u = s.onRoute f) ∨ (∃ f m, u = (s.onAction f).countDown m) ∨
      (∃ f, u = s.onAction f) ∨ (∃ n x, u = s.setBucket n x) → s.Abides u := by
    intro u h
    rcases h with rfl | ⟨f, rfl⟩ | ⟨f, m, rfl⟩ | ⟨f, rfl⟩ | ⟨n, x, rfl⟩ <;>
      exact ⟨rfl, rfl, rfl, rfl, rfl, rfl, rfl⟩
  unfold State.takeStage
  split
  · unfold State.stageLookup
    split
    · exact ⟨s, .refl s, .inr ⟨_, rfl, rfl, rfl, rfl, rfl, rfl⟩⟩
    · split
      · exact ⟨_, hplain _ (.inr (.inl ⟨_, rfl⟩)), .inl rfl⟩
      · exact ⟨_, hplain _ (.inr (.inl ⟨_, rfl⟩)), .inr ⟨_, rfl, rfl, rfl, rfl, rfl, rfl⟩⟩
  · unfold State.stageResolve
    dsimp only
    split
    · exact ⟨_, hplain _ (.inr (.inr (.inr (.inl ⟨_, rfl⟩)))), .inl rfl⟩
    · exact ⟨_, hplain _ (.inr (.inr (.inl ⟨_, _, rfl⟩))), .inr ⟨_, rfl, rfl, rfl, rfl, rfl, rfl⟩⟩
    · exact ⟨_, hplain _ (.inr (.inr (.inl ⟨_, _, rfl⟩))), .inr ⟨_, rfl, rfl, rfl, rfl, rfl, rfl⟩⟩
  · exact ⟨s, .refl s, .inl rfl⟩
  · unfold State.stageAge
    split
    · split
      · exact ⟨_, hplain _ (.inr (.inl ⟨_, rfl⟩)), .inr ⟨_, rfl, rfl, rfl, rfl, rfl, rfl⟩⟩
      · exact ⟨s, .refl s, .inr ⟨_, rfl, rfl, rfl, rfl, rfl, rfl⟩⟩
    · split
      · split
        · exact ⟨_, hplain _ (.inr (.inl ⟨_, rfl⟩)), .inr ⟨_, rfl, rfl, rfl, rfl, rfl, rfl⟩⟩
        · exact ⟨s, .refl s, .inr ⟨_, rfl, rfl, rfl, rfl, rfl, rfl⟩⟩
      · exact ⟨s, .refl s, .inr ⟨_, rfl, rfl, rfl, rfl, rfl, rfl⟩⟩
  · unfold State.stageBucket
    split
    · exact ⟨s, .refl s, .inr ⟨_, rfl, rfl, rfl, rfl, rfl, rfl⟩⟩
    · rename_i n _
      split <;> rename_i t h <;> obtain ⟨rfl, -⟩ := Prod.mk.inj h
      · exact ⟨_, hplain _ (.inr (.inr (.inr (.inr ⟨_, _, rfl⟩)))), .inl rfl⟩
      · exact ⟨_, hplain _ (.inr (.inr (.inr (.inr ⟨_, _, rfl⟩)))), .inr ⟨_, rfl, rfl, rfl, rfl, rfl, rfl⟩⟩
      · exact ⟨_, hplain _ (.inr (.inr (.inr (.inr ⟨_, _, rfl⟩)))), .inr ⟨_, rfl, rfl, rfl, rfl, rfl, rfl⟩⟩
  · exact ⟨s, .refl s, .inl rfl⟩
  · rename_i r _ _
    have ha : ∀ x, s.Abides (match r.slot with
        | none => s
        | some n => s.arrive n x) := by
      intro x
      split
      · exact .refl s
      · exact State.arrive_abides _ _ _
    unfold State.stageArrival
    by_cases hf : r.disposition = .forward
    · exact ⟨_, ha (some d.hold),
        .inr ⟨d.next .enqueue, by cases r.slot <;> simp [hf], rfl, rfl, rfl, rfl, rfl⟩⟩
    · exact ⟨_, ha none,
        .inr ⟨d.next .release, by cases r.slot <;> simp [hf], rfl, rfl, rfl, rfl, rfl⟩⟩
  · exact ⟨s, .refl s, .inl rfl⟩
  · unfold State.stageEnqueue
    split
    · exact ⟨s, .refl s, .inl rfl⟩
    · exact ⟨_, (State.attempt_sends _ _ _ _ _).abides, .inr ⟨_, rfl, rfl, rfl, rfl, rfl, rfl⟩⟩
    · exact ⟨_, (State.attempt_sends _ _ _ _ _).abides, .inr ⟨_, rfl, rfl, rfl, rfl, rfl, rfl⟩⟩
  · exact ⟨s, .refl s, .inl rfl⟩

/-- A disposition that has ended takes no further stage. -/
theorem State.takeStages_ended {s : State} {p : Port} (h : s.disposing[p] = none) (fuel : Nat) :
    State.takeStages fuel p s = s := by
  cases fuel with
  | zero => rfl
  | succ n => unfold State.takeStages; split <;> simp_all

/-- The stages of a disposition in progress, the first of them apart. -/
theorem State.takeStages_next {s : State} {p : Port} {d : Disposal} (h : s.disposing[p] = some d)
    (hr : s.resetDue = false) (fuel : Nat) :
    State.takeStages (fuel + 1) p s = State.takeStages fuel p (s.takeStage p d) := by
  rw [State.takeStages, hr, h]; rfl

theorem State.inProgress_ended {s : State} (h : ∀ p : Port, s.disposing[p] = none) : s.inProgress = [] := by
  unfold State.inProgress
  rw [List.filterMap_eq_nil_iff]
  intro p _
  rw [h p]; rfl

/-- A copier that is idle, or has no entry left to copy, copies none (R55). -/
theorem RouteTable.copyNext_ended {t : RouteTable} (h : ∀ c, t.copier = some c → 64 ≤ c.next) : t.copyNext = t := by
  unfold RouteTable.copyNext
  cases e : t.copier with
  | none => rfl
  | some c => exact dif_neg (Nat.not_lt.2 (h c e))

/-- A running copier copies its next entry (R55). -/
theorem RouteTable.copyNext_running {t : RouteTable} {c : BankCopy} (h : t.copier = some c) (hn : c.next < 64) :
    t.copyNext =
      { t.setBank t.active.other (vset t.stagingBank ⟨c.next, hn⟩ t.activeBank[c.next]) with
        copier := some { c with next := c.next + 1 } } := by
  unfold RouteTable.copyNext; rw [h]; exact dif_pos hn

/-- With no disposition in progress and no raise waiting, the copier alone goes on while no command waits (R55). -/
theorem State.idle_quiet {s : State} (h : ∀ p : Port, s.disposing[p] = none) (hr : s.transit = []) :
    s.idle = s.copyEntry := by
  unfold State.idle
  rw [hr, State.inProgress_ended h]

/-- With nothing in progress and no raise waiting nothing happens while no command waits. -/
theorem State.idle_ended {s : State} (h : ∀ p : Port, s.disposing[p] = none) (hr : s.transit = [])
    (hc : ∀ c, s.route.copier = some c → 64 ≤ c.next) : s.idle = s := by
  rw [State.idle_quiet h hr, State.copyEntry, RouteTable.copyNext_ended hc]

/-- While no command waits and no disposition is in progress, the Event Queue takes one of the raises that wait (R174). -/
theorem State.idle_raise {s : State} (h : ∀ p : Port, s.disposing[p] = none) (hr : s.transit ≠ []) :
    ∃ k, k < s.transit.length ∧ s.idle = s.takeWaiting k := by
  unfold State.idle
  rw [State.inProgress_ended h]
  cases e : s.transit with
  | nil => exact absurd e hr
  | cons r rs =>
    cases rs with
    | nil => exact ⟨0, by simp, rfl⟩
    | cons q rs =>
      dsimp only
      split
      · rename_i hk; exact ⟨_, hk, rfl⟩
      · exact ⟨0, by simp, rfl⟩

/-- Raises made at the counter's present value are left to wait by TICK. -/
theorem State.takeStaleRaises_fresh {s : State} (h : ∀ r ∈ s.transit, r.tick = s.now) (fuel : Nat) :
    State.takeStaleRaises fuel s = s := by
  cases fuel with
  | zero => rfl
  | succ n =>
    have hs : s.staleRaises = [] := by
      unfold State.staleRaises
      rw [List.filter_eq_nil_iff]
      intro k _
      cases hk : s.transit[k]? with
      | none => simp
      | some r => simp [h r (List.mem_of_getElem? hk)]
    unfold State.takeStaleRaises
    rw [hs]

/-- The waiting raise chosen by place `k` is taken and no longer waits (R174, R181). -/
theorem State.takeWaiting_eq {s : State} {k : Nat} {r : Raise} (h : s.transit[inTurn s.transit k]? = some r) :
    s.takeWaiting k = (State.takeRaise { s with transit := s.transit.eraseIdx (inTurn s.transit k) } r).finish := by
  unfold State.takeWaiting; rw [h]

/-- A chosen raise that is no PORT-UP is the one taken. -/
theorem inTurn_other {rs : List Raise} {k : Nat} {r : Raise} (h : rs[k]? = some r) (hk : r.kind ≠ .portUp) :
    inTurn rs k = k := by
  unfold inTurn; rw [h]; exact if_neg hk

/-- Where a PORT-UP is chosen, the raise taken is a PORT-UP and none before it is one (R181). -/
theorem inTurn_portUp {rs : List Raise} {k : Nat} {r : Raise} (h : rs[k]? = some r) (hk : r.kind = .portUp) :
    ∃ q, rs[inTurn rs k]? = some q ∧ q.kind = .portUp ∧
      ∀ (j : Nat) (x : Raise), j < inTurn rs k → rs[j]? = some x → x.kind ≠ .portUp := by
  have hi : inTurn rs k = rs.findIdx fun q => decide (q.kind = .portUp) := by
    unfold inTurn; rw [h]; exact if_pos hk
  have hlt : rs.findIdx (fun q => decide (q.kind = .portUp)) < rs.length :=
    List.findIdx_lt_length_of_exists ⟨r, List.mem_of_getElem? h, decide_eq_true hk⟩
  rw [hi]
  refine ⟨rs[rs.findIdx fun q => decide (q.kind = .portUp)], List.getElem?_eq_getElem hlt, ?_, ?_⟩
  · simpa using List.findIdx_getElem (w := hlt)
  · intro j x hj hx hxk
    obtain ⟨hjl, rfl⟩ := List.getElem?_eq_some_iff.1 hx
    have := List.not_of_lt_findIdx hj
    simp [hxk] at this

/-! ## Ticks (R78, R79) -/

theorem State.takeInitEnd_taken {s : State} (h : s.initializing = true → reached s.now 10 = false) : s.takeInitEnd = s := by
  unfold State.takeInitEnd
  cases hi : s.initializing with
  | false => rfl
  | true => rw [h hi]; rfl

theorem State.takePortTick_taken {s : State} {p : Port} (ht : due s.now s.ports[p].trainingDeadline = false)
    (hh : due s.now s.ports[p].holdDeadline = false) : s.takePortTick p = s := by
  unfold State.takePortTick
  rw [show s.takeTrainingDeadline p = s by unfold State.takeTrainingDeadline; rw [if_neg]; rw [ht]; simp]
  unfold State.takeHoldDeadline
  rw [if_neg]; rw [hh]; simp

theorem State.takeSlotTick_taken {s : State} {n : SlotNo} (h : due s.now s.slots[n].deadline = false) :
    s.takeSlotTick n = s := by
  unfold State.takeSlotTick
  rw [show s.takeStartWindow n = s by unfold State.takeStartWindow State.windowExpired; rw [h]; simp]
  unfold State.takeSlotDeadline State.slotDue
  rw [h]; simp

theorem State.takeAgentTick_taken {s : State} (hl : due s.now s.agent.session.leaseDeadline = false)
    (hr : ∀ r, s.agent.resetPending = some r → reached s.now r.limit = false) : s.takeAgentTick = s := by
  unfold State.takeAgentTick
  rw [show s.takeLeaseDeadline = s by unfold State.takeLeaseDeadline; rw [if_neg]; rw [hl]; simp]
  unfold State.takeResetLimit
  split
  · rename_i r h; rw [hr r h]; rfl
  · rfl

theorem State.takeRetransmit_taken {s : State} (h : due s.now s.events.timer = false) : s.takeRetransmit = s := by
  unfold State.takeRetransmit; rw [h]; rfl

/-- A copy that started at the counter's present value is not stale (R55). -/
theorem State.endStaleCopy_fresh {s : State} (h : ∀ c, s.route.copier = some c → c.begun = s.now) :
    s.endStaleCopy = s := by
  unfold State.endStaleCopy
  split
  · rename_i c hc; rw [if_pos (h c hc)]
  · rfl

/-- A disposition that began at the counter's present value is not stale (R45). -/
theorem State.settleStale_fresh {s : State} {p : Port} (h : ∀ d, s.disposing[p] = some d → d.begun = s.now) :
    s.settleStale p = s := by
  unfold State.settleStale
  split
  · rename_i d hd; rw [if_pos (h d hd)]
  · rfl

/-- With no disposition and no raise left from before the last advance, TICK ends a copy left from before it and takes the tick
happenings (R55, R79). -/
theorem State.takeDue_fresh {s : State} (hd : ∀ (p : Port) (d : Disposal), s.disposing[p] = some d → d.begun = s.now)
    (hr : ∀ r ∈ s.transit, r.tick = s.now) :
    s.takeDue = (((List.finRange 32).foldl State.takeSlotTick
      (Port.all.foldl State.takePortTick s.endStaleCopy.takeInitEnd)).takeAgentTick).takeRetransmit := by
  have key : Port.all.foldl State.settleStale s = s := by
    show List.foldl _ _ [0, 1, 2, 3] = s
    simp only [List.foldl, State.settleStale_fresh (hd _)]
  unfold State.takeDue
  dsimp only
  rw [key, State.takeStaleRaises_fresh hr]

end Sys2Proof.Machine
end

