-- ==== Sys2Proof/Tests/Slice0.lean ====
section
/-! SUPPORT. Tests: ill-formed records that the checks refuse, the numbers the manual works out, single commands on small
states, and for every statement with hypotheses a state and operands that meet them all. -/

set_option Elab.async false

namespace Sys2Proof.Tests

open Sys2Proof.Machine

/-! ## Small states -/

/-- NODE 3, past initialization, every port UP, nothing else moved. -/
def relay : State :=
  { State.powerUp 3 with
    initializing := false
    ports := vmap (fun P : PortState => { P with link := .up }) (State.powerUp 3).ports }

/-- The part with buffer 0 taken off the stack with one claim, and these bytes in it. -/
def holding (s : State) (bytes : List Byte) : State :=
  ({ s with store := { s.store with count := vset s.store.count 0 1, free := s.store.free.tail } } : State).putBytes 0 0
    bytes

/-- Port `p` fills buffer 0 and has stored these bytes. -/
def filling (s : State) (p : Port) (bytes : List Byte) : State :=
  (holding s bytes).onPort p fun P => { P with rx := .receiving 0 bytes.length }

/-- A frame as bytes, its Check computed. -/
def frame (h : Header) (payload : List Byte) : List Byte :=
  headerBytes h ++ [BitVec.ofNat 8 payload.length] ++ payload ++
    bytes16 (crc16 (headerBytes h ++ [BitVec.ofNat 8 payload.length] ++ payload))

/-- A transit header: Label 0441h, Source 20h. -/
def transit (cls : Sys2Proof.Class) (age : Age) : Header :=
  { label := 0x0441, source := 0x20, cls := cls, stale := false, age := age }

/-- A header for the management label of NODE 3 from manager 21h. -/
def managed : Header := { label := 0xFFF3, source := 0x21, cls := 3, stale := false, age := 15 }

/-- The session of manager 21h: token 11h, expected sequence 28h, lease 50, events off, nothing cached. -/
def opened : Session :=
  { isOpen := true, holder := 0x21, replyLabel := 0x0C21, eventPort := 1, token := 0x11, expected := 0x28
    leaseLength := 50, leaseDeadline := some 5000, eventsEnabled := false, cache := none }

/-- The part with a request of this payload waiting in buffer 0, received on port 1. -/
def requested (s : State) (payload : List Byte) : State :=
  let t := holding s (frame managed payload)
  { t with agent := { t.agent with queue := [{ buf := 0, port := 1 }] } }

/-- The part with the session open. -/
def inSession (s : State) : State := { s with agent := { s.agent with session := opened } }

/-- The request `requested` leaves waiting, as its bytes stand. -/
def view (s : State) : RequestView := s.viewRequest { buf := 0, port := 1 }

/-- A sessioned request under the open session, in turn, with these argument bytes. -/
def sessioned (opcode : Byte) (args : List Byte) : State :=
  requested (inSession relay) ([opcode, 0x11, 0x28, 0x0C, 0x21] ++ args)

/-- An unsessioned request. -/
def unsessioned (opcode : Byte) (args : List Byte) : State :=
  requested relay ([opcode, 0x00, 0x28, 0x0C, 0x21] ++ args)

/-- What `State.Waiting` asks of a request in buffer 0 from port 1, in a form that evaluates. -/
def waitingCheck (s : State) : Bool :=
  decide (s.agent.queue = [{ buf := 0, port := 1 }]) && decide (s.agent.executing = none) &&
    decide (5 ≤ s.lengthAt 0) && decide (s.resetDue = false) && s.isUp 1 &&
    decide (s.ports[(1 : Port)].queues[(3 : Sys2Proof.Class)].length < 15) && decide (s.store.count[(0 : BufNo)] = 1) &&
    decide (∀ c : Sys2Proof.Class, s.ports[(1 : Port)].queues[c] = []) && Memory.wf s.store.mem

theorem waiting_of {s : State} (h : waitingCheck s = true) : s.Waiting (view s) [] := by
  simp only [waitingCheck, Bool.and_eq_true, decide_eq_true_eq] at h
  obtain ⟨⟨⟨⟨⟨⟨⟨⟨h1, h2⟩, h3⟩, h4⟩, h5⟩, h6⟩, h7⟩, h8⟩, h9⟩ := h
  refine ⟨h1, h2, h3, rfl, h4, h5, lt_trans h6 (by decide), h7, ?_, h9⟩
  intro c e he
  have : e ∈ s.ports[(1 : Port)].queues[c] := he
  rw [h8 c] at this; cases this

theorem ready_of {s : State} (h : waitingCheck s = true) (hr : s.agent.resetPending = none) : s.Ready (view s) [] :=
  ⟨waiting_of h, hr⟩

/-- The part after a command that goes on. -/
def after (c : Instr) (s : State) : State :=
  match exec c s with
  | .next t => t
  | .fault _ => s
  | .refused _ => s

/-- END on a port, the disposition it starts following at once. -/
def ended (p : Port) : Instr := .rxEnd { port := p, pace := .whole }

/-- The payload of the answer to the request in buffer 0. -/
def answered (c : Instr) (s : State) : List Byte := (after c s).payloadAt 0

/-! ## Checks of records, each with a record it refuses -/

/-- An entry that is not valid but not cleared (R40). -/
theorem test_wf_route_not_cleared : ({ RouteEntry.cleared with sourceKey := 1 } : RouteEntry).wf = false := by decide

/-- A valid entry with port mask 0 (R40). -/
theorem test_wf_route_no_ports : ({ RouteEntry.cleared with valid := true } : RouteEntry).wf = false := by decide

/-- Label key 0441h outside label mask FF00h (R40). -/
theorem test_wf_route_label_key :
    ({ RouteEntry.cleared with valid := true, portMask := 1, labelKey := 0x0441, labelMask := 0xFF00 } :
      RouteEntry).wf = false := by decide

/-- Source key 21h outside source mask 0Fh (R40). -/
theorem test_wf_route_source_key :
    ({ RouteEntry.cleared with valid := true, portMask := 1, sourceKey := 0x21, sourceMask := 0x0F } :
      RouteEntry).wf = false := by decide

/-- Dispatch mask 0 (R59). -/
theorem test_wf_dispatch_mask :
    ({ ActionRecord.reset with dispatch := some { offset := 1, mask := 0 } } : ActionRecord).wf = false := by decide

/-- Subject 4 is no port; and a block raises no NOTICES-LOST (R173). -/
theorem test_wf_raise :
    ({ kind := .portUp, subject := 4, tick := 0, detail := 0 } : Raise).wf = false ∧
      ({ kind := .noticesLost, subject := 0, tick := 0, detail := 1 } : Raise).wf = false ∧
      ({ kind := .resetDone, subject := 0, tick := 0, detail := 0 } : Raise).wf = false := by decide

/-- Rates 0 and 4096, depths 68 and 65536, a credit above the depth, a DISABLED bucket with credit (R81). -/
theorem test_wf_bucket :
    ({ Bucket.reset with rate := 0 } : Bucket).wf = false ∧ ({ Bucket.reset with rate := 4096 } : Bucket).wf = false ∧
      ({ Bucket.reset with depth := 68 } : Bucket).wf = false ∧
      ({ Bucket.reset with depth := 65536 } : Bucket).wf = false ∧
      ({ Bucket.reset with enabled := true, credit := 70 } : Bucket).wf = false ∧
      ({ Bucket.reset with credit := 1 } : Bucket).wf = false := by decide

/-- A loss count of 0 or 16, a configured slot with period 0, substitute without hold (R112, R115). -/
theorem test_wf_slot :
    ({ SlotConfig.reset with period := 1 } : SlotConfig).wf = false ∧
      ({ SlotConfig.reset with period := 1, lossCount := 16 } : SlotConfig).wf = false ∧
      ({ SlotConfig.reset with lossCount := 1 } : SlotConfig).wf = false ∧
      ({ SlotConfig.reset with period := 1, lossCount := 1, substitute := true } : SlotConfig).wf = false := by decide

/-- PORT-UP of port 4, SLOT-LATE of slot 32, BUFFER-LOW of subject 1, NOTICES-LOST of none and of 65536 (R173, R175). -/
theorem test_wf_notice :
    ({ sequence := 0, kind := .portUp, subject := 4, tick := 0, detail := 0 } : Notice).wf = false ∧
      ({ sequence := 0, kind := .slotLate, subject := 32, tick := 0, detail := 0 } : Notice).wf = false ∧
      ({ sequence := 0, kind := .bufferLow, subject := 1, tick := 0, detail := 0 } : Notice).wf = false ∧
      ({ sequence := 0, kind := .noticesLost, subject := 0, tick := 0, detail := 0 } : Notice).wf = false ∧
      ({ sequence := 0, kind := .noticesLost, subject := 0, tick := 0, detail := 65536 } : Notice).wf = false := by
  decide

/-! ## Numbers worked out outside the model -/

/-- The catalogued check value of the CRC-16 with polynomial 8005h, initial value FFFFh, no reflection and no final
inversion: AEE7h over the nine digits 1 to 9 (R183). -/
theorem test_crc : crc16 [0x31, 0x32, 0x33, 0x34, 0x35, 0x36, 0x37, 0x38, 0x39] = 0xAEE7 := by decide +kernel

/-- Header byte 3 of Class 3, Age 15, Stale 0 is CFh (section 11.4, the OPEN example). -/
theorem test_header_byte3 : headerByte3 managed = 0xCF := by decide

/-- NODE 3: label FFF3h, source F3h (section 11.4). -/
theorem test_own_numbers : ownLabel 3 = 0xFFF3 ∧ ownSource 3 = 0xF3 := by decide

/-- The dispatch block of chapter 4: base 84 with selectors 1, 12, 14, 0 and 2 names 85, 80, 82, 84 and 86. -/
theorem test_dispatch_block :
    [1, 12, 14, 0, 2].map (dispatchTarget 84) = [85, 80, 82, 84, 86] := by decide

/-- A residence across the wrap of the tick counter is the ticks between, modulo 2^32 (R80). -/
theorem test_residence_wraps : elapsed 0x00000004 0xFFFFFFFE = 6 ∧ reached 0x00000004 0xFFFFFFFE = true := by decide

/-- The bucket of chapter 5: 80 less 21, 21 and 35 is 3; 15 does not cover 21 and demotes; 21 does and leaves 0. -/
theorem test_bucket_burst :
    let x : Bucket := { Bucket.reset with enabled := true, rate := 6, depth := 80, credit := 80, exceed := .demote }
    (((x.charge 21).1.charge 21).1.charge 35).1.credit = 3 ∧ ({ x with credit := 15 }.charge 21).2 = .demote ∧
      ({ x with credit := 21 }.charge 21).1.credit = 0 ∧ ({ x with credit := 78 }.refill).credit = 80 := by decide

/-- No word spells a command: the table gives no row bits. -/
theorem test_no_word_spells_a_command : decodeTableWord 8 0x02 = none := rfl

/-! ## Single commands -/

theorem test_rstn_release : (after (.rstnRelease 9) relay).node = 9 ∧ (after (.rstnRelease 9) relay).agent.tokenCounter = 1 := by
  decide +kernel

theorem test_port_init_end :
    (after .portInitEnd { State.powerUp 3 with now := 9 }).initializing = true ∧
      (after .portInitEnd { State.powerUp 3 with now := 10 }).initializing = false := by decide +kernel

/-- The first pop after reset takes buffer 0 (R35). -/
theorem test_rx_start : (after (.rxStart 2) relay).ports[(2 : Port)].rx = .receiving 0 0 := by decide +kernel

/-- The 72nd byte cuts the frame off (R11). -/
theorem test_rx_data_byte :
    (after (.rxDataByte 1 0) (filling relay 1 (List.replicate 71 0xAA))).ports[(1 : Port)].rx = .ignoring .cutOff := by
  decide +kernel

/-- A frame for the management label waits as a request (R13); one byte less fails the length test first (R12). -/
theorem test_rx_end :
    (after (ended 1) (filling relay 1 (frame managed [1, 0, 8, 0x0C, 0x21]))).agent.queue = [{ buf := 0, port := 1 }] ∧
      (after (ended 1) (filling relay 1 (frame managed [1, 0, 8, 0x0C, 0x21]).dropLast)).ports[(1 : Port)].ctr.rxLength
        = 1 := by decide +kernel

/-- Port 3 leaves UP after the egress set of a flooded frame is formed: its attempt counts EGRESS-DOWN, and the entry of port
2, accepted a tick later, carries that tick (R44, R93, R98). -/
theorem test_rx_end_stages :
    let s := after (.rxEnd { port := 1, pace := .upTo 3 }) (filling relay 1 (frame (transit 1 5) []))
    let t := (State.idling 3 (after (.signalTimeout 3) { s with now := 1 }))
    t.ports[(3 : Port)].ctr.egressDown = 1 ∧ t.disposing[(1 : Port)] = none ∧
      (t.ports[(0 : Port)].queues[(1 : Sys2Proof.Class)] ++ t.ports[(2 : Port)].queues[(1 : Sys2Proof.Class)]).map
        (·.enqueuedAt) = [0, 1] := by decide +kernel

/-- A frame's disposition has ended when END is taken of the port's next frame, though that one is ignored (R45). -/
theorem test_rx_end_ignored_ends_disposition :
    let s := after (.rxEnd { port := 1, pace := .upTo 3 }) (filling relay 1 (frame (transit 1 5) []))
    let t := after (ended 1) (s.onPort 1 fun P => { P with rx := .ignoring .nobuf })
    s.disposing[(1 : Port)] ≠ none ∧ t.disposing[(1 : Port)] = none ∧
      t.ports[(2 : Port)].queues[(1 : Sys2Proof.Class)] ≠ [] ∧ t.ports[(1 : Port)].rx = .idle := by decide +kernel

/-- After the Age-0 drop of stage 3 the buffer is still claimed; stage 7 then pushes it (R44, R74). -/
theorem test_age_drop_releases_at_stage_seven :
    let s := after (.rxEnd { port := 1, pace := .upTo 2 }) (filling relay 1 (frame (transit 1 0) []))
    s.route.ageDropped = 1 ∧ s.store.count[(0 : BufNo)] = 1 ∧ s.disposing[(1 : Port)] ≠ none ∧
      (State.idling 1 s).store.count[(0 : BufNo)] = 0 ∧ (State.idling 1 s).disposing[(1 : Port)] = none := by
  decide +kernel

theorem test_rx_abort :
    (after (.rxAbort 1) (filling relay 1 [1])).ports[(1 : Port)].ctr.rxAborted = 1 ∧
      (after (.rxAbort 1) (filling relay 1 [1])).store.depth = 128 := by decide +kernel

theorem test_rx_idle : (after (.rxIdle 1) (filling relay 1 [1])).ports[(1 : Port)].rx = .ignoring .code := by
  decide +kernel

/-- The fourth invalid symbol in a row loses the link, cause 1 (R5). -/
theorem test_rx_invalid_symbol :
    let s := relay.onPort 2 fun P => { P with invalidRun := 3 }
    (after (.rxInvalidSymbol 2) s).ports[(2 : Port)].link = .down ∧
      ((after (.rxInvalidSymbol 2) s).events.notices.map fun n => (n.kind, n.subject, n.detail)) =
        [(.resetDone, 0, 0), (.portDown, 2, 1)] := by decide +kernel

theorem test_signal_timeout :
    ((after (.signalTimeout 3) relay).events.notices.map fun n => (n.kind, n.subject, n.detail)) =
      [(.resetDone, 0, 0), (.portDown, 3, 2)] := by decide +kernel

/-- PORT-DOWN is raised before the effects of R6: its event frame takes the buffer on top, 1, and then the reception's
buffer, 0, is pushed (R5). -/
theorem test_signal_timeout_order :
    let s := filling relay 3 [1]
    let t := after (.signalTimeout 3)
      { s with agent := { s.agent with session := { opened with eventsEnabled := true } } }
    t.store.free.take 2 = [0, 2] ∧
      t.ports[(1 : Port)].queues[(3 : Sys2Proof.Class)].map (fun e => (e.buf, e.origin)) = [(1, .event)] := by
  decide +kernel

/-- HOLD at tick 4000 with a limit of 100 ms: deadline 5000 (section 1.5, line 1); a second HOLD leaves it (line 3). -/
theorem test_rx_hold :
    let s := after (.rxHold 2) { relay with now := 4000 }
    s.ports[(2 : Port)].holdDeadline = some 5000 ∧
      (after (.rxHold 2) { s with now := 4300 }).ports[(2 : Port)].holdDeadline = some 5000 := by decide +kernel

/-- An entry of class `c` for buffer 0, accepted at a tick. -/
def entry (c : Sys2Proof.Class) (t : Tick) : Entry :=
  { buf := 0, hdr := transit c 4, enqueuedAt := t, origin := .transit }

/-- Port 1 with residence limits 20 and 8 for classes 1 and 0, and T2, T4, T1 and T3 of section 6.3 waiting under HOLD. -/
def waiting1 : State :=
  { (holding relay (frame (transit 1 5) [])).onPort 1 fun P => { P with
      partnerHold := true
      cfg := { P.cfg with residence := #v[8, 20, 0, 0] }
      queues := #v[[entry 0 502, entry 0 510], [entry 1 505, entry 1 512], [], []] } with
    now := 515, store := { (holding relay (frame (transit 1 5) [])).store with count := vset relay.store.count 0 4 } }

/-- GO at 515 offers T2; with T2 and T4 gone, GO at 517 expires T1 and offers T3 (section 6.3, lines 8 and 12). -/
theorem test_rx_go :
    (after (.rxGo 1) waiting1).ports[(1 : Port)].tx = .sending (entry 1 505) ∧
      (let s := { waiting1.onPort 1 fun P => { P with queues := vset P.queues 1 [] } with now := 517 }
       (after (.rxGo 1) s).ports[(1 : Port)].tx = .sending (entry 0 510) ∧
         (after (.rxGo 1) s).ports[(1 : Port)].ctr.qExpired = 1) := by decide +kernel

/-- A port in TRAINING with deadline 30. -/
def training0 : State :=
  { State.powerUp 3 with initializing := false, now := 30 }.onPort 0 fun P =>
    { P with link := .training, trainingDeadline := some 30 }

theorem test_training_deadline :
    (after (.trainingDeadline 0) training0).ports[(0 : Port)].link = .up ∧
      (after (.trainingDeadline 0) { training0 with now := 29 }).ports[(0 : Port)].link = .training := by decide +kernel

/-- During an episode HOLD is sent before anything else (R4). -/
theorem test_training_deadline_hold :
    let s := { training0 with store := { training0.store with free := training0.store.free.drop 120, episode := .low false } }
    (after (.trainingDeadline 0) s).ports[(0 : Port)].sent = [.flow .hold] ∧
      (after (.trainingDeadline 0) s).ports[(0 : Port)].asked = [] := by decide +kernel

/-- The flush of a stuck partner leaves the flag set, all queues empty, HOLD-STUCK and the count of entries (section 1.5,
line 5). -/
theorem test_hold_deadline :
    let s := waiting1.onPort 1 fun P => { P with
      holdDeadline := some 515, queues := #v[[], [], [entry 2 502, entry 2 505, entry 2 510], []] }
    (after (.holdDeadline 1) s).ports[(1 : Port)].entries = 0 ∧
      (after (.holdDeadline 1) s).ports[(1 : Port)].ctr.qFlushed = 3 ∧
      (after (.holdDeadline 1) s).ports[(1 : Port)].partnerHold = true := by decide +kernel

/-- Port 1 sends T2. -/
def sending1 : State := after (.rxGo 1) waiting1

theorem test_tx_end :
    (after (.txEnd 1) sending1).ports[(1 : Port)].ctr.txFrames = 1 ∧
      (after (.txEnd 1) sending1).ports[(1 : Port)].tx = .sending (entry 1 512) ∧
      (after (.txEnd 1) sending1).ports[(1 : Port)].sent = [.frame (frame (transit 1 4) [])] := by decide +kernel

theorem test_send_control_symbol :
    (after (.sendControlSymbol 1) (relay.askUp .hold)).ports[(1 : Port)].sent = [.flow .hold] := by decide +kernel

/-- Thirteen refills of 6 raise 0 to 78 and the next stops at 80 (section 5.3, lines 10 and 11): the last of them. -/
theorem test_tick :
    let s := relay.setBucket 7 { Bucket.reset with enabled := true, rate := 6, depth := 80, credit := 78 }
    (after .tick s).buckets[(7 : BucketNo)].credit = 80 ∧ (after .tick s).now = 1 := by decide +kernel

/-- A training deadline reached at 30 and not taken is taken before the counter goes on to 31 (R78, R79). -/
theorem test_tick_takes_what_is_due :
    let t := after .tick training0
    t.ports[(0 : Port)].link = .up ∧ t.now = 31 ∧
      t.events.notices.map (fun n => (n.kind, n.tick)) = [(.resetDone, 0), (.portUp, 30)] := by decide +kernel

/-- A valid entry for Label 0441h from port 0, naming record 84. -/
def entry84 : RouteEntry :=
  { valid := true, portMask := 1, labelKey := 0x0441, labelMask := 0xFFFF, sourceKey := 0, sourceMask := 0
    minClass := 0, action := 84 }

theorem test_copy_done :
    let s := relay.onRoute fun t =>
      { t with bankA := vset t.bankA 5 entry84, staging := .copying, copier := some { next := 0, begun := 0 } }
    (after .copyDone s).route.bankB[(5 : RouteIdx)] = entry84 ∧ (after .copyDone s).route.staging = .clean := by
  decide +kernel

/-- Slot 12 of section 7.4: period 50, grace 10, loss count 3, start window 200, hold and substitute on. -/
def slot12 : Slot :=
  { Slot.reset with
    cfg := { period := 50, grace := 10, lossCount := 3, startWindow := 200, hold := true, substitute := true } }

theorem test_slot_start_window_expiry :
    let s := { relay.setSlot 12 { slot12 with state := .waiting, deadline := some 1200 } with now := 1200 }
    (after (.slotStartWindowExpiry 12) s).slots[(12 : SlotNo)].state = .lost ∧
      (after (.slotStartWindowExpiry 12) { s with now := 1199 }).slots[(12 : SlotNo)].state = .waiting := by
  decide +kernel

/-- Slot 12, FRESH since the arrival at 1130, at its deadline 1190 (section 7.4, line 4). -/
def fresh12 : State :=
  { (holding relay (frame (transit 2 8) [])).setSlot 12 { slot12 with
      state := .fresh, deadline := some 1190, lastArrival := 1130
      held := some { buf := 0, egress := 0xC, label := 0x0520, cls := 2, age := 7, source := 0x31 } } with
    now := 1190 }

theorem test_slot_deadline :
    let t := after (.slotDeadline 12) fresh12
    t.slots[(12 : SlotNo)].state = .late ∧ t.slots[(12 : SlotNo)].deadline = some 1240 ∧
      t.store.count[(0 : BufNo)] = 3 ∧ t.slots[(12 : SlotNo)].substitutes = 1 := by decide +kernel

/-- LEASE-EXPIRED carries the holder 21h (section 8.7, line 10). -/
theorem test_lease_expiry :
    let t := after .leaseExpiry { inSession relay with now := 5000 }
    t.agent.session.isOpen = false ∧ (t.events.notices.map fun n => (n.kind, n.detail)) =
      [(.resetDone, 0), (.leaseExpired, 0x21)] := by decide +kernel

/-- A pending reset of a scope at its limit. -/
def resetAt (scope : ResetScope) : State :=
  { inSession relay with
    now := 500, agent := { (inSession relay).agent with resetPending := some { scope := scope, buf := 7, limit := 500 } } }

/-- FULL closes the session and takes the links down; FORWARDING keeps both (R170, R171). -/
theorem test_reset_limit_expiry :
    (after .resetLimitExpiry (resetAt .full)).ports[(0 : Port)].link = .down ∧
      (after .resetLimitExpiry (resetAt .full)).agent.session = .closed ∧
      (after .resetLimitExpiry (resetAt .forwarding)).ports[(0 : Port)].link = .up ∧
      (after .resetLimitExpiry (resetAt .forwarding)).agent.session = opened := by decide +kernel

/-- The timer of an open session with events at its expiry. -/
def timer0 : State :=
  { inSession relay with
    now := 200, agent := { (inSession relay).agent with session := { opened with eventsEnabled := true } }
    events := { relay.events with outstanding := true, timer := some 200 } }

/-- The event frame carries RESET-DONE POWER, sequence 0, tick 0 (R187): 80h, one notice, 0000h, 0Ch, 00h and zeros. -/
theorem test_retransmit_expiry :
    (after .retransmitExpiry timer0).payloadAt 0 = [0x80, 1, 0, 0, 0x0C, 0, 0, 0, 0, 0, 0, 0, 0, 0] := by decide +kernel

/-! ## Single management commands: the answers, byte by byte, as chapter 11 lays them out -/

/-- Part 0440h, revision 1, NODE 3, closed, no holder, no deadline, epoch 0, CLEAN, tick 0. -/
theorem test_identify :
    answered .identify (unsessioned 0x01 []) =
      [0x01, 0x00, 0x28, 0x00, 0x04, 0x40, 1, 3, 0, 0, 0, 0, 0, 0, 0, 0, 0, 0, 0, 0, 0, 0] := by decide +kernel

/-- The OPEN of chapter 11 is answered OK with token 11h and lease 50; with a byte more, LENGTH. -/
theorem test_open :
    let s := unsessioned 0x02 [0x00, 0x32, 0x01]
    answered .openSession { s with agent := { s.agent with tokenCounter := 0x11 } } =
        [0x02, 0x00, 0x28, 0x00, 0x11, 0x00, 0x32] ∧
      answered .openSession (unsessioned 0x02 [0x00, 0x32, 0x01, 0x00]) = [0x02, 0x00, 0x28, 0x09] := by decide +kernel

theorem test_close :
    answered .closeSession (sessioned 0x03 []) = [0x03, 0x11, 0x28, 0x00] ∧
      (after .closeSession (sessioned 0x03 [])).agent.session.isOpen = false := by decide +kernel

/-- Lease length 50 and deadline 0 + 5000 = 1388h. -/
theorem test_keepalive :
    answered .keepalive (sessioned 0x04 []) = [0x04, 0x11, 0x28, 0x00, 0x00, 0x32, 0x00, 0x00, 0x13, 0x88] := by
  decide +kernel

theorem test_read_route :
    let s := (unsessioned 0x10 [0, 5, 1]).onRoute fun t => { t with bankA := vset t.bankA 5 entry84 }
    answered .readRoute s = [0x10, 0x00, 0x28, 0x00, 1, 1, 0x04, 0x41, 0xFF, 0xFF, 0, 0, 0, 84] := by decide +kernel

/-- Port mask 0 is refused with RANGE (R40); the entry of chapter 4's route is stored in bank B, the staging bank. -/
theorem test_write_route :
    answered .writeRoute (sessioned 0x11 [5, 1, 0, 0x04, 0x41, 0xFF, 0xFF, 0, 0, 0, 84]) = [0x11, 0x11, 0x28, 0x05] ∧
      (after .writeRoute (sessioned 0x11 [5, 1, 1, 0x04, 0x41, 0xFF, 0xFF, 0, 0, 0, 84])).route.bankB[(5 : RouteIdx)] =
        entry84 := by decide +kernel

theorem test_clear_routes :
    let s := (sessioned 0x12 [5, 59]).onRoute fun t => { t with bankB := vset t.bankB 63 entry84 }
    (after .clearRoutes s).route.bankB[(63 : RouteIdx)] = .cleared ∧
      answered .clearRoutes (sessioned 0x12 [5, 60]) = [0x12, 0x11, 0x28, 0x05] := by decide +kernel

/-- "Any" epoch commits and answers the new epoch 1; expected epoch 7 is STALE-EPOCH with the current one, 0 (R157). -/
theorem test_commit :
    answered .commit (sessioned 0x13 [1, 0, 0]) = [0x13, 0x11, 0x28, 0x00, 0, 1] ∧
      answered .commit (sessioned 0x13 [0, 0, 7]) = [0x13, 0x11, 0x28, 0x07, 0, 0] := by decide +kernel

theorem test_read_action :
    answered .readAction (unsessioned 0x18 [127, 1]) =
        [0x18, 0x00, 0x28, 0x00, 0, 0, 0, 0, 0, 0, 0, 0, 0, 0, 0, 0, 0, 0] ∧
      answered .readAction (unsessioned 0x18 [127, 2]) = [0x18, 0x00, 0x28, 0x05] := by decide +kernel

/-- Record 85 of chapter 4: FORWARD to ports 1 and 2, class SET 3, label 0450h, slot 6. -/
theorem test_write_action :
    (after .writeAction (sessioned 0x19 [85, 3, 0x06, 0x83, 0, 0x04, 0x50, 0, 0x86, 0, 0, 0])).action.records[(85 : RecordIdx)]
      = { disposition := .forward, egress := 6, classPolicy := .set 3, labelRewrite := some 0x0450
          agePolicy := .decrement, bucket := none, slot := some 6, dispatch := none } := by decide +kernel

theorem test_read_bucket :
    answered .readBucket (unsessioned 0x20 [31]) = [0x20, 0x00, 0x28, 0x00, 0, 0, 1, 0, 69, 0, 0, 0] ∧
      answered .readBucket (unsessioned 0x20 [32]) = [0x20, 0x00, 0x28, 0x05] := by decide +kernel

/-- Rate 6, depth 80, DEMOTE, ENABLED: credit 80 (section 5.3, line 1). Depth 68 is refused (R87). -/
theorem test_write_bucket :
    (after .writeBucket (sessioned 0x21 [7, 1, 0, 6, 0, 80, 1])).buckets[(7 : BucketNo)].credit = 80 ∧
      answered .writeBucket (sessioned 0x21 [7, 1, 0, 6, 0, 68, 1]) = [0x21, 0x11, 0x28, 0x05] := by decide +kernel

theorem test_read_slot :
    answered .readSlot ((unsessioned 0x28 [12]).setSlot 12 slot12) =
      [0x28, 0x00, 0x28, 0x00, 0, 50, 0, 10, 3, 0, 200, 3, 0, 0, 0, 0, 0, 0, 0, 0, 0, 0, 0, 0, 0, 0, 0, 0, 0, 0] := by
  decide +kernel

/-- Slot 12 of section 7.4 is written while OFF; in WAITING it is refused with STATE (R115). -/
theorem test_write_slot :
    (after .writeSlot (sessioned 0x29 [12, 0, 50, 0, 10, 3, 0, 200, 3])).slots[(12 : SlotNo)].cfg = slot12.cfg ∧
      answered .writeSlot ((sessioned 0x29 [12, 0, 50, 0, 10, 3, 0, 200, 3]).setSlot 12 { slot12 with state := .waiting })
        = [0x29, 0x11, 0x28, 0x06] := by decide +kernel

/-- Armed at 1000 with a start window of 200: deadline 1200 = 4B0h (section 7.4, line 1). -/
theorem test_arm :
    answered .arm { (sessioned 0x2A [12]).setSlot 12 slot12 with now := 1000 } =
      [0x2A, 0x11, 0x28, 0x00, 1, 0, 0, 0x04, 0xB0] := by decide +kernel

theorem test_disarm :
    (after .disarm ((sessioned 0x2B [12]).setSlot 12 { slot12 with state := .lost, miss := 3 })).slots[(12 : SlotNo)] =
      slot12 := by decide +kernel

/-- An UP port at its reset configuration: hold limit 100, residences 0, depths 0. -/
theorem test_read_port :
    answered .readPort (unsessioned 0x30 [2]) =
      [0x30, 0x00, 0x28, 0x00, 3, 0, 1, 0, 1, 0, 100, 0, 0, 0, 0, 0, 0, 0, 0, 0, 0, 0, 0] := by decide +kernel

/-- A hold limit of 256 is refused (R162); disabling port 2 takes it to DISABLED without a notice (R7). -/
theorem test_set_port :
    answered .setPort (sessioned 0x31 [2, 1, 0, 1, 1, 0, 0, 0, 0, 0, 0, 0, 0, 0]) = [0x31, 0x11, 0x28, 0x05] ∧
      (let t := after .setPort (sessioned 0x31 [2, 0, 0, 1, 0, 0, 0, 0, 0, 0, 0, 0, 0, 0])
       t.ports[(2 : Port)].link = .disabled ∧ t.events = relay.events) := by decide +kernel

/-- A disable ends the frame being sent, in buffer 5, before the reception, in buffer 6 (R7). -/
theorem test_set_port_order :
    let s := (sessioned 0x31 [2, 0, 0, 1, 0, 0, 0, 0, 0, 0, 0, 0, 0, 0]).onPort 2 fun P =>
      { P with tx := .sending { entry 1 0 with buf := 5 }, queues := vset P.queues 1 [{ entry 1 0 with buf := 5 }],
               rx := .receiving 6 3 }
    (after .setPort { s with store := { s.store with
      count := vset (vset s.store.count 5 1) 6 1, free := s.store.free.drop 6 } }).store.free.take 3 = [6, 5, 7] := by
  decide +kernel

/-- CONFORM 4 and EXCEED 1 of bucket 7 (section 5.3, line 12), read and then cleared. -/
theorem test_read_counters :
    answered .readCounters ((unsessioned 0x38 [2, 7, 0]).setBucket 7 { Bucket.reset with conform := 4, exceeds := 1 }) =
      [0x38, 0x00, 0x28, 0x00, 0, 0, 0, 4, 0, 0, 0, 1] := by decide +kernel

theorem test_read_counters_clear :
    let s := (sessioned 0x38 [2, 7, 1]).setBucket 7 { Bucket.reset with conform := 4, exceeds := 1 }
    answered .readCountersClear s = [0x38, 0x11, 0x28, 0x00, 0, 0, 0, 4, 0, 0, 0, 1] ∧
      (after .readCountersClear s).buckets[(7 : BucketNo)] = .reset := by decide +kernel

/-- Interval 0 is refused (R167). -/
theorem test_set_events :
    answered .setEvents (sessioned 0x40 [0, 0]) = [0x40, 0x11, 0x28, 0x05] ∧
      (after .setEvents (sessioned 0x40 [0, 200])).events.interval = 200 := by decide +kernel

/-- ACK of sequence 0 removes the one notice; of sequence 1, which names none, RANGE (R168). -/
theorem test_ack_events :
    answered .ackEvents (sessioned 0x41 [0, 0]) = [0x41, 0x11, 0x28, 0x00, 1, 0] ∧
      answered .ackEvents (sessioned 0x41 [0, 1]) = [0x41, 0x11, 0x28, 0x05] := by decide +kernel

/-- The limit is 500 ticks ahead (R147). -/
theorem test_reset_full :
    (after .resetFull (sessioned 0x48 [1])).agent.resetPending = some { scope := .full, buf := 0, limit := 500 } := by
  decide +kernel

theorem test_reset_forwarding :
    (after .resetForwarding (sessioned 0x48 [0])).agent.resetPending =
      some { scope := .forwarding, buf := 0, limit := 500 } := by decide +kernel

/-- Opcode 05h names no command (R185). -/
theorem test_bad_opcode : answered .badOpcode (unsessioned 0x05 []) = [0x05, 0x00, 0x28, 0x08] := by decide +kernel

/-! ## Every statement with hypotheses meets a state

One theorem a statement, in its order; where a statement has clauses, one part a clause, at a boundary of its range. -/

/-- A port that meets its laws, in a form that evaluates. -/
def lawful (P : PortState) : Bool :=
  decide (∀ c : Sys2Proof.Class, P.queues[c].length ≤ 16 ∧ ∀ e ∈ P.queues[c], e.hdr.cls = c) &&
    (match P.tx with
      | .idle => true
      | .sending e => decide (P.queues[e.hdr.cls].head? = some e)) &&
    decide (P.validRun < 16) && decide (P.invalidRun < 4) &&
    decide (P.trainingDeadline.isSome = true ↔ P.link = .training) &&
    (match P.rx with
      | .idle => true
      | .receiving _ n => decide (n ≤ 71)
      | .ignoring _ => true) &&
    decide (P.partnerHold = false → P.holdDeadline = none) &&
    (decide (P.link = .up) || (decide (P.rx = .idle) && decide (P.tx = .idle) &&
      decide (∀ c : Sys2Proof.Class, P.queues[c] = []) && decide (P.partnerHold = false) &&
      decide (P.holdDeadline = none) && decide (P.asked = [])))

theorem portLaw_of {s : State}
    (h : ∀ p : Port, (lawful s.ports[p] && (!s.initializing || decide (s.ports[p].link = .down))) = true) :
    s.PortLaw := by
  intro p
  have h := h p
  simp only [lawful, Bool.and_eq_true, Bool.or_eq_true, decide_eq_true_eq, Bool.not_eq_true'] at h
  obtain ⟨⟨⟨⟨⟨⟨⟨⟨h1, h2⟩, h3⟩, h4⟩, h5⟩, h6⟩, h7⟩, h8⟩, h9⟩ := h
  refine ⟨⟨h1, ?_⟩, ⟨h3, h4, h5, ?_, h7, ?_⟩, ?_⟩
  · intro e he; rw [he] at h2; simpa using h2
  · intro b n hb; rw [hb] at h6; simpa using h6
  · intro hu
    rcases h8 with h8 | h8
    · exact absurd h8 hu
    · obtain ⟨⟨⟨⟨⟨a, b⟩, c⟩, d⟩, e⟩, f⟩ := h8
      exact ⟨a, b, c, d, e, f⟩
  · intro hi
    rcases h9 with h9 | h9
    · rw [hi] at h9; cases h9
    · exact .inl h9

/-- No delivery and room for a notice, in a form that evaluates. -/
theorem quiet_of {s : State}
    (h : s.agent.session.eventsEnabled = false ∧ s.events.notices.length ≤ 14 ∧
      ∀ n ∈ s.events.notices, n.kind ≠ .noticesLost) : s.Undelivered ∧ s.NoticeRoom :=
  ⟨.inr (.inl h.1), h.2⟩

theorem fills_of {s : State} {p : Port} {b : BufNo} {n : Nat}
    (h : s.initializing = false ∧ s.ports[p].link = .up ∧ s.resetDue = false ∧ s.ports[p].rx = .receiving b n ∧
      s.store.count[b] = 1) : s.Fills p b n := ⟨⟨h.1, h.2.1, h.2.2.1⟩, h.2.2.2.1, h.2.2.2.2⟩

theorem ends_of {s : State} {p : Port} {b : BufNo} {n : Nat}
    (h : (s.initializing = false ∧ s.ports[p].link = .up ∧ s.resetDue = false ∧ s.ports[p].rx = .receiving b n ∧
      s.store.count[b] = 1) ∧ s.disposing[p] = none) : s.Ends p b n := ⟨fills_of h.1, h.2⟩

theorem good_of {s : State} {p : Port} {b : BufNo} {n : Nat} (h : s.Ends p b n)
    (k : (7 ≤ n ∧ s.lengthAt b ≤ 64 ∧ n = 5 + s.lengthAt b + 2) ∧
      crc16 (s.bytesAt b 0 (5 + s.lengthAt b)) = s.byteAt b (5 + s.lengthAt b) ++ s.byteAt b (6 + s.lengthAt b)) :
    s.GoodFrame p b n := ⟨h, k.1, k.2⟩

/-- A port set to a link state with a run of valid symbols. -/
def linkAt (l : LinkState) (run : Nat) : State := relay.onPort 2 fun P => { P with link := l, validRun := run }

theorem test_witness_StepTakesOldestCommand :
    ({ relay with pending := [.tick, .copyDone] } : State).pending = .tick :: [.copyDone] ∧ relay.pending = [] ∧
      relay.transit = [] ∧ (∀ p : Port, relay.disposing[p] = none) ∧ relay.route.copier = none := by decide +kernel

theorem test_witness_PortInitEndBeginsDown :
    ({ State.powerUp 3 with now := 10 } : State).initializing = true ∧ reached 10 10 = true := by decide

theorem test_witness_SymbolsOutsideUpDriveTraining :
    (isValidSymbol (.rxDataByte 2 0) 2 ∧ isValidSymbol (.rxGo 2) 2) ∧
      ((linkAt .down 14).initializing = false ∧ (linkAt .down 14).resetDue = false ∧
        (linkAt .down 14).ports[(2 : Port)].link = .down ∧ (linkAt .down 14).ports[(2 : Port)].validRun < 15) ∧
      (linkAt .down 15).ports[(2 : Port)].validRun = 15 ∧ (linkAt .training 0).ports[(2 : Port)].link = .training ∧
      (linkAt .disabled 0).ports[(2 : Port)].link = .disabled := by
  refine ⟨⟨.inr (.inl ⟨0, rfl⟩), .inl (by decide)⟩, ?_⟩
  decide +kernel

theorem test_witness_TrainingDeadlineEntersUp :
    (training0.ports[(0 : Port)].link = .training ∧ training0.ports[(0 : Port)].trainingDeadline = some 30 ∧
      reached training0.now 30 = true ∧ training0.resetDue = false) ∧ training0.PortLaw ∧ training0.Undelivered ∧
      training0.NoticeRoom :=
  ⟨by decide +kernel, portLaw_of (by decide +kernel), quiet_of (by decide +kernel)⟩

theorem test_witness_LinkLossTakesPortDown :
    ((relay.onPort 2 fun P => { P with invalidRun := 3 }).ports[(2 : Port)].invalidRun = 3 ∧
      (relay.onPort 2 fun P => { P with invalidRun := 3 }).agent.resetPending = none) ∧
      (relay.onPort 2 fun P => { P with invalidRun := 3 }).Listens 2 ∧ relay.Listens 2 ∧
      relay.Undelivered ∧ relay.NoticeRoom :=
  ⟨by decide +kernel, ⟨by decide +kernel, by decide +kernel, by decide +kernel⟩,
    ⟨by decide +kernel, by decide +kernel, by decide +kernel⟩, quiet_of (by decide +kernel)⟩

/-- The part with an empty free stack, 8 low. -/
def noBuffers : State := { relay with store := { relay.store with free := [], episode := .low true } }

theorem test_witness_StartTakesTheTopBuffer :
    relay.Listens 0 ∧
      (relay.ports[(0 : Port)].rx = .idle ∧ relay.store.free = 0 :: relay.store.free.tail ∧
        ¬(relay.store.free.tail.length = 8 ∧ relay.store.episode = .none) ∧
        ¬(relay.store.free.tail.length = 0 ∧ relay.store.episode = .low false)) ∧
      (noBuffers.Listens 0 ∧ noBuffers.ports[(0 : Port)].rx = .idle ∧ noBuffers.store.free = []) ∧
      ((filling relay 0 [1]).Fills 0 0 1 ∧ ¬((filling relay 0 [1]).store.depth = 8 ∧ (filling relay 0 [1]).store.episode = .none) ∧
        ¬((filling relay 0 [1]).store.depth = 0 ∧ (filling relay 0 [1]).store.episode = .low false)) ∧
      ∀ cause ∈ [IgnoreCause.cutOff, .code],
        ((relay.onPort 0 fun P => { P with rx := .ignoring cause }).Listens 0 ∧
          (relay.onPort 0 fun P => { P with rx := .ignoring cause }).ports[(0 : Port)].rx = .ignoring cause) ∧
        ((noBuffers.onPort 0 fun P => { P with rx := .ignoring cause }).Listens 0 ∧
          (noBuffers.onPort 0 fun P => { P with rx := .ignoring cause }).ports[(0 : Port)].rx = .ignoring cause) := by
  refine ⟨⟨by decide +kernel, by decide +kernel, by decide +kernel⟩, by decide +kernel,
    ⟨⟨by decide +kernel, by decide +kernel, by decide +kernel⟩, by decide +kernel, by decide +kernel⟩,
    ⟨fills_of (by decide +kernel), by decide +kernel, by decide +kernel⟩, ?_⟩
  intro cause h
  simp only [List.mem_cons, List.not_mem_nil, or_false] at h
  rcases h with rfl | rfl <;>
    exact ⟨⟨⟨by decide +kernel, by decide +kernel, by decide +kernel⟩, by decide +kernel⟩,
      ⟨by decide +kernel, by decide +kernel, by decide +kernel⟩, by decide +kernel⟩

/-- The part with nine buffers free, one above the first mark. -/
def nineFree : State := { relay with store := { relay.store with free := relay.store.free.drop 119 } }

/-- The part with one buffer free, in an episode that has not reported the stock empty. -/
def oneFree : State :=
  { relay with store := { relay.store with free := relay.store.free.drop 127, episode := .low false } }

theorem test_witness_PopAtEightBeginsEpisode :
    (nineFree.Listens 1 ∧ (nineFree.ports[(1 : Port)].rx = .idle ∧
        nineFree.store.free = 119 :: nineFree.store.free.tail ∧ nineFree.store.free.tail.length = 8 ∧
        nineFree.store.episode = .none) ∧ nineFree.Undelivered ∧ nineFree.NoticeRoom) ∧
      (oneFree.Listens 1 ∧ (oneFree.ports[(1 : Port)].rx = .idle ∧ oneFree.store.free = 127 :: [] ∧
        oneFree.store.episode = .low false) ∧ oneFree.Undelivered ∧ oneFree.NoticeRoom) :=
  ⟨⟨⟨by decide +kernel, by decide +kernel, by decide +kernel⟩, by decide +kernel, quiet_of (by decide +kernel)⟩,
    ⟨by decide +kernel, by decide +kernel, by decide +kernel⟩, by decide +kernel, quiet_of (by decide +kernel)⟩

/-- Three buffers free and buffer 0 being filled with one byte. -/
def threeFree : State :=
  { filling relay 0 [0xFF] with
    store := { (filling relay 0 [0xFF]).store with free := relay.store.free.drop 125, episode := .low false } }

theorem test_witness_DataByteIsStoredOrEndsReception :
    ((filling relay 0 []).Fills 0 0 0 ∧ (filling relay 0 []).MemoryLaw) ∧
      ((filling relay 0 [0xFF]).Fills 0 0 1 ∧ 4 ≤ (filling relay 0 [0xFF]).store.depth) ∧
      (filling relay 0 (List.replicate 70 1)).Fills 0 0 70 ∧
      (threeFree.Fills 0 0 1 ∧ threeFree.MemoryLaw ∧ threeFree.store.depth < 4 ∧
        threeFree.byteAt 0 0 ++ (0xF4 : Byte) ≠ ownLabel threeFree.node ∧
        threeFree.byteAt 0 0 ++ (0xF3 : Byte) = ownLabel threeFree.node) ∧
      (filling relay 0 (List.replicate 71 1)).Fills 0 0 71 :=
  ⟨⟨fills_of (by decide +kernel), by unfold State.MemoryLaw; decide +kernel⟩,
    ⟨fills_of (by decide +kernel), by decide +kernel⟩, fills_of (by decide +kernel),
    ⟨fills_of (by decide +kernel), by unfold State.MemoryLaw; decide +kernel, by decide +kernel, by decide +kernel,
      by decide +kernel⟩,
    fills_of (by decide +kernel)⟩

theorem test_witness_EndRefusesBadFrame :
    ((filling relay 0 [1, 2, 3, 4, 0, 6]).Ends 0 0 6 ∧
        ¬(filling relay 0 [1, 2, 3, 4, 0, 6]).LengthGood 0 6) ∧
      ((filling relay 0 [1, 2, 3, 4, 0, 6, 7]).Ends 0 0 7 ∧
        (filling relay 0 [1, 2, 3, 4, 0, 6, 7]).LengthGood 0 7 ∧ ¬(filling relay 0 [1, 2, 3, 4, 0, 6, 7]).CheckGood 0) :=
  ⟨⟨ends_of (by decide +kernel),
      by unfold State.LengthGood; decide +kernel⟩,
    ends_of (by decide +kernel),
    by unfold State.LengthGood; decide +kernel, by unfold State.CheckGood; decide +kernel⟩

/-- A complete frame for the management label with an empty payload, and with the port closed to management. -/
def ownFrame (admitMgmt : Bool) (queue : List Request) : State :=
  { (filling relay 1 (frame managed [])).onPort 1 fun P => { P with cfg := { P.cfg with admitMgmt := admitMgmt } } with
    agent := { relay.agent with queue := queue } }

/-- Four requests that wait. -/
def fullQueue : List Request := [⟨9, 0⟩, ⟨10, 0⟩, ⟨11, 0⟩, ⟨12, 0⟩]

/-- A complete transit frame on port 1 with a header and payload. -/
def inbound (h : Header) (payload : List Byte) : State := filling relay 1 (frame h payload)

/-- A transit frame that carries the relay's own source number F3h. -/
def looped : Header := { transit 0 5 with source := 0xF3 }

theorem test_witness_EndHandsOnOwnFrames :
    ((ownFrame true []).GoodFrame 1 0 7 ∧
      ((ownFrame true []).headerAt 0).label = ownLabel (ownFrame true []).node ∧
      (ownFrame true []).ports[(1 : Port)].cfg.admitMgmt = true ∧ (ownFrame true []).agent.queue.length < 4) ∧
    ((ownFrame true fullQueue).GoodFrame 1 0 7 ∧ 4 ≤ (ownFrame true fullQueue).agent.queue.length) ∧
    ((ownFrame false []).GoodFrame 1 0 7 ∧ (ownFrame false []).ports[(1 : Port)].cfg.admitMgmt = false) ∧
    ((inbound looped []).GoodFrame 1 0 7 ∧ ((inbound looped []).headerAt 0).label ≠ ownLabel 3 ∧
      ((inbound looped []).headerAt 0).source = ownSource (inbound looped []).node) :=
  ⟨⟨good_of (ends_of (by decide +kernel)) (by decide +kernel),
      by decide +kernel, by decide +kernel, by decide +kernel⟩,
    ⟨good_of (ends_of (by decide +kernel)) (by decide +kernel), by decide +kernel⟩,
    ⟨good_of (ends_of (by decide +kernel)) (by decide +kernel), by decide +kernel⟩,
    good_of (ends_of (by decide +kernel)) (by decide +kernel), by decide +kernel, by decide +kernel⟩

/-- Port 0 passing over the rest of a frame. -/
def ignoring (cause : IgnoreCause) : State := relay.onPort 0 fun P => { P with rx := .ignoring cause }

theorem test_witness_AbortsAndCodeErrorsEndFrames :
    ((filling relay 0 [1]).Fills 0 0 1 ∧
        (filling relay 0 [1]).ports[(0 : Port)].invalidRun < 3) ∧
      ((ignoring .cutOff).Listens 0 ∧ (ignoring .cutOff).ports[(0 : Port)].rx = .ignoring .cutOff ∧
        (ignoring .cutOff).disposing[(0 : Port)] = none) ∧
      ((ignoring .code).Listens 0 ∧ (ignoring .code).ports[(0 : Port)].rx = .ignoring .code ∧
        (ignoring .code).disposing[(0 : Port)] = none) :=
  ⟨⟨fills_of (by decide +kernel), by decide +kernel⟩,
    ⟨⟨by decide +kernel, by decide +kernel, by decide +kernel⟩, by decide +kernel⟩,
    ⟨by decide +kernel, by decide +kernel, by decide +kernel⟩, by decide +kernel⟩

theorem test_witness_TxEndSendsRebuiltFrameAndServesNext :
    (sending1.ports[(1 : Port)].tx = .sending (entry 1 505) ∧ sending1.resetDue = false ∧
      sending1.agent.resetPending = none ∧ sending1.ports[(1 : Port)].partnerHold = false ∧
      (sending1.onPort 1 fun P => { P with partnerHold := true }).ports[(1 : Port)].partnerHold = true) ∧
      sending1.PortLaw :=
  ⟨by decide +kernel, portLaw_of (by decide +kernel)⟩

theorem test_witness_ControlSymbolsAreHeardAndSent :
    relay.Listens 1 ∧ waiting1.Listens 1 ∧
      (relay.ports[(1 : Port)].partnerHold = false ∧ waiting1.ports[(1 : Port)].partnerHold = true ∧
        (relay.askUp .hold).ports[(1 : Port)].link = .up ∧ (relay.askUp .hold).ports[(1 : Port)].asked = .hold :: []) :=
  ⟨⟨by decide +kernel, by decide +kernel, by decide +kernel⟩, ⟨by decide +kernel, by decide +kernel, by decide +kernel⟩,
    by decide +kernel⟩

/-- Port 1 held with nothing waiting. -/
def held1 : State := relay.onPort 1 fun P => { P with partnerHold := true, holdDeadline := some 5 }

theorem test_witness_GoServesStrictlyByClass :
    (waiting1.Listens 1 ∧ waiting1.PortLaw ∧ waiting1.ports[(1 : Port)].partnerHold = true ∧
      waiting1.ports[(1 : Port)].tx = .idle ∧ waiting1.agent.resetPending = none ∧
      waiting1.ports[(1 : Port)].firstSurvivor waiting1.now = some (entry 1 505)) ∧
      (held1.Listens 1 ∧ held1.PortLaw ∧ held1.ports[(1 : Port)].firstSurvivor held1.now = none) :=
  ⟨⟨⟨by decide +kernel, by decide +kernel, by decide +kernel⟩, portLaw_of (by decide +kernel), by decide +kernel,
      by decide +kernel, by decide +kernel, by decide +kernel⟩,
    ⟨by decide +kernel, by decide +kernel, by decide +kernel⟩, portLaw_of (by decide +kernel), by decide +kernel⟩

/-- Port 1 held until its deadline, idle and sending. -/
def stuck1 (t : TxState) : State := waiting1.onPort 1 fun P => { P with holdDeadline := some 515, tx := t }

theorem test_witness_HoldDeadlineFlushesThePort :
    ∀ t ∈ [TxState.idle, .sending (entry 1 505)],
      ((stuck1 t).ports[(1 : Port)].partnerHold = true ∧ (stuck1 t).ports[(1 : Port)].holdDeadline = some 515 ∧
        reached (stuck1 t).now 515 = true ∧ (stuck1 t).resetDue = false ∧ (stuck1 t).agent.resetPending = none) ∧
        (stuck1 t).PortLaw ∧ (stuck1 t).Undelivered ∧ (stuck1 t).NoticeRoom := by
  intro t ht
  simp only [List.mem_cons, List.not_mem_nil, or_false] at ht
  rcases ht with rfl | rfl <;>
    exact ⟨by decide +kernel, portLaw_of (by decide +kernel), quiet_of (by decide +kernel)⟩

/-! ### Disposition -/

theorem misses_of {s : State} {p : Port} {h : Header}
    (k : ∀ i : RouteIdx, ((s.route.bank s.route.active)[i]).hits p h = false) : s.Misses p h := fun i hm => by
  have := (RouteEntry.hits_iff _ _ _).2 hm
  rw [k i] at this; cases this

theorem wins_of {s : State} {p : Port} {h : Header} {i : RouteIdx}
    (k : ((s.route.bank s.route.active)[i]).hits p h = true ∧
      ∀ j : RouteIdx, j < i → ((s.route.bank s.route.active)[j]).hits p h = false) : s.Wins p h i :=
  ⟨(RouteEntry.hits_iff _ _ _).1 k.1, fun j hj hm => by
    have := (RouteEntry.hits_iff _ _ _).2 hm
    rw [k.2 j hj] at this; cases this⟩

theorem transit_of {s : State} {p : Port} {n : Nat} (hg : s.GoodFrame p 0 n)
    (h : (s.headerAt 0).label ≠ ownLabel s.node ∧ (s.headerAt 0).source ≠ ownSource s.node) : s.TransitFrame p 0 n :=
  ⟨hg, h.1, h.2⟩

theorem unnamed_of {s : State} {p : Port} {n : Nat} (ht : s.TransitFrame p 0 n) (hl : s.PortLaw)
    (h : s.agent.resetPending = none ∧ ∀ (q : Port) (c : Sys2Proof.Class), s.ports[q].queues[c] = []) :
    s.Transit p 0 n :=
  ⟨ht, h.1, hl, fun q c e he => by rw [h.2 q c] at he; cases he⟩

/-- Port 1 drops what misses. -/
def dropping1 : State :=
  (inbound (transit 1 0) [7]).onPort 1 fun P => { P with cfg := { P.cfg with missAction := .drop } }

theorem test_witness_FloodReachesEveryOtherUpPort :
    ∀ age ∈ [(0 : Age), 15],
      (inbound (transit 1 age) [7]).Transit 1 0 8 ∧ (inbound (transit 1 age) [7]).headerAt 0 = transit 1 age ∧
        (inbound (transit 1 age) [7]).Misses 1 (transit 1 age) ∧
        (inbound (transit 1 age) [7]).ports[(1 : Port)].cfg.missAction = .flood := by
  intro age h
  simp only [List.mem_cons, List.not_mem_nil, or_false] at h
  rcases h with rfl | rfl <;>
    exact ⟨unnamed_of (transit_of (good_of (ends_of (by decide +kernel)) (by decide +kernel)) (by decide +kernel))
        (portLaw_of (by decide +kernel)) (by decide +kernel), by decide +kernel, misses_of (by decide +kernel),
      by decide +kernel⟩

/-- A record that forwards to every port. -/
def forwardAll : ActionRecord := { ActionRecord.reset with disposition := .forward, egress := 0xF }

/-- A frame on port 0 whose lookup ends in entry 5, naming record 84; record `i` holds `r`, and record 84 dispatches on
payload byte 1 where `d` says so. -/
def routed (payload : List Byte) (d : Option DispatchPart) (i : RecordIdx) (r : ActionRecord) : State :=
  ((filling relay 0 (frame (transit 1 5) payload)).onRoute fun t => { t with bankA := vset t.bankA 5 entry84 }).onAction
    fun t => { t with records := vset (vset t.records i r) 84 { (vset t.records i r)[84] with dispatch := d } }

/-- A frame of Age 0 on port 0 whose record forwards, through bucket 7 and slot 12; port 2 is not UP. -/
def spent : State :=
  let s := (filling relay 0 (frame (transit 1 0) [0, 1])).onPort 2 fun P => { P with link := .down }
  (s.onRoute fun t => { t with bankA := vset t.bankA 5 entry84 }).onAction
    fun t => { t with records := vset t.records 84 { forwardAll with bucket := some 7, slot := some 12 } }

/-- Dispatch on payload byte 1 with mask 15 (chapter 4). -/
def onByte1 : Option DispatchPart := some { offset := 1, mask := 15 }

theorem routed_transit (s : State) (n : Nat)
    (h : ((s.initializing = false ∧ s.ports[(0 : Port)].link = .up ∧ s.resetDue = false ∧
        s.ports[(0 : Port)].rx = .receiving 0 n ∧ s.store.count[(0 : BufNo)] = 1) ∧ s.disposing[(0 : Port)] = none) ∧
      ((7 ≤ n ∧ s.lengthAt 0 ≤ 64 ∧ n = 5 + s.lengthAt 0 + 2) ∧
        crc16 (s.bytesAt 0 0 (5 + s.lengthAt 0)) = s.byteAt 0 (5 + s.lengthAt 0) ++ s.byteAt 0 (6 + s.lengthAt 0)) ∧
      ((s.headerAt 0).label ≠ ownLabel s.node ∧ (s.headerAt 0).source ≠ ownSource s.node) ∧
      (∀ p : Port, (lawful s.ports[p] && (!s.initializing || decide (s.ports[p].link = .down))) = true) ∧
      s.agent.resetPending = none ∧ ∀ (q : Port) (c : Sys2Proof.Class), s.ports[q].queues[c] = []) : s.Transit 0 0 n :=
  unnamed_of (transit_of (good_of (ends_of h.1) h.2.1) h.2.2.1) (portLaw_of h.2.2.2.1) h.2.2.2.2

theorem resolves_plain {s : State} {base : RecordIdx} {b : BufNo} (h : s.action.records[base].dispatch = none) :
    s.Resolves base base b := by unfold State.Resolves; rw [h]

theorem resolves_short {s : State} {base : RecordIdx} {b : BufNo} {d : DispatchPart}
    (h : s.action.records[base].dispatch = some d ∧ s.lengthAt b ≤ d.offset.val) : s.Resolves base base b := by
  unfold State.Resolves; rw [h.1]; simp [h.2]

theorem resolves_by {s : State} {base i : RecordIdx} {b : BufNo} {d : DispatchPart}
    (h : s.action.records[base].dispatch = some d ∧ ¬ s.lengthAt b ≤ d.offset.val ∧
      (i.val = base.val - base.val % 16 +
          (base.val % 16 + (s.byteAt b (5 + d.offset.val) &&& d.mask.setWidth 8).toNat) % 16 ∧
        s.action.records[i].dispatch = none)) : s.Resolves base i b := by
  unfold State.Resolves; rw [h.1]; simp only [if_neg h.2.1]; exact h.2.2

/-- The frame goes to record 85 by selector 1, to record 84 itself for a short payload, and without a dispatch part. -/
theorem test_witness_ForwardRecordSendsAppliedHeader :
    ((routed [0, 1] onByte1 85 forwardAll).Transit 0 0 9 ∧
        (routed [0, 1] onByte1 85 forwardAll).headerAt 0 = transit 1 5 ∧
        (routed [0, 1] onByte1 85 forwardAll).Wins 0 (transit 1 5) 5 ∧
        (routed [0, 1] onByte1 85 forwardAll).Resolves 84 85 0 ∧
        (routed [0, 1] onByte1 85 forwardAll).action.records[(85 : RecordIdx)] = forwardAll) ∧
      ((routed [0] onByte1 84 forwardAll).Transit 0 0 8 ∧ (routed [0] onByte1 84 forwardAll).Resolves 84 84 0) ∧
      (routed [0, 1] none 84 forwardAll).Resolves 84 84 0 ∧
      (spent.Transit 0 0 9 ∧ (spent.headerAt 0 = transit 1 0 ∧ (transit 1 0).age = 0 ∧
          spent.action.records[(84 : RecordIdx)] = { forwardAll with bucket := some 7, slot := some 12 }) ∧
        spent.Wins 0 (transit 1 0) 5 ∧ spent.Resolves 84 84 0) :=
  ⟨⟨routed_transit _ _ (by decide +kernel), by decide +kernel, wins_of (by decide +kernel),
      resolves_by (d := { offset := 1, mask := 15 }) (by decide +kernel), by decide +kernel⟩,
    ⟨routed_transit _ _ (by decide +kernel), resolves_short (d := { offset := 1, mask := 15 }) (by decide +kernel)⟩,
    resolves_plain (by decide +kernel),
    routed_transit _ _ (by decide +kernel), by decide +kernel, wins_of (by decide +kernel), resolves_plain (by decide +kernel)⟩

/-- Port 1 drops what misses; selector 14 names record 82, which dispatches itself (chapter 4, line 3); record 84 is a DROP
record with neither bucket nor slot. -/
theorem test_witness_DroppedFramesReachNoQueue :
    let s := routed [0, 0x0E] onByte1 82 { forwardAll with dispatch := some { offset := 0, mask := 3 } }
    let r := routed [0, 1] none 84 .reset
    (dropping1.TransitFrame 1 0 8 ∧ dropping1.Misses 1 (dropping1.headerAt 0) ∧
      dropping1.ports[(1 : Port)].cfg.missAction = .drop) ∧
    (r.TransitFrame 0 0 9 ∧ r.Wins 0 (r.headerAt 0) 5 ∧ r.Resolves 84 84 0 ∧
      (((r.route.bank r.route.active)[(5 : RouteIdx)]).action = 84 ∧
        r.action.records[(84 : RecordIdx)].disposition = .drop ∧ r.action.records[(84 : RecordIdx)].bucket = none ∧
        r.action.records[(84 : RecordIdx)].slot = none)) ∧
    s.TransitFrame 0 0 9 ∧ s.Wins 0 (s.headerAt 0) 5 ∧
      (((s.route.bank s.route.active)[(5 : RouteIdx)]).action = 84 ∧
        s.action.records[(84 : RecordIdx)].dispatch = onByte1 ∧ 1 < s.lengthAt 0 ∧
        (82 : RecordIdx).val = 84 - 84 % 16 + (84 % 16 + (s.byteAt 0 6 &&& 15).toNat) % 16 ∧
        s.action.records[(82 : RecordIdx)].dispatch ≠ none) :=
  ⟨⟨transit_of (good_of (ends_of (by decide +kernel)) (by decide +kernel)) (by decide +kernel),
      misses_of (by decide +kernel), by decide +kernel⟩,
    ⟨(routed_transit _ _ (by decide +kernel)).toTransitFrame, wins_of (by decide +kernel),
      resolves_plain (by decide +kernel), by decide +kernel⟩,
    (routed_transit _ _ (by decide +kernel)).toTransitFrame,
    wins_of (by decide +kernel), by decide +kernel⟩

/-- A routed frame of cost 7 whose record names bucket 7, which holds `x`. -/
def metered (x : Bucket) : State := (routed [0, 1] none 84 { forwardAll with bucket := some 7 }).setBucket 7 x

/-- The same under a DROP record. -/
def meteredDrop : State := (routed [0, 1] none 84 { ActionRecord.reset with bucket := some 7 }).setBucket 7 .reset

/-- An ENABLED bucket with this credit and exceed action. -/
def bucketOf (credit : Nat) (a : ExceedAction) : Bucket :=
  { Bucket.reset with enabled := true, credit := credit, exceed := a }

theorem test_witness_BucketChargesOrExceeds :
    ∀ x ∈ [Bucket.reset, bucketOf 7 .drop, bucketOf 6 .drop, bucketOf 6 .demote],
      (metered x).Transit 0 0 9 ∧ (metered x).Wins 0 (transit 1 5) 5 ∧ (metered x).Resolves 84 84 0 ∧
        ((metered x).headerAt 0 = transit 1 5 ∧
          (metered x).action.records[(84 : RecordIdx)] = { forwardAll with bucket := some 7 } ∧
          (metered x).buckets[(7 : BucketNo)] = x) ∧
        (meteredDrop.Transit 0 0 9 ∧ meteredDrop.Wins 0 (transit 1 5) 5 ∧ meteredDrop.Resolves 84 84 0 ∧
          meteredDrop.action.records[(84 : RecordIdx)] = { ActionRecord.reset with bucket := some 7 }) := by
  intro x h
  simp only [List.mem_cons, List.not_mem_nil, or_false] at h
  rcases h with rfl | rfl | rfl | rfl <;>
    exact ⟨routed_transit _ _ (by decide +kernel), wins_of (by decide +kernel),
      resolves_plain (by decide +kernel), by decide +kernel, routed_transit _ _ (by decide +kernel),
      wins_of (by decide +kernel), resolves_plain (by decide +kernel), by decide +kernel⟩

/-- A routed frame whose record names slot 12, which holds `x`. -/
def supervised (x : Slot) : State := (routed [0, 1] none 84 { forwardAll with slot := some 12 }).setSlot 12 x

/-- The same under a DROP record. -/
def supervisedDrop (x : Slot) : State :=
  (routed [0, 1] none 84 { ActionRecord.reset with slot := some 12 }).setSlot 12 x

/-- Slot 12 in a state. -/
def slotIn (st : SlotState) : Slot := { slot12 with state := st }

theorem test_witness_ArrivalMakesSlotFresh :
    ∀ st ∈ [SlotState.off, .waiting, .fresh, .late, .lost],
      (supervised (slotIn st)).Transit 0 0 9 ∧ (supervised (slotIn st)).Wins 0 (transit 1 5) 5 ∧
        (supervised (slotIn st)).Resolves 84 84 0 ∧ ((supervised (slotIn st)).headerAt 0 = transit 1 5 ∧
          (supervised (slotIn st)).action.records[(84 : RecordIdx)] = { forwardAll with slot := some 12 } ∧
          (supervised (slotIn st)).slots[(12 : SlotNo)] = slotIn st) ∧
        ((supervised (slotIn st)).Undelivered ∧ (supervised (slotIn st)).NoticeRoom) ∧
        (supervisedDrop (slotIn st)).Transit 0 0 9 ∧ (supervisedDrop (slotIn st)).Wins 0 (transit 1 5) 5 ∧
        (supervisedDrop (slotIn st)).Resolves 84 84 0 ∧
        (supervisedDrop (slotIn st)).action.records[(84 : RecordIdx)] = { ActionRecord.reset with slot := some 12 } ∧
        (supervisedDrop (slotIn st)).Undelivered ∧ (supervisedDrop (slotIn st)).NoticeRoom := by
  intro st h
  simp only [List.mem_cons, List.not_mem_nil, or_false] at h
  rcases h with rfl | rfl | rfl | rfl | rfl <;>
    exact ⟨routed_transit _ _ (by decide +kernel), wins_of (by decide +kernel),
      resolves_plain (by decide +kernel), by decide +kernel, quiet_of (by decide +kernel),
      routed_transit _ _ (by decide +kernel), wins_of (by decide +kernel), resolves_plain (by decide +kernel),
      by decide +kernel, quiet_of (by decide +kernel)⟩

/-- A flooded frame of port 1 under way with these ports still to try. -/
def underWay (egress : PortSet) : State :=
  (filling relay 1 [1]).goOn 1
    { buf := 9, received := transit 1 5, len := 0, base := none, final := none, applied := transit 1 4, egress := egress
      directed := 0, stage := .enqueue, taken := 3, begun := 0 }

/-- With port 0 UP and free, with class 1 of port 0 full, and with port 0 not UP. -/
def underWayAt (f : PortState → PortState) : State := (underWay 0xD).onPort 0 f

theorem test_witness_DispositionsPauseBetweenStages :
    ((inbound (transit 1 5) [7]).pending = [] ∧ (inbound (transit 1 5) [7]).resetDue = false ∧
        (inbound (transit 1 5) [7]).agent.resetPending = none ∧
        (∀ q : Port, (inbound (transit 1 5) [7]).disposing[q] = none) ∧
        (inbound (transit 1 5) [7]).transit = [] ∧ (inbound (transit 1 5) [7]).raisesWait = false ∧
        (inbound (transit 1 5) [7]).route.copier = none ∧
        (after (.rxEnd { port := 1, pace := .upTo 9 }) (inbound (transit 1 5) [7])).disposing[(1 : Port)] = none ∧
        (after (.rxEnd { port := 1, pace := .upTo 5 }) (inbound (transit 1 5) [7])).disposing[(1 : Port)] ≠ none) ∧
      (exec (ended 1) (inbound (transit 1 5) [7]) = .next (after (ended 1) (inbound (transit 1 5) [7])) ∧
        exec (.rxEnd { port := 1, pace := .upTo 5 }) (inbound (transit 1 5) [7]) =
          .next (after (.rxEnd { port := 1, pace := .upTo 5 }) (inbound (transit 1 5) [7])) ∧
        exec (.signalTimeout 3) (underWay 0xD) = .next (after (.signalTimeout 3) (underWay 0xD))) ∧
      (∀ f ∈ [fun P : PortState => P, fun P => { P with queues := vset P.queues 1 (List.replicate 16 (entry 1 0)) },
          fun P => { P with link := .down }],
        ((underWayAt f).pending = [] ∧ (underWayAt f).resetDue = false ∧ (underWayAt f).agent.resetPending = none ∧
            (∃ d, (underWayAt f).disposing[(1 : Port)] = some d ∧ d.stage = .enqueue ∧ PortSet.has d.egress 0 = true) ∧
            (∀ p : Port, p ≠ 1 → (underWayAt f).disposing[p] = none) ∧ (underWayAt f).transit = []) ∧
          (underWayAt f).PortLaw) ∧
      (filling (underWay 0xD) 1 (frame (transit 1 5) [])).Listens 1 ∧
      ((underWay 0xD).onPort 1 fun P => { P with rx := .ignoring .nobuf }).Listens 1 ∧
      (filling (underWay 0xD) 1 (frame (transit 1 5) [])).ports[(1 : Port)].rx ≠ .idle := by
  refine ⟨by decide +kernel, ⟨rfl, rfl, rfl⟩, ?_, (fills_of (b := 0) (n := 7) (by decide +kernel)).toListens,
    ⟨by decide +kernel, by decide +kernel, by decide +kernel⟩, by decide +kernel⟩
  intro f h
  simp only [List.mem_cons, List.not_mem_nil, or_false] at h
  rcases h with rfl | rfl | rfl <;>
    exact ⟨⟨by decide +kernel, by decide +kernel, by decide +kernel, ⟨_, rfl, rfl, by decide +kernel⟩,
      by decide +kernel, by decide +kernel⟩, portLaw_of (by decide +kernel)⟩

theorem dispositionLaw_of {s : State}
    (h : ∀ p : Port, s.disposing[p].all (fun d => !PortSet.has d.egress p && !PortSet.has d.directed p &&
      (decide (d.stage ≠ .enqueue) || decide (d.received.age ≠ 0)) && decide (d.stage ≠ .bucket) &&
      decide (d.stage ≠ .arrival)) = true) : s.DispositionLaw := by
  intro p d hd
  have h := h p
  rw [hd] at h
  simp only [Option.all_some, Bool.and_eq_true, Bool.not_eq_true', Bool.or_eq_true, decide_eq_true_eq] at h
  obtain ⟨⟨⟨⟨h1, h2⟩, h3⟩, h4⟩, h5⟩ := h
  refine ⟨h1, h2, fun hs => ?_, fun hs => ?_⟩
  · rcases h3 with h3 | h3
    · exact absurd hs h3
    · exact h3
  · rcases hs with hs | hs
    · exact absurd hs h4
    · exact absurd hs h5

/-- A disposition in progress whose step adds an entry, and a frame of Age 5 and of Age 0 that ends. -/
theorem test_witness_DispositionLawIsKept :
    ((underWay 0xD).DispositionLaw ∧ ∃ t, step (underWay 0xD) = .next t) ∧
      ∀ age ∈ [(0 : Age), 5],
        ({ inbound (transit 1 age) [7] with pending := [ended 1] } : State).DispositionLaw ∧
          ∃ t, step { inbound (transit 1 age) [7] with pending := [ended 1] } = .next t := by
  refine ⟨⟨dispositionLaw_of (by decide +kernel), _, rfl⟩, ?_⟩
  intro age h
  simp only [List.mem_cons, List.not_mem_nil, or_false] at h
  rcases h with rfl | rfl <;> exact ⟨dispositionLaw_of (by decide +kernel), _, rfl⟩

/-! ### Time and deadlines -/

/-- Bucket 7 of section 5.3 with credit 78. -/
def metering : State :=
  relay.setBucket 7 { Bucket.reset with enabled := true, rate := 6, depth := 80, credit := 78 }

/-- With no disposition and no copy in progress none is stale. -/
theorem noneStale_of {s : State} (hd : ∀ p : Port, s.disposing[p] = none) (hc : s.route.copier = none) : s.NoneStale :=
  ⟨fun p _ h => absurd ((hd p).symm.trans h) nofun, fun _ h => absurd (hc.symm.trans h) nofun⟩

/-- A tick happening goes on. -/
theorem goes_on {c : Instr} {s : State} (h : c ∈ tickHappenings) : exec c s = .next (after c s) := by
  have : ∃ t, exec c s = .next t := by
    simp only [tickHappenings, List.mem_append, List.mem_cons, List.not_mem_nil, or_false, List.mem_flatMap] at h
    rcases h with ((rfl | rfl | rfl | rfl) | ⟨p, -, rfl | rfl⟩) | ⟨n, -, rfl | rfl⟩ <;> exact ⟨_, rfl⟩
  obtain ⟨t, ht⟩ := this
  unfold after
  rw [ht]

theorem test_witness_RefillsRaiseCreditToDepth :
    (∀ j, j < 1 → (if j = 0 then metering else after .tick metering).DeadlinesTaken ∧
        exec .tick (if j = 0 then metering else after .tick metering) =
          .next (if j + 1 = 0 then metering else after .tick metering)) ∧
      (metering.buckets[(7 : BucketNo)].enabled = true ∧
        metering.buckets[(7 : BucketNo)].credit ≤ metering.buckets[(7 : BucketNo)].depth ∧
        metering.buckets[(8 : BucketNo)].enabled = false) ∧
      .trainingDeadline 0 ∈ tickHappenings ∧ training0.NoneStale ∧ (∀ r ∈ training0.transit, r.tick = training0.now) ∧
      (∀ c ∈ tickHappenings, c ≠ .trainingDeadline 0 → exec c training0 = .next training0) ∧
      exec (.trainingDeadline 0) training0 = .next (after (.trainingDeadline 0) training0) ∧
      ∀ c ∈ tickHappenings, exec c (after (.trainingDeadline 0) training0) =
        .next (after (.trainingDeadline 0) training0) := by
  refine ⟨?_, by decide +kernel, by decide, ?_, by decide +kernel, ?_, rfl, ?_⟩
  · intro j hj
    obtain rfl : j = 0 := by omega
    refine ⟨⟨by decide +kernel, ?_, by decide +kernel, by decide +kernel, by decide +kernel, ?_, by decide +kernel,
      by decide +kernel⟩, rfl⟩
    · exact noneStale_of (by decide +kernel) rfl
    · intro r hr
      have : metering.agent.resetPending = none := rfl
      rw [if_pos rfl, this] at hr
      cases hr
  · exact noneStale_of (by decide +kernel) rfl
  · intro c hc hn
    rw [goes_on hc, (by decide +kernel : ∀ c ∈ tickHappenings, c ≠ .trainingDeadline 0 →
      after c training0 = training0) c hc hn]
  · intro c hc
    rw [goes_on hc, (by decide +kernel : ∀ c ∈ tickHappenings,
      after c (after (.trainingDeadline 0) training0) = after (.trainingDeadline 0) training0) c hc]

/-- Bank A active with an entry in place 63, the copier having come to this entry of bank B. -/
def copyingAt (next : Nat) : State :=
  relay.onRoute fun t =>
    { t with
      bankA := vset t.bankA 63 entry84
      bankB := if 64 ≤ next then vset t.bankA 63 entry84 else t.bankB
      staging := .copying
      copier := some { next := next, begun := 0 } }

/-- The copy running at entry 2. -/
def copying : State := copyingAt 2

theorem bankLaw_of {s : State} {c : BankCopy} (hc : s.route.copier = some c) (hs : s.route.staging = .copying)
    (hw : ∀ i : RouteIdx, s.route.bankA[i].wf = true ∧ s.route.bankB[i].wf = true)
    (hn : c.next ≤ 64 ∧ ∀ i : RouteIdx, i.val < c.next → s.route.bankA[i] = s.route.bankB[i]) : s.BankLaw := by
  refine ⟨hw, fun h => absurd (hs.symm.trans h) (by decide), by simp [hs, hc], ?_⟩
  intro k hk
  obtain rfl : c = k := Option.some.inj (hc.symm.trans hk)
  exact hn

theorem copying_bankLaw : ∀ next ∈ [0, 2, 63, 64], (copyingAt next).BankLaw := by
  intro next h
  simp only [List.mem_cons, List.not_mem_nil, or_false] at h
  rcases h with rfl | rfl | rfl | rfl <;> exact bankLaw_of rfl rfl (by decide +kernel) (by decide +kernel)

/-- The copier at its first entry, amid them, at its last and past it; and a tick after it started. -/
theorem test_witness_CopyMakesBanksEqual :
    (∀ next ∈ [0, 2, 63, 64],
      ((copyingAt next).pending = [] ∧ (copyingAt next).transit = [] ∧
        (∀ p : Port, (copyingAt next).disposing[p] = none) ∧
        (copyingAt next).route.copier = some { next := next, begun := 0 }) ∧ (copyingAt next).BankLaw) ∧
      ((2 : RouteIdx).val = 2 ∧ (63 : RouteIdx).val = 63) ∧
      (({ copying with now := 1 } : State).route.copier = some { next := 2, begun := 0 } ∧
        (0 : Tick) ≠ ({ copying with now := 1 } : State).now ∧
        (∀ p : Port, ({ copying with now := 1 } : State).disposing[p] = none) ∧
        ({ copying with now := 1 } : State).transit = []) ∧
      exec .copyDone { copying with now := 1 } = .next (after .copyDone { copying with now := 1 }) ∧
      relay.route.copier = none := by
  refine ⟨fun next h => ⟨?_, copying_bankLaw next h⟩, by decide, by decide +kernel, rfl, rfl⟩
  simp only [List.mem_cons, List.not_mem_nil, or_false] at h
  rcases h with rfl | rfl | rfl | rfl <;> exact ⟨rfl, rfl, by decide +kernel, rfl⟩

/-- The copier takes one entry in a step on an empty queue, the last of them too, and the state is COPYING until copy done; a
copy that started a tick earlier ends with the next TICK (R55). -/
theorem test_copy_entry_by_entry :
    (State.idling 1 (copyingAt 62)).route.copier = some { next := 63, begun := 0 } ∧
      (State.idling 1 (copyingAt 62)).route.bankB[(63 : RouteIdx)] = .cleared ∧
      (State.idling 2 (copyingAt 62)).route.bankB[(63 : RouteIdx)] = entry84 ∧
      (State.idling 2 (copyingAt 62)).route.staging = .copying ∧
      (after .tick copying).route.staging = .copying ∧
      (after .tick { copying with now := 1 }).route.staging = .clean ∧
      (after .tick { copying with now := 1 }).route.bankB[(63 : RouteIdx)] = entry84 := by decide +kernel

/-- Slot 12 in a state with a deadline, at that deadline, with this list of notices. -/
def slotAt (x : Slot) (d : Tick) (ns : List Notice) : State :=
  { relay.setSlot 12 { x with deadline := some d } with
    now := d, events := { relay.events with notices := ns, nextSequence := BitVec.ofNat 16 ns.length } }

/-- Notices numbered from 0, PORT-UP of port 0, with a last one of its own kind. -/
def noticesOf (n : Nat) (last : NoticeKind) : List Notice :=
  (List.range n).map fun k =>
    { sequence := BitVec.ofNat 16 k, kind := if k + 1 = n then last else .portUp, subject := 0, tick := 0, detail := 1 }

theorem test_witness_SlotDeadlinesMakeLateOrLost_window :
    ∀ ns ∈ [noticesOf 14 .portUp, noticesOf 15 .portUp, noticesOf 15 .portUp ++ noticesOf 1 .noticesLost],
      ((slotAt (slotIn .waiting) 1200 ns).slots[(12 : SlotNo)].state = .waiting ∧
        (slotAt (slotIn .waiting) 1200 ns).slots[(12 : SlotNo)].deadline = some 1200 ∧
        reached (slotAt (slotIn .waiting) 1200 ns).now 1200 = true ∧
        (slotAt (slotIn .waiting) 1200 ns).resetDue = false ∧ (slotAt (slotIn .waiting) 1200 ns).raisesWait = false) ∧
        (slotAt (slotIn .waiting) 1200 ns).Undelivered ∧
        (((slotAt (slotIn .waiting) 1200 ns).events.notices.length ≤ 14 ∧
            ∀ x ∈ (slotAt (slotIn .waiting) 1200 ns).events.notices, x.kind ≠ .noticesLost) ∨
          ((slotAt (slotIn .waiting) 1200 ns).events.notices.length = 15 ∧
            ∀ x ∈ (slotAt (slotIn .waiting) 1200 ns).events.notices, x.kind ≠ .noticesLost) ∨
          ((slotAt (slotIn .waiting) 1200 ns).events.notices = noticesOf 15 .portUp ++ noticesOf 1 .noticesLost ∧
            ∀ x ∈ noticesOf 15 .portUp, x.kind ≠ .noticesLost)) := by
  intro ns h
  simp only [List.mem_cons, List.not_mem_nil, or_false] at h
  rcases h with rfl | rfl | rfl <;> exact ⟨by decide +kernel, .inl (by decide +kernel), by decide +kernel⟩

/-- Slot 12 with a miss count, its loss count being 3. -/
def missing (st : SlotState) (miss : Nat) (held : Option Held) : Slot :=
  { slot12 with state := st, miss := miss, held := held }

/-- A hold on buffer 0. -/
def holdOf : Held := { buf := 0, egress := 0xC, label := 0x0520, cls := 2, age := 7, source := 0x31 }

theorem test_witness_SlotDeadlinesMakeLateOrLost_miss :
    ∀ x ∈ [missing .fresh 0 none, missing .late 1 none, missing .late 2 none, missing .late 2 (some holdOf)],
      ((slotAt x 1190 []).slots[(12 : SlotNo)] = { x with deadline := some 1190 } ∧
        (x.state = .fresh ∨ x.state = .late) ∧ reached (slotAt x 1190 []).now 1190 = true ∧
        (slotAt x 1190 []).resetDue = false ∧
        ((x.miss + 1 < x.cfg.lossCount ∧ x.held = none) ∨ x.miss + 1 = x.cfg.lossCount)) ∧
        (slotAt x 1190 []).Undelivered ∧ (slotAt x 1190 []).NoticeRoom := by
  intro x h
  simp only [List.mem_cons, List.not_mem_nil, or_false] at h
  rcases h with rfl | rfl | rfl | rfl <;> exact ⟨by decide +kernel, quiet_of (by decide +kernel)⟩

/-- Slot 12 LATE with a held buffer at its second deadline (section 7.4, line 6). -/
def late12 : State :=
  { fresh12.setSlot 12 { missing .late 1 (some holdOf) with deadline := some 1240 } with now := 1240 }

theorem test_witness_SubstitutesCarryStoredHeaderAndStale :
    ((late12.slots[(12 : SlotNo)] = { missing .late 1 (some holdOf) with deadline := some 1240 } ∧
        reached late12.now 1240 = true ∧ late12.resetDue = false ∧ late12.agent.resetPending = none ∧
        0 < late12.store.count[holdOf.buf]) ∧ late12.PortLaw) ∧
      ((fresh12.slots[(12 : SlotNo)].state = .fresh ∧ fresh12.slots[(12 : SlotNo)].deadline = some 1190 ∧
        fresh12.slots[(12 : SlotNo)].held.isSome = true ∧ reached fresh12.now 1190 = true ∧ fresh12.resetDue = false ∧
        fresh12.agent.resetPending = none ∧ 0 < fresh12.store.count[(0 : BufNo)]) ∧ fresh12.PortLaw ∧
        fresh12.Undelivered ∧ fresh12.NoticeRoom) :=
  ⟨⟨by decide +kernel, portLaw_of (by decide +kernel)⟩, by decide +kernel, portLaw_of (by decide +kernel),
    quiet_of (by decide +kernel)⟩

theorem test_witness_LeaseExpiryClosesTheSession :
    let s : State := { inSession relay with now := 5000 }
    (s.agent.session.isOpen = true ∧ s.agent.session.leaseDeadline = some 5000 ∧ reached s.now 5000 = true ∧
      s.resetDue = false) ∧ s.NoticeRoom :=
  ⟨by decide +kernel, by decide +kernel, by decide +kernel⟩

theorem test_witness_ResetFullTakesEffectAtItsLimit :
    (resetAt .full).agent.resetPending = some { scope := .full, buf := 7, limit := 500 } ∧
      reached (resetAt .full).now 500 = true := by decide +kernel

theorem test_witness_ResetForwardingTakesEffectAtItsLimit :
    ((resetAt .forwarding).agent.resetPending = some { scope := .forwarding, buf := 7, limit := 500 } ∧
      reached (resetAt .forwarding).now 500 = true) ∧ (resetAt .forwarding).NoticeRoom :=
  ⟨by decide +kernel, by decide +kernel, by decide +kernel⟩

/-- The RESPONSE entry a reset is pending on. -/
def resetEntry : Entry :=
  { buf := 0, hdr := { label := 0x0C21, source := 0xF3, cls := 3, stale := false, age := 15 }, enqueuedAt := 0
    origin := .response }

/-- A reset of a scope pending on the response in buffer 0, which port 1 sends, or which waits there under HOLD. -/
def answering (scope : ResetScope) (tx : TxState) : State :=
  let s := (holding relay (frame managed [0x48, 0x11, 0x28, 0x00])).onPort 1 fun P => { P with
    tx := tx, queues := vset P.queues 3 [resetEntry], partnerHold := decide (tx = .idle)
    holdDeadline := if tx = .idle then some 0 else none }
  { s with agent := { s.agent with resetPending := some { scope := scope, buf := 0, limit := 500 } } }

/-- The response is sent; it is refused DOWN and FULL at its enqueue; it is flushed at the hold deadline; it is lost with the
link. -/
theorem test_witness_PendingResetTakesEffect :
    (∀ scope ∈ [ResetScope.forwarding, .full],
      let s := answering scope (.sending resetEntry)
      (s.ports[(1 : Port)].tx = .sending resetEntry ∧ resetEntry.origin = .response ∧
        s.agent.resetPending = some { scope := scope, buf := 0, limit := 500 } ∧ s.store.count[(0 : BufNo)] = 1 ∧
        s.resetDue = false) ∧ s.Listens 1 ∧ s.Undelivered) ∧
    (∀ f ∈ [fun P : PortState => { P with link := .down },
        fun P => { P with queues := vset P.queues 3 (List.replicate 16 { resetEntry with buf := 9 }) }],
      ∀ x ∈ [(0x00 : Byte), 0x01],
        let s := (sessioned 0x48 [x]).onPort 1 f
        s.Admits (view s) ∧ s.agent.queue = (view s).req :: [] ∧ (s.agent.executing = none ∧ 5 ≤ s.lengthAt (view s).req.buf ∧
          s.viewRequest (view s).req = view s ∧ s.resetDue = false ∧ s.agent.resetPending = none ∧
          s.store.count[(view s).req.buf] = 1 ∧ (view s).opcode = 0x48 ∧ (view s).args = [x] ∧
          (s.isUp 1 = false ∨ (s.isUp 1 = true ∧ 16 ≤ s.ports[(1 : Port)].queues[(3 : Sys2Proof.Class)].length)))) ∧
    ∀ scope ∈ [ResetScope.forwarding, .full],
      let s := answering scope .idle
      (resetEntry ∈ s.ports[(1 : Port)].waiting 3 ∧ s.agent.resetPending = some { scope := scope, buf := 0, limit := 500 } ∧
        s.ports[(1 : Port)].partnerHold = true ∧ s.ports[(1 : Port)].holdDeadline = some 0 ∧ reached s.now 0 = true ∧
        s.resetDue = false ∧ s.store.episode = .none) ∧ s.NoticeRoom := by
  refine ⟨?_, ?_, ?_⟩
  · intro scope h
    simp only [List.mem_cons, List.not_mem_nil, or_false] at h
    rcases h with rfl | rfl <;>
      exact ⟨by decide +kernel, ⟨by decide +kernel, by decide +kernel, by decide +kernel⟩, .inl (by decide +kernel)⟩
  · intro f hf x hx
    simp only [List.mem_cons, List.not_mem_nil, or_false] at hf hx
    rcases hf with rfl | rfl <;> rcases hx with rfl | rfl <;>
      exact ⟨⟨by decide +kernel, by decide +kernel, by decide +kernel⟩, by decide +kernel, by decide +kernel⟩
  · intro scope h
    simp only [List.mem_cons, List.not_mem_nil, or_false] at h
    rcases h with rfl | rfl <;> exact ⟨by decide +kernel, by decide +kernel, by decide +kernel⟩

/-- The timer at its expiry with the free stack empty. -/
def timerEmpty : State := { timer0 with store := noBuffers.store }

/-- The timer at its expiry without a session. -/
def timerClosed : State := { timer0 with agent := relay.agent }

theorem test_witness_RetransmitExpirySendsOldestNotices :
    (timer0.events.timer = some 200 ∧ reached timer0.now 200 = true ∧ timer0.resetDue = false) ∧
      timerClosed.agent.session.isOpen = false ∧
      (timer0.agent.session.isOpen = true ∧ timer0.agent.session.eventsEnabled = true ∧ timer0.events.notices ≠ []) ∧
      timerEmpty.store.free = [] ∧
      (timer0.store.free = 0 :: timer0.store.free.tail ∧
        ¬(timer0.store.free.tail.length = 8 ∧ timer0.store.episode = .none) ∧
        ¬(timer0.store.free.tail.length = 0 ∧ timer0.store.episode = .low false) ∧
        timer0.isUp timer0.agent.session.eventPort = true ∧
        timer0.ports[timer0.agent.session.eventPort].queues[(3 : Sys2Proof.Class)].length < 16 ∧
        timer0.agent.resetPending = none ∧ Memory.wf timer0.store.mem = true ∧
        ∀ c : Sys2Proof.Class, ∀ e ∈ timer0.ports[timer0.agent.session.eventPort].queues[c], e.buf ≠ 0) := by
  decide +kernel

/-- Raises of ports 0 and 1, made at 30 and 31. -/
def raiseOf (p : Port) (tick : Tick) : Raise :=
  { kind := .portUp, subject := BitVec.ofNat 8 p.val, tick := tick, detail := 0 }

/-- A raise that is no PORT-UP. -/
def downOf (p : Port) (tick : Tick) : Raise := { raiseOf p tick with kind := .portDown }

/-- The part at 31 with these notices in the list and these raises on their way to it. -/
def raising (ns : List Notice) (rs : List Raise) : State :=
  { relay with
    now := 31, transit := rs
    events := { relay.events with notices := ns, nextSequence := BitVec.ofNat 16 ns.length } }

theorem test_witness_RaisesAreTakenInEitherOrder :
    (∀ ns ∈ [noticesOf 14 .portUp, noticesOf 15 .portUp, noticesOf 15 .portUp ++ noticesOf 1 .noticesLost],
      ((raising ns [raiseOf 0 30]).pending = [] ∧ (raising ns [raiseOf 0 30]).transit = [raiseOf 0 30] ∧
        (∀ p : Port, (raising ns [raiseOf 0 30]).disposing[p] = none) ∧ (raising ns [raiseOf 0 30]).resetDue = false ∧
        (raising ns [raiseOf 0 30]).agent.resetPending = none) ∧
      ((ns.length ≤ 15 ∧ ∀ x ∈ ns, x.kind ≠ .noticesLost) ∨
        (ns = noticesOf 15 .portUp ++ noticesOf 1 .noticesLost ∧ ∀ x ∈ noticesOf 15 .portUp, x.kind ≠ .noticesLost))) ∧
      ((raising [] [raiseOf 0 30, raiseOf 1 31]).Undelivered ∧ (raising [] [raiseOf 0 30, raiseOf 1 31]).NoticeRoom) ∧
      ((raiseOf 0 30).tick ≠ (raising [] [raiseOf 0 30]).now ∧
        (raising [] [raiseOf 0 30]).NoneStale) ∧
      ((raising [] [raiseOf 0 30, downOf 1 31]).Undelivered ∧ (raising [] [raiseOf 0 30, downOf 1 31]).NoticeRoom) ∧
      (raising [] [raiseOf 0 30]).Undelivered ∧ (raising [] [raiseOf 0 30]).NoticeRoom := by
  refine ⟨?_, quiet_of (by decide +kernel), ⟨by decide, noneStale_of (by decide +kernel) rfl⟩, quiet_of (by decide +kernel),
    quiet_of (by decide +kernel)⟩
  intro ns h
  simp only [List.mem_cons, List.not_mem_nil, or_false] at h
  rcases h with rfl | rfl | rfl <;> exact ⟨by decide +kernel, by decide +kernel⟩

/-- A raise that waits stays behind one made at a later tick, which takes the lower sequence number (R174). -/
theorem test_raise_waits :
    let s := after (.trainingDeadline 0) { training0 with raisesWait := true }
    let t := State.idling 1 (after (.signalTimeout 0) { s with raisesWait := false, now := 31 })
    s.events = training0.events ∧
      t.events.notices.map (fun n => (n.sequence, n.kind, n.tick)) =
        [(0, .resetDone, 0), (1, .portDown, 31), (2, .portUp, 30)] ∧ t.transit = [] := by decide +kernel

/-- PORT-UP notices are numbered in the order in which the ports enter UP: one that is raised while another waits waits behind
it, and of two that wait the older is taken, whichever the free value names (R181). -/
theorem test_port_ups_keep_their_order :
    let s := { raising [] [raiseOf 0 30] with raisesWait := false }
    (s.raise .portUp 1 0).transit = [raiseOf 0 30, raiseOf 1 31] ∧
      (s.raise .portDown 1 0).events.notices.map (·.kind) = [.portDown] ∧
      ((s.raise .portUp 1 0).takeWaiting 1).events.notices.map (·.subject) = [0] ∧
      (State.takeWaiting { s with transit := [downOf 0 30, raiseOf 1 31] } 1).events.notices.map (·.kind) = [.portUp] := by
  decide +kernel

/-- A raise left from before the last advance is taken by the next TICK (R174). -/
theorem test_tick_takes_waiting_raise :
    (after .tick (raising [] [raiseOf 0 30])).events.notices.map (·.tick) = [30] ∧
      (after .tick (raising [] [raiseOf 1 31])).transit = [raiseOf 1 31] := by decide +kernel

/-! ### Management -/

/-- The part with the free stack as `State.StoreLaw` has it. -/
theorem storeLaw_of {s : State}
    (h : s.store.free.Nodup ∧ ∀ b : BufNo, b ∈ s.store.free ↔ s.store.count[b] = 0) : s.StoreLaw := h

theorem holding_storeLaw : (holding relay []).StoreLaw := storeLaw_of (by decide +kernel)

/-- The part with buffer 0 alone off the stack, whatever its bytes. -/
theorem storeLaw_held {s : State} (hf : s.store.free = (holding relay []).store.free)
    (hc : s.store.count = (holding relay []).store.count) : s.StoreLaw := by
  unfold State.StoreLaw
  rw [hf, hc]
  exact holding_storeLaw

theorem test_witness_TableReadsAnswerWhatStands :
    ((unsessioned 0x01 []).Ready (view (unsessioned 0x01 [])) [] ∧ (view (unsessioned 0x01 [])).args = []) ∧
      ((unsessioned 0x10 [1, 58, 6]).Ready (view (unsessioned 0x10 [1, 58, 6])) [] ∧
        (view (unsessioned 0x10 [1, 58, 6])).opcode = 0x10 ∧
        (view (unsessioned 0x10 [1, 58, 6])).args = [1, BitVec.ofNat 8 58, BitVec.ofNat 8 6] ∧ 58 + 6 ≤ 64) ∧
      ((unsessioned 0x18 [124, 4]).Ready (view (unsessioned 0x18 [124, 4])) [] ∧
        (view (unsessioned 0x18 [124, 4])).args = [BitVec.ofNat 8 124, BitVec.ofNat 8 4] ∧ 124 + 4 ≤ 128) :=
  ⟨⟨ready_of (by decide +kernel) (by decide +kernel), by decide +kernel⟩,
    ⟨ready_of (by decide +kernel) (by decide +kernel), by decide +kernel⟩,
    ready_of (by decide +kernel) (by decide +kernel), by decide +kernel⟩

theorem test_witness_RecordReadsAnswerWhatStands :
    ((unsessioned 0x20 [31]).Ready (view (unsessioned 0x20 [31])) [] ∧
        (view (unsessioned 0x20 [31])).args = [BitVec.ofNat 8 31]) ∧
      ((unsessioned 0x28 [32]).Ready (view (unsessioned 0x28 [32])) [] ∧ (view (unsessioned 0x28 [32])).opcode = 0x28) ∧
      ((unsessioned 0x30 [255]).Ready (view (unsessioned 0x30 [255])) [] ∧
        (view (unsessioned 0x30 [255])).args = [BitVec.ofNat 8 255]) ∧
      ((unsessioned 0x38 [1, 0, 0]).Ready (view (unsessioned 0x38 [1, 0, 0])) [] ∧
        (view (unsessioned 0x38 [1, 0, 0])).opcode = 0x38 ∧ (view (unsessioned 0x38 [1, 0, 0])).args = [1, 0, 0]) ∧
      ∀ x ∈ [((0 : Nat), (4 : Nat)), (1, 1), (2, 32), (3, 255), (4, 0)],
        let s := unsessioned 0x38 [BitVec.ofNat 8 x.1, BitVec.ofNat 8 x.2, 0]
        s.Ready (view s) [] ∧ ((view s).opcode = 0x38 ∧
          (view s).args = [BitVec.ofNat 8 x.1, BitVec.ofNat 8 x.2, 0x00] ∧ x.2 < 256 ∧
          ((x.1 = 0 ∧ 3 < x.2) ∨ (x.1 = 1 ∧ x.2 ≠ 0) ∨ ((x.1 = 2 ∨ x.1 = 3) ∧ 31 < x.2) ∨ 3 < x.1)) := by
  refine ⟨⟨ready_of (by decide +kernel) (by decide +kernel), by decide +kernel⟩,
    ⟨ready_of (by decide +kernel) (by decide +kernel), by decide +kernel⟩,
    ⟨ready_of (by decide +kernel) (by decide +kernel), by decide +kernel⟩,
    ⟨ready_of (by decide +kernel) (by decide +kernel), by decide +kernel⟩, ?_⟩
  intro x h
  simp only [List.mem_cons, List.not_mem_nil, or_false] at h
  rcases h with rfl | rfl | rfl | rfl | rfl <;>
    exact ⟨ready_of (by decide +kernel) (by decide +kernel), by decide +kernel⟩

/-- The session of another holder. -/
def otherHolder (s : State) : State := { s with agent := { s.agent with session := { opened with holder := 0x45 } } }

theorem test_witness_OpenStartsOrRenewsTheSession :
    ∀ lease ∈ [[(0x00 : Byte), 0x01], [0x17, 0x70]],
      ((unsessioned 0x02 (lease ++ [1])).Ready (view (unsessioned 0x02 (lease ++ [1]))) [] ∧
        (unsessioned 0x02 (lease ++ [1])).StoreLaw ∧
        (unsessioned 0x02 (lease ++ [1])).agent.session.isOpen = false ∧
        (view (unsessioned 0x02 (lease ++ [1]))).args = lease ++ [boolByte true] ∧
        (unsessioned 0x02 (lease ++ [1])).ports[(1 : Port)].queues[(3 : Sys2Proof.Class)].length < 15) ∧
      ((otherHolder (unsessioned 0x02 (lease ++ [1]))).Ready (view (otherHolder (unsessioned 0x02 (lease ++ [1])))) [] ∧
        (otherHolder (unsessioned 0x02 (lease ++ [1]))).agent.session.isOpen = true ∧
        (view (otherHolder (unsessioned 0x02 (lease ++ [1])))).source ≠
          (otherHolder (unsessioned 0x02 (lease ++ [1]))).agent.session.holder) ∧
      (inSession (unsessioned 0x02 (lease ++ [1]))).Ready (view (inSession (unsessioned 0x02 (lease ++ [1])))) [] ∧
      (inSession (unsessioned 0x02 (lease ++ [1]))).StoreLaw ∧
      (inSession (unsessioned 0x02 (lease ++ [1]))).agent.session.isOpen = true ∧
      (view (inSession (unsessioned 0x02 (lease ++ [1])))).source =
        (inSession (unsessioned 0x02 (lease ++ [1]))).agent.session.holder := by
  intro lease h
  simp only [List.mem_cons, List.not_mem_nil, or_false] at h
  rcases h with rfl | rfl <;>
    exact ⟨⟨ready_of (by decide +kernel) (by decide +kernel), storeLaw_held (by decide +kernel) (by decide +kernel), by decide +kernel,
        by decide +kernel, by decide +kernel⟩,
      ⟨ready_of (by decide +kernel) (by decide +kernel), by decide +kernel, by decide +kernel⟩,
      ready_of (by decide +kernel) (by decide +kernel), storeLaw_held (by decide +kernel) (by decide +kernel),
      by decide +kernel, by decide +kernel⟩

theorem test_witness_WrongTokenIsRefusedNoSession :
    ((unsessioned 0x04 []).Ready (view (unsessioned 0x04 [])) [] ∧
        ((view (unsessioned 0x04 [])).row ∉ unsessionedRows ∧ (unsessioned 0x04 []).agent.session.isOpen = false)) ∧
      ((inSession (unsessioned 0x38 [0, 0, 1])).Ready (view (inSession (unsessioned 0x38 [0, 0, 1]))) [] ∧
        ((view (inSession (unsessioned 0x38 [0, 0, 1]))).row ∉ unsessionedRows ∧
          (view (inSession (unsessioned 0x38 [0, 0, 1]))).token ≠
            (inSession (unsessioned 0x38 [0, 0, 1])).agent.session.token)) :=
  ⟨⟨ready_of (by decide +kernel) (by decide +kernel), by decide +kernel⟩,
    ready_of (by decide +kernel) (by decide +kernel), by decide +kernel⟩

/-- A KEEPALIVE with this sequence, while the response to sequence 27h is cached. -/
def repeated (seq : Byte) : State :=
  let s := requested (inSession relay) [0x04, 0x11, seq, 0x0C, 0x21]
  { s with agent := { s.agent with session := { opened with
      cache := some { opcode := 0x13, sequence := 0x27, status := .ok, replay := false, results := [0, 1] } } } }

theorem test_witness_UnexpectedSequenceReplaysOrIsRefused :
    ((repeated 0x27).Ready (view (repeated 0x27)) [] ∧ ((view (repeated 0x27)).row ∉ unsessionedRows ∧
        (repeated 0x27).agent.session.isOpen = true ∧
        (view (repeated 0x27)).token = (repeated 0x27).agent.session.token ∧
        (view (repeated 0x27)).seq = (repeated 0x27).agent.session.expected - 1)) ∧
      ((repeated 0x29).Ready (view (repeated 0x29)) [] ∧
        ((view (repeated 0x29)).seq ≠ (repeated 0x29).agent.session.expected ∧
          (view (repeated 0x29)).seq ≠ (repeated 0x29).agent.session.expected - 1)) :=
  ⟨⟨ready_of (by decide +kernel) (by decide +kernel), by decide +kernel⟩,
    ready_of (by decide +kernel) (by decide +kernel), by decide +kernel⟩

theorem admits_of {s : State}
    (h : s.agent.session.isOpen = true ∧ (view s).token = s.agent.session.token ∧
      (view s).seq = s.agent.session.expected) : s.Admits (view s) := ⟨h.1, h.2.1, h.2.2⟩

/-- A request of the session in turn is ready and admitted. -/
theorem sessioned_of {s : State} (h : waitingCheck s = true) (hr : s.agent.resetPending = none)
    (ha : s.agent.session.isOpen = true ∧ (view s).token = s.agent.session.token ∧
      (view s).seq = s.agent.session.expected) : s.Ready (view s) [] ∧ s.Admits (view s) :=
  ⟨ready_of h hr, admits_of ha⟩

theorem test_witness_WrongLengthIsAnExecution :
    ∀ s ∈ [sessioned 0x13 [1, 0], sessioned 0x38 [], sessioned 0x48 [0, 0]],
      (s.Ready (view s) [] ∧ s.Admits (view s)) ∧
        ((view s).row ∉ unsessionedRows ∧ (view s).args.length ≠ argumentCount (view s).row) := by
  intro s h
  simp only [List.mem_cons, List.not_mem_nil, or_false] at h
  rcases h with rfl | rfl | rfl <;>
    exact ⟨sessioned_of (by decide +kernel) (by decide +kernel) (by decide +kernel), by decide +kernel⟩

/-- A request that waits while a reset is pending on buffer 7. -/
def duringReset : State :=
  let s := unsessioned 0x01 []
  { s with agent := { s.agent with resetPending := some { scope := .full, buf := 7, limit := 500 } } }

/-- A request of Length 4. -/
def shortRequest : State := requested relay [1, 2, 3, 4]

theorem test_witness_RequestsAnsweredBeforeAnyCheck :
    (.commit ∈ managementRows ∧ shortRequest.agent.queue = { buf := 0, port := 1 } :: [] ∧
        shortRequest.agent.executing = none ∧ shortRequest.lengthAt 0 < 5 ∧ shortRequest.store.count[(0 : BufNo)] = 1 ∧
        shortRequest.resetDue = false) ∧
      (duringReset.Waiting (view duringReset) [] ∧
        (duringReset.agent.resetPending = some { scope := .full, buf := 7, limit := 500 } ∧
          (7 : BufNo) ≠ (view duringReset).req.buf ∧
          ∀ c : Sys2Proof.Class, ∀ e ∈ duringReset.ports[(view duringReset).req.port].queues[c],
            duringReset.ports[(view duringReset).req.port].expired duringReset.now e = true → e.buf ≠ 7)) ∧
      ((unsessioned 0x05 []).Ready (view (unsessioned 0x05 [])) [] ∧ (view (unsessioned 0x05 [])).row = .badOpcode) :=
  ⟨by decide +kernel,
    ⟨waiting_of (by decide +kernel), by decide +kernel⟩,
    ready_of (by decide +kernel) (by decide +kernel), by decide +kernel⟩

theorem test_witness_KeepaliveCloseAndResetAnswer :
    ∀ x ∈ [((0x04 : Byte), ([] : List Byte)), (0x03, []), (0x48, [0x00]), (0x48, [0x01])],
      ((sessioned x.1 x.2).Ready (view (sessioned x.1 x.2)) [] ∧
          (sessioned x.1 x.2).Admits (view (sessioned x.1 x.2))) ∧
        ((view (sessioned x.1 x.2)).args = x.2 ∧ (view (sessioned x.1 x.2)).opcode = x.1) := by
  intro x h
  simp only [List.mem_cons, List.not_mem_nil, or_false] at h
  rcases h with rfl | rfl | rfl | rfl <;>
    exact ⟨sessioned_of (by decide +kernel) (by decide +kernel) (by decide +kernel), by decide +kernel⟩

/-- The part with the staging bank being copied. -/
def whileCopying (s : State) : State :=
  s.onRoute fun t => { t with staging := .copying, copier := some { next := 0, begun := 0 } }

theorem test_witness_StagingWritesReachTheStagingBank :
    (((sessioned 0x11 (63 :: entry84.bytes)).Ready (view (sessioned 0x11 (63 :: entry84.bytes))) [] ∧
          (sessioned 0x11 (63 :: entry84.bytes)).Admits (view (sessioned 0x11 (63 :: entry84.bytes)))) ∧
        ((sessioned 0x11 (63 :: entry84.bytes)).route.staging ≠ .copying ∧ entry84.valid = true ∧ entry84.wf = true ∧
          (view (sessioned 0x11 (63 :: entry84.bytes))).args = BitVec.ofNat 8 63 :: entry84.bytes)) ∧
      (((sessioned 0x12 [0, 64]).Ready (view (sessioned 0x12 [0, 64])) [] ∧
          (sessioned 0x12 [0, 64]).Admits (view (sessioned 0x12 [0, 64]))) ∧
        (view (sessioned 0x12 [0, 64])).args = [BitVec.ofNat 8 0, BitVec.ofNat 8 64]) ∧
      (((whileCopying (sessioned 0x12 [0, 64])).Ready (view (whileCopying (sessioned 0x12 [0, 64]))) [] ∧
          (whileCopying (sessioned 0x12 [0, 64])).Admits (view (whileCopying (sessioned 0x12 [0, 64])))) ∧
        ((view (whileCopying (sessioned 0x12 [0, 64]))).row = .clearRoutes ∧
          (view (whileCopying (sessioned 0x12 [0, 64]))).args.length = argumentCount .clearRoutes)) :=
  ⟨⟨sessioned_of (by decide +kernel) (by decide +kernel) (by decide +kernel), by decide +kernel⟩,
    ⟨sessioned_of (by decide +kernel) (by decide +kernel) (by decide +kernel), by decide +kernel⟩,
    sessioned_of (by decide +kernel) (by decide +kernel) (by decide +kernel), by decide +kernel⟩

theorem test_witness_CommitExchangesTheBanks :
    ∀ s ∈ [sessioned 0x13 [1, 0, 9], sessioned 0x13 [0, 0, 9], whileCopying (sessioned 0x13 [0, 0, 0])],
      (s.Ready (view s) [] ∧ s.Admits (view s)) ∧
        ((view s).opcode = 0x13 ∧ ((view s).args = [boolByte true] ++ bytes16 9 ∨
          (view s).args = [boolByte false] ++ bytes16 9 ∨ (view s).args = [boolByte false] ++ bytes16 0) ∧
          s.route.epoch = 0) := by
  intro s h
  simp only [List.mem_cons, List.not_mem_nil, or_false] at h
  rcases h with rfl | rfl | rfl <;>
    exact ⟨sessioned_of (by decide +kernel) (by decide +kernel) (by decide +kernel), by decide +kernel⟩

theorem test_witness_ActionAndBucketWritesTakeEffect :
    (((sessioned 0x19 ([127] ++ forwardAll.bytes ++ [1])).Ready
            (view (sessioned 0x19 ([127] ++ forwardAll.bytes ++ [1]))) [] ∧
          (sessioned 0x19 ([127] ++ forwardAll.bytes ++ [1])).Admits
            (view (sessioned 0x19 ([127] ++ forwardAll.bytes ++ [1])))) ∧
        (forwardAll.wf = true ∧ (view (sessioned 0x19 ([127] ++ forwardAll.bytes ++ [1]))).args =
          [BitVec.ofNat 8 127] ++ forwardAll.bytes ++ [boolByte true])) ∧
      (((sessioned 0x21 [31, 1, 0x0F, 0xFF, 0, 69, 1]).Ready (view (sessioned 0x21 [31, 1, 0x0F, 0xFF, 0, 69, 1])) [] ∧
          (sessioned 0x21 [31, 1, 0x0F, 0xFF, 0, 69, 1]).Admits (view (sessioned 0x21 [31, 1, 0x0F, 0xFF, 0, 69, 1]))) ∧
        (view (sessioned 0x21 [31, 1, 0x0F, 0xFF, 0, 69, 1])).args = [BitVec.ofNat 8 31, boolByte true] ++ bytes16 4095 ++
          bytes16 69 ++ [boolByte (decide (ExceedAction.demote = .demote))]) :=
  ⟨⟨sessioned_of (by decide +kernel) (by decide +kernel) (by decide +kernel), by decide +kernel⟩,
    sessioned_of (by decide +kernel) (by decide +kernel) (by decide +kernel), by decide +kernel⟩

theorem test_witness_SlotCommandsTakeEffect :
    ∀ st ∈ [SlotState.off, .waiting],
      let w := (sessioned 0x29 [12, 0, 50, 0, 10, 3, 0, 200, 3]).setSlot 12 (slotIn st)
      let a := (sessioned 0x2A [12]).setSlot 12 (slotIn st)
      let d := (sessioned 0x2B [12]).setSlot 12 { slotIn st with held := some { holdOf with buf := 9 } }
      ((w.Ready (view w) [] ∧ w.Admits (view w)) ∧ (w.slots[(12 : SlotNo)] = slotIn st ∧
        (view w).args = [BitVec.ofNat 8 12] ++ bytes16 slot12.cfg.period ++ bytes16 slot12.cfg.grace ++
          [BitVec.ofNat 8 slot12.cfg.lossCount] ++ bytes16 slot12.cfg.startWindow ++ [BitVec.ofNat 8 (1 + 2)])) ∧
      ((a.Ready (view a) [] ∧ a.Admits (view a)) ∧ (view a).args = [BitVec.ofNat 8 12]) ∧
      ((d.Ready (view d) [] ∧ d.Admits (view d)) ∧ ((view d).args = [BitVec.ofNat 8 12] ∧
        (9 : BufNo) ≠ (view d).req.buf)) := by
  intro st h
  simp only [List.mem_cons, List.not_mem_nil, or_false] at h
  rcases h with rfl | rfl <;>
    exact ⟨⟨sessioned_of (by decide +kernel) (by decide +kernel) (by decide +kernel), by decide +kernel⟩,
      ⟨sessioned_of (by decide +kernel) (by decide +kernel) (by decide +kernel), by decide +kernel⟩,
      sessioned_of (by decide +kernel) (by decide +kernel) (by decide +kernel), by decide +kernel⟩

/-- A SET PORT of port 2 with this enable item, port 2 in this link state. -/
def setting (enable : Byte) (l : LinkState) : State :=
  (sessioned 0x31 [2, enable, 1, 1, 0, 255, 0, 1, 0, 2, 0, 3, 0, 4]).onPort 2 fun P => { P with link := l }

/-- The configuration `setting` carries. -/
def settingCfg (enable : Bool) : PortConfig :=
  { enable := enable, missAction := .drop, admitMgmt := true, holdLimit := 255, residence := #v[1, 2, 3, 4] }

theorem setting_args : ∀ on : Bool, ∀ l ∈ [LinkState.disabled, .down, .training, .up],
    (view (setting (boolByte on) l)).args = [BitVec.ofNat 8 2, boolByte (settingCfg on).enable, 0x01,
      boolByte (settingCfg on).admitMgmt, 0x00, (settingCfg on).holdLimit] ++ bytes16 (settingCfg on).residence[0] ++
      bytes16 (settingCfg on).residence[1] ++ bytes16 (settingCfg on).residence[2] ++
      bytes16 (settingCfg on).residence[3] := by decide +kernel

theorem test_witness_SetPortWritesAllItems :
    ∀ x ∈ [((1 : Byte), LinkState.up), (1, .disabled), (0, .disabled), (0, .down), (0, .training), (0, .up)],
      ((setting x.1 x.2).Ready (view (setting x.1 x.2)) [] ∧ (setting x.1 x.2).Admits (view (setting x.1 x.2))) ∧
        ((view (setting x.1 x.2)).opcode = 0x31 ∧ (setting x.1 x.2).ports[(2 : Port)].link = x.2) := by
  intro x h
  simp only [List.mem_cons, List.not_mem_nil, or_false] at h
  rcases h with rfl | rfl | rfl | rfl | rfl | rfl <;>
    exact ⟨sessioned_of (by decide +kernel) (by decide +kernel) (by decide +kernel), by decide +kernel⟩

theorem test_witness_ClearingReadZeroesItsGroup :
    ∀ x ∈ [[(0x00 : Byte), 3, 0x01], [0x01, 0x00, 0x01], [0x02, 31, 0x01], [0x03, 31, 0x01]],
      ((sessioned 0x38 x).Ready (view (sessioned 0x38 x)) [] ∧ (sessioned 0x38 x).Admits (view (sessioned 0x38 x))) ∧
        (view (sessioned 0x38 x)).args = x := by
  intro x h
  simp only [List.mem_cons, List.not_mem_nil, or_false] at h
  rcases h with rfl | rfl | rfl | rfl <;>
    exact ⟨sessioned_of (by decide +kernel) (by decide +kernel) (by decide +kernel), by decide +kernel⟩

theorem test_witness_EventCommandsTakeEffect :
    ∀ s ∈ [sessioned 0x40 [1, 255], sessioned 0x41 [0, 0], sessioned 0x41 [0, 1]],
      (s.Ready (view s) [] ∧ s.Admits (view s)) ∧ s.StoreLaw ∧
        (s.ports[(view s).req.port].queues[(3 : Sys2Proof.Class)].length < 15 ∧ ((view s).args = [boolByte true, 255] ∨
          (view s).args = bytes16 0 ∨ (view s).args = bytes16 1) ∧
          s.events.notices = [{ sequence := 0, kind := .resetDone, subject := 0, tick := 0, detail := 0 }]) := by
  intro s h
  simp only [List.mem_cons, List.not_mem_nil, or_false] at h
  rcases h with rfl | rfl | rfl <;>
    exact ⟨sessioned_of (by decide +kernel) (by decide +kernel) (by decide +kernel), storeLaw_held (by decide +kernel) (by decide +kernel),
      by decide +kernel⟩

theorem test_witness_RecordsReadBackAsWritten :
    entry84.wf = true ∧ RouteEntry.cleared.wf = true ∧
      ({ forwardAll with dispatch := some { offset := 63, mask := 15 } } : ActionRecord).wf = true := by decide

/-! ### Laws -/

/-- A part with much under way: port 1 sends T2 of section 6.3 with three entries behind it, a request waits, a slot holds a
buffer, the session is open. Buffer 0 is named by the four entries, buffer 1 by the request, buffer 2 by the hold and by
nothing else, buffer 3 is being filled. -/
def busy : State :=
  let s := { sending1 with
    store := { sending1.store with
      count := vset (vset (vset sending1.store.count 1 1) 2 1) 3 1
      free := relay.store.free.drop 4 }
    agent := { relay.agent with queue := [{ buf := 1, port := 2 }], session := opened } }
  let s := s.setSlot 12 { slot12 with
    state := .fresh, deadline := some 1190, held := some { holdOf with buf := 2 } }
  { s.onPort 3 fun P => { P with rx := .receiving 3 71 } with pending := [.txEnd 1] }

theorem ahead_of {now : Tick} {x : Option Tick} (h : x.all (fun d => decide (0 ≤ (d - now).toInt)) = true) :
    ahead now x := by
  intro d hd; rw [hd] at h; simpa using h

theorem freshness_of (x : Slot) (h : x = .reset ∨ x = busy.slots[(12 : SlotNo)]) : x.FreshnessLaw := by
  rcases h with rfl | rfl
  · exact ⟨by decide, by decide, by decide, rfl, rfl⟩
  · have hs : busy.slots[(12 : SlotNo)].state = .fresh := by decide +kernel
    refine ⟨by decide +kernel, by decide +kernel, by decide +kernel, ?_⟩
    rw [hs]
    exact ⟨by decide +kernel, by decide +kernel⟩

theorem busy_slotLaw : busy.SlotLaw := by
  intro n
  refine freshness_of _ ?_
  revert n
  decide +kernel

theorem busy_agentLaw : busy.AgentLaw := by unfold State.AgentLaw; decide +kernel

theorem busy_portLaw : busy.PortLaw := portLaw_of (by decide +kernel)

theorem busy_storeLaw : busy.StoreLaw := storeLaw_of (by decide +kernel)

theorem busy_steps : ∃ t, step busy = .next t := ⟨_, rfl⟩

theorem test_witness_FrameStoreLawsAreKept : busy.StoreLaw ∧ busy.MemoryLaw ∧ ∃ t, step busy = .next t :=
  ⟨busy_storeLaw, by unfold State.MemoryLaw; decide +kernel, busy_steps⟩

theorem test_witness_ReferenceCountsAreClaims :
    busy.StoreLaw ∧ busy.CountLaw ∧ busy.WriterLaw ∧ busy.PortLaw ∧ busy.SlotLaw ∧ busy.AgentLaw ∧
      ∃ t, step busy = .next t :=
  ⟨busy_storeLaw, by unfold State.CountLaw; decide +kernel, by unfold State.WriterLaw; decide +kernel,
    busy_portLaw, busy_slotLaw, busy_agentLaw, busy_steps⟩

theorem test_witness_PortLawIsKept : busy.PortLaw ∧ ∃ t, step busy = .next t := ⟨busy_portLaw, busy_steps⟩

/-- Nine buffers free; the next pop begins an episode. -/
def aboutToBeLow : State := { nineFree with pending := [.rxStart 1] }

theorem test_witness_LowStockHoldsEveryUpLink :
    aboutToBeLow.StockLaw ∧ aboutToBeLow.PortLaw ∧ ∃ t, step aboutToBeLow = .next t :=
  ⟨by unfold State.StockLaw; decide +kernel, portLaw_of (by decide +kernel), _, rfl⟩

theorem test_witness_TableLawsAreKept :
    (copying.BankLaw ∧ copying.RecordLaw ∧ copying.CreditLaw) ∧
      ∃ t, step { copying with pending := [.copyDone] } = .next t :=
  ⟨⟨copying_bankLaw 2 (by decide), by unfold State.RecordLaw; decide +kernel,
    by unfold State.CreditLaw; decide +kernel⟩, _, rfl⟩

theorem test_witness_BankRolesAndClockMoveByTheirOwnCommands :
    exec .copyDone copying = .next (after .copyDone copying) ∧ (∀ node, Instr.copyDone ≠ .rstnRelease node) ∧
      Instr.copyDone ≠ .resetFull ∧ copying.agent.resetPending = none :=
  ⟨rfl, (by intro _ h; cases h), by decide, rfl⟩

theorem test_witness_SlotLawIsKept : busy.SlotLaw ∧ ∃ t, step busy = .next t := ⟨busy_slotLaw, busy_steps⟩

theorem test_witness_SessionLawIsKept :
    busy.SessionLaw ∧ busy.AgentLaw ∧ ∃ t, step busy = .next t := by
  refine ⟨⟨by decide +kernel, fun h => absurd h (by decide +kernel), fun _ => ⟨by decide +kernel, by decide +kernel,
    by decide +kernel, by decide +kernel, ?_⟩⟩, busy_agentLaw, busy_steps⟩
  intro c hc
  have : busy.agent.session.cache = none := rfl
  rw [this] at hc; cases hc

/-- Sixteen notices, the newest of them NOTICES-LOST. -/
def overflowing : State :=
  { relay with
    pending := [.signalTimeout 2]
    events := { relay.events with notices := noticesOf 16 .noticesLost, nextSequence := 16 } }

theorem test_witness_NoticeLawIsKept : overflowing.NoticeLaw ∧ ∃ t, step overflowing = .next t := by
  refine ⟨?_, _, rfl⟩
  unfold State.NoticeLaw consecutive
  decide +kernel

/-- Port 0 in TRAINING with its deadline reached, and a disposition begun, a copy started and a raise made at the tick
before: what the next TICK takes. -/
def lastMoment : State :=
  { (training0.goOn 1
      { buf := 9, received := transit 1 5, len := 0, base := none, final := none, applied := transit 1 4, egress := 0xD
        directed := 0, stage := .enqueue, taken := 3, begun := 29 }) with
    pending := [.tick], transit := [raiseOf 1 29]
    route := { copying.route with copier := some { next := 2, begun := 29 } } }

theorem test_witness_TimelyLawIsKept :
    lastMoment.TimelyLaw ∧ lastMoment.PortLaw ∧ lastMoment.SlotLaw ∧ lastMoment.SessionLaw ∧ lastMoment.AgentLaw ∧
      lastMoment.NoticeLaw ∧ ∃ t, step lastMoment = .next t := by
  refine ⟨⟨by decide +kernel, ?_, ?_, ?_, ?_, ?_, ?_, by decide +kernel, ?_⟩, portLaw_of (by decide +kernel), ?_, ?_, ?_,
    ?_, _, rfl⟩
  · intro p d hd
    exact (by decide +kernel : ∀ p : Port, lastMoment.disposing[p].all
      (fun d => decide ((lastMoment.now - d.begun).toNat ≤ 1)) = true) p |> fun k => by
        rw [hd] at k; simpa using k
  · intro p
    exact ⟨ahead_of ((by decide +kernel : ∀ p : Port, lastMoment.ports[p].trainingDeadline.all
        (fun d => decide (0 ≤ (d - lastMoment.now).toInt)) = true) p),
      ahead_of ((by decide +kernel : ∀ p : Port, lastMoment.ports[p].holdDeadline.all
        (fun d => decide (0 ≤ (d - lastMoment.now).toInt)) = true) p)⟩
  · intro n
    exact ahead_of ((by decide +kernel : ∀ n : SlotNo, lastMoment.slots[n].deadline.all
      (fun d => decide (0 ≤ (d - lastMoment.now).toInt)) = true) n)
  · exact ahead_of (by decide +kernel)
  · intro r hr
    have : lastMoment.agent.resetPending = none := rfl
    rw [this] at hr; cases hr
  · exact ahead_of (by decide +kernel)
  · intro c hc
    obtain rfl : { next := 2, begun := 29 } = c := Option.some.inj hc
    decide
  · intro n
    have : lastMoment.slots[n] = .reset := by revert n; decide +kernel
    rw [this]
    exact freshness_of _ (.inl rfl)
  · exact ⟨by decide +kernel, fun _ => by decide +kernel, fun h => absurd h (by decide +kernel)⟩
  · unfold State.AgentLaw; decide +kernel
  · unfold State.NoticeLaw consecutive; decide +kernel

end Sys2Proof.Tests
end

