-- ==== Sys2Proof/Proofs/SessionedRows.lean ====
section
/-! SUPPORT. The row of a sessioned command, once for every command that touches nothing its own request and answer stand
in: an admitted request is executed by its body, the response is cached and then queued (R134, R137, R142, R151). -/

namespace Sys2Proof.Machine

/-! ## Argument fields read back (section 11.3, R183) -/

@[simp] theorem yesNo_boolByte (b : Bool) : yesNo (boolByte b) = some b := by
  cases b <;> rfl

@[simp] theorem word16_extractLsb' (x : BitVec 16) : word16 (x.extractLsb' 8 8) (x.extractLsb' 0 8) = x := by
  rw [word16, BitVec.extractLsb'_append_extractLsb'_eq_extractLsb' (by rfl)]
  exact BitVec.extractLsb'_eq_self

/-- A two-byte argument is the number whose bytes stand after the arguments before it. -/
theorem arg16_append_bytes16 (before : List Byte) (x : BitVec 16) :
    arg16 (before ++ bytes16 x) before.length = x := by
  simp [arg16, arg, bytes16]

/-! ## An admitted request executed (R142) -/

/-- The part once the oldest request has been taken and admitted, before its command's own effect (R134, R142). -/
def State.admitted (s : State) (v : RequestView) (rest : List Request) : State :=
  (s.beginRequest v.req rest).admitRequest v

/-- `w` is `s` in every block that a request and its answer stand in: the ports, the Frame Store, the Management Agent. -/
structure State.KeepsRequest (s w : State) : Prop where
  ports : w.ports = s.ports
  store : w.store = s.store
  agent : w.agent = s.agent
  due   : w.resetDue = s.resetDue

theorem State.KeepsRequest.refl (s : State) : s.KeepsRequest s := ⟨rfl, rfl, rfl, rfl⟩

theorem State.onRoute_keepsRequest (s : State) (f : RouteTable → RouteTable) : s.KeepsRequest (s.onRoute f) :=
  ⟨rfl, rfl, rfl, rfl⟩

section
variable {s w : State} {v : RequestView} {rest : List Request} {c : Command} {body : Body} {r : Reply}

/-- With its response cached and the request ended, the agent is the one `Session.executed` describes. -/
theorem State.cacheResponse_idled (ha : s.Admits v) (hk : (s.admitted v rest).KeepsRequest w) :
    (w.cacheResponse v r).idled =
      { w with agent :=
          s.agent.served rest (s.agent.session.executed s.now v.req.port v.opcode r.status r.results) } := by
  simp only [State.idled, State.cacheResponse, hk.agent, ha.sequence]
  rfl

/-- A ready and admitted request of the row's command with the right number of argument bytes runs the command's body, and
the response is cached before it is answered (R142, R151). -/
theorem State.takeRequest_admitted (hr : s.Ready v rest) (ha : s.Admits v) (hc : commandOf v.opcode = some c)
    (hl : v.args.length = c.argBytes) (hb : body v.args (s.admitted v rest) = (w, r)) (hf : r.follow = .nothing) :
    s.takeRequest (·.names c) (State.serveSessioned c body) = (w.cacheResponse v r).answer v r.status r.results := by
  have hn : v.names c = true := decide_eq_true hc
  have hj : (s.beginRequest v.req rest).agent.session.judge v.token v.seq = .admitted :=
    Session.judge_admitted ha.isOpen ha.token ha.sequence
  have hbody : body.checked c v.args ((s.beginRequest v.req rest).admitRequest v) = (w, r) := by
    rw [Body.checked, if_pos hl]; exact hb
  rw [State.takeRequest_ready hr _ _ hn, State.serveSessioned, hj]
  simp only [hbody, State.answerExecuted, hf]

/-- The row of a sessioned command whose body keeps what the request and its answer stand in: the body's effect with the
session record of an executed request, and the answer besides (R134, R137, R142). -/
theorem State.sessionedRow_answered (hr : s.Ready v rest) (ha : s.Admits v) (hc : commandOf v.opcode = some c)
    (hl : v.args.length = c.argBytes) (hb : body v.args (s.admitted v rest) = (w, r))
    (hk : (s.admitted v rest).KeepsRequest w) (hf : r.follow = .nothing) (hlen : r.results.length ≤ 60) :
    ∃ t, s.sessionedRow c body = .next t ∧
      State.Answered
        { w with agent :=
            s.agent.served rest (s.agent.session.executed s.now v.req.port v.opcode r.status r.results) }
        t v (v.response r.status r.results) := by
  have hports : (w.cacheResponse v r).ports = s.ports := hk.ports
  have hstore : (w.cacheResponse v r).store = s.store := hk.store
  have hpending : (w.cacheResponse v r).agent.resetPending = none := by
    rw [State.cacheResponse_agent, hk.agent]; exact hr.noReset
  have hdue : w.resetDue = false := hk.due.trans hr.settled
  have hanswer : (w.cacheResponse v r).idled.Answered ((w.cacheResponse v r).answer v r.status r.results) v
      (v.response r.status r.results) := by
    apply State.sendResponse_answered
    · rw [State.isUp, hports]; exact hr.portUp
    · rw [hports]; exact hr.room
    · rw [hstore]; exact hr.own
    · rw [hports]; exact hr.unnamed
    · rw [hstore]; exact hr.memory
    · simp only [responseBytes, List.length_append, List.length_cons, List.length_nil]; omega
    · intro p hp; rw [hpending] at hp; cases hp
  refine ⟨(w.cacheResponse v r).answer v r.status r.results, ?_, ?_⟩
  · rw [State.sessionedRow, State.takeRequest_admitted hr ha hc hl hb hf,
      State.finish_of_settled _ (hanswer.settled.trans hdue)]
  · rwa [State.cacheResponse_idled ha hk] at hanswer

end

end Sys2Proof.Machine
end

