-- ==== Sys2Proof/Proofs/Commit.lean ====
section
/-! PROOF. COMMIT (R53, R157): what its body answers in each of its cases, and O43. -/

namespace Sys2Proof.Machine

theorem exec_commit (s : State) : exec .commit s = s.sessionedRow .commit commitBody := rfl

/-! ## The body of COMMIT -/

section
variable {s : State} {args : List Byte}

theorem commitBody_copying (h : s.route.staging = .copying) : commitBody args s = (s, .refuse .busy) := by
  rw [commitBody, if_pos h]

theorem commitBody_stale (h : s.route.staging ≠ .copying) (hany : yesNo (arg args 0) = some false)
    (he : arg16 args 1 ≠ s.route.epoch) :
    commitBody args s =
      (s, { status := .staleEpoch, results := bytes16 s.route.epoch, follow := .nothing }) := by
  rw [commitBody, if_neg h, hany]
  exact if_pos ⟨rfl, he⟩

theorem commitBody_current {any : Bool} (h : s.route.staging ≠ .copying) (hany : yesNo (arg args 0) = some any)
    (he : any = true ∨ arg16 args 1 = s.route.epoch) :
    commitBody args s = (s.onRoute (·.commit s.now), .ok (bytes16 (s.route.epoch + 1))) := by
  rw [commitBody, if_neg h, hany]
  refine if_neg ?_
  rintro ⟨hfalse, hne⟩
  cases he with
  | inl htrue => cases hfalse.symm.trans htrue
  | inr heq => exact hne heq

end

/-- Settles O43: each clause is one case of COMMIT's body, carried through the row of a sessioned command. -/
theorem commitExchangesTheBanks : Obligations.CommitExchangesTheBanks := by
  unfold Obligations.CommitExchangesTheBanks
  intro s v rest mode epoch hr ha hop hargs
  have hc : commandOf v.opcode = some .commit := by rw [hop]; rfl
  have hl : v.args.length = Command.argBytes .commit := by rw [hargs]; rfl
  have hmode : yesNo (arg v.args 0) = some mode := by rw [hargs]; exact yesNo_boolByte mode
  have hepoch : arg16 v.args 1 = epoch := by rw [hargs]; exact arg16_append_bytes16 [boolByte mode] epoch
  rw [exec_commit]
  refine ⟨fun hs he => ?current, fun hs hm he => ?stale, fun hs => ?copying⟩
  case current =>
    exact State.sessionedRow_answered hr ha hc hl
      (commitBody_current (s := s.admitted v rest) hs hmode (by rw [hepoch]; exact he))
      (State.onRoute_keepsRequest _ _) rfl (by simp [Reply.ok, bytes16])
  case stale =>
    subst hm
    exact State.sessionedRow_answered hr ha hc hl
      (commitBody_stale (s := s.admitted v rest) hs hmode (by rw [hepoch]; exact he))
      (State.KeepsRequest.refl _) rfl (by simp [bytes16])
  case copying =>
    exact State.sessionedRow_answered hr ha hc hl (commitBody_copying (s := s.admitted v rest) hs)
      (State.KeepsRequest.refl _) rfl (by simp [Reply.refuse])

end Sys2Proof.Machine
end

