-- ==== Sys2Proof/Proofs/OwnFrames.lean ====
section
/-! PROOF. END of a good frame for the part itself (R13, R133): where it is handed on to, what the request queue and the
free stack come to, and O11. -/

namespace Sys2Proof.Machine

/-! ## Where a good frame is handed on to (R13, R133) -/

section
variable {s : State} {p : Port} {b : BufNo}

theorem State.handOn_admitted (hl : (s.headerAt b).label = ownLabel s.node) (hp : s.ports[p].cfg.admitMgmt = true)
    (pace : Pace) : s.handOn p b pace = s.requestArrival p b := by
  rw [State.handOn, if_pos hl, if_pos hp]

theorem State.handOn_unadmitted (hl : (s.headerAt b).label = ownLabel s.node) (hp : s.ports[p].cfg.admitMgmt = false)
    (pace : Pace) : s.handOn p b pace = (s.tally p .rxMgmtRefused).release b := by
  rw [State.handOn, if_pos hl, hp]
  rfl

theorem State.handOn_looped (hl : (s.headerAt b).label ≠ ownLabel s.node)
    (hs : (s.headerAt b).source = ownSource s.node) (pace : Pace) :
    s.handOn p b pace = (s.tally p .rxLooped).release b := by
  rw [State.handOn, if_neg hl, if_pos hs]

theorem State.requestArrival_room (h : s.agent.queue.length < 4) :
    s.requestArrival p b =
      { s with agent := { s.agent with queue := s.agent.queue ++ [{ buf := b, port := p }] } } := by
  rw [State.requestArrival, if_pos h]

theorem State.requestArrival_full (h : 4 ≤ s.agent.queue.length) :
    s.requestArrival p b =
      { s with agent := { s.agent with mgmtOverrun := bump s.agent.mgmtOverrun } }.release b := by
  rw [State.requestArrival, if_neg (Nat.not_lt.2 h)]

end

/-! ## A good frame dropped (R25, R33) -/

@[simp] theorem State.pushed_resetDue (s : State) (b : BufNo) : (s.pushed b).resetDue = s.resetDue := by
  unfold State.pushed
  split <;> rfl

/-- The release of a received frame's one reference, once its port has taken the frame, pushes the buffer; the command's
end adds nothing (R25, R148). -/
theorem State.finish_release_onPort {s : State} {b : BufNo} (hd : s.resetDue = false) (hc : s.store.count[b] = 1)
    (p : Port) (f : PortState → PortState) (hl : ∀ P, (f P).link = P.link)
    (ha : ∀ (P : PortState) (c : List FlowSymbol),
      f { P with asked := P.asked ++ c } = { f P with asked := (f P).asked ++ c }) :
    ((s.onPort p f).release b).finish = (s.pushed b).onPort p f := by
  have hc' : (s.onPort p f).store.count[b] = 1 := hc
  rw [State.release_last hc', State.pushed_onPort s p b f hl ha, State.finish_of_settled _ (by simp [hd])]

/-- A good frame counted on its port and dropped: the port's change and the push, and nothing else (R12, R13). -/
theorem State.finish_drop_tookGood {s : State} {b : BufNo} (hd : s.resetDue = false) (hc : s.store.count[b] = 1)
    (p : Port) (k : PortCounter) :
    (((s.onPort p PortState.tookGood).tally p k).release b).finish =
      (s.pushed b).onPort p fun P => P.tookGood.tally k := by
  rw [State.tally, State.onPort_onPort]
  exact State.finish_release_onPort hd hc p _ (fun _ => rfl) (fun _ _ => rfl)

/-- Settles O11: END of a good frame hands it on, and each clause is one branch of R13 and R133. -/
theorem endHandsOnOwnFrames : Obligations.EndHandsOnOwnFrames := by
  unfold Obligations.EndHandsOnOwnFrames
  intro p pace s b n h
  have hdue : s.resetDue = false := h.settled
  have hown : s.store.count[b] = 1 := h.own
  have hadmit : (s.onPort p PortState.tookGood).ports[p].cfg.admitMgmt = s.ports[p].cfg.admitMgmt := by
    simp [PortState.tookGood, PortState.heard]
  rw [State.exec_rxEnd_good h]
  refine ⟨fun hl hp hq => ?request, fun hl hp hq => ?overrun, fun hl hp => ?refused, fun hl hs => ?looped⟩
  case request =>
    rw [State.handOn_admitted (s := s.onPort p PortState.tookGood) hl (hadmit.trans hp),
      State.requestArrival_room (s := s.onPort p PortState.tookGood) hq]
    exact congrArg Host.Outcome.next (State.finish_of_settled _ hdue)
  case overrun =>
    rw [State.handOn_admitted (s := s.onPort p PortState.tookGood) hl (hadmit.trans hp),
      State.requestArrival_full (s := s.onPort p PortState.tookGood) hq]
    exact congrArg Host.Outcome.next (State.finish_release_onPort
      (s := { s with agent := { s.agent with mgmtOverrun := bump s.agent.mgmtOverrun } })
      hdue hown p PortState.tookGood (fun _ => rfl) (fun _ _ => rfl))
  case refused =>
    rw [State.handOn_unadmitted (s := s.onPort p PortState.tookGood) hl (hadmit.trans hp)]
    exact congrArg Host.Outcome.next (State.finish_drop_tookGood hdue hown p .rxMgmtRefused)
  case looped =>
    rw [State.handOn_looped (s := s.onPort p PortState.tookGood) hl hs]
    exact congrArg Host.Outcome.next (State.finish_drop_tookGood hdue hown p .rxLooped)

end Sys2Proof.Machine
end

