-- ==== Sys2Proof/Proofs/NoSession.lean ====
section
/-! PROOF. A sessioned request without the session (R141): every row outside `unsessionedRows` judges its request by
token and sequence before anything else, a request so refused is answered and not executed, and O37. -/

namespace Sys2Proof.Machine

/-! ## The rows that judge a request by the session (R135, R141) -/

/-- Row `i` takes the request `v` and serves it as a sessioned command. -/
def RequestView.ServedSessioned (v : RequestView) (i : Instr) : Prop :=
  ∃ (mine : RequestView → Bool) (c : Command) (body : Body), mine v = true ∧
    ∀ s, exec i s = .next (s.takeRequest mine (State.serveSessioned c body)).finish

section
variable {v : RequestView} {i : Instr}

theorem RequestView.names_of_opcode {op : Byte} {c : Command} (ho : v.opcode = op) (hc : commandOf op = some c) :
    v.names c = true :=
  decide_eq_true (ho ▸ hc)

theorem RequestView.servedSessioned_of_names {c : Command} {body : Body} (hn : v.names c = true)
    (he : ∀ s, exec i s = s.sessionedRow c body) : v.ServedSessioned i :=
  ⟨(·.names c), c, body, hn, he⟩

/-- READ COUNTERS is sessioned unless its flag is present and 00h (R185). -/
theorem RequestView.servedSessioned_readCountersClear (hn : v.names .readCounters = true)
    (hf : v.args[2]? ≠ some 0x00) : v.ServedSessioned .readCountersClear := by
  refine ⟨_, .readCounters, readCountersClearBody, ?_, fun _ => rfl⟩
  have hflag : v.readsOnly = false := by
    simp only [RequestView.readsOnly, Bool.and_eq_false_imp, decide_eq_true_eq, arg]
    refine fun hlen => decide_eq_false fun hz => ?_
    rw [List.getD_eq_getElem _ _ hlen] at hz
    exact hf ((List.getElem?_eq_getElem hlen).trans (congrArg some hz))
  simp only [hn, hflag]
  rfl

/-- A RESET request that names scope FORWARDING is the one byte 00h (R169). -/
theorem RequestView.resetsTo_forwarding (h : v.resetsTo .forwarding = true) : v.args = [0x00] := by
  simp only [RequestView.resetsTo, Bool.and_eq_true, decide_eq_true_eq] at h
  obtain ⟨hlen, hscope⟩ := h
  obtain ⟨x, hx⟩ := List.length_eq_one_iff.1 hlen
  rw [hx] at hscope ⊢
  simp only [parseScope, arg, List.getD_cons_zero] at hscope
  split at hscope
  · next hz => rw [hz]
  · split at hscope <;> simp at hscope

theorem RequestView.servedSessioned_resetFull (hn : v.names .reset = true) (ha : v.args ≠ [0x00]) :
    v.ServedSessioned .resetFull := by
  refine ⟨_, .reset, resetBody, ?_, fun _ => rfl⟩
  have hscope : v.resetsTo .forwarding = false := Bool.eq_false_iff.2 (mt RequestView.resetsTo_forwarding ha)
  simp only [hn, hscope]
  rfl

theorem RequestView.servedSessioned_resetForwarding (hn : v.names .reset = true) (ha : v.args = [0x00]) :
    v.ServedSessioned .resetForwarding := by
  refine ⟨_, .reset, resetBody, ?_, fun _ => rfl⟩
  have hscope : v.resetsTo .full = false := by rw [RequestView.resetsTo, ha]; rfl
  simp only [hn, hscope]
  rfl

end

/-! ## The opcode table line by line (section 11.4) -/

/-- Row `i` serves `v` as the list of unsessioned rows has it: off the list, as a sessioned command. -/
def RequestView.ServedAsListed (v : RequestView) (i : Instr) : Prop := i ∉ unsessionedRows → v.ServedSessioned i

section
variable {v : RequestView} {op : Byte} {i j : Instr}

theorem RequestView.servedAsListed_of_mem (h : i ∈ unsessionedRows) : v.ServedAsListed i := fun k => absurd h k

/-- One line of the table, before the lines after it. -/
theorem RequestView.servedAsListed_line (here : v.opcode = op → v.ServedAsListed i) (after : v.ServedAsListed j) :
    v.ServedAsListed (if v.opcode = op then i else j) := by
  split
  · next ho => exact here ho
  · exact after

/-- A line of a row served without a session. -/
theorem RequestView.servedAsListed_unsessionedLine (hi : i ∈ unsessionedRows) (after : v.ServedAsListed j) :
    v.ServedAsListed (if v.opcode = op then i else j) :=
  RequestView.servedAsListed_line (fun _ => RequestView.servedAsListed_of_mem hi) after

/-- A line whose one row is a sessioned command's. -/
theorem RequestView.servedAsListed_sessionedLine (c : Command) (body : Body) (hc : commandOf op = some c)
    (he : ∀ s, exec i s = s.sessionedRow c body) (after : v.ServedAsListed j) :
    v.ServedAsListed (if v.opcode = op then i else j) :=
  RequestView.servedAsListed_line
    (fun ho _ => RequestView.servedSessioned_of_names (RequestView.names_of_opcode ho hc) he) after

end

/-- Every row outside `unsessionedRows` serves its request as a sessioned command. -/
theorem RequestView.row_servedAsListed (v : RequestView) : v.ServedAsListed v.row := by
  unfold RequestView.row
  refine RequestView.servedAsListed_unsessionedLine (by decide) ?_
  refine RequestView.servedAsListed_unsessionedLine (by decide) ?_
  refine RequestView.servedAsListed_sessionedLine .closeSession closeBody rfl (fun _ => rfl) ?_
  refine RequestView.servedAsListed_sessionedLine .keepalive keepaliveBody rfl (fun _ => rfl) ?_
  refine RequestView.servedAsListed_unsessionedLine (by decide) ?_
  refine RequestView.servedAsListed_sessionedLine .writeRoute writeRouteBody rfl (fun _ => rfl) ?_
  refine RequestView.servedAsListed_sessionedLine .clearRoutes clearRoutesBody rfl (fun _ => rfl) ?_
  refine RequestView.servedAsListed_sessionedLine .commit commitBody rfl exec_commit ?_
  refine RequestView.servedAsListed_unsessionedLine (by decide) ?_
  refine RequestView.servedAsListed_sessionedLine .writeAction writeActionBody rfl (fun _ => rfl) ?_
  refine RequestView.servedAsListed_unsessionedLine (by decide) ?_
  refine RequestView.servedAsListed_sessionedLine .writeBucket writeBucketBody rfl (fun _ => rfl) ?_
  refine RequestView.servedAsListed_unsessionedLine (by decide) ?_
  refine RequestView.servedAsListed_sessionedLine .writeSlot writeSlotBody rfl (fun _ => rfl) ?_
  refine RequestView.servedAsListed_sessionedLine .arm armBody rfl (fun _ => rfl) ?_
  refine RequestView.servedAsListed_sessionedLine .disarm disarmBody rfl (fun _ => rfl) ?_
  refine RequestView.servedAsListed_unsessionedLine (by decide) ?_
  refine RequestView.servedAsListed_sessionedLine .setPort setPortBody rfl (fun _ => rfl) ?_
  refine RequestView.servedAsListed_line (fun ho => ?readCounters) ?_
  case readCounters =>
    split
    · exact RequestView.servedAsListed_of_mem (by decide)
    · next hf => exact fun _ => RequestView.servedSessioned_readCountersClear (RequestView.names_of_opcode ho rfl) hf
  refine RequestView.servedAsListed_sessionedLine .setEvents setEventsBody rfl (fun _ => rfl) ?_
  refine RequestView.servedAsListed_sessionedLine .ackEvents ackEventsBody rfl (fun _ => rfl) ?_
  refine RequestView.servedAsListed_line (fun ho _ => ?reset) (RequestView.servedAsListed_of_mem (by decide))
  case reset =>
    split
    · next ha => exact RequestView.servedSessioned_resetForwarding (RequestView.names_of_opcode ho rfl) ha
    · next ha => exact RequestView.servedSessioned_resetFull (RequestView.names_of_opcode ho rfl) ha

/-! ## A request refused without execution (R134, R141) -/

/-- The session refuses a request where it is CLOSED or the token is another (R141). -/
theorem Session.judge_noSession {x : Session} {token : Byte} (h : x.isOpen = false ∨ token ≠ x.token) (seq : Byte) :
    x.judge token seq = .noSession :=
  if_pos h

/-- A ready request answered as it was taken: no session field is touched, and the answer is queued (R136, R137). -/
theorem State.answer_unexecuted {s : State} {v : RequestView} {rest : List Request} (hr : s.Ready v rest)
    (status : Status) (results : List Byte) (hlen : results.length ≤ 60) :
    (s.unexecuted rest).Answered ((s.beginRequest v.req rest).answer v status results) v
      (v.response status results) := by
  have hshort : (responseBytes v.opcode v.token v.seq false status results).length < 256 := by
    simp only [responseBytes, List.length_append, List.length_cons, List.length_nil]; omega
  have hpending : ∀ r, s.agent.resetPending = some r → r.buf = v.req.buf := by
    intro r h; rw [hr.noReset] at h; cases h
  exact State.sendResponse_answered (s.beginRequest v.req rest) v _ hr.portUp hr.room hr.own hr.unnamed hr.memory
    hshort hpending

/-- Settles O37: the request's row judges it by the session before it is executed, and the session refuses it. -/
theorem wrongTokenIsRefusedNoSession : Obligations.WrongTokenIsRefusedNoSession := by
  unfold Obligations.WrongTokenIsRefusedNoSession
  intro s v rest hr hrow hsession
  obtain ⟨mine, c, body, hmine, hexec⟩ := v.row_servedAsListed hrow
  have hanswered := State.answer_unexecuted hr .noSession [] (by simp)
  have hserve : s.takeRequest mine (State.serveSessioned c body) =
      (s.beginRequest v.req rest).answer v .noSession [] := by
    have hjudge : (s.beginRequest v.req rest).agent.session.judge v.token v.seq = .noSession :=
      Session.judge_noSession hsession _
    rw [State.takeRequest_ready hr _ _ hmine, State.serveSessioned, hjudge]
  refine ⟨_, ?_, hanswered⟩
  rw [hexec, hserve, State.finish_of_settled _ (hanswered.settled.trans hr.settled)]

end Sys2Proof.Machine
end

