-- ==== Sys2Proof/Proofs/Moves.lean ====
section
/-! SUPPORT. The changes a command is made of. Every operation of the model is a sequence of a few kinds of primitive change,
`Move`; which ones, and under what conditions, is said once here, and each law every step keeps is then a property of the
primitive changes alone. Between two of its changes a command has references in hand that belong to nothing in the part's
state just then; `Hand` keeps account of them. -/

namespace Sys2Proof.Machine

/-- What a command has in hand between two of its changes: single references, buffers of which it has the only claim (popped
or received and not placed yet), ports that have left UP and are not quiescent yet, and the request under execution. -/
structure Hand where
  shared  : List BufNo
  fresh   : List BufNo
  leaving : List Port
  request : Option Request

/-- Nothing in hand. -/
def Hand.empty : Hand := { shared := [], fresh := [], leaving := [], request := none }

/-- One reference more in hand. -/
def Hand.ref (H : Hand) (b : BufNo) : Hand := { H with shared := b :: H.shared }

/-- These references more in hand. -/
def Hand.refs (H : Hand) (bs : List BufNo) : Hand := { H with shared := bs ++ H.shared }

/-- One buffer more of which the command has the only claim. -/
def Hand.sole (H : Hand) (b : BufNo) : Hand := { H with fresh := b :: H.fresh }

/-- One port more that is leaving UP. -/
def Hand.leave (H : Hand) (p : Port) : Hand := { H with leaving := p :: H.leaving }

/-- A request under execution. -/
def Hand.serve (H : Hand) (r : Request) : Hand := { H with request := some r }

/-- The buffer a receiver fills. -/
def RxState.bufs : RxState → List BufNo
  | .receiving b _ => [b]
  | .idle => []
  | .ignoring _ => []

/-- The buffer a hold names. -/
def heldBufs (x : Option Held) : List BufNo := (x.map (·.buf)).toList

/-- A deadline lies ahead of the counter (R78). -/
def later (now d : Tick) : Prop := 0 < (d - now).toInt

/-- `Q` is `P` as far as any law of the blocks reads it. -/
structure PortState.Alike (P Q : PortState) : Prop where
  link             : Q.link = P.link
  trainingDeadline : Q.trainingDeadline = P.trainingDeadline
  rx               : Q.rx = P.rx
  tx               : Q.tx = P.tx
  partnerHold      : Q.partnerHold = P.partnerHold
  holdDeadline     : Q.holdDeadline = P.holdDeadline
  queues           : Q.queues = P.queues
  asked            : Q.asked = P.asked
  lastFlow         : Q.lastFlow = P.lastFlow
  validRun         : Q.validRun = P.validRun ∨ Q.validRun < 16
  invalidRun       : Q.invalidRun = P.invalidRun ∨ Q.invalidRun < 4

/-- `y` is `x` but for its counters and the last arrival. -/
structure Slot.Alike (x y : Slot) : Prop where
  cfg      : y.cfg = x.cfg
  state    : y.state = x.state
  deadline : y.deadline = x.deadline
  miss     : y.miss = x.miss
  held     : y.held = x.held

/-- `t` is `s` but for counters, configuration, stored bytes, and records and buckets replaced by others the tables may
hold. -/
structure State.Alike (s t : State) : Prop where
  node         : t.node = s.node
  initializing : t.initializing = s.initializing
  now          : t.now = s.now
  ports        : ∀ p : Port, (s.ports[p]).Alike (t.ports[p])
  mem          : Memory.wf s.store.mem = true → Memory.wf t.store.mem = true
  count        : t.store.count = s.store.count
  free         : t.store.free = s.store.free
  episode      : t.store.episode = s.store.episode
  bankA        : t.route.bankA = s.route.bankA
  bankB        : t.route.bankB = s.route.bankB
  active       : t.route.active = s.route.active
  staging      : t.route.staging = s.route.staging
  copier       : t.route.copier = s.route.copier
  records      : ∀ i : RecordIdx, t.action.records[i] = s.action.records[i] ∨ t.action.records[i].wf = true
  disposing    : t.disposing = s.disposing
  buckets      : ∀ n : BucketNo, s.buckets[n].wf = true → t.buckets[n].wf = true
  slots        : ∀ n : SlotNo, (s.slots[n]).Alike (t.slots[n])
  queue        : t.agent.queue = s.agent.queue
  executing    : t.agent.executing = s.agent.executing
  session      : t.agent.session = s.agent.session
  tokenCounter : t.agent.tokenCounter = s.agent.tokenCounter
  resetPending : t.agent.resetPending = s.agent.resetPending
  events       : t.events = s.events
  transit      : t.transit = s.transit
  resetDue     : t.resetDue = s.resetDue

/-- Buffer `b` has a claim that is no writer's: a disposition, a hold, the request under execution or a reference in hand. -/
inductive State.Claimed (s : State) (H : Hand) (b : BufNo) : Prop where
  | disposal (p : Port) (d : Disposal) (h : s.disposing[p] = some d) (hb : d.buf = b)
  | hold (n : SlotNo) (x : Held) (h : s.slots[n].held = some x) (hb : x.buf = b)
  | request (r : Request) (h : s.agent.executing = some r) (hb : r.buf = b)
  | hand (h : b ∈ H.shared)

/-- A TRANSIT entry is formed for a disposition at stage 6 whose egress set holds the port (R97). -/
def State.Forwards (s : State) (q : Port) (b : BufNo) : Prop :=
  ∃ (p : Port) (d : Disposal), s.disposing[p] = some d ∧ d.buf = b ∧ d.stage = .enqueue ∧ PortSet.has d.egress q = true

/-- What becomes of a slot in one change: its law is kept, and a new deadline lies ahead (section 7.2, R78). -/
structure Slot.Step (now : Tick) (x y : Slot) : Prop where
  law      : x.FreshnessLaw → y.FreshnessLaw
  deadline : x.FreshnessLaw → ahead now x.deadline → ∀ d, y.deadline = some d → x.deadline = some d ∨ later now d

/-- The part with this session record and token counter. -/
def State.withSession (s : State) (x : Session) (token : Byte) : State :=
  { s with agent := { s.agent with session := x, tokenCounter := token } }

/-- What a pop does to the low-stock episode, its notice apart (R31, R32). -/
def State.popMarked (s : State) : State :=
  if s.store.depth = 8 ∧ s.store.episode = .none then
    { s with store := { s.store with episode := .low false, lowEpisodes := bump s.store.lowEpisodes } }.askUp .hold
  else if s.store.depth = 0 ∧ s.store.episode = .low false then
    { s with store := { s.store with episode := .low true } }
  else s

/-- The part with this disposition table entry. -/
def State.withDisposal (s : State) (p : Port) (d : Option Disposal) : State :=
  { s with disposing := vset s.disposing p d }

/-- The command `c`, none for a step that finds none waiting, may go on with dispositions (R44, R45). -/
def Disposes (c : Option Instr) : Prop := c = none ∨ c = some .tick ∨ ∃ e, c = some (.rxEnd e)

/-- The command fills a buffer. -/
def FillsBuffer (c : Option Instr) : Prop := ∃ p, c = some (.rxStart p) ∨ ∃ v, c = some (.rxDataByte p v)

theorem Disposes.not_commit {c : Option Instr} (h : Disposes c) : c ≠ some .commit := by
  obtain rfl | rfl | ⟨e, rfl⟩ := h <;> simp

/-- The command is the RESET of this scope. -/
def ResetsTo (c : Option Instr) : ResetScope → Prop
  | .full => c = some .resetFull
  | .forwarding => c = some .resetForwarding

/-- One primitive change of command `c`, none for a step that finds none waiting, from what is in hand and the part before it
to what is in hand and the part after. `ok` says that the command began with no request half executed and no reset half taken;
what only holds then is asked only then. -/
inductive Move (c : Option Instr) (ok : Prop) : Hand × State → Hand × State → Prop where
  | alike {H s t} (h : s.Alike t) : Move c ok (H, s) (H, t)
  -- the ports
  | rx {H s} (p : Port) (r : RxState) (ctr : PortCounters) (fresh : List BufNo)
      (hp : (r.bufs ++ fresh).Perm (s.ports[p].rx.bufs ++ H.fresh))
      (hup : s.ports[p].link = .up ∨ r = .idle) (hn : ∀ b n, r = .receiving b n → n ≤ 71)
      (hc : r.bufs = [] ∨ FillsBuffer c) :
      Move c ok (H, s) ({ H with fresh := fresh }, s.onPort p fun P => { P with rx := r, ctr := ctr })
  | send {H s} (p : Port) (e : Entry) (htx : s.ports[p].tx = .idle) (htop : s.ports[p].topHead = some e)
      (hup : s.ports[p].link = .up) : Move c ok (H, s) (H, s.onPort p fun P => { P with tx := .sending e })
  | endSending {H s} (p : Port) (e : Entry) (ctr : PortCounters) (sent : List LineItem)
      (htx : s.ports[p].tx = .sending e)
      (hf : PortState.lastFlow { s.ports[p] with sent := sent } = s.ports[p].lastFlow) :
      Move c ok (H, s) (H.ref e.buf, s.onPort p fun P => { P.endSending e with ctr := ctr, sent := sent })
  | expire {H s} (p : Port) (e : Entry) (htx : s.ports[p].tx = .idle) (htop : s.ports[p].topHead = some e) :
      Move c ok (H, s) (H.ref e.buf, s.onPort p fun P => (P.dropHead e.hdr.cls).tally .qExpired)
  | flush {H s} (p : Port) :
      Move c ok (H, s) (H.refs (s.ports[p].allWaiting.map (·.buf)), s.onPort p PortState.flushed)
  | join {H s} (p : Port) (b : BufNo) (h : Header) (o : Origin) (hup : s.ports[p].link = .up)
      (hroom : s.ports[p].queues[h.cls].length < 16) (hb : s.Claimed H b)
      (ho : o = .transit → Disposes c ∧ s.Forwards p b) : Move c ok (H, s) (H, s.joined p b h o)
  | hold {H s} (p : Port) (flag : Bool) (deadline : Option Tick) (hnone : flag = false → deadline = none)
      (hflag : flag = true → s.ports[p].link = .up ∨ s.ports[p].partnerHold = true)
      (hd : ∀ d, deadline = some d → s.ports[p].holdDeadline = some d ∨ later s.now d) :
      Move c ok (H, s) (H, s.onPort p fun P => { P with partnerHold := flag, holdDeadline := deadline })
  | control {H s} (p : Port) (f : FlowSymbol) (rest : List FlowSymbol) (ha : s.ports[p].asked = f :: rest) :
      Move c ok (H, s) (H, s.onPort p fun P => { P with asked := rest, sent := P.sent ++ [.flow f] })
  | train {H s} (p : Port) (hl : s.ports[p].link = .down) (hi : s.initializing = false) :
      Move c ok (H, s) (H, s.onPort p fun P =>
        { P with link := .training, trainingDeadline := some (s.now + 20), validRun := 0, quiet := false })
  | up {s} (p : Port) (hl : s.ports[p].link = .training) :
      Move c ok (Hand.empty, s) (Hand.empty, s.onPort p (·.enterUp s.store.episode))
  | restart {H s} (p : Port) (dest : LinkState) (hl : s.ports[p].link ≠ .up)
      (hd : dest = .down ∨ dest = .disabled) : Move c ok (H, s) (H, s.onPort p (·.restartLink dest))
  | leave {H s} (p : Port) : Move c ok (H, s) (H.leave p, s.onPort p (·.restartLink .down))
  | left {H s} (p : Port) (hl : s.ports[p].link ≠ .up) (hrx : s.ports[p].rx = .idle) (htx : s.ports[p].tx = .idle)
      (hq : ∀ k : Class, s.ports[p].queues[k] = []) :
      Move c ok (H.leave p, s) (H, s.onPort p PortState.clearFlow)
  | quit {H s} (p : Port) (hrx : s.ports[p].rx = .idle) (htx : s.ports[p].tx = .idle)
      (hq : ∀ k : Class, s.ports[p].queues[k] = []) :
      Move c ok (H, s) (H, s.onPort p fun P => P.clearFlow.restartLink .disabled)
  | initEnd {H s} (hi : s.initializing = true) :
      Move c ok (H, s) (H, { s with initializing := false, ports := vmap (·.restartLink .down) s.ports })
  -- the Frame Store
  | release {H s} (b : BufNo) : Move c ok (Hand.ref H b, s) (H, s.release b)
  | share {H s} (b : BufNo) : Move c ok (Hand.sole H b, s) (H.ref b, s)
  | addRef {H s} (b : BufNo) (hb : s.Claimed H b) : Move c ok (H, s) (H.ref b, s.addRef b)
  | pop {H s u} (b : BufNo) (hu : s.takeTop = some (b, u)) : Move c ok (H, s) (H.sole b, u.popMarked)
  -- the Route Table
  | stage {H s} (v : Vector RouteEntry 64) (hs : s.route.staging ≠ .copying)
      (hv : ∀ i : RouteIdx, v[i].wf = true ∨ v[i] = s.route.stagingBank[i]) :
      Move c ok (H, s) (H, s.onRoute fun t => { t.setBank t.active.other v with staging := .modified })
  | commit {H s} (hc : c = some .commit) (hs : s.route.staging ≠ .copying) :
      Move c ok (H, s) (H, s.onRoute (·.commit s.now))
  | startCopy {H s} (hs : s.route.staging = .modified) : Move c ok (H, s) (H, s.onRoute (·.startCopy s.now))
  | copyNext {H s} (hc : c ≠ some .commit) : Move c ok (H, s) (H, s.onRoute (·.copyNext))
  | copyDone {H s} (hc : c ≠ some .commit) : Move c ok (H, s) (H, s.onRoute (·.copyDone))
  -- the Supervision Slots
  | slot {H s} (n : SlotNo) (y : Slot) (shared : List BufNo) (hy : Slot.Step s.now s.slots[n] y)
      (hp : (heldBufs y.held ++ shared).Perm (heldBufs s.slots[n].held ++ H.shared)) :
      Move c ok (H, s) ({ H with shared := shared }, s.setSlot n y)
  -- the Management Agent
  | arrive {H s} (p : Port) (b : BufNo) (hq : s.agent.queue.length < 4) :
      Move c ok (Hand.sole H b, s)
        (H, { s with agent := { s.agent with queue := s.agent.queue ++ [{ buf := b, port := p }] } })
  | begin {H : Hand} {s} (r : Request) (rest : List Request) (hq : s.agent.queue = r :: rest) (hw : H.request = none) :
      Move c ok (H, s) (H.serve r, s.beginRequest r rest)
  | idle {H : Hand} {s} (r : Request) (hw : H.request = none) (hx : s.agent.executing = some r) :
      Move c ok (H.serve r, s) (H.ref r.buf, s.idled)
  | session {H s} (x : Session) (token : Byte) (hlaw : s.SessionLaw → (s.withSession x token).SessionLaw)
      (hd : s.SessionLaw → ∀ d, x.leaseDeadline = some d →
        s.agent.session.leaseDeadline = some d ∨ later s.now d) :
      Move c ok (H, s) (H, s.withSession x token)
  | pend {H s} (r : PendingReset) (hl : r.limit = s.now + 500)
      (hc : ResetsTo c r.scope) :
      Move c ok (H, s) (H, { s with agent := { s.agent with resetPending := some r } })
  -- the Event Queue
  | take {H s} (kind : NoticeKind) (subject : Byte) (detail : BitVec 32) (hk : kind ≠ .noticesLost)
      (hw : subject.toNat < kind.subjects) : Move c ok (H, s) (H, s.note kind subject detail)
  | wait {H s} (r : Raise) (hw : r.wf = true) (hn : r.tick = s.now) : Move c ok (H, s) (H, s.sendRaise r)
  | unwait {H s} (k : Nat) (r : Raise) (hr : s.transit[k]? = some r) :
      Move c ok (H, s) (H, { s with
        transit := s.transit.eraseIdx k, events := s.events.take r.kind r.subject r.tick r.detail })
  | arm {H s} : Move c ok (H, s) (H, s.armRetransmit)
  | disarm {H s} : Move c ok (H, s) (H, { s with events := { s.events with outstanding := false, timer := none } })
  | acknowledge {H s} (n : Nat) : Move c ok (H, s) (H, { s with events := s.events.drop n })
  | interval {H s} (i : BitVec 8) (hi : i ≠ 0) :
      Move c ok (H, s) (H, { s with events := { s.events with interval := i } })
  -- dispositions
  | dispose {H s} (p : Port) (b : BufNo) (hc : ∃ e, c = some (.rxEnd e)) (hd : ok → s.disposing[p] = none) :
      Move c ok (Hand.sole H b, s) (H, s.goOn p (s.openDisposal b))
  | goOn {H s} (p : Port) (d d' : Disposal) (hc : Disposes c) (hd : s.disposing[p] = some d) (hb : d'.buf = d.buf)
      (hr : d'.received = d.received) (hg : d'.begun = d.begun) (hl : d.Law p → d'.Law p) :
      Move c ok (H, s) (H, s.goOn p d')
  | close {H s} (p : Port) (d : Disposal) (hc : Disposes c) (hd : s.disposing[p] = some d) :
      Move c ok (H, s) (H.ref d.buf, s.withDisposal p none)
  -- the resets
  | mark {H s} (h : s.agent.resetPending.isSome = true) : Move c ok (H, s) (H, { s with resetDue := true })
  | unmark {H s} (h : s.agent.resetPending = none) : Move c ok (H, s) (H, { s with resetDue := false })
  | full {s} (r : PendingReset) (hr : s.agent.resetPending = some r) (hs : r.scope = .full) :
      Move c ok (Hand.empty, s) (Hand.empty, s.fullReset)
  | forwarding {s} (r : PendingReset) (hr : s.agent.resetPending = some r) (hs : r.scope = .forwarding) :
      Move c ok (Hand.empty, s) (Hand.empty, s.forwardingCore)

/-- A sequence of primitive changes. -/
abbrev Run (c : Option Instr) (ok : Prop) : Hand × State → Hand × State → Prop := Relation.ReflTransGen (Move c ok)

/-- The part comes from `s` to `t` by primitive changes, and what is in hand is the same. -/
def State.Leads (c : Option Instr) (ok : Prop) (s t : State) : Prop := ∀ H : Hand, Run c ok (H, s) (H, t)

end Sys2Proof.Machine
end

