-- ==== Sys2Proof/Proofs/Runs.lean ====
section
/-! SUPPORT. The shared operations as sequences of primitive changes: references, service, attempts, flushes, notices and
their delivery, raises and pops. -/

namespace Sys2Proof.Machine

section
variable {c : Option Instr} {ok : Prop} {s t u : State} {H : Hand}

theorem State.Leads.refl (s : State) : State.Leads c ok s s := fun _ => .refl

theorem State.Leads.trans (h : State.Leads c ok s t) (k : State.Leads c ok t u) : State.Leads c ok s u :=
  fun H => (h H).trans (k H)

theorem State.Leads.of_move (h : ∀ H : Hand, Move c ok (H, s) (H, t)) : State.Leads c ok s t :=
  fun H => .single (h H)

theorem Run.of_move {x y : Hand × State} (h : Move c ok x y) : Run c ok x y := .single h

/-- Two changes that take a thing in hand and give it back. -/
theorem Run.step {x y z : Hand × State} (h : Move c ok x y) (k : Run c ok y z) : Run c ok x z := .head h k

/-! ## Parts that no law tells apart -/

theorem PortState.Alike.refl (P : PortState) : P.Alike P :=
  ⟨rfl, rfl, rfl, rfl, rfl, rfl, rfl, rfl, rfl, .inl rfl, .inl rfl⟩

theorem Slot.Alike.refl (x : Slot) : x.Alike x := ⟨rfl, rfl, rfl, rfl, rfl⟩

theorem State.Alike.refl (s : State) : s.Alike s :=
  ⟨rfl, rfl, rfl, fun _ => .refl _, id, rfl, rfl, rfl, rfl, rfl, rfl, rfl, rfl, fun _ => .inl rfl, rfl, fun _ => id,
    fun _ => .refl _, rfl, rfl, rfl, rfl, rfl, rfl, rfl, rfl⟩

theorem State.Alike.leads (h : s.Alike t) : State.Leads c ok s t := .of_move fun _ => .alike h

/-- A change of one port that no law reads. -/
theorem State.alike_onPort (s : State) (p : Port) (f : PortState → PortState) (h : (s.ports[p]).Alike (f s.ports[p])) :
    s.Alike (s.onPort p f) := by
  refine { State.Alike.refl s with ports := fun q => ?_ }
  by_cases hq : q = p
  · subst hq
    rw [show (s.onPort q f).ports[q] = f s.ports[q] by simp]; exact h
  · rw [State.onPort_get_ne s f hq]; exact .refl _

theorem PortState.alike_ctr (P : PortState) (ctr : PortCounters) : P.Alike { P with ctr := ctr } :=
  ⟨rfl, rfl, rfl, rfl, rfl, rfl, rfl, rfl, rfl, .inl rfl, .inl rfl⟩

theorem State.tally_leads (s : State) (p : Port) (k : PortCounter) : State.Leads c ok s (s.tally p k) :=
  (State.alike_onPort s p _ (PortState.alike_ctr _ _)).leads

theorem State.putBytes_leads (s : State) (b : BufNo) (pos : Nat) (vs : List Byte) :
    State.Leads c ok s (s.putBytes b pos vs) :=
  State.Alike.leads { State.Alike.refl s with mem := fun h => Memory.writeMany_wf _ _ h }

theorem State.putPayload_leads (s : State) (b : BufNo) (pl : List Byte) : State.Leads c ok s (s.putPayload b pl) :=
  (State.putBytes_leads s b 4 _).trans (State.putBytes_leads _ b 5 _)

/-! ## References and reports -/

theorem State.release_run (s : State) (H : Hand) (b : BufNo) : Run c ok (H.ref b, s) (H, s.release b) :=
  .single (.release b)

theorem State.releaseSole_run (s : State) (H : Hand) (b : BufNo) : Run c ok (H.sole b, s) (H, s.release b) :=
  .step (.share b) (State.release_run s H b)

theorem State.report_leads (s : State) (b : BufNo) : State.Leads c ok s (s.report b) := by
  unfold State.report
  split
  · next r hr =>
    split
    · exact .of_move fun _ => .mark (by rw [hr]; rfl)
    · exact .refl s
  · exact .refl s

theorem State.reportEntry_leads (s : State) (e : Entry) : State.Leads c ok s (s.reportEntry e) := by
  unfold State.reportEntry
  split
  · exact State.report_leads s e.buf
  · exact .refl s

/-- An entry that has left its queue: its reference ends, and a RESPONSE is reported (R16, R17, R100, R107). -/
theorem State.leaveEntry_run (s : State) (H : Hand) (e : Entry) :
    Run c ok (H.ref e.buf, s) (H, (s.release e.buf).reportEntry e) :=
  (State.release_run s H e.buf).trans (State.reportEntry_leads _ e H)

theorem State.releaseEntries_run : ∀ (es : List Entry) (s : State) (H : Hand),
    Run c ok (H.refs (es.map (·.buf)), s) (H, s.releaseEntries es)
  | [], _, _ => .refl
  | e :: es, s, H =>
    (State.leaveEntry_run s (H.refs (es.map (·.buf))) e).trans (State.releaseEntries_run es _ H)

theorem State.flush_leads (s : State) (p : Port) : State.Leads c ok s (s.flush p) :=
  fun H => .step (.flush p) (State.releaseEntries_run _ _ H)

/-! ## Claims outlast what sends -/

theorem State.SendFrame.claimed {b : BufNo} (h : s.SendFrame t) (k : s.Claimed H b) : t.Claimed H b := by
  obtain ⟨-, -, -, -, -, -, hs, ha, -, hd, -⟩ := h.tables
  cases k with
  | disposal p d h hb => exact .disposal p d (by rw [hd]; exact h) hb
  | hold n x h hb => exact .hold n x (by rw [hs]; exact h) hb
  | request r h hb => exact .request r (by rw [ha]; exact h) hb
  | hand h => exact .hand h

theorem State.SendFrame.link (h : s.SendFrame t) (p : Port) : t.ports[p].link = s.ports[p].link := by
  obtain ⟨_, _, _, _, hp⟩ := h.ports p
  rw [hp]

theorem State.SendFrame.rx (h : s.SendFrame t) (p : Port) : t.ports[p].rx = s.ports[p].rx := by
  obtain ⟨_, _, _, _, hp⟩ := h.ports p
  rw [hp]

/-! ## Service (R99, R100) -/

/-- What an expired head leaves of its port but for its queues (R100). -/
theorem State.expireHead_port (s : State) (p : Port) (e : Entry) :
    (s.expireHead p e).ports[p].tx = s.ports[p].tx ∧ (s.expireHead p e).ports[p].link = s.ports[p].link := by
  obtain ⟨more, hm⟩ :=
    (State.release_frame (s.onPort p fun P => (P.dropHead e.hdr.cls).tally .qExpired) e.buf).ports p
  rw [State.expireHead, State.reportEntry_ports, hm]
  simp

theorem State.expireHead_leads (p : Port) (e : Entry) (htx : s.ports[p].tx = .idle)
    (htop : s.ports[p].topHead = some e) : State.Leads c ok s (s.expireHead p e) :=
  fun H => .step (.expire p e htx htop) (State.leaveEntry_run _ H e)

theorem State.choose_leads : ∀ (fuel : Nat) (p : Port) (s : State), s.ports[p].tx = .idle → s.ports[p].link = .up →
    State.Leads c ok s (State.choose fuel p s)
  | 0, _, s, _, _ => .refl s
  | fuel + 1, p, s, htx, hup => by
    unfold State.choose
    split
    · exact .refl s
    · next e htop =>
      split
      · have hx := State.expireHead_leads (c := c) (ok := ok) p e htx htop
        obtain ⟨htx', hup'⟩ := State.expireHead_port s p e
        split
        · exact hx
        · exact hx.trans (State.choose_leads fuel p _ (htx'.trans htx) (hup'.trans hup))
      · exact .of_move fun _ => .send p e htx htop hup

theorem State.isUp_iff (s : State) (p : Port) : s.isUp p = true ↔ s.ports[p].link = .up := decide_eq_true_iff

theorem State.eligible_iff (s : State) (p : Port) : s.eligible p = true ↔
    s.ports[p].link = .up ∧ s.ports[p].partnerHold = false ∧ s.ports[p].tx = .idle ∧ s.resetDue = false := by
  simp [State.eligible, State.isUp, and_assoc]

theorem State.askNext_leads (s : State) (p : Port) : State.Leads c ok s (s.askNext p) := by
  unfold State.askNext
  split
  · next h =>
    obtain ⟨hup, -, htx, -⟩ := (s.eligible_iff p).1 h
    exact State.choose_leads _ p s htx hup
  · exact .refl s

/-! ## Attempts (R94 to R97) -/

theorem State.accept_run {p : Port} {b : BufNo} {h : Header} {o : Origin} (hup : s.isUp p = true)
    (hroom : s.ports[p].queues[h.cls].length < 16) (hb : s.Claimed H b)
    (ho : o = .transit → Disposes c ∧ s.Forwards p b) : Run c ok (H, s) (H, s.accept p b h o) :=
  .step (.join p b h o ((s.isUp_iff p).1 hup) hroom hb ho) (State.askNext_leads _ p H)

theorem State.enqueue_run {p : Port} {b : BufNo} {h : Header} {o : Origin} (hb : s.Claimed H b)
    (ho : o = .transit → Disposes c ∧ s.Forwards p b) : Run c ok (H, s) (H, (s.enqueue p b h o).1) := by
  obtain ⟨-, hx⟩ | ⟨-, -, hx⟩ | ⟨hup, hroom, hx⟩ := s.enqueue_cases p b h o
  · rw [hx]
  · rw [hx]; exact State.tally_leads s p _ H
  · rw [hx]; exact State.accept_run hup hroom hb ho

theorem State.attempt_run {p : Port} {b : BufNo} {h : Header} {o : Origin} (hb : s.Claimed H b)
    (ho : o = .transit → Disposes c ∧ s.Forwards p b) : Run c ok (H, s) (H, s.attempt p b h o) := by
  obtain ⟨-, hx⟩ | ⟨-, -, hx⟩ | ⟨hup, hroom, hx⟩ := s.attempt_cases p b h o <;> rw [hx]
  · exact State.tally_leads s p _ H
  · exact State.tally_leads s p _ H
  · exact State.accept_run hup hroom hb ho

theorem State.attemptAll_run {b : BufNo} {h : Header} {o : Origin} (ho : o ≠ .transit) : ∀ (ports : List Port)
    (s : State), s.Claimed H b → Run c ok (H, s) (H, s.attemptAll ports b h o)
  | [], _, _ => .refl
  | p :: ps, s, hb => by
    show Run c ok (H, s) (H, (if s.resetDue then s else s.attempt p b h o).attemptAll ps b h o)
    split
    · exact State.attemptAll_run ho ps s hb
    · exact (State.attempt_run hb fun k => absurd k ho).trans
        (State.attemptAll_run ho ps _ ((s.attempt_sends p b h o).claimed hb))

/-! ## Pops (R26, R31, R32) -/

/-- What follows a pop: the marks of the episode, and at most one raise. -/
theorem State.episodeAfterPop_cases (raise : NoticeKind → BitVec 32 → State → State) (s : State) :
    s.episodeAfterPop raise = s.popMarked ∨
      ∃ kind detail, (kind = .bufferLow ∨ kind = .bufferEmpty) ∧ s.episodeAfterPop raise = raise kind detail s.popMarked := by
  unfold State.episodeAfterPop State.popMarked
  split
  · exact .inr ⟨.bufferLow, _, .inl rfl, rfl⟩
  · split
    · exact .inr ⟨.bufferEmpty, _, .inr rfl, rfl⟩
    · exact .inl rfl

/-- A pop with notices taken or raised as `raise` does. -/
theorem State.takeTop_run {raise : NoticeKind → BitVec 32 → State → State} {b : BufNo} (hu : s.takeTop = some (b, u))
    (hr : ∀ kind detail v, kind = .bufferLow ∨ kind = .bufferEmpty → State.Leads c ok v (raise kind detail v)) :
    Run c ok (H, s) (H.sole b, u.episodeAfterPop raise) := by
  refine .step (.pop b hu) ?_
  obtain hx | ⟨kind, detail, hk, hx⟩ := u.episodeAfterPop_cases raise <;> rw [hx]
  exact hr kind detail _ hk _

/-! ## Delivery and raises (R174 to R178) -/

theorem State.note_leads (s : State) {kind : NoticeKind} {subject : Byte} {detail : BitVec 32}
    (hk : kind ≠ .noticesLost) (hw : subject.toNat < kind.subjects) :
    State.Leads c ok s (s.note kind subject detail) := .of_move fun _ => .take kind subject detail hk hw

theorem State.popQuietly_run {b : BufNo} (h : s.popQuietly = some (b, t)) : Run c ok (H, s) (H.sole b, t) := by
  obtain ⟨⟨_, u⟩, hu, hx⟩ := Option.map_eq_some_iff.mp h
  cases hx
  refine State.takeTop_run hu fun kind detail v hk => State.note_leads v ?_ ?_ <;> rcases hk with rfl | rfl <;> decide

theorem State.sendEventFrame_run (s : State) (b : BufNo) : Run c ok (H.sole b, s) (H, s.sendEventFrame b) := by
  have hput := State.putPayload_leads (c := c) (ok := ok) s b (eventPayload s.events.carried) (H.ref b)
  have hsend := State.enqueue_run (c := c) (ok := ok) (s := s.putPayload b (eventPayload s.events.carried))
    (H := H.ref b) (p := s.agent.session.eventPort) (b := b) (h := s.relayHeader s.agent.session.replyLabel)
    (o := .event) (.hand (by simp [Hand.ref])) fun h => by cases h
  exact .step (.share b) ((hput.trans hsend).trans (State.release_run _ _ _))

theorem State.deliver_leads (s : State) : State.Leads c ok s s.deliver := by
  intro H
  unfold State.deliver
  split
  · exact .single .arm
  · next b t h => exact ((State.popQuietly_run h).trans (State.sendEventFrame_run t b)).trans (.single .arm)

theorem State.tryDeliver_leads (s : State) : State.Leads c ok s s.tryDeliver := by
  unfold State.tryDeliver
  split
  · exact State.deliver_leads s
  · exact .refl s

/-- A raise of a block, taken or left to wait: one of a block's kinds with a subject it has (R173, R174). -/
theorem State.raise_leads (s : State) {kind : NoticeKind} {subject : Byte} {detail : BitVec 32}
    (hk : kind ≠ .noticesLost) (hd : kind ≠ .resetDone) (hw : subject.toNat < kind.subjects) :
    State.Leads c ok s (s.raise kind subject detail) := by
  unfold State.raise
  split
  · exact .of_move fun _ => .wait _ (by simp [Raise.wf, hk, hd, hw]) rfl
  · have ht : State.Leads c ok s (s.note kind subject detail) := State.note_leads s hk hw
    unfold State.takeRaise
    split
    · exact ht.trans (State.tryDeliver_leads _)
    · exact ht

theorem State.pop_run {b : BufNo} (h : s.pop = some (b, t)) : Run c ok (H, s) (H.sole b, t) := by
  obtain ⟨⟨_, u⟩, hu, hx⟩ := Option.map_eq_some_iff.mp h
  cases hx
  refine State.takeTop_run hu fun kind detail v hk => State.raise_leads v ?_ ?_ ?_ <;>
    rcases hk with rfl | rfl <;> decide

end

end Sys2Proof.Machine
end

