-- ==== Sys2Proof/Proofs/RunsParts.lean ====
section
/-! SUPPORT. The operations of the Supervision Slots, of the resets, of dispositions and of the Link Ports as sequences of
primitive changes. -/

namespace Sys2Proof.Machine

/-! ## Numbers -/

theorem portByte_lt (p : Port) : (BitVec.ofNat 8 p.val).toNat < 4 := by
  simp only [BitVec.toNat_ofNat]; omega

theorem slotByte_lt (n : SlotNo) : (BitVec.ofNat 8 n.val).toNat < 32 := by
  simp only [BitVec.toNat_ofNat]; omega

/-- A deadline less than half the counter's range ahead lies ahead (R78). -/
theorem later_add {now k : Tick} (h0 : 0 < k.toNat) (h : k.toNat < 2 ^ 31) : later now (now + k) := by
  have hk : now + k - now = k := by rw [BitVec.add_comm]; exact BitVec.add_sub_cancel k now
  rw [later, hk, BitVec.toInt_eq_toNat_of_lt (by omega)]
  omega

/-- A deadline that is reached and does not lie behind is now (R78). -/
theorem eq_now_of_reached {now d : Tick} (hr : reached now d = true) (ha : 0 ≤ (d - now).toInt) : d = now := by
  have h1 : 0 ≤ (now - d).toInt := by simpa [reached] using hr
  rw [BitVec.toInt_eq_toNat_cond] at h1 ha
  apply BitVec.eq_of_toNat_eq
  have hd := d.isLt
  have hn := now.isLt
  rw [BitVec.toNat_sub] at h1 ha
  split at h1 <;> split at ha <;> omega

/-! ## Port sets -/

theorem PortSet.has_without (m : PortSet) (p q : Port) :
    PortSet.has (PortSet.without m p) q = (PortSet.has m q && decide (q ≠ p)) := by
  match p, q with
  | 0, 0 | 0, 1 | 0, 2 | 0, 3 | 1, 0 | 1, 1 | 1, 2 | 1, 3 | 2, 0 | 2, 1 | 2, 2 | 2, 3 | 3, 0 | 3, 1 | 3, 2 | 3, 3 =>
    simp [PortSet.has, PortSet.without]

theorem PortSet.has_ofPred (f : Port → Bool) (p : Port) : PortSet.has (PortSet.ofPred f) p = f p := by
  unfold PortSet.ofPred PortSet.has
  match p with
  | 0 | 1 | 2 | 3 => cases f 0 <;> cases f 1 <;> cases f 2 <;> cases f 3 <;> rfl

theorem PortSet.mem_ports {m : PortSet} {p : Port} : p ∈ PortSet.ports m ↔ PortSet.has m p = true := by
  rw [PortSet.ports, List.mem_filter]
  exact ⟨fun h => h.2, fun h => ⟨by match p with | 0 | 1 | 2 | 3 => simp [Port.all], h⟩⟩

section
variable {c : Option Instr} {ok : Prop} {s t u : State} {H : Hand}

theorem State.onPort_congr {p : Port} {f g : PortState → PortState} (h : f s.ports[p] = g s.ports[p]) :
    s.onPort p f = s.onPort p g := by
  unfold State.onPort; rw [h]

theorem State.onPort_get (s : State) (p : Port) (f : PortState → PortState) :
    (s.onPort p f).ports[p] = f s.ports[p] := by simp

theorem State.onSlot_get (s : State) (n : SlotNo) (f : Slot → Slot) :
    (s.onSlot n f).slots[n] = f s.slots[n] := by simp

theorem State.SendFrame.slot (h : s.SendFrame t) (n : SlotNo) : t.slots[n] = s.slots[n] := by
  obtain ⟨-, -, -, -, -, -, hs, -⟩ := h.tables
  exact congrArg (·[n]) hs

/-! ## Supervision Slots (chapter 7) -/

theorem State.releaseHeld_run (s : State) (H : Hand) (x : Option Held) :
    Run c ok (H.refs (heldBufs x), s) (H, s.releaseHeld x) := by
  cases x with
  | none => exact .refl
  | some h => exact State.release_run s H h.buf

/-- A change of a slot that keeps its hold. -/
theorem State.setSlot_leads {n : SlotNo} {y : Slot} (hy : Slot.Step s.now s.slots[n] y)
    (hh : y.held = s.slots[n].held) : State.Leads c ok s (s.setSlot n y) :=
  .of_move fun H => .slot n y H.shared hy (by rw [hh])

theorem State.onSlot_alike (s : State) (n : SlotNo) (f : Slot → Slot) (h : (s.slots[n]).Alike (f s.slots[n])) :
    s.Alike (s.onSlot n f) := by
  refine { State.Alike.refl s with slots := fun m => ?_ }
  by_cases hm : m = n
  · subst hm; rw [State.onSlot_get]; exact h
  · rw [State.onSlot_get_ne s f hm]; exact .refl _

theorem State.countArrival_leads (s : State) (n : SlotNo) : State.Leads c ok s (s.countArrival n) := by
  unfold State.countArrival
  split
  · exact (State.onSlot_alike s n _ ⟨rfl, rfl, rfl, rfl, rfl⟩).leads.trans
      (State.raise_leads _ (by decide) (by decide) (slotByte_lt n))
  · exact (State.onSlot_alike s n _ ⟨rfl, rfl, rfl, rfl, rfl⟩).leads

/-- What counting an arrival leaves: the slot but for its counters, and everything attempts and raises leave. -/
theorem State.countArrival_frame (s : State) (n : SlotNo) :
    (s.countArrival n).now = s.now ∧ (s.countArrival n).disposing = s.disposing ∧
      (s.slots[n]).Alike ((s.countArrival n).slots[n]) := by
  unfold State.countArrival
  split
  · have hr := State.raise_sends
      (s.onSlot n fun x => { x with arrivals := bump x.arrivals, recoveries := bump x.recoveries }) .slotRecovered
      (BitVec.ofNat 8 n.val) (BitVec.ofNat 32 s.slots[n].miss)
    obtain ⟨-, -, hn, -, -, -, -, -, -, hd, -⟩ := hr.tables
    refine ⟨hn, hd, ?_⟩
    rw [hr.slot n, State.onSlot_get]
    exact ⟨rfl, rfl, rfl, rfl, rfl⟩
  · refine ⟨rfl, rfl, ?_⟩
    rw [State.onSlot_get]
    exact ⟨rfl, rfl, rfl, rfl, rfl⟩

theorem Slot.Alike.law {x y : Slot} (h : x.Alike y) : y.FreshnessLaw ↔ x.FreshnessLaw := by
  unfold Slot.FreshnessLaw
  rw [h.cfg, h.state, h.deadline, h.miss, h.held]

theorem ticks16_lt (a : BitVec 16) : (a.setWidth 32 : Tick).toNat = a.toNat ∧ a.toNat < 65536 := by
  refine ⟨?_, a.isLt⟩
  rw [BitVec.toNat_setWidth]
  exact Nat.mod_eq_of_lt (lt_trans a.isLt (by decide))

theorem ticks16_pos {a : BitVec 16} (h : a ≠ 0) : 0 < a.toNat := by
  rcases Nat.eq_zero_or_pos a.toNat with h0 | h0
  · exact absurd (BitVec.eq_of_toNat_eq (by simpa using h0)) h
  · exact h0

/-- An arrival at an armed slot makes it FRESH with a deadline ahead (R120). -/
theorem Slot.freshened_step {now : Tick} {x : Slot} (h : x.state ≠ .off) : Slot.Step now x (x.freshened now) where
  law := fun ⟨hw, hp, _, _⟩ => ⟨hw, fun _ => hp h, fun _ => .inl rfl, rfl, rfl⟩
  deadline := fun ⟨_, hp, _, _⟩ _ d hd => by
    cases hd
    refine .inr ?_
    rw [BitVec.add_assoc]
    obtain ⟨hpn, hpl⟩ := ticks16_lt x.cfg.period
    obtain ⟨hgn, hgl⟩ := ticks16_lt x.cfg.grace
    have := ticks16_pos (hp h)
    apply later_add <;> rw [BitVec.toNat_add] <;> omega

theorem Slot.held_step {now : Tick} {x : Slot} {h : Option Held} (hs : x.state = .fresh ∨ x.state = .late ∨ h = none) :
    Slot.Step now x { x with held := h } where
  law := fun ⟨hw, hp, _, hm⟩ => by
    refine ⟨hw, hp, fun k => ?_, hm⟩
    rcases hs with hs | hs | hs
    · exact .inl hs
    · exact .inr hs
    · simp [hs] at k
  deadline := fun _ _ _ hd => .inl hd

theorem State.takeHold_run {n : SlotNo} {h : Held} (hb : s.Claimed H h.buf) (hf : s.slots[n].state = .fresh) :
    Run c ok (H, s) (H, s.takeHold n h) := by
  have hslots : (s.addRef h.buf).slots = s.slots := (State.addRef_frame s h.buf).tables.2.2.2.2.2.2.1
  refine .step (.addRef h.buf hb) (.step
    (.slot n { (s.addRef h.buf).slots[n] with held := some h } (heldBufs s.slots[n].held ++ H.shared) ?_ ?_) ?_)
  · exact Slot.held_step (.inl (by rw [hslots]; exact hf))
  · have hh : (s.addRef h.buf).slots[n].held = s.slots[n].held := congrArg (·[n].held) hslots
    rw [hh]
    show (h.buf :: (heldBufs s.slots[n].held ++ H.shared)).Perm (heldBufs s.slots[n].held ++ h.buf :: H.shared)
    exact List.perm_middle.symm
  · exact State.releaseHeld_run _ H _

theorem State.arrive_run {p : Port} {d : Disposal} {n : SlotNo} {hold : Option Held} (hd : s.disposing[p] = some d)
    (hb : ∀ h, hold = some h → h.buf = d.buf) : Run c ok (H, s) (H, s.arrive n hold) := by
  unfold State.arrive
  split
  · exact .refl
  · next hoff =>
    have hcount := State.countArrival_leads (c := c) (ok := ok) s n H
    obtain ⟨hnow, hdis, halike⟩ := s.countArrival_frame n
    have hfresh : Run c ok (H, s) (H, (s.countArrival n).onSlot n (·.freshened s.now)) := by
      have hstep : Slot.Step (s.countArrival n).now (s.countArrival n).slots[n]
          ((s.countArrival n).slots[n].freshened s.now) := by
        rw [← hnow]
        exact Slot.freshened_step (by rw [halike.state]; exact hoff)
      exact hcount.trans (State.setSlot_leads hstep rfl H)
    split
    · next h =>
      split
      · refine hfresh.trans (State.takeHold_run (.disposal p d ?_ (hb h rfl).symm) ?_)
        · exact (congrArg (·[p]) hdis).trans hd
        · rw [State.onSlot_get]; rfl
      · exact hfresh
    · exact hfresh

theorem State.emitSubstitute_run {n : SlotNo} {h : Held} (hh : s.slots[n].held = some h) :
    Run c ok (H, s) (H, s.emitSubstitute n h) := by
  refine ((State.onSlot_alike s n _ ⟨rfl, rfl, rfl, rfl, rfl⟩).leads H).trans
    (State.attemptAll_run (by decide) _ _ (.hold n h ?_ rfl))
  rw [State.onSlot_get]; exact hh

theorem State.slotDue_iff (s : State) (n : SlotNo) : s.slotDue n = true ↔
    (s.slots[n].state = .fresh ∨ s.slots[n].state = .late) ∧ due s.now s.slots[n].deadline = true := by
  simp [State.slotDue]

/-- A slot LATE after a miss (R124). -/
def Slot.late (x : Slot) : Slot :=
  { x with
    misses := bump x.misses, miss := x.miss + 1, state := .late
    deadline := x.deadline.map (· + x.cfg.period.setWidth 32) }

/-- A slot LOST after a miss (R125). -/
def Slot.lost (x : Slot) : Slot :=
  { x with misses := bump x.misses, miss := x.miss + 1, state := .lost, deadline := none, held := none }

/-- The deadline of a slot that is LATE lies one period after the one reached, and so ahead (R124). -/
theorem Slot.late_deadline {now : Tick} {x : Slot} (hs : x.state = .fresh ∨ x.state = .late) (hd : due now x.deadline = true)
    (hx : x.FreshnessLaw) (ha : ahead now x.deadline) (d : Tick) (h : x.late.deadline = some d) : later now d := by
  obtain ⟨_, hp, _, _⟩ := hx
  obtain ⟨e, he, rfl⟩ := Option.map_eq_some_iff.1 h
  rw [he] at hd
  rw [eq_now_of_reached hd (ha e he)]
  obtain ⟨hpn, hpl⟩ := ticks16_lt x.cfg.period
  have := ticks16_pos (hp (by rcases hs with h | h <;> simp [h]))
  exact later_add (by omega) (by omega)

/-- A miss short of the loss count makes the slot LATE (R124). -/
theorem Slot.late_step {now : Tick} {x : Slot} (hs : x.state = .fresh ∨ x.state = .late)
    (hd : due now x.deadline = true) (hm : x.miss + 1 < x.cfg.lossCount) : Slot.Step now x x.late where
  law := fun ⟨hw, hp, _, hx⟩ => by
    have hdl : x.deadline.isSome = true := by
      rcases hs with h | h <;> rw [h] at hx <;> exact hx.1
    exact ⟨hw, fun _ => hp (by rcases hs with h | h <;> simp [h]), fun _ => .inr rfl, by simpa [Slot.late] using hdl,
      by simp [Slot.late], hm⟩
  deadline := fun hx ha d h => .inr (Slot.late_deadline hs hd hx ha d h)

/-- The miss that reaches the loss count makes the slot LOST (R125). -/
theorem Slot.lost_step {now : Tick} {x : Slot} (hs : x.state = .fresh ∨ x.state = .late)
    (hm : ¬ x.miss + 1 < x.cfg.lossCount) : Slot.Step now x x.lost where
  law := fun ⟨hw, hp, _, hx⟩ => by
    have hne : x.cfg.period ≠ 0 := hp (by rcases hs with h | h <;> simp [h])
    have hloss : 1 ≤ x.cfg.lossCount := by
      simp only [SlotConfig.wf, Bool.or_eq_true, Bool.and_eq_true, decide_eq_true_eq] at hw
      rcases hw with hw | ⟨⟨_, h⟩, _⟩
      · rw [hw] at hne; exact absurd rfl hne
      · exact h.1
    have hmiss : x.miss + 1 = x.cfg.lossCount := by
      rcases hs with h | h <;> rw [h] at hx
      · have := hx.2; omega
      · have := hx.2; omega
    exact ⟨hw, fun _ => hne, (fun k => by cases k), rfl, .inr hmiss⟩
  deadline := fun _ _ d h => by cases h

theorem State.slotLate_leads {n : SlotNo} (hd : s.slotDue n = true) (hm : s.slots[n].miss + 1 < s.slots[n].cfg.lossCount) :
    State.Leads c ok s (s.setSlot n s.slots[n].late) := by
  obtain ⟨hs, hdue⟩ := (s.slotDue_iff n).1 hd
  exact State.setSlot_leads (Slot.late_step hs hdue hm) rfl

/-- What follows once the slot is LATE: the first miss's notice, and the substitute (R124, R126). -/
theorem State.missLate_leads (n : SlotNo) : State.Leads c ok (s.setSlot n s.slots[n].late) (s.missLate n) := by
  intro H
  unfold State.missLate Slot.late
  dsimp only
  generalize hy : s.setSlot n _ = y
  have hslot : y.slots[n].held = s.slots[n].held := by rw [← hy]; simp
  have hraise : ∀ v, v = (if s.slots[n].state = .fresh then
      y.raise .slotLate (BitVec.ofNat 8 n.val) s.slots[n].lastArrival else y) →
      Run c ok (H, y) (H, v) ∧ v.slots[n].held = s.slots[n].held := by
    rintro v rfl
    split
    · refine ⟨State.raise_leads _ (by decide) (by decide) (slotByte_lt n) H, ?_⟩
      exact (congrArg Slot.held ((State.raise_sends y .slotLate (BitVec.ofNat 8 n.val)
        s.slots[n].lastArrival).slot n)).trans hslot
    · exact ⟨.refl, hslot⟩
  obtain ⟨hrun, hheld⟩ := hraise _ rfl
  split
  · next h hh =>
    split
    · exact hrun.trans (State.emitSubstitute_run (hheld.trans hh))
    · exact hrun
  · exact hrun

theorem State.slotLost_run {n : SlotNo} (hd : s.slotDue n = true)
    (hm : ¬ s.slots[n].miss + 1 < s.slots[n].cfg.lossCount) :
    Run c ok (H, s) (H.refs (heldBufs s.slots[n].held), s.setSlot n s.slots[n].lost) :=
  .single (.slot n _ (heldBufs s.slots[n].held ++ H.shared) (Slot.lost_step ((s.slotDue_iff n).1 hd).1 hm) (.refl _))

/-- What follows once the slot is LOST: the end of its hold, and its notice (R125). -/
theorem State.missLost_run (n : SlotNo) :
    Run c ok (H.refs (heldBufs s.slots[n].held), s.setSlot n s.slots[n].lost) (H, s.missLost n) :=
  (State.releaseHeld_run _ H _).trans (State.raise_leads _ (by decide) (by decide) (slotByte_lt n) H)

theorem State.slotMiss_leads {n : SlotNo} (hd : s.slotDue n = true) : State.Leads c ok s (s.slotMiss n) := by
  unfold State.slotMiss
  split
  · next hm => exact (State.slotLate_leads hd hm).trans (State.missLate_leads n)
  · next hm => exact fun H => (State.slotLost_run hd hm).trans (State.missLost_run n)

theorem State.windowExpired_iff (s : State) (n : SlotNo) : s.windowExpired n = true ↔
    s.slots[n].state = .waiting ∧ due s.now s.slots[n].deadline = true := by
  simp [State.windowExpired]

/-- The start window passes in WAITING (R123). -/
theorem Slot.neverSeen_step {now : Tick} {x : Slot} (h : x.state = .waiting) :
    Slot.Step now x { x with state := .lost, deadline := none } where
  law := fun ⟨hw, hp, hh, hx⟩ => by
    rw [h] at hx hh
    exact ⟨hw, fun _ => hp (by simp [h]), fun k => by simpa using hh k, rfl, .inl hx.2⟩
  deadline := fun _ _ d hd => by cases hd

theorem State.slotNeverSeen_leads {n : SlotNo} (h : s.windowExpired n = true) :
    State.Leads c ok s (s.slotNeverSeen n) :=
  (State.setSlot_leads (Slot.neverSeen_step ((s.windowExpired_iff n).1 h).1) rfl).trans
    (State.raise_leads _ (by decide) (by decide) (slotByte_lt n))

/-! ## The resets (R148) -/

theorem State.finish_run (s : State) : Run c ok (Hand.empty, s) (Hand.empty, s.finish) := by
  unfold State.finish
  split
  · split
    · next r hr =>
      cases hs : r.scope with
      | full => exact .single (.full r hr hs)
      | forwarding =>
        exact .step (.forwarding r hr hs) ((State.note_leads _ (by decide) (by decide) _).trans
          (State.tryDeliver_leads _ _))
    · next hr => exact .single (.unmark hr)
  · exact .refl

theorem State.takeResetLimit_run (s : State) : Run c ok (Hand.empty, s) (Hand.empty, s.takeResetLimit) := by
  unfold State.takeResetLimit
  split
  · next r hr =>
    split
    · exact .step (.mark (by rw [hr]; rfl)) (State.finish_run _)
    · exact .refl
  · exact .refl

theorem State.takeWaiting_run (s : State) (k : Nat) : Run c ok (Hand.empty, s) (Hand.empty, s.takeWaiting k) := by
  unfold State.takeWaiting
  split
  · next r hr =>
    have htake := Run.of_move (c := c) (ok := ok) (.unwait (H := Hand.empty) _ r hr)
    refine Relation.ReflTransGen.trans (b := (Hand.empty, _)) ?_ (State.finish_run _)
    unfold State.takeRaise
    split
    · exact htake.trans (State.tryDeliver_leads _ _)
    · exact htake
  · exact .refl

end

end Sys2Proof.Machine
end

