-- ==== Sys2Proof/Proofs/RunsLink.lean ====
section
/-! SUPPORT. Dispositions and the operations of the Link Ports as sequences of primitive changes. -/

namespace Sys2Proof.Machine

section
variable {c : Option Instr} {ok : Prop} {s t u : State} {H : Hand}

/-! ## Dispositions (R42 to R45) -/

section
variable {p : Port} {d : Disposal}

/-- The end of a disposition in progress (R29, R42). -/
theorem State.endDisposal_run (hc : Disposes c) (hd : s.disposing[p] = some d) :
    Run c ok (H, s) (H, s.endDisposal p d) :=
  .step (.close p d hc hd) (State.release_run _ H _)

/-- A disposition in progress that goes on after changes that leave it. -/
theorem State.goOn_run {d' : Disposal} (hc : Disposes c) (hd : s.disposing[p] = some d) (ht : Run c ok (H, s) (H, t))
    (hk : t.disposing = s.disposing) (hb : d'.buf = d.buf) (hr : d'.received = d.received) (hg : d'.begun = d.begun)
    (hl : d.Law p → d'.Law p) : Run c ok (H, s) (H, t.goOn p d') :=
  ht.tail (.goOn p d d' hc ((congrArg (·[p]) hk).trans hd) hb hr hg hl)

theorem State.endDisposal_run_after (hc : Disposes c) (hd : s.disposing[p] = some d) (ht : Run c ok (H, s) (H, t))
    (hk : t.disposing = s.disposing) : Run c ok (H, s) (H, t.endDisposal p d) :=
  ht.trans (State.endDisposal_run hc ((congrArg (·[p]) hk).trans hd))

theorem State.alike_onRoute (s : State) (f : RouteTable → RouteTable)
    (h : ∀ t : RouteTable, (f t).bankA = t.bankA ∧ (f t).bankB = t.bankB ∧ (f t).active = t.active ∧
      (f t).staging = t.staging ∧ (f t).copier = t.copier) : s.Alike (s.onRoute f) := by
  obtain ⟨hA, hB, ha, hs, hc⟩ := h s.route
  exact { State.Alike.refl s with bankA := hA, bankB := hB, active := ha, staging := hs, copier := hc }

theorem State.alike_onAction (s : State) (f : ActionTable → ActionTable) (h : (f s.action).records = s.action.records) :
    s.Alike (s.onAction f) :=
  { State.Alike.refl s with records := fun i => .inl (congrArg (·[i]) h) }

theorem ActionTable.countResolve_records (t : ActionTable) (r : Resolved) : (t.countResolve r).records = t.records := by
  cases r <;> rfl

theorem State.countDown_get (s : State) (m : PortSet) (p : Port) : (s.countDown m).ports[p] =
    if PortSet.has m p && !s.isUp p then s.ports[p].tally .egressDown else s.ports[p] := by
  simp

theorem State.alike_countDown (s : State) (m : PortSet) : s.Alike (s.countDown m) := by
  refine { State.Alike.refl s with ports := fun p => ?_ }
  rw [State.countDown_get]
  split
  · exact PortState.alike_ctr _ _
  · exact .refl _

/-- A disposition at a stage that sends nothing keeps its law with the port sets it has. -/
theorem Disposal.law_silent (he : PortSet.has d.egress p = false) (hd : PortSet.has d.directed p = false)
    (hs : d.stage ≠ .enqueue ∧ d.stage ≠ .bucket ∧ d.stage ≠ .arrival) : d.Law p :=
  ⟨he, hd, fun h => absurd h hs.1, fun h => h.elim (absurd · hs.2.1) (absurd · hs.2.2)⟩

theorem State.stageLookup_run (hc : Disposes c) (hd : s.disposing[p] = some d) :
    Run c ok (H, s) (H, s.stageLookup p d) := by
  have hplain : ∀ f : Disposal → Disposal, (f d).egress = d.egress → (f d).directed = d.directed →
      (f d).stage = .resolve ∨ (f d).stage = .ageCheck → d.Law p → (f d).Law p := by
    rintro f he hdir hs ⟨h1, h2, -, -⟩
    exact Disposal.law_silent (he ▸ h1) (hdir ▸ h2) (by rcases hs with hs | hs <;> simp [hs])
  unfold State.stageLookup
  split
  · exact State.goOn_run hc hd .refl rfl rfl rfl rfl
      (hplain (fun d => Disposal.next { d with base := some _ } .resolve) rfl rfl (.inl rfl))
  · split
    · exact State.endDisposal_run_after hc hd ((State.alike_onRoute s
        (fun t => { t with missDropped := bump t.missDropped }) fun _ => ⟨rfl, rfl, rfl, rfl, rfl⟩).leads H) rfl
    · exact State.goOn_run hc hd ((State.alike_onRoute s
        (fun t => { t with missFlooded := bump t.missFlooded }) fun _ => ⟨rfl, rfl, rfl, rfl, rfl⟩).leads H) rfl rfl rfl rfl
        (hplain (·.next .ageCheck) rfl rfl (.inr rfl))

/-- Neither port set a resolve forms holds the ingress port (R69, R71). -/
theorem Disposal.resolveTo_law (d : Disposal) (s : State) (p : Port) (r : ActionRecord) :
    ((d.resolveTo s p r).next .ageCheck).Law p := by
  have hdir : PortSet.has (r.directedSet p) p = false := by simp [ActionRecord.directedSet, PortSet.has_without]
  have hzero : PortSet.has 0 p = false := by simp [PortSet.has]
  refine Disposal.law_silent ?_ ?_ (by simp [Disposal.next])
  · show PortSet.has (if r.disposition = .forward then s.upOf (r.directedSet p) else 0) p = false
    split
    · rw [State.upOf, PortSet.has_ofPred, hdir]; rfl
    · exact hzero
  · show PortSet.has (if r.disposition = .forward then r.directedSet p else 0) p = false
    split
    · exact hdir
    · exact hzero

theorem State.stageResolve_run (hc : Disposes c) (hd : s.disposing[p] = some d) (base : RecordIdx) :
    Run c ok (H, s) (H, s.stageResolve p d base) := by
  have hcount := (State.alike_onAction s (·.countResolve (s.resolve base d.buf d.len))
    (ActionTable.countResolve_records _ _)).leads (c := c) (ok := ok) H
  unfold State.stageResolve
  dsimp only
  split
  · exact State.endDisposal_run_after hc hd hcount rfl
  · exact State.goOn_run hc hd (hcount.trans ((State.alike_countDown _ _).leads H)) rfl rfl rfl rfl
      fun _ => Disposal.resolveTo_law d s p _
  · exact State.goOn_run hc hd (hcount.trans ((State.alike_countDown _ _).leads H)) rfl rfl rfl rfl
      fun _ => Disposal.resolveTo_law d s p _

/-- A flooded frame goes to every port but its own (R48). -/
theorem Disposal.flood_law (h : d.Law p) (hage : d.received.age ≠ 0) : ((d.flood s p).next .enqueue).Law p := by
  obtain ⟨-, h2, -, -⟩ := h
  have he : PortSet.has (PortSet.ofPred fun q => decide (q ≠ p) && s.isUp q) p = false := by
    rw [PortSet.has_ofPred]; simp
  exact ⟨he, h2, fun _ => hage, fun h => h.elim (fun h => by cases h) (fun h => by cases h)⟩

theorem State.stageAge_run (hc : Disposes c) (hd : s.disposing[p] = some d) :
    Run c ok (H, s) (H, s.stageAge p d) := by
  have hcount := (State.alike_onRoute s (fun t => { t with ageDropped := bump t.ageDropped })
    fun _ => ⟨rfl, rfl, rfl, rfl, rfl⟩).leads (c := c) (ok := ok) H
  have hrelease : d.Law p → (d.next .release).Law p :=
    fun ⟨h1, h2, _, _⟩ => Disposal.law_silent h1 h2 (by simp [Disposal.next])
  unfold State.stageAge
  split
  · split
    · exact State.goOn_run hc hd hcount rfl rfl rfl rfl hrelease
    · next hage =>
      exact State.goOn_run hc hd .refl rfl rfl rfl rfl fun h => Disposal.flood_law h hage
  · next r hfinal =>
    split
    · split
      · exact State.goOn_run hc hd hcount rfl rfl rfl rfl hrelease
      · next hage =>
        refine State.goOn_run hc hd .refl rfl rfl rfl rfl fun ⟨h1, h2, _, _⟩ => ⟨h1, h2, ?_, ?_⟩
        · intro h; cases h
        · intro _ _ _ _; exact hage
    · next hdrop =>
      refine State.goOn_run hc hd .refl rfl rfl rfl rfl fun ⟨h1, h2, _, _⟩ => ⟨h1, h2, ?_, ?_⟩
      · intro h; cases h
      · intro _ r' hr' hf
        rw [show (d.next .bucket).final = d.final from rfl, hfinal] at hr'
        cases hr'
        exact absurd hf hdrop

theorem Bucket.charge_wf {x : Bucket} (h : x.wf = true) (cost : Nat) : (x.charge cost).1.wf = true := by
  unfold Bucket.charge
  simp only [Bucket.wf, Bool.and_eq_true, Bool.or_eq_true, decide_eq_true_eq] at h ⊢
  split
  · simpa using h
  · next he =>
    have he' : x.enabled = true := by simpa using he
    split <;> simp only [he'] <;> refine ⟨⟨⟨h.1.1.1, h.1.1.2⟩, ?_⟩, .inl trivial⟩ <;> have := h.1.2 <;> omega

theorem State.alike_setBucket (s : State) (n : BucketNo) (x : Bucket) (h : s.buckets[n].wf = true → x.wf = true) :
    s.Alike (s.setBucket n x) := by
  refine { State.Alike.refl s with buckets := fun m hm => ?_ }
  by_cases hmn : m = n
  · subst hmn
    rw [show (s.setBucket m x).buckets[m] = x by simp]; exact h hm
  · rw [show (s.setBucket n x).buckets[m] = s.buckets[m] from vset_get_ne _ _ hmn]; exact hm

theorem State.stageBucket_run {r : ActionRecord} (hc : Disposes c) (hd : s.disposing[p] = some d)
    (hs : d.stage = .bucket) : Run c ok (H, s) (H, s.stageBucket p d r) := by
  have hlaw : ∀ d' : Disposal, d'.egress = d.egress → d'.directed = d.directed → d'.stage = .arrival →
      d'.final = d.final → d'.received = d.received → d.Law p → d'.Law p := by
    rintro d' he hdir hst hf hr ⟨h1, h2, -, h4⟩
    have hne : d'.stage ≠ .enqueue := by simp [hst]
    refine ⟨he ▸ h1, hdir ▸ h2, fun h => absurd h hne, fun _ r hr' hfw => ?_⟩
    rw [hr]
    exact h4 (.inl hs) r (hf ▸ hr') hfw
  unfold State.stageBucket
  split
  · exact State.goOn_run hc hd .refl rfl rfl rfl rfl (hlaw _ rfl rfl rfl rfl rfl)
  · next n _ =>
    have hcharge := (State.alike_setBucket s n (s.buckets[n].charge (frameCost d.len)).1
      fun h => Bucket.charge_wf h _).leads (c := c) (ok := ok) H
    split
    · next t h =>
      obtain ⟨rfl, -⟩ := Prod.mk.inj h
      exact State.endDisposal_run_after hc hd hcharge rfl
    · next t h =>
      obtain ⟨rfl, -⟩ := Prod.mk.inj h
      exact State.goOn_run hc hd hcharge rfl rfl rfl rfl (hlaw _ rfl rfl rfl rfl rfl)
    · next t h =>
      obtain ⟨rfl, -⟩ := Prod.mk.inj h
      exact State.goOn_run hc hd hcharge rfl rfl rfl rfl (hlaw _ rfl rfl rfl rfl rfl)

theorem State.stageArrival_run {r : ActionRecord} (hc : Disposes c) (hd : s.disposing[p] = some d)
    (hs : d.stage = .arrival) (hf : d.final = some r) : Run c ok (H, s) (H, s.stageArrival p d r) := by
  have harrive : ∀ (hold : Option Held) (t : State), (∀ h, hold = some h → h.buf = d.buf) →
      t = (match r.slot with | none => s | some n => s.arrive n hold) →
      Run c ok (H, s) (H, t) ∧ t.disposing = s.disposing := by
    rintro hold t hb rfl
    split
    · exact ⟨.refl, rfl⟩
    · exact ⟨State.arrive_run hd hb, (State.arrive_abides _ _ _).disposing⟩
  unfold State.stageArrival
  dsimp only
  by_cases hfw : r.disposition = .forward
  · obtain ⟨hrun, hk⟩ := harrive (some d.hold) _ (fun h k => by cases k; rfl) rfl
    simp only [hfw, if_true]
    exact State.goOn_run hc hd hrun hk rfl rfl rfl fun ⟨h1, h2, _, h4⟩ =>
      ⟨h1, h2, fun _ => h4 (.inr hs) r hf hfw, fun h => by rcases h with h | h <;> cases h⟩
  · obtain ⟨hrun, hk⟩ := harrive none _ (fun h k => by cases k) rfl
    simp only [hfw, if_false]
    exact State.goOn_run hc hd hrun hk rfl rfl rfl fun ⟨h1, h2, _, _⟩ =>
      Disposal.law_silent h1 h2 (by simp [Disposal.next])

theorem State.stageEnqueue_run (hc : Disposes c) (hd : s.disposing[p] = some d) (hs : d.stage = .enqueue) :
    Run c ok (H, s) (H, s.stageEnqueue p d) := by
  have hattempt : ∀ (q : Port), q ∈ PortSet.ports d.egress →
      Run c ok (H, s) (H, s.attempt q d.buf d.applied .transit) := fun q hq =>
    State.attempt_run (.disposal p d hd rfl) fun _ => ⟨hc, p, d, hd, rfl, hs, PortSet.mem_ports.1 hq⟩
  have hlaw : ∀ (q : Port) (stage : Stage), stage = .release ∨ stage = .enqueue → d.Law p →
      (Disposal.next { d with egress := PortSet.without d.egress q } stage).Law p := by
    rintro q stage hst ⟨h1, h2, h3, -⟩
    refine ⟨?_, h2, fun _ => h3 hs, fun h => ?_⟩
    · exact (PortSet.has_without _ _ _).trans (by rw [h1]; rfl)
    · rcases hst with rfl | rfl <;> rcases h with h | h <;> cases h
  unfold State.stageEnqueue
  split
  · exact State.endDisposal_run hc hd
  · next q hq =>
    exact State.goOn_run hc hd (hattempt q (by rw [hq]; simp)) (State.attempt_sends _ _ _ _ _).abides.disposing
      rfl rfl rfl (hlaw q _ (.inl rfl))
  · next q _ _ hq =>
    exact State.goOn_run hc hd (hattempt q (by rw [hq]; simp)) (State.attempt_sends _ _ _ _ _).abides.disposing
      rfl rfl rfl (hlaw q _ (.inr rfl))

theorem State.takeStage_run (hc : Disposes c) (hd : s.disposing[p] = some d) :
    Run c ok (H, s) (H, s.takeStage p d) := by
  unfold State.takeStage
  split
  · exact State.stageLookup_run hc hd
  · exact State.stageResolve_run hc hd _
  · exact State.endDisposal_run hc hd
  · exact State.stageAge_run hc hd
  · next hs _ => exact State.stageBucket_run hc hd hs
  · exact State.endDisposal_run hc hd
  · next hs hf => exact State.stageArrival_run hc hd hs hf
  · exact State.endDisposal_run hc hd
  · next hs => exact State.stageEnqueue_run hc hd hs
  · exact State.endDisposal_run hc hd

end

theorem State.takeStages_leads (hc : Disposes c) : ∀ (fuel : Nat) (p : Port) (s : State),
    State.Leads c ok s (State.takeStages fuel p s)
  | 0, _, s => .refl s
  | fuel + 1, p, s => by
    intro H
    unfold State.takeStages
    split
    · exact .refl
    · split
      · exact .refl
      · next d hd => exact (State.takeStage_run hc hd).trans (State.takeStages_leads hc fuel p _ H)

theorem State.dispose_run {p : Port} {b : BufNo} (pace : Pace) (hc : ∃ e, c = some (.rxEnd e))
    (hd : ok → s.disposing[p] = none) : Run c ok (H.sole b, s) (H, s.dispose p b pace) :=
  .step (.dispose p b hc hd) (State.takeStages_leads (.inr (.inr hc)) _ p _ H)

theorem State.settle_run (hc : Disposes c) (s : State) (p : Port) :
    Run c ok (Hand.empty, s) (Hand.empty, s.settle p) := by
  unfold State.settle
  split
  · exact .refl
  · exact (State.takeStages_leads hc _ p s _).trans (State.finish_run _)

theorem State.idleStage_run (hc : Disposes c) (s : State) : Run c ok (Hand.empty, s) (Hand.empty, s.idleStage) := by
  unfold State.idleStage
  split
  · exact .refl
  · exact (State.takeStages_leads hc _ _ s _).trans (State.finish_run _)
  · exact (State.takeStages_leads hc _ _ s _).trans (State.finish_run _)

theorem State.idle_run (hc : Disposes c) (s : State) : Run c ok (Hand.empty, s) (Hand.empty, s.idle) := by
  unfold State.idle
  split
  · exact .single (.copyNext hc.not_commit)
  · exact State.idleStage_run hc s
  · exact State.takeWaiting_run s _
  · split <;> exact State.takeWaiting_run s _
  · split
    · exact State.takeWaiting_run s _
    · exact State.idleStage_run hc s

/-! ## A port leaves UP (R5 to R7, R14, R17) -/

/-- A change of a receive state and of counters. -/
theorem State.setRx_run {p : Port} {f : PortState → PortState} {r : RxState} {ctr : PortCounters} {fresh : List BufNo}
    (hf : f s.ports[p] = { s.ports[p] with rx := r, ctr := ctr })
    (hp : (r.bufs ++ fresh).Perm (s.ports[p].rx.bufs ++ H.fresh)) (hup : s.ports[p].link = .up ∨ r = .idle)
    (hn : ∀ b n, r = .receiving b n → n ≤ 71) (hc : r.bufs = [] ∨ FillsBuffer c) :
    Run c ok (H, s) ({ H with fresh := fresh }, s.onPort p f) := by
  have h := Run.of_move (ok := ok) (.rx (H := H) (s := s) p r ctr fresh hp hup hn hc)
  rwa [State.onPort_congr (f := fun P => { P with rx := r, ctr := ctr }) (g := f) hf.symm] at h

/-- A reception given up: the buffer is in hand, and is given back (R14). -/
theorem State.dropRx_leads {p : Port} {f : PortState → PortState} {r : RxState} {ctr : PortCounters} {b : BufNo}
    {n : Nat} (hrx : s.ports[p].rx = .receiving b n) (hf : f s.ports[p] = { s.ports[p] with rx := r, ctr := ctr })
    (hr : r.bufs = []) (hup : s.ports[p].link = .up ∨ r = .idle) : State.Leads c ok s ((s.onPort p f).release b) := by
  intro H
  have h := State.setRx_run (c := c) (ok := ok) (H := H) (fresh := b :: H.fresh) hf (by rw [hrx, hr]; exact .refl _) hup
    (fun b n h => by rw [h] at hr; cases hr) (.inl hr)
  exact h.trans (State.releaseSole_run _ H b)

/-- The receive state changed where no buffer is filled. -/
theorem State.keepRx_leads {p : Port} {f : PortState → PortState} {r : RxState} {ctr : PortCounters}
    (hrx : s.ports[p].rx.bufs = []) (hf : f s.ports[p] = { s.ports[p] with rx := r, ctr := ctr }) (hr : r.bufs = [])
    (hup : s.ports[p].link = .up ∨ r = .idle) : State.Leads c ok s (s.onPort p f) := fun H =>
  State.setRx_run (fresh := H.fresh) hf (by rw [hrx, hr]) hup (fun b n h => by rw [h] at hr; cases hr) (.inl hr)

theorem State.abandonRx_leads (s : State) (p : Port) : State.Leads c ok s (s.abandonRx p) := by
  unfold State.abandonRx
  split
  · exact .refl s
  · next b n h => exact State.dropRx_leads h rfl rfl (.inr rfl)
  · next h => exact State.keepRx_leads (by rw [h]; rfl) rfl rfl (.inr rfl)
  · next h => exact State.keepRx_leads (by rw [h]; rfl) rfl rfl (.inr rfl)

/-- What giving up a reception leaves of its port: the receive state is IDLE, and only counters and asked symbols differ. -/
theorem State.abandonRx_port (s : State) (p : Port) : ∃ more ctr, (s.abandonRx p).ports[p] =
    { s.ports[p] with rx := .idle, ctr := ctr, asked := s.ports[p].asked ++ more } := by
  unfold State.abandonRx
  split
  · next h => exact ⟨[], s.ports[p].ctr, by rw [← h]; simp⟩
  · next b n h =>
    obtain ⟨more, hm⟩ := (State.release_frame (s.onPort p fun P => { P.tally .rxAborted with rx := .idle }) b).ports p
    exact ⟨more, _, by rw [hm, State.onPort_get]; rfl⟩
  · exact ⟨[], _, by rw [State.onPort_get]; simp; rfl⟩
  · exact ⟨[], s.ports[p].ctr, by rw [State.onPort_get]; simp⟩

theorem State.endTx_run {p : Port} {f : PortState → PortState} {e : Entry} {ctr : PortCounters} {sent : List LineItem}
    (htx : s.ports[p].tx = .sending e)
    (hf : f s.ports[p] = { s.ports[p].endSending e with ctr := ctr, sent := sent })
    (hs : PortState.lastFlow { s.ports[p] with sent := sent } = s.ports[p].lastFlow) :
    Run c ok (H, s) (H, ((s.onPort p f).release e.buf).reportEntry e) := by
  have h := Run.of_move (c := c) (ok := ok) (.endSending (H := H) p e ctr sent htx hs)
  rw [State.onPort_congr (f := fun P => { P.endSending e with ctr := ctr, sent := sent }) (g := f) hf.symm] at h
  exact h.trans (State.leaveEntry_run _ H e)

theorem State.abandonTx_leads (s : State) (p : Port) (abort : Bool) : State.Leads c ok s (s.abandonTx p abort) := by
  unfold State.abandonTx
  split
  · exact .refl s
  · next e h =>
    refine fun H => State.endTx_run (sent := if abort then s.ports[p].sent ++ [.abort] else s.ports[p].sent) h rfl ?_
    cases abort
    · rfl
    · simp [PortState.lastFlow]

/-- What giving up a transmission leaves of its port: the transmit state is IDLE. -/
theorem State.abandonTx_port (s : State) (p : Port) (abort : Bool) : (s.abandonTx p abort).ports[p].tx = .idle ∧
    (s.abandonTx p abort).ports[p].rx = s.ports[p].rx ∧ (s.abandonTx p abort).ports[p].link = s.ports[p].link := by
  unfold State.abandonTx
  split
  · next h => exact ⟨h, rfl, rfl⟩
  · next e h =>
    obtain ⟨more, hm⟩ := (State.release_frame (s.onPort p fun P =>
      { (P.endSending e).tally .txAborted with sent := if abort then P.sent ++ [.abort] else P.sent }) e.buf).ports p
    rw [State.reportEntry_ports, hm, State.onPort_get]
    exact ⟨rfl, rfl, rfl⟩

theorem PortState.unflushed_idle {P : PortState} (h : P.tx = .idle) (k : Class) : P.unflushed k = [] := by
  simp [PortState.unflushed, PortState.sendingMark, h]

/-- After a flush of a port that sends nothing its queues are empty (R105). -/
theorem State.flush_idle {p : Port} (h : s.ports[p].tx = .idle) :
    (∀ k : Class, (s.flush p).ports[p].queues[k] = []) ∧ (s.flush p).ports[p].tx = .idle ∧
      (s.flush p).ports[p].rx = s.ports[p].rx ∧ (s.flush p).ports[p].link = s.ports[p].link := by
  obtain ⟨more, hm⟩ := State.flush_port s p
  rw [hm]
  refine ⟨fun k => ?_, h, rfl, rfl⟩
  show (#v[_, _, _, _] : Vector (List Entry) 4)[k] = []
  simp only [PortState.unflushed_idle h]
  match k with
  | 0 | 1 | 2 | 3 => rfl

/-- The effects of R6 on a port that has left UP. -/
theorem State.dropLink_run {p : Port} (hl : s.ports[p].link ≠ .up) :
    Run c ok (H.leave p, s) (H, s.dropLink p) := by
  obtain ⟨more, ctr, hrx⟩ := s.abandonRx_port p
  obtain ⟨htx, hr, hk⟩ := (s.abandonRx p).abandonTx_port p false
  obtain ⟨hq, htx', hr', hk'⟩ := State.flush_idle htx
  have h := ((State.abandonRx_leads (c := c) (ok := ok) s p).trans (State.abandonTx_leads _ p false)).trans
    (State.flush_leads _ p)
  refine (h (H.leave p)).tail (.left p ?_ ?_ htx' hq)
  · rw [hk', hk, hrx]; exact hl
  · rw [hr', hr, hrx]

theorem State.linkLoss_leads (s : State) (p : Port) (cause : BitVec 32) : State.Leads c ok s (s.linkLoss p cause) := by
  intro H
  refine .step (.leave p) (((State.raise_leads _ (by decide) (by decide) (portByte_lt p)) (H.leave p)).trans
    (State.dropLink_run ?_))
  rw [(State.raise_sends _ _ _ _).link, State.onPort_get]
  simp

theorem State.disableUp_leads (s : State) (p : Port) : State.Leads c ok s (s.disableUp p) := by
  intro H
  obtain ⟨htx, -, -⟩ := s.abandonTx_port p true
  obtain ⟨more, ctr, hrx⟩ := (s.abandonTx p true).abandonRx_port p
  have htx0 : ((s.abandonTx p true).abandonRx p).ports[p].tx = .idle := by rw [hrx]; exact htx
  obtain ⟨hq, htx', hr', -⟩ := State.flush_idle htx0
  have h := ((State.abandonTx_leads (c := c) (ok := ok) s p true).trans (State.abandonRx_leads _ p)).trans
    (State.flush_leads _ p)
  rw [State.disableUp, State.onPort_onPort]
  refine (h H).tail (.quit p ?_ htx' hq)
  rw [hr', hrx]

end

end Sys2Proof.Machine
end

