-- ==== Sys2Proof/Proofs/RunsSymbols.lean ====
section
/-! SUPPORT. The commands of the Link Ports and the tick happenings as sequences of primitive changes. -/

namespace Sys2Proof.Machine

section
variable {c : Option Instr} {ok : Prop} {s t u : State} {H : Hand} {p : Port}

/-! ## Symbols (R1) -/

theorem PortState.alike_heard {P : PortState} : P.Alike P.heard :=
  ⟨rfl, rfl, rfl, rfl, rfl, rfl, rfl, rfl, rfl, .inl rfl, .inr (by simp [PortState.heard])⟩

theorem State.countValid_leads (hl : s.ports[p].link = .down) (hi : s.initializing = false) :
    State.Leads c ok s (s.onPort p (·.countValid s.now)) := by
  by_cases h : 16 ≤ s.ports[p].validRun + 1
  · rw [State.onPort_congr (f := (·.countValid s.now)) (g := fun P => { P with
      link := .training, trainingDeadline := some (s.now + 20), validRun := 0, quiet := false }) (if_pos h)]
    exact .of_move fun _ => .train p hl hi
  · rw [State.onPort_congr (f := (·.countValid s.now)) (g := fun P => { P with validRun := P.validRun + 1, quiet := false }) (if_neg h)]
    refine (State.alike_onPort s p _ ⟨rfl, rfl, rfl, rfl, rfl, rfl, rfl, rfl, rfl, .inr ?_, .inl rfl⟩).leads
    show s.ports[p].validRun + 1 < 16
    omega

/-- A valid symbol: link supervision outside UP, and its effect once it is heard in UP (R1, R3 to R5). -/
theorem State.takeValid_run {inUp : State → State}
    (h : s.initializing = false → s.ports[p].link = .up →
      Run c ok (H, s.onPort p PortState.heard) (H, inUp (s.onPort p PortState.heard))) :
    Run c ok (H, s) (H, s.takeValid p inUp) := by
  unfold State.takeValid
  cases hi : s.initializing with
  | true => exact .refl
  | false =>
    rw [if_neg (by decide)]
    split
    · exact .refl
    · next hl => exact State.countValid_leads hl hi H
    · exact (State.alike_onPort s p _ ⟨rfl, rfl, rfl, rfl, rfl, rfl, rfl, rfl, rfl, .inl rfl, .inl rfl⟩).leads H
    · next hl => exact ((State.alike_onPort s p _ PortState.alike_heard).leads H).trans (h hi hl)

theorem State.takeValid_leads {inUp : State → State}
    (h : ∀ u : State, u.ports[p].link = .up → State.Leads c ok u (inUp u)) : State.Leads c ok s (s.takeValid p inUp) :=
  fun H => State.takeValid_run fun _ hl => h _ (by rw [State.onPort_get]; exact hl) H

theorem State.beginFrame_leads (hc : FillsBuffer c) (hl : s.ports[p].link = .up) (hrx : s.ports[p].rx = .idle) :
    State.Leads c ok s (s.beginFrame p) := by
  unfold State.beginFrame
  split
  · exact State.keepRx_leads (r := .ignoring .nobuf) (by rw [hrx]; rfl) rfl rfl (.inl hl)
  · next b t h =>
    intro H
    have hs := State.pop_sends h
    refine (State.pop_run h).trans (State.setRx_run (r := .receiving b 0) (H := H.sole b) (fresh := H.fresh) rfl ?_
      (.inl ((hs.link p).trans hl)) (fun _ _ h => by cases h; omega) (.inr hc))
    rw [hs.rx p, hrx]
    exact .refl _

theorem State.startInUp_leads (hc : FillsBuffer c) (hl : s.ports[p].link = .up) :
    State.Leads c ok s (s.startInUp p) := by
  obtain ⟨more, ctr, hp⟩ := s.abandonRx_port p
  exact (State.abandonRx_leads s p).trans (State.beginFrame_leads hc (by rw [hp]; exact hl) (by rw [hp]))

theorem State.storeByte_leads {b : BufNo} {n : Nat} {v : Byte} (hc : FillsBuffer c) (hl : s.ports[p].link = .up)
    (hrx : s.ports[p].rx = .receiving b n) (hn : n < 71) : State.Leads c ok s (s.storeByte p b n v) := by
  intro H
  refine ((State.putBytes_leads s b n [v]) H).trans
    (State.setRx_run (r := .receiving b (n + 1)) (fresh := H.fresh) rfl ?_ (.inl hl) ?_ (.inr hc))
  · rw [State.putBytes_ports, hrx]; exact .refl _
  · intro _ _ h; cases h; omega

theorem State.storeByte_port (s : State) (p : Port) (b : BufNo) (n : Nat) (v : Byte) :
    (s.storeByte p b n v).ports[p] = { s.ports[p] with rx := .receiving b (n + 1) } := by
  simp [State.storeByte]

theorem State.labelCheck_leads {b : BufNo} {n : Nat} (hl : s.ports[p].link = .up)
    (hrx : s.ports[p].rx = .receiving b n) : State.Leads c ok s (s.labelCheck p b) := by
  unfold State.labelCheck
  split
  · exact State.dropRx_leads (r := .ignoring .reserve) hrx rfl rfl (.inl hl)
  · exact .refl s

theorem State.dataInUp_leads (hc : FillsBuffer c) (hl : s.ports[p].link = .up) (v : Byte) :
    State.Leads c ok s (s.dataInUp p v) := by
  unfold State.dataInUp
  split
  · exact .refl s
  · exact .refl s
  · next b n hrx =>
    split
    · next hn =>
      have hstore := State.storeByte_leads (ok := ok) (v := v) hc hl hrx hn
      have hp := State.storeByte_port s p b n v
      split
      · exact hstore.trans (State.labelCheck_leads (by rw [hp]; exact hl) (by rw [hp]))
      · exact hstore
    · exact State.dropRx_leads (r := .ignoring .cutOff) hrx rfl rfl (.inl hl)

theorem State.requestArrival_run {b : BufNo} : Run c ok (H.sole b, s) (H, s.requestArrival p b) := by
  unfold State.requestArrival
  split
  · next h => exact .single (.arrive p b h)
  · have ha : s.Alike { s with agent := { s.agent with mgmtOverrun := bump s.agent.mgmtOverrun } } :=
      { State.Alike.refl s with }
    exact (ha.leads _).trans (State.releaseSole_run _ H b)

/-- A good frame passes to disposition, or nothing of it is left to dispose of (R13). -/
theorem State.handOn_cases (s : State) (p : Port) (b : BufNo) (pace : Pace) :
    (∀ c ok H, Run c ok (H.sole b, s) (H, s.handOn p b pace)) ∨ s.handOn p b pace = s.dispose p b pace := by
  unfold State.handOn
  split
  · refine .inl fun c ok H => ?_
    split
    · exact State.requestArrival_run
    · exact (State.tally_leads s p _ _).trans (State.releaseSole_run _ H b)
  · split
    · exact .inl fun c ok H => (State.tally_leads s p _ _).trans (State.releaseSole_run _ H b)
    · exact .inr rfl

/-- The change of a port at the END of a good frame. -/
theorem State.rxGood_run {b : BufNo} {n : Nat} (hrx : s.ports[p].rx = .receiving b n) :
    Run c ok (H, s) (H.sole b, s.onPort p fun P => { P.tally .rxGood with rx := .idle }) :=
  State.setRx_run (r := .idle) (fresh := b :: H.fresh) (f := fun P => { P.tally .rxGood with rx := .idle }) rfl
    (by rw [hrx]; exact .refl _) (.inr rfl) (fun _ _ h => by cases h) (.inl rfl)

/-- The END of a frame passes it to disposition, or nothing of it is left to dispose of (R12, R13). -/
theorem State.endInUp_cases (s : State) (p : Port) (pace : Pace) :
    (∀ c ok H, Run c ok (H, s) (H, s.endInUp p pace)) ∨ ∃ b n, s.ports[p].rx = .receiving b n ∧
      s.endInUp p pace = (s.onPort p fun P => { P.tally .rxGood with rx := .idle }).dispose p b pace := by
  unfold State.endInUp
  split
  · exact .inl fun _ _ _ => .refl
  · next b n hrx =>
    unfold State.endOfFrame
    split
    · exact .inl fun c ok H => State.dropRx_leads (r := .idle) hrx rfl rfl (.inr rfl) H
    · split
      · exact .inl fun c ok H => State.dropRx_leads (r := .idle) hrx rfl rfl (.inr rfl) H
      · obtain h | h := State.handOn_cases (s.onPort p fun P => { P.tally .rxGood with rx := .idle }) p b pace
        · exact .inl fun c ok H => (State.rxGood_run hrx).trans (h c ok H)
        · exact .inr ⟨b, n, hrx, h⟩
  · exact .inl fun _ _ H => State.abandonRx_leads s p H

theorem State.endInUp_run {pace : Pace} (hc : ∃ e, c = some (.rxEnd e)) (hd : ok → s.disposing[p] = none) :
    Run c ok (H, s) (H, s.endInUp p pace) := by
  obtain h | ⟨b, n, hrx, h⟩ := s.endInUp_cases p pace
  · exact h c ok H
  · rw [h]
    exact (State.rxGood_run hrx).trans (State.dispose_run pace hc hd)

theorem State.codeError_leads (hl : s.ports[p].link = .up) : State.Leads c ok s (s.codeError p) := by
  unfold State.codeError
  split
  · next hrx => exact State.dropRx_leads (r := .ignoring .code) hrx rfl rfl (.inl hl)
  · exact .refl s
  · exact .refl s

/-- A change of the partner-HOLD flag and its deadline. -/
theorem State.hold_leads {f : PortState → PortState} {flag : Bool} {deadline : Option Tick}
    (hf : f s.ports[p] = { s.ports[p] with partnerHold := flag, holdDeadline := deadline })
    (hnone : flag = false → deadline = none)
    (hflag : flag = true → s.ports[p].link = .up ∨ s.ports[p].partnerHold = true)
    (hd : ∀ d, deadline = some d → s.ports[p].holdDeadline = some d ∨ later s.now d) :
    State.Leads c ok s (s.onPort p f) := by
  rw [State.onPort_congr (g := fun P => { P with partnerHold := flag, holdDeadline := deadline }) hf]
  exact .of_move fun _ => .hold p flag deadline hnone hflag hd

theorem State.holdInUp_leads (hl : s.ports[p].link = .up) : State.Leads c ok s (s.holdInUp p) := by
  unfold State.holdInUp
  by_cases hh : s.ports[p].partnerHold = true
  · refine (State.alike_onPort s p _ ?_).leads
    rw [if_pos hh]
    exact .refl _
  · refine State.hold_leads (if_neg hh) (fun h => by cases h) (fun _ => .inl hl) fun d hd => .inr ?_
    split at hd
    · cases hd
    · next hne =>
      cases hd
      have hlt := s.ports[p].cfg.holdLimit.isLt
      have hpos : 0 < s.ports[p].cfg.holdLimit.toNat :=
        Nat.pos_of_ne_zero fun h => hne (BitVec.eq_of_toNat_eq (by simpa using h))
      have hk : (ticksOfMs s.ports[p].cfg.holdLimit.toNat).toNat = 10 * s.ports[p].cfg.holdLimit.toNat := by
        rw [ticksOfMs, BitVec.toNat_ofNat]; exact Nat.mod_eq_of_lt (by omega)
      exact later_add (by omega) (by omega)

theorem State.goInUp_leads : State.Leads c ok s (s.goInUp p) := by
  unfold State.goInUp
  split
  · exact (State.hold_leads (flag := false) (deadline := none) rfl (fun _ => rfl) (fun h => by cases h)
      (fun _ h => by cases h)).trans (State.askNext_leads _ p)
  · exact .refl s

/-- What a code error leaves of its port: only the receive state, counters and asked symbols differ. -/
theorem State.codeError_port (s : State) (p : Port) : ∃ rx ctr more, (s.codeError p).ports[p] =
    { s.ports[p] with rx := rx, ctr := ctr, asked := s.ports[p].asked ++ more } := by
  unfold State.codeError
  split
  · next b n h =>
    obtain ⟨more, hm⟩ := (State.release_frame (s.onPort p fun P => { P.tally .rxCode with rx := .ignoring .code }) b).ports p
    exact ⟨_, _, more, by rw [hm, State.onPort_get]; rfl⟩
  · exact ⟨s.ports[p].rx, s.ports[p].ctr, [], by simp⟩
  · exact ⟨s.ports[p].rx, s.ports[p].ctr, [], by simp⟩

theorem State.invalidInUp_leads (hl : s.ports[p].link = .up) : State.Leads c ok s (s.invalidInUp p) := by
  have hcode := State.codeError_leads (c := c) (ok := ok) hl
  obtain ⟨rx, ctr, more, hp⟩ := s.codeError_port p
  unfold State.invalidInUp
  dsimp only
  split
  · refine hcode.trans ?_
    have hlink := State.linkLoss_leads (c := c) (ok := ok) (s.codeError p) p 1
    unfold State.linkLoss at hlink ⊢
    rw [State.onPort_onPort]
    exact hlink
  · next hn =>
    refine hcode.trans (State.alike_onPort _ p _ ⟨rfl, rfl, rfl, rfl, rfl, rfl, rfl, rfl, rfl, .inl rfl, .inr ?_⟩).leads
    show (s.codeError p).ports[p].invalidRun + 1 < 4
    rw [hp]
    show s.ports[p].invalidRun + 1 < 4
    omega

/-! ## Happenings of a port (R2, R4, R16, R18, R20) -/

theorem State.takeInitEnd_leads (s : State) : State.Leads c ok s s.takeInitEnd := by
  unfold State.takeInitEnd
  split
  · next h => exact .of_move fun _ => .initEnd (by simpa using (Bool.and_eq_true _ _ ▸ h).1)
  · exact .refl s

theorem State.takeTrainingDeadline_run (s : State) (p : Port) :
    Run c ok (Hand.empty, s) (Hand.empty, s.takeTrainingDeadline p) := by
  unfold State.takeTrainingDeadline
  split
  · next h =>
    have hraise := State.raise_leads (c := c) (ok := ok) (s.onPort p (·.enterUp s.store.episode)) (kind := .portUp)
      (subject := BitVec.ofNat 8 p.val) (detail := 0) (by decide) (by decide) (portByte_lt p)
    exact .step (.up p h.1) (((hraise.trans (State.askNext_leads _ p)) _).trans (State.finish_run _))
  · exact .refl

/-- The hold deadline's effects before its notice (R20). -/
theorem State.holdCleared_leads (s : State) (p : Port) : State.Leads c ok s
    ((s.flush p).onPort p fun P => { P.tally .holdStuck with holdDeadline := none }) := by
  refine (State.flush_leads s p).trans ?_
  generalize s.flush p = u
  refine (State.tally_leads u p .holdStuck).trans ?_
  have h := State.hold_leads (c := c) (ok := ok) (s := u.tally p .holdStuck) (p := p)
    (flag := u.ports[p].partnerHold) (deadline := none) (f := fun P => { P with holdDeadline := none })
    (by simp [State.tally, PortState.tally]) (fun _ => rfl) (fun h => .inr (by simpa [State.tally] using h))
    (fun _ h => by cases h)
  rwa [State.tally, State.onPort_onPort] at h

theorem State.holdStuck_leads (s : State) (p : Port) : State.Leads c ok s (s.holdStuck p) :=
  (State.holdCleared_leads s p).trans (State.raise_leads _ (by decide) (by decide) (portByte_lt p))

theorem State.takeHoldDeadline_run (s : State) (p : Port) :
    Run c ok (Hand.empty, s) (Hand.empty, s.takeHoldDeadline p) := by
  unfold State.takeHoldDeadline
  split
  · exact (State.holdStuck_leads s p _).trans (State.finish_run _)
  · exact .refl

theorem State.frameSent_run {e : Entry} (h : s.ports[p].tx = .sending e) : Run c ok (H, s) (H, s.frameSent p e) :=
  State.endTx_run (sent := s.ports[p].sent ++ [.frame (s.frameBytes e)]) h rfl (by simp [PortState.lastFlow])

theorem State.takeStartWindow_run (s : State) (n : SlotNo) :
    Run c ok (Hand.empty, s) (Hand.empty, s.takeStartWindow n) := by
  unfold State.takeStartWindow
  split
  · next h => exact (State.slotNeverSeen_leads h _).trans (State.finish_run _)
  · exact .refl

theorem State.takeSlotDeadline_run (s : State) (n : SlotNo) :
    Run c ok (Hand.empty, s) (Hand.empty, s.takeSlotDeadline n) := by
  unfold State.takeSlotDeadline
  split
  · next h => exact (State.slotMiss_leads h _).trans (State.finish_run _)
  · exact .refl

theorem State.takeRetransmit_run (s : State) : Run c ok (Hand.empty, s) (Hand.empty, s.takeRetransmit) := by
  unfold State.takeRetransmit
  split
  · exact .step .disarm ((State.tryDeliver_leads _ _).trans (State.finish_run _))
  · exact .refl

/-! ## The session closes (R145, R146) -/

theorem RouteTable.revert_cases (t : RouteTable) (now : Tick) :
    (t.staging = .modified ∧ t.revert now = t.startCopy now) ∨ (t.staging ≠ .modified ∧ t.revert now = t) := by
  unfold RouteTable.revert
  cases t.staging <;> simp

/-- A closed session keeps its law whatever the session was. -/
theorem State.closed_law (s : State) (h : s.SessionLaw) : (s.withSession .closed s.agent.tokenCounter).SessionLaw :=
  ⟨h.1, fun _ => rfl, fun k => by cases k⟩

theorem State.closeSession_leads (s : State) : State.Leads c ok s s.closeSession := by
  intro H
  refine .step (.session .closed s.agent.tokenCounter s.closed_law fun _ _ h => by cases h) ?_
  have hr : Run c ok (H, s.withSession .closed s.agent.tokenCounter)
      (H, (s.withSession .closed s.agent.tokenCounter).onRoute (·.revert s.now)) := by
    have hcongr : ∀ f : RouteTable → RouteTable, s.route.revert s.now = f s.route →
        (s.withSession .closed s.agent.tokenCounter).onRoute (·.revert s.now) =
          (s.withSession .closed s.agent.tokenCounter).onRoute f :=
      fun f h => congrArg (fun r => { s.withSession .closed s.agent.tokenCounter with route := r }) h
    obtain ⟨hm, hx⟩ | ⟨-, hx⟩ := s.route.revert_cases s.now
    · rw [hcongr (·.startCopy s.now) hx]
      exact .single (.startCopy hm)
    · rw [hcongr id hx]
      exact .refl
  exact hr.tail .disarm

theorem State.takeLeaseDeadline_run (s : State) : Run c ok (Hand.empty, s) (Hand.empty, s.takeLeaseDeadline) := by
  unfold State.takeLeaseDeadline
  split
  · have hraise := State.raise_leads (c := c) (ok := ok) s.closeSession (kind := .leaseExpired) (subject := 0)
      (detail := s.agent.session.holder.setWidth 32) (by decide) (by decide) (by decide)
    exact (((State.closeSession_leads s).trans hraise) _).trans (State.finish_run _)
  · exact .refl

/-! ## TICK, before the counter goes on (R79) -/

theorem State.takePortTick_run (s : State) (p : Port) : Run c ok (Hand.empty, s) (Hand.empty, s.takePortTick p) :=
  (State.takeTrainingDeadline_run s p).trans (State.takeHoldDeadline_run _ p)

theorem State.takeSlotTick_run (s : State) (n : SlotNo) : Run c ok (Hand.empty, s) (Hand.empty, s.takeSlotTick n) :=
  (State.takeStartWindow_run s n).trans (State.takeSlotDeadline_run _ n)

theorem State.takeAgentTick_run (s : State) : Run c ok (Hand.empty, s) (Hand.empty, s.takeAgentTick) :=
  (State.takeLeaseDeadline_run s).trans (State.takeResetLimit_run _)

theorem State.settleStale_run (hc : Disposes c) (s : State) (p : Port) :
    Run c ok (Hand.empty, s) (Hand.empty, s.settleStale p) := by
  unfold State.settleStale
  split
  · split
    · exact .refl
    · exact State.settle_run hc s p
  · exact .refl

theorem State.takeStaleRaises_run : ∀ (fuel : Nat) (s : State),
    Run c ok (Hand.empty, s) (Hand.empty, State.takeStaleRaises fuel s)
  | 0, _ => .refl
  | fuel + 1, s => by
    unfold State.takeStaleRaises
    split
    · exact .refl
    · exact (State.takeWaiting_run s _).trans (State.takeStaleRaises_run fuel _)
    · split <;> exact (State.takeWaiting_run s _).trans (State.takeStaleRaises_run fuel _)

theorem State.endStaleCopy_leads (hc : c ≠ some .commit) (s : State) : State.Leads c ok s s.endStaleCopy := by
  unfold State.endStaleCopy
  split
  · split
    · exact .refl s
    · exact .of_move fun _ => .copyDone hc
  · exact .refl s

theorem foldl_run {α : Type} {f : State → α → State}
    (hf : ∀ s a, Run c ok (Hand.empty, s) (Hand.empty, f s a)) : ∀ (l : List α) (s : State),
    Run c ok (Hand.empty, s) (Hand.empty, l.foldl f s)
  | [], _ => .refl
  | a :: l, s => (hf s a).trans (foldl_run hf l _)

theorem State.takeDue_run (hc : Disposes c) (s : State) : Run c ok (Hand.empty, s) (Hand.empty, s.takeDue) := by
  unfold State.takeDue
  dsimp only
  refine Relation.ReflTransGen.trans ?_ (State.takeRetransmit_run _)
  refine Relation.ReflTransGen.trans ?_ (State.takeAgentTick_run _)
  refine Relation.ReflTransGen.trans ?_ (foldl_run State.takeSlotTick_run _ _)
  refine Relation.ReflTransGen.trans ?_ (foldl_run State.takePortTick_run _ _)
  refine Relation.ReflTransGen.trans ?_ (State.takeInitEnd_leads _ _)
  refine Relation.ReflTransGen.trans ?_ (State.endStaleCopy_leads hc.not_commit _ _)
  exact (foldl_run (State.settleStale_run hc) _ s).trans (State.takeStaleRaises_run _ _)

end

end Sys2Proof.Machine
end

