-- ==== Sys2Proof/Proofs/RunsAgent.lean ====
section
/-! SUPPORT. The management commands as sequences of primitive changes: how a request is taken, judged, executed and answered
(chapter 8), and what each command's own effect is (chapter 9). -/

namespace Sys2Proof.Machine

section
variable {c : Option Instr} {ok : Prop} {s t u : State} {H : Hand} {v : RequestView}

/-! ## Answering (R136, R137) -/

/-- The request's end and the release of its buffer can be taken in either order (R137). -/
theorem State.idled_release (s : State) (b : BufNo) : s.idled.release b = s.endRequest b := by
  unfold State.endRequest State.release
  show (match s.store.count[b] with | 0 => _ | 1 => _ | n + 2 => _) = _
  split <;> rename_i h <;> simp only [h]
  · rfl
  · unfold State.endEpisode State.store State.idled
    dsimp only
    split <;> rfl
  · rfl

theorem State.endRequest_run {r : Request} (hw : H.request = none) (hx : s.agent.executing = some r) :
    Run c ok (H.serve r, s) (H, s.endRequest r.buf) := by
  rw [← State.idled_release]
  exact .step (.idle r hw hx) (State.release_run _ _ _)

theorem State.responseLost_leads (s : State) (b : BufNo) : State.Leads c ok s (s.responseLost b) := by
  have ha : s.Alike { s with agent := { s.agent with respLost := bump s.agent.respLost } } := { State.Alike.refl s with }
  exact ha.leads.trans (State.report_leads _ b)

theorem State.sendResponse_run (hw : H.request = none) (hx : s.agent.executing = some v.req) (payload : List Byte) :
    Run c ok (H.serve v.req, s) (H, s.sendResponse v payload) := by
  have hput := State.putPayload_leads (c := c) (ok := ok) s v.req.buf payload (H.serve v.req)
  have hxp : (s.putPayload v.req.buf payload).agent.executing = some v.req := hx
  unfold State.sendResponse
  generalize s.putPayload v.req.buf payload = w at hput hxp ⊢
  have hsend := State.enqueue_run (c := c) (ok := ok) (s := w) (H := H.serve v.req) (p := v.req.port) (b := v.req.buf)
    (h := s.relayHeader v.reply) (o := .response) (.request v.req hxp rfl) fun h => by cases h
  have hxt : (w.enqueue v.req.port v.req.buf (s.relayHeader v.reply) .response).1.agent.executing = some v.req := by
    rw [(State.enqueue_sends _ _ _ _ _).abides.agent]; exact hxp
  have hlost : ∀ x : State, x.agent.executing = some v.req →
      Run c ok (H.serve v.req, x) (H, (x.responseLost v.req.buf).endRequest v.req.buf) := fun x h =>
    ((State.responseLost_leads x v.req.buf) _).trans (State.endRequest_run hw (by
      unfold State.responseLost State.report
      split
      · split <;> exact h
      · exact h))
  split <;> rename_i t h <;> rw [h] at hsend hxt
  · exact (hput.trans hsend).trans (State.endRequest_run hw hxt)
  · exact (hput.trans hsend).trans (hlost t hxt)
  · exact (hput.trans hsend).trans (hlost t hxt)

theorem State.answer_run (hw : H.request = none) (hx : s.agent.executing = some v.req) (status : Status)
    (results : List Byte) : Run c ok (H.serve v.req, s) (H, s.answer v status results) := State.sendResponse_run hw hx _

/-! ## The session record (R138 to R143) -/

theorem lease_later (now : Tick) {n : Nat} (h1 : 1 ≤ n) (h2 : n ≤ 6000) : later now (now + ticksOf10Ms n) := by
  have hn : (ticksOf10Ms n).toNat = 100 * n := by
    unfold ticksOf10Ms
    rw [BitVec.toNat_ofNat, Nat.mod_eq_of_lt (by omega)]
  exact later_add (by omega) (by omega)

/-- A session record that differs from an open one where its law allows it. -/
theorem State.session_run {x : Session} {f : State → State} (hf : f s = s.withSession x s.agent.tokenCounter)
    (ho : s.agent.session.isOpen = true) (hxo : x.isOpen = true) (ht : x.token = s.agent.session.token)
    (hl : x.leaseLength = s.agent.session.leaseLength)
    (hd : x.leaseDeadline = s.agent.session.leaseDeadline ∨
      x.leaseDeadline = some (s.now + ticksOf10Ms s.agent.session.leaseLength.toNat))
    (hc : ∀ r, x.cache = some r → s.agent.session.cache = some r ∨ (r.replay = false ∧ r.results.length ≤ 60)) :
    State.Leads c ok s (f s) := by
  rw [hf]
  refine .of_move fun H => .session x s.agent.tokenCounter ?_ ?_
  · rintro ⟨h0, -, hopen⟩
    obtain ⟨h1, h2, h3, h4, h5⟩ := hopen ho
    refine ⟨h0, fun k => ?_, fun _ => ⟨ht ▸ h1, hl ▸ h2, hl ▸ h3, ?_, fun r hr => ?_⟩⟩
    · exact absurd (hxo.symm.trans k) (by decide)
    · rcases hd with hd | hd
      · exact hd ▸ h4
      · exact hd ▸ rfl
    · rcases hc r hr with k | k
      · exact h5 r k
      · exact k
  · rintro ⟨-, -, hopen⟩ d hx
    obtain ⟨-, h2, h3, -⟩ := hopen ho
    rcases hd with hd | hd
    · exact .inl (hd ▸ hx)
    · rw [hd] at hx
      cases hx
      exact .inr (lease_later _ h2 h3)

theorem State.admitRequest_leads (ho : s.agent.session.isOpen = true) :
    State.Leads c ok s (s.admitRequest v) :=
  State.session_run (f := fun s => s.admitRequest v) rfl ho ho rfl rfl (.inr rfl) fun _ h => .inl h

theorem State.cacheResponse_leads {r : Reply} (ho : s.agent.session.isOpen = true) (hr : r.results.length ≤ 60) :
    State.Leads c ok s (s.cacheResponse v r) :=
  State.session_run (f := fun s => s.cacheResponse v r) rfl ho ho rfl rfl (.inl rfl) fun _ h => by
    cases h; exact .inr ⟨rfl, hr⟩

/-- The session record with lease and event port taken anew (R143). -/
def Session.renewed (x : Session) (now : Tick) (p : Port) : Session :=
  { x with leaseDeadline := some (now + ticksOf10Ms x.leaseLength.toNat), eventPort := p }

theorem State.replay_run {r : CachedResponse} (hw : H.request = none) (hx : s.agent.executing = some v.req)
    (ho : s.agent.session.isOpen = true) : Run c ok (H.serve v.req, s) (H, s.replay v r) := by
  have hsession : State.Leads c ok s
      (s.withSession (s.agent.session.renewed s.now v.req.port) s.agent.tokenCounter) :=
    State.session_run (f := fun s => s.withSession _ _) rfl ho ho rfl rfl (.inr rfl) fun _ h => .inl h
  exact (hsession _).trans (State.sendResponse_run
    (s := s.withSession (s.agent.session.renewed s.now v.req.port) s.agent.tokenCounter) hw hx _)

theorem nextToken_ne_zero (t : Byte) : nextToken t ≠ 0 := by
  unfold nextToken
  split
  · decide
  · next hne => intro hz; exact hne (by bv_omega)

theorem State.grantSession_leads {lease : BitVec 16} {events : Bool} (hl : lease ≠ 0) (hm : lease.toNat ≤ 6000) :
    State.Leads c ok s (s.grantSession v lease events) := by
  have hpos : 1 ≤ lease.toNat := ticks16_pos hl
  refine .of_move fun H => .session _ (nextToken s.agent.tokenCounter) ?_ fun _ d hd => ?_
  · rintro ⟨h0, -, -⟩
    refine ⟨nextToken_ne_zero _, fun k => absurd k (by simp [State.withSession]), fun _ => ⟨h0, hpos, hm, rfl, ?_⟩⟩
    exact fun r k => absurd k (by simp [State.withSession])
  · cases hd
    exact .inr (lease_later _ hpos hm)

/-! ## Serving (R141 to R144, R151) -/

/-- What a command's own effect may be: primitive changes that leave the request under execution and the session open, with
results that fit the replay cache and a reset only of the row's scope. -/
structure State.Serves (c : Option Instr) (ok : Prop) (s : State) (x : State × Reply) : Prop where
  leads     : State.Leads c ok s x.1
  executing : x.1.agent.executing = s.agent.executing
  isOpen    : x.1.agent.session.isOpen = s.agent.session.isOpen
  short     : x.2.results.length ≤ 60
  reset     : ∀ scope, x.2.follow = .reset scope → ResetsTo c scope

theorem State.serves_same (s : State) {r : Reply} (hr : r.results.length ≤ 60) (hf : ∀ scope, r.follow ≠ .reset scope) :
    State.Serves c ok s (s, r) := ⟨.refl s, rfl, rfl, hr, fun scope h => absurd h (hf scope)⟩

theorem State.serves_refuse (s : State) (status : Status) : State.Serves c ok s (s, .refuse status) :=
  State.serves_same s (by simp [Reply.refuse]) fun _ h => by cases h

/-- An effect on blocks other than the agent, answered OK. -/
theorem State.serves_ok {t : State} {results : List Byte} (h : State.Leads c ok s t) (hk : t.agent = s.agent)
    (hr : results.length ≤ 60) : State.Serves c ok s (t, .ok results) :=
  ⟨h, by rw [hk], by rw [hk], hr, fun _ k => by cases k⟩

theorem Body.checked_serves {body : Body} {k : Command} {args : List Byte}
    (h : args.length = k.argBytes → State.Serves c ok s (body args s)) : State.Serves c ok s (body.checked k args s) := by
  unfold Body.checked
  split
  · next hl => exact h hl
  · exact State.serves_refuse s _

theorem State.answerExecuted_run {r : Reply} (hw : H.request = none) (hx : s.agent.executing = some v.req)
    (ho : s.agent.session.isOpen = true) (hr : r.results.length ≤ 60)
    (hf : ∀ scope, r.follow = .reset scope → ResetsTo c scope) :
    Run c ok (H.serve v.req, s) (H, s.answerExecuted v r) := by
  have hcache := State.cacheResponse_leads (c := c) (ok := ok) (s := s) (v := v) ho hr
  unfold State.answerExecuted
  split
  · exact (hcache _).trans (State.answer_run (s := s.cacheResponse v r) hw hx _ _)
  · exact ((hcache _).trans (State.answer_run (s := s.cacheResponse v r) hw hx _ _)).trans (State.closeSession_leads _ H)
  · next scope h =>
    have hpend : Move c ok (H.serve v.req, s.cacheResponse v r)
        (H.serve v.req, (s.cacheResponse v r).enterReset v scope) :=
      .pend { scope := scope, buf := v.req.buf, limit := s.now + 500 } rfl (hf scope h)
    exact ((hcache _).tail hpend).trans (State.answer_run (s := (s.cacheResponse v r).enterReset v scope) hw hx _ _)

theorem Session.judge_open {x : Session} {token seq : Byte} (h : x.judge token seq ≠ .noSession) : x.isOpen = true := by
  unfold Session.judge at h
  split at h
  · exact absurd rfl h
  · next hn => simpa using fun k : x.isOpen = false => hn (.inl k)

/-- A sessioned request is refused, replayed, or executed by its body (R141 to R143). -/
theorem State.serveSessioned_run {body : Body} {k : Command} (hw : H.request = none)
    (hx : s.agent.executing = some v.req)
    (hb : ∀ u : State, u.agent.session.isOpen = true → v.args.length = k.argBytes →
      State.Serves c ok u (body v.args u)) :
    Run c ok (H.serve v.req, s) (H, State.serveSessioned k body v s) := by
  unfold State.serveSessioned
  split
  · exact State.answer_run hw hx _ _
  · exact State.answer_run hw hx _ _
  · next h => exact State.replay_run hw hx (Session.judge_open (by rw [h]; simp))
  · next h =>
    have ho : s.agent.session.isOpen = true := Session.judge_open (by rw [h]; simp)
    obtain ⟨hl, hx', ho', hr, hf⟩ := Body.checked_serves (k := k) (hb (s.admitRequest v) ho)
    dsimp only
    exact (State.admitRequest_leads ho _).trans ((hl _).trans
      (State.answerExecuted_run hw (hx'.trans hx) (ho'.trans ho) hr hf))

/-! ## Taking (R134, R135) -/

theorem State.dropMalformed_run {r : Request} (hw : H.request = none) (hx : s.agent.executing = some r) :
    Run c ok (H.serve r, s) (H, s.dropMalformed r) := by
  have ha : s.Alike { s with agent := { s.agent with mgmtMalformed := bump s.agent.mgmtMalformed } } :=
    { State.Alike.refl s with }
  exact (ha.leads _).trans (State.endRequest_run hw hx)

theorem State.takeRequest_run {mine : RequestView → Bool} {serve : RequestView → State → State} (hw : H.request = none)
    (hs : ∀ r rest, mine (s.viewRequest r) = true → (s.beginRequest r rest).agent.executing = some r →
      Run c ok (H.serve r, s.beginRequest r rest) (H, serve (s.viewRequest r) (s.beginRequest r rest))) :
    Run c ok (H, s) (H, s.takeRequest mine serve) := by
  unfold State.takeRequest
  split
  · exact .refl
  · next r rest hq =>
    have hbegin : Run c ok (H, s) (H.serve r, s.beginRequest r rest) := .single (.begin r rest hq hw)
    split
    · exact hbegin.trans (State.dropMalformed_run hw rfl)
    · split
      · exact .refl
      · next hm =>
        split
        · exact hbegin.trans (State.answer_run (v := s.viewRequest r) hw rfl _ _)
        · exact hbegin.trans (hs r rest (by simpa using hm) rfl)

end

end Sys2Proof.Machine
end

