-- ==== Sys2Proof/Proofs/RunsBodies.lean ====
section
/-! SUPPORT. Each management command's own effect as a sequence of primitive changes (chapter 9), and the rows that serve
them. -/

namespace Sys2Proof.Machine

section
variable {c : Option Instr} {ok : Prop} {s t u : State} {H : Hand} {v : RequestView} {args : List Byte}

theorem length_bytes16 (x : BitVec 16) : (bytes16 x).length = 2 := rfl

theorem length_bytes32 (x : BitVec 32) : (bytes32 x).length = 4 := rfl

theorem length_deadlineBytes (d : Option Tick) : (deadlineBytes d).length = 5 := by cases d <;> rfl

/-! ## Sessions (section 9.2) -/

theorem openBody_serves (s : State) : State.Leads c ok s (openBody v args s).1 ∧
    (openBody v args s).1.agent.executing = s.agent.executing := by
  unfold openBody
  split
  · exact ⟨.refl s, rfl⟩
  · split
    · exact ⟨.refl s, rfl⟩
    · next events _ hr =>
      split
      · exact ⟨.refl s, rfl⟩
      · have hl : arg16 args 0 ≠ 0 ∧ (arg16 args 0).toNat ≤ 6000 := by
          obtain ⟨h1, h2⟩ := not_or.1 hr; exact ⟨h1, by omega⟩
        refine ⟨(State.grantSession_leads hl.1 hl.2).trans (State.tryDeliver_leads _), ?_⟩
        rw [(State.tryDeliver_sends _).abides.agent]
        rfl

theorem State.serveOpen_run (hw : H.request = none) (hx : s.agent.executing = some v.req) :
    Run c ok (H.serve v.req, s) (H, State.serveOpen v s) := by
  have hbody : State.Leads c ok s ((openBody v).checked .openSession v.args s).1 ∧
      ((openBody v).checked .openSession v.args s).1.agent.executing = s.agent.executing := by
    unfold Body.checked
    split
    · exact openBody_serves s
    · exact ⟨.refl s, rfl⟩
  exact (hbody.1 _).trans (State.answer_run hw (hbody.2.trans hx) _ _)

theorem closeBody_serves (s : State) : State.Serves c ok s (closeBody args s) :=
  State.serves_same s (by simp) fun _ h => by cases h

theorem keepaliveBody_serves (s : State) : State.Serves c ok s (keepaliveBody args s) :=
  State.serves_same s (by simp [Reply.ok, length_bytes16, length_bytes32]) fun _ h => by cases h

/-! ## Routes (section 9.3) -/

theorem parseRouteEntry_wf {k : Nat} {e : RouteEntry} (h : parseRouteEntry args k = some e) : e.wf = true := by
  unfold parseRouteEntry at h
  split at h
  · cases h; simp [RouteEntry.wf]
  · split at h
    · dsimp only at h
      split at h
      · next ha =>
        cases h
        rw [RouteEntry.wf, ha]; simp
      · cases h
    · cases h
    · cases h

theorem State.writeStaging_leads {i : RouteIdx} {e : RouteEntry} (hs : s.route.staging ≠ .copying) (he : e.wf = true) :
    State.Leads c ok s (s.onRoute (·.writeStaging i e)) := by
  refine .of_move fun H => .stage (vset s.route.stagingBank i e) hs fun j => ?_
  by_cases hj : j = i
  · subst hj; exact .inl (by simpa using he)
  · exact .inr (vset_get_ne _ _ hj)

theorem State.clearStaging_leads {first count : Nat} (hs : s.route.staging ≠ .copying) :
    State.Leads c ok s (s.onRoute (·.clearStaging first count)) := by
  have hstage : s.onRoute (·.clearStaging first count) = s.onRoute fun t =>
      { t.setBank t.active.other (clearRange s.route.stagingBank first count) with staging := .modified } := by
    simp only [State.onRoute, RouteTable.clearStaging]
  rw [hstage]
  refine .of_move fun H => .stage (clearRange s.route.stagingBank first count) hs fun i => ?_
  have hget : (clearRange s.route.stagingBank first count)[i] =
      if first ≤ i.val ∧ i.val < first + count then .cleared else s.route.stagingBank[i] := by simp [clearRange]
  rw [hget]
  split
  · exact .inl (by simp [RouteEntry.wf])
  · exact .inr rfl

theorem writeRouteBody_serves (s : State) : State.Serves c ok s (writeRouteBody args s) := by
  unfold writeRouteBody
  split
  · exact State.serves_refuse s _
  · next hs =>
    split
    · next i e _ he => exact State.serves_ok (State.writeStaging_leads hs (parseRouteEntry_wf he)) rfl (by simp)
    · exact State.serves_refuse s _
    · exact State.serves_refuse s _

theorem clearRoutesBody_serves (s : State) : State.Serves c ok s (clearRoutesBody args s) := by
  unfold clearRoutesBody
  dsimp only
  split
  · exact State.serves_refuse s _
  · next hs =>
    split
    · exact State.serves_refuse s _
    · exact State.serves_ok (State.clearStaging_leads hs) rfl (by simp)

theorem commitBody_serves (hc : c = some .commit) (s : State) : State.Serves c ok s (commitBody args s) := by
  unfold commitBody
  split
  · exact State.serves_refuse s _
  · next hs =>
    split
    · exact State.serves_refuse s _
    · split
      · exact State.serves_same s (by simp [length_bytes16]) fun _ h => by cases h
      · exact State.serves_ok (.of_move fun _ => .commit hc hs) rfl (by simp [length_bytes16])

/-! ## Actions, buckets and slots (section 9.4) -/

theorem parseDispatch_wf {offset mask : Byte} {d : Option DispatchPart} (h : parseDispatch offset mask = some d) :
    d.all DispatchPart.wf = true := by
  unfold parseDispatch at h
  split at h
  · split at h
    · cases h
    · split at h
      · next o _ hm =>
        cases h
        simp only [Option.all_some, DispatchPart.wf, decide_eq_true_eq]
        intro hz
        have : (mask.extractLsb' 0 4).toNat = mask.toNat := by
          rw [BitVec.extractLsb'_toNat]; simp; omega
        rw [hz] at this
        simp at this
        omega
      · cases h
  · cases h; rfl

theorem parseActionRecord_wf {k : Nat} {r : ActionRecord} (h : parseActionRecord args k = some r) : r.wf = true := by
  simp only [parseActionRecord, Option.bind_eq_bind, Option.bind_eq_some_iff] at h
  obtain ⟨_, -, _, -, _, -, _, -, d, hd, hr⟩ := h
  cases hr
  exact parseDispatch_wf hd

theorem State.writeAction_alike {i : RecordIdx} {r : ActionRecord} (hr : r.wf = true) (clear : Bool) :
    s.Alike (s.onAction (·.write i r clear)) := by
  refine { State.Alike.refl s with records := fun j => ?_ }
  by_cases hj : j = i
  · subst hj; exact .inr (by simp [State.onAction, ActionTable.write, hr])
  · exact .inl (vset_get_ne _ _ hj)

theorem writeActionBody_serves (s : State) : State.Serves c ok s (writeActionBody args s) := by
  unfold writeActionBody
  split
  · next hr _ => exact State.serves_ok (State.writeAction_alike (parseActionRecord_wf hr) _).leads rfl (by simp)
  · exact State.serves_refuse s _
  · exact State.serves_refuse s _
  · exact State.serves_refuse s _

theorem Bucket.write_wf {x : Bucket} {enabled : Bool} {rate depth : Nat} {exceed : ExceedAction}
    (hr : 1 ≤ rate ∧ rate ≤ 4095) (hd : 69 ≤ depth ∧ depth ≤ 65535) : (x.write enabled rate depth exceed).wf = true := by
  cases enabled <;> simp [Bucket.wf, Bucket.write, hr, hd]

theorem writeBucketBody_serves (s : State) : State.Serves c ok s (writeBucketBody args s) := by
  unfold writeBucketBody
  dsimp only
  split
  · split
    · exact State.serves_refuse s _
    · next n _ _ _ _ _ hn =>
      have hlt := (arg16 args 4).isLt
      have hr : 1 ≤ (arg16 args 2).toNat ∧ (arg16 args 2).toNat ≤ 4095 := by omega
      have hd : 69 ≤ (arg16 args 4).toNat ∧ (arg16 args 4).toNat ≤ 65535 := by omega
      exact State.serves_ok (State.alike_setBucket s n _ fun _ => Bucket.write_wf hr hd).leads rfl (by simp)
  · exact State.serves_refuse s _
  · exact State.serves_refuse s _
  · exact State.serves_refuse s _

theorem parseSlotConfig_wf {k : Nat} {x : SlotConfig} (h : parseSlotConfig args k = some x) : x.wf = true := by
  unfold parseSlotConfig at h
  dsimp only at h
  split at h
  · cases h
  · next hn =>
    cases h
    simp only [not_or] at hn
    obtain ⟨h1, h2, h3, h4⟩ := hn
    have h5 : (!(arg args (k + 7)).getLsbD 1 || (arg args (k + 7)).getLsbD 0) = true := by
      cases hs : (arg args (k + 7)).getLsbD 1 <;> cases hh : (arg args (k + 7)).getLsbD 0 <;> simp_all
    simp only [SlotConfig.wf, Bool.or_eq_true, Bool.and_eq_true, decide_eq_true_eq]
    exact .inr ⟨⟨h1, by omega⟩, by simpa using h5⟩

/-- A slot that is OFF takes another configuration (R115). -/
theorem Slot.configured_step {now : Tick} {x : Slot} {k : SlotConfig} (hs : x.state = .off) (hk : k.wf = true) :
    Slot.Step now x { x with cfg := k } where
  law := fun ⟨_, _, hh, hx⟩ => ⟨hk, fun hn => absurd hs hn, hh, by rw [hs] at hx ⊢; exact hx⟩
  deadline := fun _ _ _ hd => .inl hd

/-- A configured slot is armed (R116). -/
theorem Slot.armed_step {now : Tick} {x : Slot} (hs : x.state = .off) (hp : x.cfg.period ≠ 0) :
    Slot.Step now x (x.armed now) where
  law := fun ⟨hw, _, hh, _⟩ => by
    refine ⟨hw, fun _ => hp, fun k => ?_, ?_, rfl⟩
    · rcases hh k with h | h <;> rw [hs] at h <;> cases h
    · simp only [Slot.armed, SlotConfig.armDeadline]
      split <;> simp_all
  deadline := fun _ _ d hd => by
    simp only [Slot.armed, SlotConfig.armDeadline] at hd
    split at hd
    · cases hd
    · next hz =>
      cases hd
      obtain ⟨h1, h2⟩ := ticks16_lt x.cfg.startWindow
      have := ticks16_pos hz
      exact .inr (later_add (by omega) (by omega))

/-- A slot is disarmed (R117). -/
theorem Slot.disarmed_step {now : Tick} {x : Slot} : Slot.Step now x x.disarmed where
  law := fun ⟨hw, _, _, _⟩ => ⟨hw, fun h => absurd rfl h, fun h => by simp [Slot.disarmed] at h, rfl, rfl⟩
  deadline := fun _ _ _ hd => by cases hd

theorem writeSlotBody_serves (s : State) : State.Serves c ok s (writeSlotBody args s) := by
  unfold writeSlotBody
  split
  · exact State.serves_refuse s _
  · split
    · exact State.serves_refuse s _
    · next hs =>
      split
      · exact State.serves_refuse s _
      · next k hk =>
        exact State.serves_ok
          (State.setSlot_leads (Slot.configured_step (by simpa using hs) (parseSlotConfig_wf hk)) rfl) rfl (by simp)

theorem armBody_serves (s : State) : State.Serves c ok s (armBody args s) := by
  unfold armBody
  split
  · exact State.serves_refuse s _
  · split
    · exact State.serves_refuse s _
    · next hs =>
      obtain ⟨h1, h2⟩ := not_or.1 hs
      exact State.serves_ok (State.setSlot_leads (Slot.armed_step (by simpa using h1) h2) rfl) rfl
        (by rw [length_deadlineBytes]; omega)

theorem disarmBody_serves (s : State) : State.Serves c ok s (disarmBody args s) := by
  unfold disarmBody
  split
  · exact State.serves_refuse s _
  · next n _ =>
    refine State.serves_ok (fun H => .step (.slot n s.slots[n].disarmed (heldBufs s.slots[n].held ++ H.shared)
      Slot.disarmed_step (.refl _)) (State.releaseHeld_run _ H _)) ?_ (by simp)
    cases s.slots[n].held with
    | none => rfl
    | some h => exact (State.release_frame _ h.buf).sends.abides.agent

/-! ## Ports, counters, events and resets (sections 9.5 to 9.8) -/

theorem State.applyEnable_leads (s : State) (p : Port) (enable : Bool) : State.Leads c ok s (s.applyEnable p enable) := by
  unfold State.applyEnable
  split
  · exact State.disableUp_leads s p
  · exact .refl s
  · next h => exact .of_move fun _ => .restart p .disabled (by rw [h]; simp) (.inr rfl)
  · next h => exact .of_move fun _ => .restart p .disabled (by rw [h]; simp) (.inr rfl)
  · next h => exact .of_move fun _ => .restart p .down (by rw [h]; simp) (.inl rfl)
  · exact .refl s
  · exact .refl s
  · exact .refl s

theorem State.reportEntry_tables (s : State) (e : Entry) : s.SameTables (s.reportEntry e) := by
  rw [State.reportEntry_eq]; exact .refl s

theorem State.abandonTx_tables (s : State) (p : Port) (abort : Bool) : s.SameTables (s.abandonTx p abort) := by
  unfold State.abandonTx
  split
  · exact .refl s
  · next e _ =>
    refine State.SameTables.trans ?_ (State.reportEntry_tables _ e)
    exact State.SameTables.trans (by exact .refl s) (State.release_frame _ e.buf).tables

theorem State.abandonRx_tables (s : State) (p : Port) : s.SameTables (s.abandonRx p) := by
  unfold State.abandonRx
  split
  · exact .refl s
  · next b n _ => exact State.SameTables.trans (by exact .refl s) (State.release_frame _ b).tables
  · exact .refl s
  · exact .refl s

theorem State.SameTables.agent (h : s.SameTables t) : t.agent = s.agent := by
  obtain ⟨-, -, -, -, -, -, -, h, -⟩ := h
  exact h

theorem State.disableUp_agent (s : State) (p : Port) : (s.disableUp p).agent = s.agent :=
  calc (s.disableUp p).agent = (((s.abandonTx p true).abandonRx p).flush p).agent := by
        unfold State.disableUp
        rw [State.onPort_agent, State.onPort_agent]
    _ = ((s.abandonTx p true).abandonRx p).agent := (State.flush_tables _ p).1.agent.symm
    _ = s.agent := ((s.abandonTx_tables p true).trans (State.abandonRx_tables _ p)).agent

theorem State.applyEnable_agent (s : State) (p : Port) (enable : Bool) : (s.applyEnable p enable).agent = s.agent := by
  unfold State.applyEnable
  split
  · exact State.disableUp_agent s p
  all_goals rfl

theorem setPortBody_serves (s : State) : State.Serves c ok s (setPortBody args s) := by
  unfold setPortBody
  split
  · next p k _ _ =>
    have hcfg : s.Alike (s.onPort p fun P => { P with cfg := k }) :=
      State.alike_onPort s p _ ⟨rfl, rfl, rfl, rfl, rfl, rfl, rfl, rfl, rfl, .inl rfl, .inl rfl⟩
    exact State.serves_ok (hcfg.leads.trans (State.applyEnable_leads _ p k.enable)) (State.applyEnable_agent _ p _)
      (by simp)
  · exact State.serves_refuse s _
  · exact State.serves_refuse s _

theorem State.clearCounters_alike (s : State) (g : CounterGroup) : s.Alike (s.clearCounters g) := by
  cases g with
  | port p => exact State.alike_onPort s p (fun P => { P with ctr := .zero }) (PortState.alike_ctr _ _)
  | device => exact { State.Alike.refl s with }
  | bucket n => exact State.alike_setBucket s n _ id
  | slot n =>
    exact State.onSlot_alike s n (fun x => { x with arrivals := 0, misses := 0, substitutes := 0, recoveries := 0 })
      ⟨rfl, rfl, rfl, rfl, rfl⟩

theorem State.clearCounters_agent (s : State) (g : CounterGroup) :
    (s.clearCounters g).agent.executing = s.agent.executing ∧ (s.clearCounters g).agent.session = s.agent.session := by
  cases g <;> exact ⟨rfl, rfl⟩

theorem State.counters_length (s : State) (g : CounterGroup) : ((s.counters g).flatMap bytes32).length ≤ 60 := by
  cases g <;> simp [State.counters, PortCounters.list, State.deviceCounters, bytes32]

theorem readCountersClearBody_serves (s : State) : State.Serves c ok s (readCountersClearBody args s) := by
  unfold readCountersClearBody
  split
  · exact State.serves_refuse s _
  · next g _ =>
    split
    · exact State.serves_refuse s _
    · obtain ⟨hx, hs⟩ := s.clearCounters_agent g
      exact ⟨(s.clearCounters_alike g).leads, hx, congrArg (·.isOpen) hs, s.counters_length g, fun _ h => by cases h⟩

theorem State.configureEvents_leads {enabled : Bool} {interval : BitVec 8} (hi : interval ≠ 0)
    (ho : s.agent.session.isOpen = true) : State.Leads c ok s (s.configureEvents enabled interval) := by
  have hsession : State.Leads c ok s
      (s.withSession { s.agent.session with eventsEnabled := enabled } s.agent.tokenCounter) :=
    State.session_run (f := fun s => s.withSession _ _) rfl ho ho rfl rfl (.inl rfl) fun _ h => .inl h
  exact hsession.trans (.of_move fun _ => .interval interval hi)

theorem setEventsBody_serves (ho : s.agent.session.isOpen = true) : State.Serves c ok s (setEventsBody args s) := by
  unfold setEventsBody
  split
  · exact State.serves_refuse s _
  · next enabled _ =>
    split
    · exact State.serves_refuse s _
    · next hi =>
      have ha : ((s.configureEvents enabled (arg args 1)).tryDeliver).agent =
          (s.configureEvents enabled (arg args 1)).agent := (State.tryDeliver_sends _).abides.agent
      exact ⟨(State.configureEvents_leads hi ho).trans (State.tryDeliver_leads _), by rw [ha]; rfl, by rw [ha]; rfl,
        by simp [Reply.ok], fun _ h => by cases h⟩

theorem ackEventsBody_serves (s : State) : State.Serves c ok s (ackEventsBody args s) := by
  unfold ackEventsBody
  split
  · exact State.serves_refuse s _
  · next n _ =>
    have hack : State.Leads c ok s { s with events := s.events.drop n } := .of_move fun _ => .acknowledge n
    exact State.serves_ok (hack.trans (State.tryDeliver_leads _)) ((State.tryDeliver_sends _).abides.agent) (by simp)

theorem resetBody_serves {scope : ResetScope} (hc : ResetsTo c scope)
    (hs : ∀ other, parseScope (arg args 0) = some other → other = scope) (s : State) :
    State.Serves c ok s (resetBody args s) := by
  unfold resetBody
  split
  · exact State.serves_refuse s _
  · next other h =>
    refine ⟨.refl s, rfl, rfl, by simp, fun k hk => ?_⟩
    cases hk
    exact hs other h ▸ hc

end

end Sys2Proof.Machine
end

