-- ==== Sys2Proof/Proofs/Frames.lean ====
section
/-! SUPPORT. What the primitive changes of the Frame Store leave unchanged, and that a disposition brought to its end has
ended (R45). -/

namespace Sys2Proof.Machine

section
variable {c : Option Instr} {ok : Prop} {s t u : State} {H K : Hand}

/-- Whatever every primitive change keeps, a sequence of them keeps. -/
theorem Run.keeps {P : Hand × State → Prop} (hm : ∀ {x y}, Move c ok x y → P x → P y) {x y : Hand × State}
    (hr : Run c ok x y) (h : P x) : P y := by
  induction hr with
  | refl => exact h
  | tail _ m ih => exact hm m ih

/-- `t` is `s` in every block but the ports and the buffers' references. -/
structure State.SameBlocks (s t : State) : Prop where
  tables : s.SameTables t
  events : s.SameEvents t
  due    : t.resetDue = s.resetDue
  mem    : t.store.mem = s.store.mem

theorem State.FlowFrame.blocks (h : s.FlowFrame t) : s.SameBlocks t := ⟨h.tables, h.events, h.due, h.mem⟩

theorem State.joined_blocks (s : State) (p : Port) (b : BufNo) (h : Header) (o : Origin) :
    s.SameBlocks (s.joined p b h o) := by
  obtain ⟨ht, he, hd⟩ := s.joined_frame p b h o
  exact ⟨ht, he, hd, (State.addRef_frame _ b).mem⟩

theorem State.pop_blocks {b : BufNo} (hu : s.takeTop = some (b, u)) : s.SameBlocks u.popMarked := by
  have htop : s.SameBlocks u := by
    unfold State.takeTop at hu
    split at hu
    · cases hu
    · cases hu; exact ⟨.refl s, .refl s, rfl, rfl⟩
  have hmark : u.SameBlocks u.popMarked := by
    unfold State.popMarked
    split
    · exact ⟨.refl u, .refl u, rfl, rfl⟩
    · split
      · exact ⟨.refl u, .refl u, rfl, rfl⟩
      · exact ⟨.refl u, .refl u, rfl, rfl⟩
  exact ⟨htop.tables.trans hmark.tables, htop.events.trans hmark.events, hmark.due.trans htop.due, hmark.mem.trans htop.mem⟩

theorem State.SameBlocks.agent (h : s.SameBlocks t) : t.agent = s.agent := h.tables.agent

/-! ## A reset falls due only while one is pending (R148) -/

/-- A reset is due only while one is pending. -/
def State.DuePending (s : State) : Prop := s.resetDue = true → s.agent.resetPending.isSome = true

theorem State.SameBlocks.duePending (h : s.SameBlocks t) (k : s.DuePending) : t.DuePending := fun hd => by
  rw [h.agent]; exact k (h.due ▸ hd)

theorem Move.duePending {x y : Hand × State} (m : Move c ok x y) (h : x.2.DuePending) : y.2.DuePending := by
  cases m
  case alike ha => exact fun hd => by rw [ha.resetPending]; exact h (ha.resetDue ▸ hd)
  case join => exact (State.joined_blocks _ _ _ _ _).duePending h
  case release => exact (State.release_frame _ _).blocks.duePending h
  case addRef => exact (State.addRef_frame _ _).blocks.duePending h
  case pop hu => exact (State.pop_blocks hu).duePending h
  case pend => exact fun _ => rfl
  case mark hp => exact fun _ => hp
  case unmark => exact fun hd => by cases hd
  case full => exact fun hd => by cases hd
  case forwarding =>
    intro hd
    unfold State.forwardingCore at hd
    dsimp only at hd
    split at hd <;> cases hd
  all_goals exact h

/-! ## A disposition brought to its end has ended (R45) -/

/-- How many stages a disposition may still take: the seven stages, of which stage 6 is one attempt for each port. -/
def Disposal.left (d : Disposal) : Nat :=
  match d.stage with
  | .lookup => 10
  | .resolve => 9
  | .ageCheck => 8
  | .bucket => 7
  | .arrival => 6
  | .enqueue => 1 + (PortSet.ports d.egress).length
  | .release => 1

theorem PortSet.ports_length (m : PortSet) : (PortSet.ports m).length ≤ 4 := List.length_filter_le _ Port.all

/-- Without a port, the ports of a set are those that were there but for it. -/
theorem PortSet.ports_without (m : PortSet) (q : Port) :
    PortSet.ports (PortSet.without m q) = (PortSet.ports m).filter (· ≠ q) := by
  unfold PortSet.ports
  rw [List.filter_filter]
  refine List.filter_congr fun r _ => ?_
  rw [PortSet.has_without]
  simp [Bool.and_comm]

/-- An attempt leaves one port fewer to try. -/
theorem PortSet.ports_without_head {m : PortSet} {q : Port} {qs : List Port} (h : PortSet.ports m = q :: qs) :
    (PortSet.ports (PortSet.without m q)).length < (PortSet.ports m).length := by
  rw [PortSet.ports_without]
  exact List.length_filter_lt_length_iff_exists.2 ⟨q, by rw [h]; simp, by simp⟩

theorem State.endDisposal_disposing (s : State) (p : Port) (d : Disposal) :
    (s.endDisposal p d).disposing = vset s.disposing p none :=
  (State.release_frame _ d.buf).sends.abides.disposing

/-- The disposition of port `p`, if it still goes on, has fewer stages left than `d`. -/
def State.Nearer (p : Port) (d : Disposal) (t : State) : Prop := ∀ d', t.disposing[p] = some d' → d'.left < d.left

variable {p : Port} {d d' : Disposal}

theorem State.nearer_end (t : State) (e : Disposal) : State.Nearer p d (t.endDisposal p e) := fun d' h => by
  rw [State.endDisposal_disposing] at h
  simp at h

theorem State.nearer_goOn (t : State) (h : d'.left < d.left) : State.Nearer p d (t.goOn p d') := fun e he => by
  simp only [State.goOn, Fin.getElem_fin, vset_get_self] at he
  cases he; exact h

theorem Disposal.left_enqueue (h : d'.stage = .enqueue) : d'.left ≤ 5 := by
  have := PortSet.ports_length d'.egress
  simp only [Disposal.left, h]; omega

theorem State.takeStage_nearer (s : State) (p : Port) (d : Disposal) : State.Nearer p d (s.takeStage p d) := by
  unfold State.takeStage
  split
  · next hs =>
    unfold State.stageLookup
    split
    · exact State.nearer_goOn _ (by simp [Disposal.left, Disposal.next, hs])
    · split
      · exact State.nearer_end _ _
      · exact State.nearer_goOn _ (by simp [Disposal.left, Disposal.next, hs])
  · next hs _ =>
    unfold State.stageResolve
    dsimp only
    split
    · exact State.nearer_end _ _
    · exact State.nearer_goOn _ (by simp [Disposal.left, Disposal.next, hs])
    · exact State.nearer_goOn _ (by simp [Disposal.left, Disposal.next, hs])
  · exact State.nearer_end _ _
  · next hs =>
    have hleft : d.left = 8 := by simp [Disposal.left, hs]
    unfold State.stageAge
    split
    · split
      · exact State.nearer_goOn _ (by rw [hleft]; simp [Disposal.left, Disposal.next])
      · exact State.nearer_goOn _ (by rw [hleft]; exact Nat.lt_of_le_of_lt (Disposal.left_enqueue rfl) (by decide))
    · split
      · split
        · exact State.nearer_goOn _ (by rw [hleft]; simp [Disposal.left, Disposal.next])
        · exact State.nearer_goOn _ (by rw [hleft]; simp [Disposal.left, Disposal.next])
      · exact State.nearer_goOn _ (by rw [hleft]; simp [Disposal.left, Disposal.next])
  · next hs _ =>
    unfold State.stageBucket
    split
    · exact State.nearer_goOn _ (by simp [Disposal.left, Disposal.next, hs])
    · split
      · exact State.nearer_end _ _
      · exact State.nearer_goOn _ (by simp [Disposal.left, Disposal.next, hs])
      · exact State.nearer_goOn _ (by simp [Disposal.left, Disposal.next, hs])
  · exact State.nearer_end _ _
  · next hs _ =>
    have hleft : d.left = 6 := by simp [Disposal.left, hs]
    unfold State.stageArrival
    dsimp only
    split
    · exact State.nearer_goOn _ (by rw [hleft]; exact Nat.lt_of_le_of_lt (Disposal.left_enqueue rfl) (by decide))
    · exact State.nearer_goOn _ (by rw [hleft]; simp [Disposal.left, Disposal.next])
  · exact State.nearer_end _ _
  · next hs =>
    unfold State.stageEnqueue
    split
    · exact State.nearer_end _ _
    · next q hq => exact State.nearer_goOn _ (by simp [Disposal.left, Disposal.next, hs, hq])
    · next q r rs hq =>
      refine State.nearer_goOn _ ?_
      have := PortSet.ports_without_head hq
      simpa [Disposal.left, Disposal.next, hs] using this
  · exact State.nearer_end _ _

/-- With enough stages a disposition ends, or a reset falls due. -/
theorem State.takeStages_end : ∀ (fuel : Nat) (p : Port) (s : State),
    (∀ d, s.disposing[p] = some d → d.left ≤ fuel) →
    (State.takeStages fuel p s).disposing[p] = none ∨ (State.takeStages fuel p s).resetDue = true
  | 0, p, s, h => by
    refine .inl (Option.eq_none_iff_forall_ne_some.2 fun d hd => ?_)
    have := h d hd
    unfold Disposal.left at this
    split at this <;> omega
  | fuel + 1, p, s, h => by
    by_cases hr : s.resetDue = true
    · exact .inr (by rw [State.takeStages, if_pos hr]; exact hr)
    · cases hd : s.disposing[p] with
      | none => exact .inl (by rw [State.takeStages_ended hd]; exact hd)
      | some d =>
        rw [State.takeStages_next hd (by simpa using hr)]
        refine State.takeStages_end fuel p _ fun e he => ?_
        have := s.takeStage_nearer p d e he
        have := h d hd
        omega

theorem Disposal.left_le (d : Disposal) : d.left ≤ 10 := by
  have := PortSet.ports_length d.egress
  unfold Disposal.left
  split <;> omega

theorem State.fullReset_disposing (s : State) (p : Port) : s.fullReset.disposing[p] = none := by
  simp [State.fullReset]

theorem State.forwardingCore_disposing (s : State) : s.forwardingCore.disposing = Vector.replicate 4 none := by
  unfold State.forwardingCore
  dsimp only
  split <;> rfl

theorem State.forwardingReset_disposing (s : State) (p : Port) : s.forwardingReset.disposing[p] = none := by
  have hd : s.forwardingReset.disposing = s.forwardingCore.disposing :=
    ((State.note_sends _ _ _ _).trans (State.tryDeliver_sends _)).abides.disposing
  rw [hd, s.forwardingCore_disposing]
  simp

/-- At the end of a command, where a due reset is pending, no disposition is left (R44). -/
theorem State.finish_disposing (h : s.DuePending) (hp : s.disposing[p] = none ∨ s.resetDue = true) :
    s.finish.disposing[p] = none := by
  unfold State.finish
  split
  · next hd =>
    split
    · next r hr =>
      cases hs : r.scope with
      | full => exact State.fullReset_disposing s p
      | forwarding => exact State.forwardingReset_disposing s p
    · next hr => have := h hd; rw [hr] at this; cases this
  · next hd => exact hp.resolve_right hd

/-- A disposition brought to its end has ended (R45). -/
theorem State.settle_ends (hs : s.resetDue = false) (p : Port) : (s.settle p).disposing[p] = none := by
  unfold State.settle
  split
  · next h => exact h
  · refine State.finish_disposing ?_ (State.takeStages_end _ _ _ fun d _ => d.left_le)
    have hrun := State.takeStages_leads (c := none) (ok := True) (.inl rfl) allStages p s Hand.empty
    exact hrun.keeps Move.duePending fun h => absurd h (by simp [hs])

end

end Sys2Proof.Machine
end

