-- ==== Sys2Proof/Proofs/RunsExec.lean ====
section
/-! SUPPORT. Every command but RSTN and TICK is a sequence of primitive changes that begins and ends with nothing in hand;
TICK is one followed by the counter's advance, and a step that finds no command waiting is one too. -/

namespace Sys2Proof.Machine

section
variable {c : Option Instr} {ok : Prop} {s t u : State} {v : RequestView}

/-- Nothing is left half done: no reset is due and no request is under execution (`State.AgentLaw`). -/
def State.AtRest (s : State) : Prop := s.resetDue = false ∧ s.agent.executing = none

/-! ## Rows of the Management Agent -/

theorem State.sessionedServe_run {mine : RequestView → Bool} {body : Body} {k : Command} 
    (hb : ∀ v u, mine v = true → u.agent.session.isOpen = true → v.args.length = k.argBytes →
      State.Serves c ok u (body v.args u)) :
    Run c ok (Hand.empty, s) (Hand.empty, (s.takeRequest mine (State.serveSessioned k body)).finish) :=
  (State.takeRequest_run rfl fun r _ hm hx =>
    State.serveSessioned_run (v := s.viewRequest r) rfl hx fun u => hb _ u hm).trans (State.finish_run _)

theorem State.readServe_run {mine : RequestView → Bool} {body : Body} {k : Command}
    (hb : ∀ args u, ∃ r, body args u = (u, r)) :
    Run c ok (Hand.empty, s) (Hand.empty, (s.takeRequest mine (State.serveRead k body)).finish) := by
  refine (State.takeRequest_run rfl fun r rest _ hx => ?_).trans (State.finish_run _)
  have hsame : ∃ r', body.checked k (s.viewRequest r).args (s.beginRequest r rest) = (s.beginRequest r rest, r') := by
    unfold Body.checked
    split
    · exact hb _ _
    · exact ⟨_, rfl⟩
  obtain ⟨r', hr⟩ := hsame
  unfold State.serveRead
  rw [hr]
  exact State.answer_run (v := s.viewRequest r) rfl hx _ _

theorem readRouteBody_same (args : List Byte) (s : State) : ∃ r, readRouteBody args s = (s, r) := by
  unfold readRouteBody
  dsimp only
  split
  · exact ⟨_, rfl⟩
  · split
    · exact ⟨_, rfl⟩
    · split <;> exact ⟨_, rfl⟩

theorem readActionBody_same (args : List Byte) (s : State) : ∃ r, readActionBody args s = (s, r) := by
  unfold readActionBody
  dsimp only
  split <;> exact ⟨_, rfl⟩

theorem readBucketBody_same (args : List Byte) (s : State) : ∃ r, readBucketBody args s = (s, r) := by
  unfold readBucketBody
  split <;> exact ⟨_, rfl⟩

theorem readSlotBody_same (args : List Byte) (s : State) : ∃ r, readSlotBody args s = (s, r) := by
  unfold readSlotBody
  split <;> exact ⟨_, rfl⟩

theorem readPortBody_same (args : List Byte) (s : State) : ∃ r, readPortBody args s = (s, r) := by
  unfold readPortBody
  split <;> exact ⟨_, rfl⟩

theorem readCountersBody_same (args : List Byte) (s : State) : ∃ r, readCountersBody args s = (s, r) := by
  unfold readCountersBody
  split <;> exact ⟨_, rfl⟩

/-- A RESET request of the other row is taken by this one only where it is malformed (R169). -/
theorem RequestView.resets_other {mine other scope : ResetScope} (hv : v.resetsTo other = false)
    (hl : v.args.length = 1) (hp : parseScope (arg v.args 0) = some scope) (ho : scope = mine ∨ scope = other) :
    scope = mine := by
  rcases ho with h | h
  · exact h
  · subst h
    simp [RequestView.resetsTo, hl, hp] at hv

theorem State.resetServe_run {scope other : ResetScope} (hr : ResetsTo c scope)
    (hs : ∀ x : ResetScope, x = scope ∨ x = other) :
    Run c ok (Hand.empty, s) (Hand.empty, (s.takeRequest (fun v => v.names .reset && !v.resetsTo other)
      (State.serveSessioned .reset resetBody)).finish) := by
  refine State.sessionedServe_run fun v u hm _ hl => resetBody_serves hr (fun x hx => ?_) u
  have hv : v.resetsTo other = false := by
    simp only [Bool.and_eq_true, Bool.not_eq_true'] at hm
    exact hm.2
  exact RequestView.resets_other hv hl hx (hs x)

/-! ## Symbols and the transmitter -/

theorem exec_rxEnd_run (e : FrameEnd) (s : State) : Run (some (.rxEnd e)) s.AtRest (Hand.empty, s)
    (Hand.empty, ((s.beforeEnd e.port).takeValid e.port (·.endInUp e.port e.pace)).finish) := by
  have hc : Disposes (some (.rxEnd e)) := .inr (.inr ⟨e, rfl⟩)
  refine Relation.ReflTransGen.trans ?_ (State.finish_run _)
  by_cases hb : s.ports[e.port].rx ≠ .idle ∧ s.initializing = false ∧ s.isUp e.port = true
  · rw [State.beforeEnd, if_pos hb]
    exact (State.settle_run hc s _).trans (State.takeValid_run fun _ _ =>
      State.endInUp_run ⟨e, rfl⟩ fun hrest => State.settle_ends hrest.1 _)
  · rw [State.beforeEnd, if_neg hb]
    refine State.takeValid_run fun hi hl => ?_
    have hrx : (s.onPort e.port PortState.heard).ports[e.port].rx = .idle := by
      rw [State.heard_rx]
      exact not_not.1 fun h => hb ⟨h, hi, (s.isUp_iff _).2 hl⟩
    rw [State.endInUp, hrx]

theorem exec_rxInvalidSymbol_run {p : Port} (h : execRxInvalidSymbol p s = .next t) :
    Run c ok (Hand.empty, s) (Hand.empty, t) := by
  unfold execRxInvalidSymbol at h
  split at h
  · cases h; exact .refl
  · split at h <;> cases h
    · exact .refl
    · exact (State.alike_onPort s p _ ⟨rfl, rfl, rfl, rfl, rfl, rfl, rfl, rfl, rfl, .inr (by simp), .inl rfl⟩).leads _
    · next hl => exact .single (.restart p .down (by rw [hl]; simp) (.inl rfl))
    · next hl => exact (State.invalidInUp_leads hl _).trans (State.finish_run _)

theorem exec_signalTimeout_run {p : Port} (h : execSignalTimeout p s = .next t) :
    Run c ok (Hand.empty, s) (Hand.empty, t) := by
  have hquiet : ∀ u : State, State.Leads c ok u (u.onPort p fun P => { P with quiet := true }) := fun u =>
    (State.alike_onPort u p _ ⟨rfl, rfl, rfl, rfl, rfl, rfl, rfl, rfl, rfl, .inl rfl, .inl rfl⟩).leads
  unfold execSignalTimeout at h
  split at h
  · cases h; exact .refl
  · split at h <;> cases h
    · exact .refl
    · exact (State.alike_onPort s p _ ⟨rfl, rfl, rfl, rfl, rfl, rfl, rfl, rfl, rfl, .inr (by simp), .inl rfl⟩).leads _
    · next hl =>
      have hrestart := Run.of_move (c := c) (ok := ok) (.restart (H := Hand.empty) (s := s) p .down (by rw [hl]; simp) (.inl rfl))
      have hq := hquiet (s.onPort p (·.restartLink .down)) Hand.empty
      rw [State.onPort_onPort] at hq
      exact hrestart.trans hq
    · exact ((hquiet s).trans (State.linkLoss_leads _ p 2) _).trans (State.finish_run _)

theorem exec_txEnd_run {p : Port} (h : execTxEnd p s = .next t) : Run c ok (Hand.empty, s) (Hand.empty, t) := by
  unfold execTxEnd at h
  split at h <;> cases h
  · exact .refl
  · next e htx => exact ((State.frameSent_run htx).trans (State.askNext_leads _ p _)).trans (State.finish_run _)

theorem exec_sendControlSymbol_run {p : Port} (h : execSendControlSymbol p s = .next t) :
    Run c ok (Hand.empty, s) (Hand.empty, t) := by
  unfold execSendControlSymbol at h
  split at h <;> cases h
  · next f rest _ ha => exact .single (.control p f rest ha)
  all_goals exact .refl

/-! ## Every command (R77 to R79) -/

/-- TICK takes what is due, and then the counter advances. -/
theorem exec_tick (s : State) : exec .tick s = .next s.takeDue.advance.drawPace := rfl

/-- RSTN leaves the power-up values and the queue of commands. -/
theorem exec_rstnRelease (node : Node) (s : State) :
    exec (.rstnRelease node) s = .next { State.powerUp node with pending := s.pending } := rfl

/-- The commands other than RSTN and TICK. -/
def plainRow : Instr → Bool
  | .rstnRelease _ => false
  | .tick => false
  | _ => true

theorem plainRow_false {i : Instr} (h : plainRow i = false) : i = .tick ∨ ∃ node, i = .rstnRelease node := by
  cases i with
  | rstnRelease node => exact .inr ⟨node, rfl⟩
  | tick => exact .inl rfl
  | _ => cases h

theorem exec_run {i : Instr} (hi : plainRow i = true) (h : exec i s = .next t) :
    Run (some i) s.AtRest (Hand.empty, s) (Hand.empty, t) := by
  cases i with
  | rstnRelease node => cases hi
  | tick => cases hi
  | portInitEnd => cases h; exact State.takeInitEnd_leads s _
  | rxStart p =>
    cases h
    exact (State.takeValid_leads (fun u => State.startInUp_leads ⟨p, .inl rfl⟩) _).trans (State.finish_run _)
  | rxDataByte p v => cases h; exact State.takeValid_leads (fun u hl => State.dataInUp_leads ⟨p, .inr ⟨v, rfl⟩⟩ hl v) _
  | rxEnd e => cases h; exact exec_rxEnd_run e s
  | rxAbort p => cases h; exact State.takeValid_leads (fun u _ => State.abandonRx_leads u p) _
  | rxIdle p => cases h; exact State.takeValid_leads (fun u hl => State.codeError_leads hl) _
  | rxInvalidSymbol p => exact exec_rxInvalidSymbol_run h
  | signalTimeout p => exact exec_signalTimeout_run h
  | rxHold p => cases h; exact State.takeValid_leads (fun u hl => State.holdInUp_leads hl) _
  | rxGo p =>
    cases h
    exact (State.takeValid_leads (fun _ _ => State.goInUp_leads) _).trans (State.finish_run _)
  | trainingDeadline p => cases h; exact State.takeTrainingDeadline_run s p
  | holdDeadline p => cases h; exact State.takeHoldDeadline_run s p
  | txEnd p => exact exec_txEnd_run h
  | sendControlSymbol p => exact exec_sendControlSymbol_run h
  | copyDone => cases h; exact .single (.copyDone (by simp))
  | slotStartWindowExpiry n => cases h; exact State.takeStartWindow_run s n
  | slotDeadline n => cases h; exact State.takeSlotDeadline_run s n
  | leaseExpiry => cases h; exact State.takeLeaseDeadline_run s
  | resetLimitExpiry => cases h; exact State.takeResetLimit_run s
  | retransmitExpiry => cases h; exact State.takeRetransmit_run s
  | identify => cases h; exact State.readServe_run fun _ _ => ⟨_, rfl⟩
  | openSession =>
    cases h
    exact (State.takeRequest_run rfl fun r _ _ hx =>
      State.serveOpen_run (v := s.viewRequest r) rfl hx).trans (State.finish_run _)
  | closeSession => cases h; exact State.sessionedServe_run fun _ u _ _ _ => closeBody_serves u
  | keepalive =>
    cases h; exact State.sessionedServe_run fun _ u _ _ _ => keepaliveBody_serves u
  | readRoute => cases h; exact State.readServe_run readRouteBody_same
  | writeRoute =>
    cases h; exact State.sessionedServe_run fun _ u _ _ _ => writeRouteBody_serves u
  | clearRoutes =>
    cases h; exact State.sessionedServe_run fun _ u _ _ _ => clearRoutesBody_serves u
  | commit => cases h; exact State.sessionedServe_run fun _ u _ _ _ => commitBody_serves rfl u
  | readAction => cases h; exact State.readServe_run readActionBody_same
  | writeAction =>
    cases h; exact State.sessionedServe_run fun _ u _ _ _ => writeActionBody_serves u
  | readBucket => cases h; exact State.readServe_run readBucketBody_same
  | writeBucket =>
    cases h; exact State.sessionedServe_run fun _ u _ _ _ => writeBucketBody_serves u
  | readSlot => cases h; exact State.readServe_run readSlotBody_same
  | writeSlot =>
    cases h; exact State.sessionedServe_run fun _ u _ _ _ => writeSlotBody_serves u
  | arm => cases h; exact State.sessionedServe_run fun _ u _ _ _ => armBody_serves u
  | disarm => cases h; exact State.sessionedServe_run fun _ u _ _ _ => disarmBody_serves u
  | readPort => cases h; exact State.readServe_run readPortBody_same
  | setPort => cases h; exact State.sessionedServe_run fun _ u _ _ _ => setPortBody_serves u
  | readCounters => cases h; exact State.readServe_run readCountersBody_same
  | readCountersClear =>
    cases h; exact State.sessionedServe_run fun _ u _ _ _ => readCountersClearBody_serves u
  | setEvents =>
    cases h; exact State.sessionedServe_run fun _ u _ ho _ => setEventsBody_serves ho
  | ackEvents =>
    cases h; exact State.sessionedServe_run fun _ u _ _ _ => ackEventsBody_serves u
  | resetFull =>
    cases h
    exact State.resetServe_run (scope := .full) (other := .forwarding) rfl fun x => by
      cases x <;> simp
  | resetForwarding =>
    cases h
    exact State.resetServe_run (scope := .forwarding) (other := .full) rfl fun x => by
      cases x <;> simp
  | badOpcode =>
    cases h
    exact (State.takeRequest_run rfl fun r _ _ hx =>
      State.answer_run (v := s.viewRequest r) rfl hx _ _).trans (State.finish_run _)

/-- What a step does: with none waiting the part goes on with what is in progress, TICK takes what is due before the counter's
advance, RSTN sets the power-up values, and every other command is a sequence of primitive changes. -/
theorem step_cases (h : step s = .next t) :
    (Run none s.AtRest (Hand.empty, s) (Hand.empty, t) ∧ t = s.idle) ∨
      ∃ i rest, s.pending = i :: rest ∧
        ((∃ node, t = { State.powerUp node with pending := rest }) ∨
          (∃ u, Run (some .tick) s.AtRest (Hand.empty, { s with pending := rest }) (Hand.empty, u) ∧
            u = State.takeDue { s with pending := rest } ∧ t = u.advance.drawPace) ∨
          (plainRow i = true ∧ exec i { s with pending := rest } = .next t ∧
            Run (some i) s.AtRest (Hand.empty, { s with pending := rest }) (Hand.empty, t))) := by
  unfold step at h
  split at h
  · cases h
    exact .inl ⟨State.idle_run (.inl rfl) s, rfl⟩
  · next i rest hq =>
    refine .inr ⟨i, rest, hq, ?_⟩
    cases hi : plainRow i with
    | true => exact .inr (.inr ⟨rfl, h, exec_run hi h⟩)
    | false =>
      obtain rfl | ⟨node, rfl⟩ := plainRow_false hi
      · have ht : (State.takeDue { s with pending := rest }).advance.drawPace = t := Host.Outcome.next.inj h
        subst ht
        exact .inr (.inl ⟨_, State.takeDue_run (.inr (.inl rfl)) _, rfl, rfl⟩)
      · rw [exec_rstnRelease] at h
        cases h
        exact .inl ⟨node, rfl⟩

end

end Sys2Proof.Machine
end

