-- ==== Sys2Proof/Proofs/KeptStore.lean ====
section
/-! PROOF. What every primitive change keeps, every step keeps; and O51: the two laws of the Frame Store (R25). -/

namespace Sys2Proof.Machine

section
variable {c : Option Instr} {ok : Prop} {s t u : State} {H : Hand}

/-- What every primitive change, the counter's advance and RSTN keep, every step keeps. -/
theorem step_keeps {Q : Hand × State → Prop} (hmove : ∀ {c x y}, Move c s.AtRest x y → Q x → Q y)
    (htick : ∀ u, Q (Hand.empty, u) → Q (Hand.empty, u.advance.drawPace))
    (hup : ∀ node rest, Q (Hand.empty, { State.powerUp node with pending := rest }))
    (hq : Q (Hand.empty, s)) (hpend : ∀ rest, Q (Hand.empty, s) → Q (Hand.empty, { s with pending := rest }))
    (h : step s = .next t) : Q (Hand.empty, t) := by
  obtain ⟨hr, -⟩ | ⟨i, rest, -, ⟨node, rfl⟩ | ⟨u, hr, -, rfl⟩ | ⟨-, -, hr⟩⟩ := step_cases h
  · exact hr.keeps hmove hq
  · exact hup node rest
  · exact htick u (hr.keeps hmove (hpend rest hq))
  · exact hr.keeps hmove (hpend rest hq)

/-! ## The store's law (R25) -/

theorem State.StoreLaw.of_same (hc : t.store.count = s.store.count) (hf : t.store.free = s.store.free)
    (h : s.StoreLaw) : t.StoreLaw := by
  unfold State.StoreLaw
  rw [hc, hf]; exact h

theorem State.release_storeLaw (b : BufNo) (h : s.StoreLaw) : (s.release b).StoreLaw := by
  obtain ⟨hn, hm⟩ := h
  obtain ⟨hc, hf⟩ := s.release_store b
  unfold State.StoreLaw
  rw [hc, hf]
  split
  · next h1 =>
    refine ⟨List.nodup_cons.2 ⟨fun hb => ?_, hn⟩, fun b' => ?_⟩
    · have := (hm b).1 hb; omega
    · by_cases hb : b' = b
      · subst hb; simp [h1]
      · rw [List.mem_cons, hm b', Fin.getElem_fin, Fin.getElem_fin, vset_get_ne _ _ hb]
        simp [hb]
  · next h1 =>
    refine ⟨hn, fun b' => ?_⟩
    rw [hm b']
    by_cases hb : b' = b
    · subst hb
      simp only [Fin.getElem_fin, vset_get_self] at h1 ⊢
      omega
    · rw [Fin.getElem_fin, Fin.getElem_fin, vset_get_ne _ _ hb]

theorem State.addRef_storeLaw (b : BufNo) (h : s.StoreLaw) : (s.addRef b).StoreLaw := by
  by_cases h0 : s.store.count[b] = 0
  · rw [State.addRef_free s b h0]; exact h
  · obtain ⟨hn, hm⟩ := h
    unfold State.StoreLaw
    rw [State.addRef_store s b h0]
    refine ⟨hn, fun b' => ?_⟩
    rw [hm b']
    by_cases hb : b' = b
    · subst hb
      simp only [Fin.getElem_fin, vset_get_self] at h0 ⊢
      omega
    · simp only [Fin.getElem_fin, vset_get_ne _ _ hb]

theorem State.popMarked_store (s : State) :
    s.popMarked.store.count = s.store.count ∧ s.popMarked.store.free = s.store.free := by
  unfold State.popMarked
  split
  · exact ⟨rfl, rfl⟩
  · split <;> exact ⟨rfl, rfl⟩

/-- The buffer a pop takes, off the stack with count 1 (R26). -/
theorem State.takeTop_store {b : BufNo} (h : s.takeTop = some (b, u)) :
    s.store.free = b :: u.store.free ∧ u.store.count = vset s.store.count b 1 ∧ u.ports = s.ports := by
  unfold State.takeTop at h
  split at h
  · cases h
  · next hf => cases h; exact ⟨hf, rfl, rfl⟩

theorem State.pop_storeLaw {b : BufNo} (hu : s.takeTop = some (b, u)) (h : s.StoreLaw) : u.popMarked.StoreLaw := by
  obtain ⟨hn, hm⟩ := h
  obtain ⟨hc, hf⟩ := u.popMarked_store
  obtain ⟨hfree, hcount, -⟩ := State.takeTop_store hu
  rw [hfree, List.nodup_cons] at hn
  unfold State.StoreLaw
  rw [hc, hf, hcount]
  refine ⟨hn.2, fun b' => ?_⟩
  by_cases hb : b' = b
  · subst hb; simp [hn.1]
  · have := hm b'
    rw [hfree, List.mem_cons] at this
    rw [Fin.getElem_fin, vset_get_ne _ _ hb]
    simpa [hb] using this

theorem Store.reset_law (h : t.store.count = Vector.replicate 128 0) (hf : t.store.free = Store.resetOrder) :
    t.StoreLaw := by
  unfold State.StoreLaw
  rw [h, hf]
  exact ⟨List.nodup_finRange 128, fun b => by simp [Store.resetOrder]⟩

theorem State.forwardingCore_store (s : State) : s.forwardingCore.store = s.store.rebuilt := by
  unfold State.forwardingCore
  dsimp only
  split <;> rfl

theorem Move.storeLaw {x y : Hand × State} (m : Move c ok x y) (h : x.2.StoreLaw) : y.2.StoreLaw := by
  cases m
  case alike ha => exact h.of_same ha.count ha.free
  case join => exact State.addRef_storeLaw _ h
  case release => exact State.release_storeLaw _ h
  case addRef => exact State.addRef_storeLaw _ h
  case pop hu => exact State.pop_storeLaw hu h
  case full => exact Store.reset_law rfl rfl
  case forwarding s r _ _ =>
    exact Store.reset_law (congrArg Store.count s.forwardingCore_store) (congrArg Store.free s.forwardingCore_store)
  all_goals exact h

/-- The depth and the number of claimed buffers are 128 together (R25). -/
theorem State.StoreLaw.depth (h : s.StoreLaw) : s.store.depth + s.store.claimed = 128 := by
  obtain ⟨hn, hm⟩ := h
  have hperm : s.store.free.Perm ((List.finRange 128).filter fun b : BufNo => decide (s.store.count[b] = 0)) :=
    (List.perm_ext_iff_of_nodup hn ((List.nodup_finRange 128).filter _)).2 fun b => by rw [hm b]; simp
  have hlen := (List.finRange 128).length_eq_countP_add_countP (p := fun b : BufNo => decide (s.store.count[b] = 0))
  rw [Store.depth, hperm.length_eq, ← List.countP_eq_length_filter, Store.claimed]
  simpa using hlen.symm

/-! ## The bytes' canonical form -/

theorem Move.memoryLaw {x y : Hand × State} (m : Move c ok x y) (h : x.2.MemoryLaw) : y.2.MemoryLaw := by
  cases m
  case alike ha => exact ha.mem h
  case join s p b hd o _ _ _ _ =>
    unfold State.MemoryLaw
    rw [(State.joined_blocks s p b hd o).mem]; exact h
  case release b =>
    unfold State.MemoryLaw
    rw [(State.release_frame _ b).mem]; exact h
  case addRef b _ =>
    unfold State.MemoryLaw
    rw [(State.addRef_frame _ b).mem]; exact h
  case pop hu =>
    unfold State.MemoryLaw
    rw [(State.pop_blocks hu).mem]; exact h
  case forwarding s r _ _ =>
    unfold State.MemoryLaw
    rw [s.forwardingCore_store]; exact h
  all_goals exact h

/-- Settles O51: both laws are kept by every primitive change, and the free stack and the claimed buffers share out the 128. -/
theorem frameStoreLawsAreKept : Obligations.FrameStoreLawsAreKept := by
  unfold Obligations.FrameStoreLawsAreKept
  refine ⟨fun s t h hs => ?_, fun s t h hs => ?_⟩
  · have ht : t.StoreLaw := step_keeps (Q := fun x => x.2.StoreLaw) Move.storeLaw (fun _ h => h)
      (fun _ _ => Store.reset_law rfl rfl) h (fun _ h => h) hs
    exact ⟨ht, ht.depth⟩
  · exact step_keeps (Q := fun x => x.2.MemoryLaw) Move.memoryLaw (fun _ h => h) (fun _ _ => rfl) h (fun _ h => h) hs

end

end Sys2Proof.Machine
end

