-- ==== Sys2Proof/Proofs/KeptTables.lean ====
section
/-! PROOF. O55: what every step keeps of the Route Table's banks, the Action Table's records and the buckets' credits. -/

namespace Sys2Proof.Machine

section
variable {c : Option Instr} {ok : Prop} {s t u : State} {H : Hand}

theorem State.SameTables.route (h : s.SameTables t) : t.route = s.route := by
  obtain ⟨-, -, -, h, -⟩ := h
  exact h

theorem State.SameTables.action (h : s.SameTables t) : t.action = s.action := by
  obtain ⟨-, -, -, -, h, -⟩ := h
  exact h

theorem State.SameTables.buckets (h : s.SameTables t) : t.buckets = s.buckets := by
  obtain ⟨-, -, -, -, -, h, -⟩ := h
  exact h

/-! ## Banks (R38, R51 to R56) -/

theorem RouteTable.bank_setBank (t : RouteTable) (n m : BankName) (v : Vector RouteEntry 64) :
    (t.setBank n v).bank m = if m = n then v else t.bank m := by
  cases n <;> cases m <;> rfl

theorem RouteTable.setBank_rest (t : RouteTable) (n : BankName) (v : Vector RouteEntry 64) :
    (t.setBank n v).active = t.active ∧ (t.setBank n v).staging = t.staging ∧ (t.setBank n v).copier = t.copier := by
  cases n <;> exact ⟨rfl, rfl, rfl⟩

/-- The law of the banks by roles: it says the same of both (R39, R51, R55). -/
structure RouteTable.Law (t : RouteTable) : Prop where
  wf      : ∀ (n : BankName) (i : RouteIdx), (t.bank n)[i].wf = true
  clean   : t.staging = .clean → t.stagingBank = t.activeBank
  copying : t.staging = .copying ↔ t.copier.isSome = true
  copied  : ∀ c, t.copier = some c → c.next ≤ 64 ∧ ∀ i : RouteIdx, i.val < c.next → t.stagingBank[i] = t.activeBank[i]

theorem State.bankLaw_iff (s : State) : s.BankLaw ↔ s.route.Law := by
  have hside : ∀ P : Vector RouteEntry 64 → Vector RouteEntry 64 → Prop, (∀ a b, P a b → P b a) →
      (P s.route.bankA s.route.bankB ↔ P s.route.stagingBank s.route.activeBank) := by
    intro P hP
    unfold RouteTable.stagingBank RouteTable.activeBank
    cases s.route.active
    · exact ⟨hP _ _, hP _ _⟩
    · exact Iff.rfl
  have hentry : ∀ i : RouteIdx, s.route.bankA[i] = s.route.bankB[i] ↔ s.route.stagingBank[i] = s.route.activeBank[i] :=
    fun i => hside (fun a b => a[i] = b[i]) fun _ _ => Eq.symm
  constructor
  · rintro ⟨hw, hc, hcopy, hdone⟩
    refine ⟨fun n i => ?_, fun h => (hside (· = ·) fun _ _ => Eq.symm).1 (hc h), hcopy, fun c h => ?_⟩
    · cases n
      · exact (hw i).1
      · exact (hw i).2
    · exact ⟨(hdone c h).1, fun i hi => (hentry i).1 ((hdone c h).2 i hi)⟩
  · rintro ⟨hw, hc, hcopy, hdone⟩
    exact ⟨fun i => ⟨hw .a i, hw .b i⟩, fun h => (hside (· = ·) fun _ _ => Eq.symm).2 (hc h), hcopy,
      fun c h => ⟨(hdone c h).1, fun i hi => (hentry i).2 ((hdone c h).2 i hi)⟩⟩

theorem RouteTable.Law.of_same {r q : RouteTable} (h : r.Law) (hA : q.bankA = r.bankA) (hB : q.bankB = r.bankB)
    (ha : q.active = r.active) (hs : q.staging = r.staging) (hc : q.copier = r.copier) : q.Law := by
  have hbank : ∀ n, q.bank n = r.bank n := by intro n; cases n; exacts [hA, hB]
  obtain ⟨h1, h2, h3, h4⟩ := h
  unfold RouteTable.stagingBank RouteTable.activeBank at h2 h4
  constructor
  · intro n i; rw [hbank]; exact h1 n i
  · unfold RouteTable.stagingBank RouteTable.activeBank; rw [hs, hbank, hbank, ha]; exact h2
  · rw [hs, hc]; exact h3
  · unfold RouteTable.stagingBank RouteTable.activeBank; rw [hc, hbank, hbank, ha]; exact h4

section
variable {r : RouteTable}

theorem RouteTable.bank_update (r : RouteTable) (v : Vector RouteEntry 64) (st : StagingState) (k : Option BankCopy) :
    ({ r.setBank r.active.other v with staging := st, copier := k } : RouteTable).activeBank = r.activeBank ∧
      ({ r.setBank r.active.other v with staging := st, copier := k } : RouteTable).stagingBank = v := by
  unfold RouteTable.activeBank RouteTable.stagingBank
  cases h : r.active <;> simp [RouteTable.setBank, BankName.other, RouteTable.bank, h]

/-- A staging bank of entries the table may hold, in a state that says nothing false of it. -/
theorem RouteTable.Law.restage (h : r.Law) {v : Vector RouteEntry 64} {st : StagingState} {k : Option BankCopy}
    (hv : ∀ i : RouteIdx, v[i].wf = true) (hclean : st = .clean → v = r.activeBank)
    (hcopy : st = .copying ↔ k.isSome = true)
    (hdone : ∀ c, k = some c → c.next ≤ 64 ∧ ∀ i : RouteIdx, i.val < c.next → v[i] = r.activeBank[i]) :
    ({ r.setBank r.active.other v with staging := st, copier := k } : RouteTable).Law := by
  obtain ⟨ha, hs⟩ := r.bank_update v st k
  refine ⟨fun n i => ?_, fun hc => by rw [ha, hs]; exact hclean hc, hcopy, fun c hc => ?_⟩
  · have hbank : ({ r.setBank r.active.other v with staging := st, copier := k } : RouteTable).bank n =
        (r.setBank r.active.other v).bank n := by cases n <;> rfl
    rw [hbank, RouteTable.bank_setBank]
    split
    · exact hv i
    · exact h.wf n i
  · rw [ha, hs]; exact hdone c hc

/-- The staging bank written with its own entries is as it was. -/
theorem RouteTable.setBank_same (r : RouteTable) : r.setBank r.active.other r.stagingBank = r := by
  unfold RouteTable.stagingBank
  cases h : r.active <;> simp [RouteTable.setBank, BankName.other, RouteTable.bank]

theorem RouteTable.Law.startCopy (h : r.Law) (now : Tick) : (r.startCopy now).Law := by
  have hstart := h.restage (v := r.stagingBank) (st := .copying) (k := some { next := 0, begun := now })
    (h.wf _) (fun k => by cases k) (by simp) fun c hc => by cases hc; simp
  rwa [r.setBank_same] at hstart

theorem RouteTable.Law.exchange (h : r.Law) (hs : r.staging ≠ .copying) (e : BitVec 16) :
    ({ r with active := r.active.other, epoch := e } : RouteTable).Law := by
  have hbank : ∀ n, ({ r with active := r.active.other, epoch := e } : RouteTable).bank n = r.bank n := by
    intro n; cases n <;> rfl
  have hcopier : r.copier = none := by
    cases hc : r.copier with
    | none => rfl
    | some k => exact absurd (h.copying.2 (by rw [hc]; rfl)) hs
  refine ⟨fun n i => by rw [hbank]; exact h.wf n i, fun hc => ?_, h.copying, fun k hk => ?_⟩
  · unfold RouteTable.stagingBank RouteTable.activeBank
    rw [hbank, hbank]
    have := (h.clean hc).symm
    unfold RouteTable.stagingBank RouteTable.activeBank at this
    cases ha : r.active <;> simpa [ha, BankName.other] using this
  · rw [hcopier] at hk; cases hk

theorem RouteTable.Law.copyNext (h : r.Law) : r.copyNext.Law := by
  unfold RouteTable.copyNext
  split
  · exact h
  · next k hk =>
    split
    · next hlt =>
      obtain ⟨-, hdone⟩ := h.copied k hk
      have hst := (r.setBank_rest r.active.other (vset r.stagingBank ⟨k.next, hlt⟩ r.activeBank[k.next])).2.1
      refine h.restage (v := vset r.stagingBank ⟨k.next, hlt⟩ r.activeBank[k.next])
        (st := (r.setBank r.active.other (vset r.stagingBank ⟨k.next, hlt⟩ r.activeBank[k.next])).staging)
        (k := some { k with next := k.next + 1 }) ?_ ?_ ?_ ?_
      · intro i
        rw [Fin.getElem_fin, vset_get]
        split
        · exact h.wf r.active ⟨k.next, hlt⟩
        · exact h.wf _ i
      · intro hc
        have := h.copying.2 (by rw [hk]; rfl)
        rw [← hst, hc] at this; cases this
      · rw [hst]; simpa [hk] using h.copying
      · intro c hc
        cases hc
        refine ⟨hlt, fun i hi => ?_⟩
        have hi' : i.val < k.next + 1 := hi
        rw [Fin.getElem_fin, vset_get]
        split
        · next he => rw [show i = ⟨k.next, hlt⟩ from Fin.ext he]; rfl
        · next he => exact hdone i (by have : i.val ≠ k.next := he; omega)
    · exact h

/-- The entries before the next are copied already, so copying the others copies the bank (R55). -/
theorem RouteTable.Law.copyFrom_active (h : r.Law) {k : BankCopy} (hk : r.copier = some k) :
    copyFrom r.activeBank r.stagingBank k.next = r.activeBank := by
  refine Vector.ext fun i hi => ?_
  simp only [copyFrom, Vector.getElem_ofFn]
  split
  · rfl
  · exact (h.copied k hk).2 ⟨i, hi⟩ (by simp only at *; omega)

theorem RouteTable.Law.copyDone (h : r.Law) : r.copyDone.Law := by
  unfold RouteTable.copyDone
  split
  · exact h
  · next k hk =>
    rw [h.copyFrom_active hk]
    exact h.restage (h.wf r.active) (fun _ => rfl) (by simp) fun c hc => by cases hc

end

theorem RouteTable.reset_law : RouteTable.reset.Law := by
  refine ⟨fun n i => ?_, fun _ => rfl, by simp [RouteTable.reset], fun c hc => by cases hc⟩
  cases n <;> simp [RouteTable.bank, RouteTable.reset, RouteEntry.wf]

/-! ## Records and buckets (R59, R61, R81, R85) -/

theorem Bucket.refill_wf {x : Bucket} (h : x.wf = true) : x.refill.wf = true := by
  unfold Bucket.refill
  split
  · simp only [Bucket.wf, Bool.and_eq_true, decide_eq_true_eq, Bool.or_eq_true] at h ⊢
    exact ⟨⟨h.1.1, Nat.min_le_left _ _⟩, .inl ‹_›⟩
  · exact h

theorem Bucket.refillWhole_wf {x : Bucket} (h : x.wf = true) : x.refillWhole.wf = true := by
  unfold Bucket.refillWhole
  split
  · simp only [Bucket.wf, Bool.and_eq_true, decide_eq_true_eq, Bool.or_eq_true] at h ⊢
    exact ⟨⟨h.1.1, le_refl _⟩, .inl ‹_›⟩
  · exact h

/-- The three laws of the tables. -/
structure State.TableLaws (s : State) : Prop where
  banks   : s.route.Law
  records : s.RecordLaw
  credits : s.CreditLaw

theorem State.TableLaws.of_tables (h : s.SameTables t) (k : s.TableLaws) : t.TableLaws := by
  refine ⟨by rw [h.route]; exact k.banks, fun i => ?_, fun n => ?_⟩
  · rw [h.action]; exact k.records i
  · rw [h.buckets]; exact k.credits n

theorem State.forwardingCore_tables (s : State) : s.forwardingCore.route = s.route ∧
    s.forwardingCore.action = s.action ∧ s.forwardingCore.buckets = vmap Bucket.refillWhole s.buckets := by
  unfold State.forwardingCore
  dsimp only
  split <;> exact ⟨rfl, rfl, rfl⟩

theorem State.resetTables (hr : t.route = .reset) (ha : t.action = .reset) (hb : t.buckets = Vector.replicate 32 .reset) :
    t.TableLaws := by
  refine ⟨hr ▸ RouteTable.reset_law, fun i => ?_, fun n => ?_⟩
  · rw [ha]; simp [ActionTable.reset]; rfl
  · rw [hb]; simp; rfl

theorem Move.tableLaws {x y : Hand × State} (m : Move c ok x y) (h : x.2.TableLaws) : y.2.TableLaws := by
  obtain ⟨hb, ha, hc⟩ := h
  cases m
  case alike s t hs =>
    refine ⟨hb.of_same hs.bankA hs.bankB hs.active hs.staging hs.copier, fun i => ?_, fun n => hs.buckets n (hc n)⟩
    rcases hs.records i with h | h
    · rw [h]; exact ha i
    · exact h
  case join => exact .of_tables (State.joined_blocks _ _ _ _ _).tables ⟨hb, ha, hc⟩
  case release => exact .of_tables (State.release_frame _ _).tables ⟨hb, ha, hc⟩
  case addRef => exact .of_tables (State.addRef_frame _ _).tables ⟨hb, ha, hc⟩
  case pop hu => exact .of_tables (State.pop_blocks hu).tables ⟨hb, ha, hc⟩
  case stage s v hs hv =>
    have hnone : s.route.copier = none := by
      cases hk : s.route.copier with
      | none => rfl
      | some k => exact absurd (hb.copying.2 (by rw [hk]; rfl)) hs
    refine ⟨?_, ha, hc⟩
    have hstage := hb.restage (v := v) (st := .modified) (k := none) (fun i => ?_) (fun k => by cases k) (by simp)
      fun c hc => by cases hc
    · have hkeep : (s.route.setBank s.route.active.other v).copier = none :=
        (s.route.setBank_rest _ v).2.2.trans hnone
      simp only [← hkeep] at hstage
      exact hstage
    · rcases hv i with h | h
      · exact h
      · rw [h]; exact hb.wf _ i
  case commit hs => exact ⟨(hb.exchange hs _).startCopy _, ha, hc⟩
  case startCopy => exact ⟨hb.startCopy _, ha, hc⟩
  case copyNext => exact ⟨hb.copyNext, ha, hc⟩
  case copyDone => exact ⟨hb.copyDone, ha, hc⟩
  case full => exact State.resetTables rfl rfl rfl
  case forwarding s r _ _ =>
    obtain ⟨h1, h2, h3⟩ := s.forwardingCore_tables
    refine ⟨h1 ▸ hb, fun i => ?_, fun n => ?_⟩
    · rw [h2]; exact ha i
    · rw [h3]; simpa using Bucket.refillWhole_wf (hc n)
  all_goals exact ⟨hb, ha, hc⟩

/-- Settles O55: each primitive change keeps the banks, the records and the credits, and so does a bucket's tick. -/
theorem tableLawsAreKept : Obligations.TableLawsAreKept := by
  unfold Obligations.TableLawsAreKept
  intro s t hb ha hc hs
  have ht : t.TableLaws := step_keeps (Q := fun x => x.2.TableLaws) Move.tableLaws
    (fun u h => ⟨h.banks, h.records, fun n => by simpa [State.drawPace, State.advance] using Bucket.refill_wf (h.credits n)⟩)
    (fun _ _ => State.resetTables rfl rfl rfl) ⟨s.bankLaw_iff.1 hb, ha, hc⟩ (fun _ h => ⟨h.banks, h.records, h.credits⟩) hs
  exact ⟨t.bankLaw_iff.2 ht.banks, ht.records, ht.credits⟩

end

end Sys2Proof.Machine
end

