-- ==== Sys2Proof/Proofs/KeptSlots.lean ====
section
/-! PROOF. O57: what every step keeps of the Supervision Slots (section 7.2). -/

namespace Sys2Proof.Machine

section
variable {c : Option Instr} {ok : Prop} {s t u : State}

theorem State.SameTables.slots (h : s.SameTables t) : t.slots = s.slots := by
  obtain ⟨-, -, -, -, -, -, h, -⟩ := h
  exact h

theorem State.SlotLaw.of_slots (h : t.slots = s.slots) (k : s.SlotLaw) : t.SlotLaw := fun n => by rw [h]; exact k n

theorem State.setSlot_get (s : State) (n m : SlotNo) (y : Slot) :
    (s.setSlot n y).slots[m] = if m = n then y else s.slots[m] := by
  split
  · next h => subst h; simp
  · next h => exact vset_get_ne _ _ h

theorem Slot.reset_law : Slot.reset.FreshnessLaw := by
  exact ⟨rfl, fun h => absurd rfl h, fun h => absurd h (by decide), rfl, rfl⟩

/-- A slot started again at RESET FORWARDING keeps its law, and its new deadline lies ahead (R132). -/
theorem Slot.restarted_step {now : Tick} {x : Slot} : Slot.Step now x (x.restarted now) := by
  unfold Slot.restarted
  by_cases hs : x.state = .off
  · rw [if_pos hs]; exact ⟨id, fun _ _ _ h => .inl h⟩
  · rw [if_neg hs]
    constructor
    · rintro ⟨hw, hp, -, -⟩
      refine ⟨hw, fun _ => hp hs, fun h => by simp at h, ?_, rfl⟩
      simp only [Slot.armed, SlotConfig.armDeadline]
      split <;> simp_all
    · intro _ _ d hd
      simp only [Slot.armed, SlotConfig.armDeadline] at hd
      split at hd
      · cases hd
      · next hz =>
        cases hd
        obtain ⟨h1, h2⟩ := ticks16_lt x.cfg.startWindow
        have := ticks16_pos hz
        exact .inr (later_add (by omega) (by omega))

theorem State.forwardingCore_slots (s : State) : s.forwardingCore.slots = vmap (·.restarted s.now) s.slots := by
  unfold State.forwardingCore
  dsimp only
  split <;> rfl

theorem State.resetSlots (h : t.slots = Vector.replicate 32 .reset) : t.SlotLaw := fun n => by
  rw [h]; simpa using Slot.reset_law

theorem Move.slotLaw {x y : Hand × State} (m : Move c ok x y) (h : x.2.SlotLaw) : y.2.SlotLaw := by
  cases m
  case alike ha => exact fun n => (ha.slots n).law.2 (h n)
  case join => exact .of_slots (State.joined_blocks _ _ _ _ _).tables.slots h
  case release => exact .of_slots (State.release_frame _ _).tables.slots h
  case addRef => exact .of_slots (State.addRef_frame _ _).tables.slots h
  case pop hu => exact .of_slots (State.pop_blocks hu).tables.slots h
  case slot hy hp =>
    intro m
    rw [State.setSlot_get]
    split
    · exact hy.law (h _)
    · exact h m
  case full => exact State.resetSlots rfl
  case forwarding s r _ _ =>
    intro n
    rw [s.forwardingCore_slots]
    simpa using Slot.restarted_step.law (h n)
  all_goals exact h

/-- Settles O57: each primitive change of a slot keeps the law of its states. -/
theorem slotLawIsKept : Obligations.SlotLawIsKept := by
  unfold Obligations.SlotLawIsKept
  intro s t h hs
  exact step_keeps (Q := fun x => x.2.SlotLaw) Move.slotLaw (fun _ h => h) (fun _ _ => State.resetSlots rfl) h
    (fun _ h => h) hs

end

end Sys2Proof.Machine
end

