-- ==== Sys2Proof/Proofs/KeptNotices.lean ====
section
/-! PROOF. O59: what every step keeps of the Event Queue and of the raises that wait for it (R173 to R179). -/

namespace Sys2Proof.Machine

section
variable {c : Option Instr} {ok : Prop} {s t u : State}

/-! ## The list of notices (R173 to R175, R179) -/

theorem BitVec.sub_ofNat_succ (x : BitVec 16) (n : Nat) : x + 1 - BitVec.ofNat 16 (n + 1) = x - BitVec.ofNat 16 n := by
  rw [BitVec.ofNat_add]
  bv_omega

theorem consecutive_append {next : BitVec 16} {ns : List Notice} (h : consecutive next ns) {n : Notice}
    (hn : n.sequence = next) : consecutive (next + 1) (ns ++ [n]) := by
  intro k hk
  rw [List.length_append, List.length_singleton] at hk ⊢
  by_cases hlt : k < ns.length
  · rw [List.getElem_append_left hlt, h k hlt, Nat.sub_add_comm (Nat.le_of_lt hlt), BitVec.sub_ofNat_succ]
  · have he : k = ns.length := by omega
    subst he
    rw [List.getElem_append_right (le_refl _), Nat.add_sub_cancel_left, ← Nat.zero_add 1, BitVec.sub_ofNat_succ]
    simpa using hn

theorem consecutive_drop {next : BitVec 16} {ns : List Notice} (h : consecutive next ns) (n : Nat) :
    consecutive next (ns.drop n) := by
  intro k hk
  rw [List.length_drop] at hk ⊢
  rw [List.getElem_drop, h (n + k) (by omega), Nat.sub_sub]

theorem consecutive_map {next : BitVec 16} {ns : List Notice} (h : consecutive next ns) {f : Notice → Notice}
    (hf : ∀ n, (f n).sequence = n.sequence) : consecutive next (ns.map f) := by
  intro k hk
  rw [List.length_map] at hk ⊢
  rw [List.getElem_map, hf, h k hk]

/-- The law of the notice list (R173 to R175). -/
structure EventQueue.ListLaw (q : EventQueue) : Prop where
  length   : q.notices.length ≤ 16
  numbered : consecutive q.nextSequence q.notices
  lost     : ∀ n ∈ q.notices.dropLast, n.kind ≠ .noticesLost
  full     : q.notices.length = 16 → q.overflowed = true
  wf       : ∀ n ∈ q.notices, n.wf = true

theorem Notice.countLoss_fields (n : Notice) : n.countLoss.sequence = n.sequence ∧ n.countLoss.kind = n.kind ∧
    n.countLoss.subject = n.subject := by
  unfold Notice.countLoss
  split <;> exact ⟨rfl, rfl, rfl⟩

theorem Notice.countLoss_wf {n : Notice} (h : n.wf = true) : n.countLoss.wf = true := by
  unfold Notice.countLoss
  split
  · next hk =>
    simp only [Notice.wf, hk, Bool.and_eq_true, Bool.or_eq_true, decide_eq_true_eq] at h ⊢
    obtain ⟨hs, hd⟩ := h
    refine ⟨hs, .inr ?_⟩
    have hd := hd.resolve_left (by simp)
    split
    · next hlt =>
      have : (n.detail + 1).toNat = n.detail.toNat + 1 := by rw [BitVec.toNat_add]; simp; omega
      omega
    · exact hd
  · exact h

theorem EventQueue.overflowed_iff (q : EventQueue) : q.overflowed = true ↔ ∃ n ∈ q.notices, n.kind = .noticesLost := by
  simp [EventQueue.overflowed]

/-- A notice appended to a list without NOTICES-LOST. -/
theorem EventQueue.ListLaw.append {q : EventQueue} (h : q.ListLaw) (ho : q.overflowed = false) {kind : NoticeKind}
    {subject : Byte} {tick : Tick} {detail : BitVec 32}
    (hw : (Notice.mk q.nextSequence kind subject tick detail).wf = true)
    (hl : q.notices.length ≤ 14 ∨ (q.notices.length = 15 ∧ kind = .noticesLost)) :
    (q.append kind subject tick detail).ListLaw := by
  constructor
  · simp only [EventQueue.append, List.length_append, List.length_singleton]; omega
  · exact consecutive_append h.numbered rfl
  · intro n hn hk
    simp only [EventQueue.append, List.dropLast_concat] at hn
    rw [(q.overflowed_iff).2 ⟨n, hn, hk⟩] at ho
    cases ho
  · intro hlen
    simp only [EventQueue.append, List.length_append, List.length_singleton] at hlen
    obtain ⟨-, hk⟩ := hl.resolve_left (by omega)
    exact (EventQueue.overflowed_iff _).2 ⟨_, List.mem_append_right _ (List.mem_singleton_self _), hk⟩
  · intro n hn
    simp only [EventQueue.append, List.mem_append, List.mem_singleton] at hn
    rcases hn with hn | rfl
    · exact h.wf n hn
    · exact hw

theorem EventQueue.ListLaw.countLoss {q : EventQueue} (h : q.ListLaw) :
    ({ q with notices := q.notices.map Notice.countLoss } : EventQueue).ListLaw := by
  constructor
  · simpa using h.length
  · exact consecutive_map h.numbered fun n => n.countLoss_fields.1
  · intro n hn
    simp only [← List.map_dropLast, List.mem_map] at hn
    obtain ⟨m, hm, rfl⟩ := hn
    rw [m.countLoss_fields.2.1]
    exact h.lost m hm
  · intro hlen
    rw [List.length_map] at hlen
    obtain ⟨n, hn, hk⟩ := (q.overflowed_iff).1 (h.full hlen)
    exact (EventQueue.overflowed_iff _).2 ⟨_, List.mem_map_of_mem hn, n.countLoss_fields.2.1.trans hk⟩
  · intro n hn
    obtain ⟨m, hm, rfl⟩ := List.mem_map.1 hn
    exact Notice.countLoss_wf (h.wf m hm)

/-- A raise taken keeps the list's law (R174, R175). -/
theorem EventQueue.ListLaw.take {q : EventQueue} (h : q.ListLaw) {kind : NoticeKind} {subject : Byte} {tick : Tick}
    {detail : BitVec 32} (hk : kind ≠ .noticesLost) (hw : subject.toNat < kind.subjects) :
    (q.take kind subject tick detail).ListLaw := by
  unfold EventQueue.take
  split
  · exact h.countLoss
  · next ho =>
    have ho : q.overflowed = false := by simpa using ho
    split
    · next hl => exact h.append ho (by simp [Notice.wf, hk, hw]) (.inl hl)
    · split
      · next hl => exact h.append ho (by simp [Notice.wf, NoticeKind.subjects]) (.inr ⟨hl, rfl⟩)
      · exact h

/-- Notices removed from the front (R179). -/
theorem EventQueue.ListLaw.drop {q : EventQueue} (h : q.ListLaw) (n : Nat) : (q.drop n).ListLaw := by
  have hlen : (q.notices.drop n).length ≤ q.notices.length := by rw [List.length_drop]; omega
  refine ⟨hlen.trans h.length, consecutive_drop h.numbered n, fun x hx => ?_, fun h16 => ?_, fun x hx =>
    h.wf x (List.mem_of_mem_drop hx)⟩
  · simp only [EventQueue.drop, List.dropLast_drop_eq_drop_dropLast] at hx
    exact h.lost x (List.mem_of_mem_drop hx)
  · have h16 : (q.notices.drop n).length = 16 := h16
    rw [List.length_drop] at h16
    have hn : n = 0 := by have := h.length; omega
    subst hn
    have : q.notices.length = 16 := by omega
    simpa [EventQueue.drop, EventQueue.overflowed] using h.full this

/-! ## The whole queue (R174 to R178) -/

/-- The law of the Event Queue and of the raises that wait for it. -/
structure State.Notices (s : State) : Prop where
  list     : s.events.ListLaw
  timer    : s.events.outstanding = true ↔ s.events.timer.isSome = true
  interval : s.events.interval ≠ 0
  raises   : ∀ r ∈ s.transit, r.wf = true

theorem State.noticeLaw_iff (s : State) : s.NoticeLaw ↔ s.Notices :=
  ⟨fun ⟨h1, h2, h3, h4, h5, h6, h7, h8⟩ => ⟨⟨h1, h2, h3, h4, h5⟩, h6, h7, h8⟩,
    fun ⟨⟨h1, h2, h3, h4, h5⟩, h6, h7, h8⟩ => ⟨h1, h2, h3, h4, h5, h6, h7, h8⟩⟩

theorem State.Notices.of_same (he : t.events = s.events) (hr : t.transit = s.transit) (h : s.Notices) : t.Notices := by
  obtain ⟨h1, h2, h3, h4⟩ := h
  exact ⟨he ▸ h1, he ▸ h2, he ▸ h3, hr ▸ h4⟩

theorem State.SameBlocks.notices (h : s.SameBlocks t) (k : s.Notices) : t.Notices := k.of_same h.events.1 h.events.2

theorem EventQueue.resetDone_law (tick : Tick) (detail : BitVec 32) : (EventQueue.resetDone tick detail).ListLaw := by
  refine ⟨by simp [EventQueue.resetDone], ?_, by simp [EventQueue.resetDone], by simp [EventQueue.resetDone], ?_⟩
  · intro k hk
    simp only [EventQueue.resetDone, List.length_singleton, Nat.lt_one_iff] at hk
    subst hk
    simp [EventQueue.resetDone]
  · intro n hn
    simp only [EventQueue.resetDone, List.mem_singleton] at hn
    subst hn
    rfl

theorem State.resetNotices {tick : Tick} {detail : BitVec 32} (he : t.events = .resetDone tick detail)
    (hr : t.transit = []) : t.Notices := by
  refine ⟨he ▸ EventQueue.resetDone_law _ _, ?_, ?_, by rw [hr]; simp⟩
  · rw [he]; simp [EventQueue.resetDone]
  · rw [he]; simp [EventQueue.resetDone]

theorem State.forwardingCore_events (s : State) :
    s.forwardingCore.events = { s.events with outstanding := false, timer := none } ∧
      s.forwardingCore.transit = s.transit := by
  unfold State.forwardingCore
  dsimp only
  split <;> exact ⟨rfl, rfl⟩

theorem Move.notices {x y : Hand × State} (m : Move c ok x y) (h : x.2.Notices) : y.2.Notices := by
  have htake : ∀ {q q' : EventQueue} {kind subject tick detail}, q' = q.take kind subject tick detail →
      q'.outstanding = q.outstanding ∧ q'.timer = q.timer ∧ q'.interval = q.interval := by
    rintro q _ kind subject tick detail rfl
    exact q.take_outstanding kind subject tick detail
  cases m
  case alike ha => exact h.of_same ha.events ha.transit
  case join => exact (State.joined_blocks _ _ _ _ _).notices h
  case release => exact (State.release_frame _ _).blocks.notices h
  case addRef => exact (State.addRef_frame _ _).blocks.notices h
  case pop hu => exact (State.pop_blocks hu).notices h
  case take kind subject detail hk hw =>
    obtain ⟨ho, ht, hi⟩ := htake (rfl : (State.note _ kind subject detail).events = _)
    exact ⟨h.list.take hk hw, by rw [ho, ht]; exact h.timer, by rw [hi]; exact h.interval, h.raises⟩
  case wait r hw _ =>
    exact ⟨h.list, h.timer, h.interval, fun x hx => by
      rcases List.mem_append.1 hx with hx | hx
      · exact h.raises x hx
      · rw [List.mem_singleton.1 hx]; exact hw⟩
  case unwait s k r hr =>
    have hmem := h.raises r (List.mem_of_getElem? hr)
    simp only [Raise.wf, Bool.and_eq_true, decide_eq_true_eq] at hmem
    obtain ⟨⟨hw, hk⟩, -⟩ := hmem
    obtain ⟨ho, ht, hi⟩ := htake (rfl : s.events.take r.kind r.subject r.tick r.detail = _)
    exact ⟨h.list.take hk hw, by rw [ho, ht]; exact h.timer, by rw [hi]; exact h.interval,
      fun x hx => h.raises x (List.mem_of_mem_eraseIdx hx)⟩
  case arm => exact ⟨⟨h.list.1, h.list.2, h.list.3, h.list.4, h.list.5⟩, by simp [State.armRetransmit], h.interval, h.raises⟩
  case disarm => exact ⟨⟨h.list.1, h.list.2, h.list.3, h.list.4, h.list.5⟩, by simp, h.interval, h.raises⟩
  case acknowledge n => exact ⟨h.list.drop n, by simp [EventQueue.drop], h.interval, h.raises⟩
  case interval i hi => exact ⟨⟨h.list.1, h.list.2, h.list.3, h.list.4, h.list.5⟩, h.timer, hi, h.raises⟩
  case full => exact State.resetNotices rfl rfl
  case forwarding s r _ _ =>
    obtain ⟨he, hr⟩ := s.forwardingCore_events
    have hlist : ({ s.events with outstanding := false, timer := none } : EventQueue).ListLaw :=
      ⟨h.list.1, h.list.2, h.list.3, h.list.4, h.list.5⟩
    exact ⟨he ▸ hlist, by rw [he]; simp, by rw [he]; exact h.interval, by rw [hr]; exact h.raises⟩
  all_goals exact ⟨h.list, h.timer, h.interval, h.raises⟩

/-- Settles O59: each primitive change of the Event Queue keeps its law. -/
theorem noticeLawIsKept : Obligations.NoticeLawIsKept := by
  unfold Obligations.NoticeLawIsKept
  intro s t h hs
  rw [State.noticeLaw_iff] at h ⊢
  exact step_keeps (Q := fun x => x.2.Notices) Move.notices (fun _ h => ⟨h.list, h.timer, h.interval, h.raises⟩)
    (fun _ _ => State.resetNotices rfl rfl) h (fun _ h => ⟨h.list, h.timer, h.interval, h.raises⟩) hs

end

end Sys2Proof.Machine
end

