-- ==== Sys2Proof/Proofs/KeptSession.lean ====
section
/-! PROOF. O58: what every step keeps of the Management Agent: the session's law, the bound of the request queue, and that
between commands no request is under execution and no reset is due (R133, R134, R138, R148). -/

namespace Sys2Proof.Machine

section
variable {c : Option Instr} {ok : Prop} {s t u : State}

/-! ## The session and the requests (R133, R134, R138) -/

theorem State.SessionLaw.of_agent (hs : t.agent.session = s.agent.session) (ht : t.agent.tokenCounter = s.agent.tokenCounter)
    (h : s.SessionLaw) : t.SessionLaw := by
  unfold State.SessionLaw
  rw [hs, ht]; exact h

theorem State.forwardingCore_agent (s : State) : s.forwardingCore.agent = s.agent.resetForwarding := by
  unfold State.forwardingCore
  dsimp only
  split <;> rfl

/-- A token counter that is not 0 and a CLOSED session keep the law. -/
theorem State.closedSession_law (hs : t.agent.session = .closed) (ht : t.agent.tokenCounter ≠ 0) : t.SessionLaw := by
  refine ⟨ht, fun _ => hs, fun h => ?_⟩
  rw [hs] at h; cases h

theorem Move.sessionLaw {x y : Hand × State} (m : Move c ok x y) (h : x.2.SessionLaw) : y.2.SessionLaw := by
  have hblocks : ∀ {s t : State}, s.SameBlocks t → s.SessionLaw → t.SessionLaw := fun hb =>
    .of_agent (congrArg Agent.session hb.agent) (congrArg Agent.tokenCounter hb.agent)
  cases m
  case alike ha => exact h.of_agent ha.session ha.tokenCounter
  case join => exact hblocks (State.joined_blocks _ _ _ _ _) h
  case release => exact hblocks (State.release_frame _ _).blocks h
  case addRef => exact hblocks (State.addRef_frame _ _).blocks h
  case pop hu => exact hblocks (State.pop_blocks hu) h
  case session hlaw _ => exact hlaw h
  case full => exact State.closedSession_law rfl h.1
  case forwarding s r _ _ =>
    exact h.of_agent ((congrArg Agent.session s.forwardingCore_agent).trans rfl)
      ((congrArg Agent.tokenCounter s.forwardingCore_agent).trans rfl)
  all_goals exact h

/-- The request under execution is the one in hand, and at most four wait (R133, R134). -/
def State.Requests (s : State) (H : Hand) : Prop := s.agent.queue.length ≤ 4 ∧ s.agent.executing = H.request

theorem State.Requests.of_agent {H K : Hand} (hq : t.agent.queue = s.agent.queue) (hx : t.agent.executing = s.agent.executing)
    (hk : K.request = H.request) (h : s.Requests H) : t.Requests K := by
  unfold State.Requests
  rw [hq, hx, hk]; exact h

theorem Move.requests {x y : Hand × State} (m : Move c ok x y) (h : x.2.Requests x.1) : y.2.Requests y.1 := by
  have hblocks : ∀ {s t : State} {H K : Hand}, s.SameBlocks t → K.request = H.request → s.Requests H → t.Requests K :=
    fun hb => .of_agent (congrArg Agent.queue hb.agent) (congrArg Agent.executing hb.agent)
  cases m
  case alike ha => exact h.of_agent ha.queue ha.executing rfl
  case join => exact hblocks (State.joined_blocks _ _ _ _ _) rfl h
  case release => exact hblocks (State.release_frame _ _).blocks rfl h
  case addRef => exact hblocks (State.addRef_frame _ _).blocks rfl h
  case pop hu => exact hblocks (State.pop_blocks hu) rfl h
  case arrive p b hq =>
    refine ⟨?_, h.2⟩
    rw [List.length_append, List.length_singleton]; omega
  case begin hq _ =>
    have := h.1
    rw [hq] at this
    exact ⟨Nat.le_of_succ_le this, rfl⟩
  case idle hw hx => exact ⟨h.1, hw.symm⟩
  case full => exact ⟨Nat.zero_le _, rfl⟩
  case forwarding s r _ _ =>
    unfold State.Requests
    rw [s.forwardingCore_agent]
    exact ⟨Nat.zero_le _, rfl⟩
  all_goals exact h

/-! ## No reset is left half taken (R148) -/

/-- No reset is pending, and so none is due. -/
def State.NoReset (s : State) : Prop := s.agent.resetPending = none ∧ s.resetDue = false

theorem Move.noReset {x y : Hand × State} (m : Move none ok x y) (h : x.2.NoReset) : y.2.NoReset := by
  have hblocks : ∀ {s t : State}, s.SameBlocks t → s.NoReset → t.NoReset := fun hb ⟨h1, h2⟩ =>
    ⟨(congrArg Agent.resetPending hb.agent).trans h1, hb.due.trans h2⟩
  cases m
  case alike ha => exact ⟨ha.resetPending.trans h.1, ha.resetDue.trans h.2⟩
  case join => exact hblocks (State.joined_blocks _ _ _ _ _) h
  case release => exact hblocks (State.release_frame _ _).blocks h
  case addRef => exact hblocks (State.addRef_frame _ _).blocks h
  case pop hu => exact hblocks (State.pop_blocks hu) h
  case pend r _ hc => cases hs : r.scope <;> rw [hs] at hc <;> cases hc
  case mark hp => rw [h.1] at hp; cases hp
  case unmark => exact ⟨h.1, rfl⟩
  case full => exact ⟨rfl, rfl⟩
  case forwarding s r hr _ => rw [h.1] at hr; cases hr
  all_goals exact h

theorem State.forwardingReset_noReset (s : State) : s.forwardingReset.NoReset := by
  have hcore : s.forwardingCore.NoReset := by
    refine ⟨by rw [s.forwardingCore_agent]; rfl, ?_⟩
    unfold State.forwardingCore
    dsimp only
    split <;> rfl
  have hrun : State.Leads none True s.forwardingCore s.forwardingReset :=
    (State.note_leads _ (by decide) (by decide)).trans (State.tryDeliver_leads _)
  exact (hrun Hand.empty).keeps (P := fun x => x.2.NoReset) Move.noReset hcore

/-- The end of a command leaves no reset due (R148). -/
theorem State.finish_due (s : State) : s.finish.resetDue = false := by
  unfold State.finish
  split
  · split
    · next r _ =>
      cases hs : r.scope with
      | full => rfl
      | forwarding => exact s.forwardingReset_noReset.2
    · rfl
  · next h => simpa using h

/-- A part of a command that leaves no reset due where none was. -/
def State.KeepsClear (s t : State) : Prop := s.resetDue = false → t.resetDue = false

theorem State.abandonRx_due (s : State) (p : Port) : (s.abandonRx p).resetDue = s.resetDue := by
  unfold State.abandonRx
  split
  · rfl
  · exact (State.release_frame _ _).due
  · rfl
  · rfl

theorem State.codeError_due (s : State) (p : Port) : (s.codeError p).resetDue = s.resetDue := by
  unfold State.codeError
  split
  · exact (State.release_frame _ _).due
  · rfl
  · rfl

theorem State.dataInUp_due (s : State) (p : Port) (v : Byte) : (s.dataInUp p v).resetDue = s.resetDue := by
  unfold State.dataInUp
  split
  · rfl
  · rfl
  · split
    · split
      · unfold State.labelCheck
        split
        · exact (State.release_frame _ _).due
        · rfl
      · rfl
    · exact (State.release_frame _ _).due

theorem State.takeValid_due {f : State → State} (hf : ∀ u, (f u).resetDue = u.resetDue) (s : State) (p : Port) :
    (s.takeValid p f).resetDue = s.resetDue := by
  unfold State.takeValid
  split
  · rfl
  · split
    · rfl
    · rfl
    · rfl
    · exact hf _

theorem State.takeInitEnd_due (s : State) : s.takeInitEnd.resetDue = s.resetDue := by
  unfold State.takeInitEnd; split <;> rfl

/-- A tick happening of a block ends with the command's end, or does nothing. -/
theorem State.ite_finish_clear {s t : State} {P : Prop} [Decidable P] : s.KeepsClear (if P then t.finish else s) := by
  intro h
  split
  · exact t.finish_due
  · exact h

theorem State.takeResetLimit_clear (s : State) : s.KeepsClear s.takeResetLimit := by
  intro h
  unfold State.takeResetLimit
  split
  · exact State.ite_finish_clear h
  · exact h

theorem State.takeWaiting_clear (s : State) (k : Nat) : s.KeepsClear (s.takeWaiting k) := by
  intro h
  unfold State.takeWaiting
  split
  · exact State.finish_due _
  · exact h

theorem State.idle_clear (s : State) : s.KeepsClear s.idle := by
  have hstage : s.KeepsClear s.idleStage := by
    intro h
    unfold State.idleStage
    split
    · exact h
    · exact State.finish_due _
    · exact State.finish_due _
  intro h
  unfold State.idle
  split
  · exact h
  · exact hstage h
  · exact s.takeWaiting_clear _ h
  · split <;> exact s.takeWaiting_clear _ h
  · split
    · exact s.takeWaiting_clear _ h
    · exact hstage h

/-- TICK ends with the last happening it takes, which leaves no reset due; before it none was due either. -/
theorem State.takeDue_clear (s : State) : s.KeepsClear s.takeDue := by
  have hfold : ∀ {α : Type} {f : State → α → State}, (∀ (s : State) a, s.KeepsClear (f s a)) → ∀ (l : List α) (s : State),
      s.KeepsClear (l.foldl f s) := by
    intro α f hf l
    induction l with
    | nil => exact fun s h => h
    | cons a l ih => exact fun s h => ih _ (hf s a h)
  have hsettle : ∀ (s : State) (p : Port), s.KeepsClear (s.settleStale p) := by
    intro s p h
    unfold State.settleStale
    split
    · split
      · exact h
      · unfold State.settle
        split
        · exact h
        · exact State.finish_due _
    · exact h
  have hstale : ∀ (fuel : Nat) (s : State), s.KeepsClear (State.takeStaleRaises fuel s) := by
    intro fuel
    induction fuel with
    | zero => exact fun s h => h
    | succ n ih =>
      intro s h
      unfold State.takeStaleRaises
      split
      · exact h
      · exact ih _ (s.takeWaiting_clear _ h)
      · split <;> exact ih _ (s.takeWaiting_clear _ h)
  have hcopy : ∀ s : State, s.KeepsClear s.endStaleCopy := by
    intro s h
    unfold State.endStaleCopy
    split
    · split <;> exact h
    · exact h
  have hport : ∀ (s : State) (p : Port), s.KeepsClear (s.takePortTick p) := fun s p h =>
    State.ite_finish_clear (State.ite_finish_clear h)
  have hslot : ∀ (s : State) (n : SlotNo), s.KeepsClear (s.takeSlotTick n) := fun s n h =>
    State.ite_finish_clear (State.ite_finish_clear h)
  intro h
  have hsettled := hfold hsettle Port.all s h
  unfold State.takeDue
  dsimp only
  generalize Port.all.foldl State.settleStale s = u at hsettled ⊢
  have htold := hstale u.transit.length u hsettled
  generalize State.takeStaleRaises u.transit.length u = v at htold ⊢
  have hinit := (State.takeInitEnd_due _).trans (hcopy v htold)
  have hslots := hfold hslot (List.finRange 32) _ (hfold hport Port.all _ hinit)
  exact State.ite_finish_clear (State.takeResetLimit_clear _ (State.ite_finish_clear hslots))

/-- Every command but RSTN and TICK leaves no reset due where none was. -/
theorem exec_clear {i : Instr} (hi : plainRow i = true) (h : exec i s = .next t) : s.KeepsClear t := by
  intro hs
  cases i with
  | rstnRelease node => cases hi
  | tick => cases hi
  | portInitEnd => cases h; exact (State.takeInitEnd_due s).trans hs
  | rxDataByte p v => cases h; exact (State.takeValid_due (fun u => u.dataInUp_due p v) s p).trans hs
  | rxAbort p => cases h; exact (State.takeValid_due (fun u => u.abandonRx_due p) s p).trans hs
  | rxIdle p => cases h; exact (State.takeValid_due (fun u => u.codeError_due p) s p).trans hs
  | rxHold p => cases h; exact (State.takeValid_due (fun u => (rfl : (u.holdInUp p).resetDue = _)) s p).trans hs
  | rxInvalidSymbol p =>
    change execRxInvalidSymbol p s = .next t at h
    unfold execRxInvalidSymbol at h
    split at h
    · cases h; exact hs
    · split at h <;> cases h
      · exact hs
      · exact hs
      · exact hs
      · exact State.finish_due _
  | signalTimeout p =>
    change execSignalTimeout p s = .next t at h
    unfold execSignalTimeout at h
    split at h
    · cases h; exact hs
    · split at h <;> cases h
      · exact hs
      · exact hs
      · exact hs
      · exact State.finish_due _
  | txEnd p =>
    change execTxEnd p s = .next t at h
    unfold execTxEnd at h
    split at h <;> cases h
    · exact hs
    · exact State.finish_due _
  | sendControlSymbol p =>
    change execSendControlSymbol p s = .next t at h
    unfold execSendControlSymbol at h
    split at h <;> cases h <;> exact hs
  | copyDone => cases h; exact hs
  | trainingDeadline p => cases h; exact State.ite_finish_clear hs
  | holdDeadline p => cases h; exact State.ite_finish_clear hs
  | slotStartWindowExpiry n => cases h; exact State.ite_finish_clear hs
  | slotDeadline n => cases h; exact State.ite_finish_clear hs
  | leaseExpiry => cases h; exact State.ite_finish_clear hs
  | resetLimitExpiry => cases h; exact State.takeResetLimit_clear s hs
  | retransmitExpiry => cases h; exact State.ite_finish_clear hs
  | _ => cases h; exact State.finish_due _

/-- A step leaves no reset due where none was (R148). -/
theorem step_clear (h : step s = .next t) : s.KeepsClear t := by
  intro hs
  obtain ⟨-, rfl⟩ | ⟨i, rest, -, ⟨node, rfl⟩ | ⟨u, -, hu, rfl⟩ | ⟨hi, he, -⟩⟩ := step_cases h
  · exact s.idle_clear hs
  · rfl
  · have hdue : u.resetDue = false := hu ▸ State.takeDue_clear { s with pending := rest } hs
    exact hdue
  · exact exec_clear hi he hs

/-- Settles O58: the session, the queue and the execution state by the primitive changes, the reset's mark by the commands'
ends. -/
theorem sessionLawIsKept : Obligations.SessionLawIsKept := by
  unfold Obligations.SessionLawIsKept
  rintro s t hl ⟨hq, hx, hd⟩ hs
  have hsession : t.SessionLaw := step_keeps (Q := fun x => x.2.SessionLaw) Move.sessionLaw (fun _ h => h)
    (fun _ _ => State.closedSession_law rfl (show (1 : Byte) ≠ 0 by decide)) hl (fun _ h => h) hs
  have hrequests : t.Requests Hand.empty := step_keeps (Q := fun x => x.2.Requests x.1) Move.requests (fun _ h => h)
    (fun _ _ => ⟨Nat.zero_le _, rfl⟩) ⟨hq, hx⟩ (fun _ h => h) hs
  exact ⟨hsession, hrequests.1, hrequests.2, step_clear hs hd⟩

end

end Sys2Proof.Machine
end

