-- ==== Sys2Proof/Proofs/KeptPorts.lean ====
section
/-! PROOF. O53: what every step keeps of the Link Ports and their queues. A port that has just left UP keeps what it holds
until the effects of R6 have followed; while a command has such a port in hand, its quiescence is not asked. -/

namespace Sys2Proof.Machine

section
variable {c : Option Instr} {ok : Prop} {s t u : State} {H K : Hand} {P Q : PortState}

/-! ## The queues of a port (R91, R92, R102) -/

theorem vset_fin {α : Type} {n : Nat} (v : Vector α n) (i j : Fin n) (x : α) :
    (vset v i x)[j] = if j = i then x else v[j] := by
  rw [Fin.getElem_fin, vset_get]
  by_cases h : j = i
  · simp [h]
  · rw [if_neg h, if_neg fun k => h (Fin.ext k)]; rfl

theorem PortState.QueueLaw.of_same (hq : Q.queues = P.queues) (ht : Q.tx = P.tx) (h : P.QueueLaw) : Q.QueueLaw := by
  unfold PortState.QueueLaw
  rw [hq, ht]; exact h

/-- A transmitter that goes IDLE asks nothing of the heads. -/
theorem PortState.QueueLaw.idle (hq : Q.queues = P.queues) (ht : Q.tx = .idle) (h : P.QueueLaw) : Q.QueueLaw := by
  refine ⟨fun k => by rw [hq]; exact h.1 k, fun e he => ?_⟩
  rw [ht] at he; cases he

/-- Queues that shrink while nothing is sent. -/
theorem PortState.QueueLaw.shrink (hq : ∀ k : Class, ∃ n, Q.queues[k] = P.queues[k].drop n) (ht : Q.tx = .idle)
    (h : P.QueueLaw) : Q.QueueLaw := by
  refine ⟨fun k => ?_, fun e he => ?_⟩
  · obtain ⟨n, hn⟩ := hq k
    obtain ⟨hl, hc⟩ := h.1 k
    rw [hn]
    exact ⟨(by rw [List.length_drop]; omega), fun e he => hc e (List.mem_of_mem_drop he)⟩
  · rw [ht] at he; cases he

theorem PortState.dropHead_queue (P : PortState) (d k : Class) :
    ∃ n, (P.dropHead d).queues[k] = P.queues[k].drop n := by
  have hget : (P.dropHead d).queues[k] = if k = d then P.queues[d].tail else P.queues[k] := vset_fin _ _ _ _
  rw [hget]
  split
  · next h => subst h; exact ⟨1, by simp⟩
  · exact ⟨0, rfl⟩

theorem PortState.flushed_queue (P : PortState) (k : Class) : P.flushed.queues[k] = P.unflushed k := by
  match k with
  | 0 | 1 | 2 | 3 => rfl

theorem PortState.flushed_queueLaw (h : P.QueueLaw) : P.flushed.QueueLaw := by
  have hsub : ∀ k : Class, (P.unflushed k).length ≤ 16 ∧ ∀ e ∈ P.unflushed k, e.hdr.cls = k := by
    intro k
    obtain ⟨hl, hc⟩ := h.1 k
    unfold PortState.unflushed
    split
    · exact ⟨(List.length_take_le' _ _).trans hl, fun e he => hc e (List.mem_of_mem_take he)⟩
    · simp
  refine ⟨fun k => by rw [P.flushed_queue]; exact hsub k, fun e he => ?_⟩
  have hs : P.tx = .sending e := he
  have hhead := h.2 e hs
  rw [P.flushed_queue]
  unfold PortState.unflushed PortState.sendingMark
  rw [hs, if_pos rfl, List.head?_take]
  simpa using hhead

/-- The head that is sent stands at the head of the queue of its own class (R99, R102). -/
theorem PortState.topHead_head {e : Entry} (h : P.QueueLaw) (ht : P.topHead = some e) :
    P.queues[e.hdr.cls].head? = some e := by
  unfold PortState.topHead at ht
  split at ht
  · cases ht
  · next k hk =>
    have hcls := (h.1 k).2 e (List.mem_of_mem_head? ht)
    simpa only [hcls] using ht

theorem PortState.joined_queueLaw (h : P.QueueLaw) {e : Entry} (hl : P.queues[e.hdr.cls].length < 16) :
    ({ P with queues := vset P.queues e.hdr.cls (P.queues[e.hdr.cls] ++ [e]) } : PortState).QueueLaw := by
  refine ⟨fun k => ?_, fun x hx => ?_⟩
  · show (vset P.queues e.hdr.cls (P.queues[e.hdr.cls] ++ [e]))[k].length ≤ 16 ∧ _
    rw [vset_fin]
    split
    · next hk =>
      subst hk
      rw [List.length_append, List.length_singleton]
      refine ⟨hl, fun x hx => ?_⟩
      rcases List.mem_append.1 hx with hx | hx
      · exact (h.1 _).2 x hx
      · rw [List.mem_singleton.1 hx]
    · exact h.1 k
  · have hx' := h.2 x hx
    show (vset P.queues e.hdr.cls (P.queues[e.hdr.cls] ++ [e]))[x.hdr.cls].head? = some x
    rw [vset_fin]
    split
    · next hk =>
      simp only [hk] at hx'
      rw [List.head?_append, hx']; rfl
    · exact hx'

/-! ## The law of a port (R1 to R8, R11, R19) -/

/-- The law of one port, its quiescence outside UP asked unless it is leaving UP. -/
structure PortState.LawIn (leaving : Prop) (P : PortState) : Prop where
  queue    : P.QueueLaw
  valid    : P.validRun < 16
  invalid  : P.invalidRun < 4
  training : P.trainingDeadline.isSome = true ↔ P.link = .training
  bytes    : ∀ b n, P.rx = .receiving b n → n ≤ 71
  hold     : P.partnerHold = false → P.holdDeadline = none
  quiet    : P.link ≠ .up → ¬ leaving → P.Quiescent

/-- Every port keeps its law, and during the initialization none is past DOWN. -/
def State.PortsIn (s : State) (H : Hand) : Prop :=
  ∀ p : Port, (s.ports[p]).LawIn (p ∈ H.leaving) ∧
    (s.initializing = true → s.ports[p].link = .down ∨ s.ports[p].link = .disabled)

theorem State.portLaw_iff (s : State) : s.PortLaw ↔ s.PortsIn Hand.empty := by
  refine forall_congr' fun p => ⟨?_, ?_⟩
  · rintro ⟨hq, ⟨h1, h2, h3, h4, h5, h6⟩, hi⟩
    exact ⟨⟨hq, h1, h2, h3, h4, h5, fun h _ => h6 h⟩, hi⟩
  · rintro ⟨⟨hq, h1, h2, h3, h4, h5, h6⟩, hi⟩
    exact ⟨hq, ⟨h1, h2, h3, h4, h5, fun h => h6 h (by simp [Hand.empty])⟩, hi⟩

theorem PortState.LawIn.of_alike (h : P.Alike Q) {x y : Prop} (hxy : x → y) (k : P.LawIn x) : Q.LawIn y := by
  obtain ⟨hl, htd, hrx, htx, hph, hhd, hq, ha, -, hv, hi⟩ := h
  constructor
  · exact k.queue.of_same hq htx
  · rcases hv with hv | hv
    · rw [hv]; exact k.valid
    · exact hv
  · rcases hi with hi | hi
    · rw [hi]; exact k.invalid
    · exact hi
  · rw [htd, hl]; exact k.training
  · rw [hrx]; exact k.bytes
  · rw [hph, hhd]; exact k.hold
  · unfold PortState.Quiescent
    rw [hl, hrx, htx, hph, hhd, hq, ha]
    exact fun hne hn => k.quiet hne fun hx => hn (hxy hx)

/-- What flow control asks of a port: a HOLD or GO more, and only in UP (R31, R33). -/
def PortState.Asked (P Q : PortState) : Prop := Q = P ∨ (P.link = .up ∧ ∃ f, Q = { P with asked := P.asked ++ [f] })

theorem PortState.LawIn.of_asked (h : P.Asked Q) {x : Prop} (k : P.LawIn x) : Q.LawIn x := by
  obtain rfl | ⟨hup, f, rfl⟩ := h
  · exact k
  · exact ⟨k.queue.of_same rfl rfl, k.valid, k.invalid, k.training, k.bytes, k.hold, fun hne _ => absurd hup hne⟩

theorem PortState.Asked.link (h : P.Asked Q) : Q.link = P.link := by
  obtain rfl | ⟨-, f, rfl⟩ := h <;> rfl

theorem State.askUp_asked (s : State) (f : FlowSymbol) (p : Port) : (s.ports[p]).Asked ((s.askUp f).ports[p]) := by
  have hget : (s.askUp f).ports[p] =
      if s.ports[p].link = .up then { s.ports[p] with asked := s.ports[p].asked ++ [f] } else s.ports[p] :=
    vmap_get _ _ _ _
  rw [hget]
  split
  · next h => exact .inr ⟨h, f, rfl⟩
  · exact .inl rfl

theorem State.release_asked (s : State) (b : BufNo) (p : Port) : (s.ports[p]).Asked ((s.release b).ports[p]) := by
  unfold State.release
  split
  · exact .inl rfl
  · unfold State.endEpisode
    split
    · exact State.askUp_asked _ _ p
    · exact .inl rfl
  · exact .inl rfl

theorem State.popMarked_asked (s : State) (p : Port) : (s.ports[p]).Asked (s.popMarked.ports[p]) := by
  unfold State.popMarked
  split
  · exact State.askUp_asked _ _ p
  · split <;> exact .inl rfl

/-! ## The primitive changes -/

theorem State.PortsIn.of_asked (hp : ∀ p : Port, (s.ports[p]).Asked (t.ports[p])) (hi : t.initializing = s.initializing)
    (hk : K.leaving = H.leaving) (h : s.PortsIn H) : t.PortsIn K := fun p => by
  obtain ⟨hlaw, hinit⟩ := h p
  rw [hk, hi, (hp p).link]
  exact ⟨hlaw.of_asked (hp p), hinit⟩

/-- A change of one port that keeps its law. -/
theorem State.PortsIn.onPort {p : Port} {f : PortState → PortState} (h : s.PortsIn H)
    (hl : ∀ q, q ≠ p → q ∈ H.leaving → q ∈ K.leaving)
    (hf : (s.ports[p]).LawIn (p ∈ H.leaving) → (f s.ports[p]).LawIn (p ∈ K.leaving))
    (hi : s.initializing = true → (f s.ports[p]).link = s.ports[p].link ∨ (f s.ports[p]).link = .down ∨
      (f s.ports[p]).link = .disabled) : (s.onPort p f).PortsIn K := by
  intro q
  by_cases hq : q = p
  · subst hq
    rw [State.onPort_get]
    obtain ⟨hlaw, hinit⟩ := h q
    refine ⟨hf hlaw, fun hin => ?_⟩
    rcases hi hin with k | k
    · rw [k]; exact hinit hin
    · exact k
  · rw [State.onPort_get_ne s f hq]
    obtain ⟨hlaw, hinit⟩ := h q
    exact ⟨hlaw.of_alike (.refl _) (hl q hq), hinit⟩

/-- A change of one port that leaves its link. -/
theorem State.PortsIn.onPort_link {p : Port} {f : PortState → PortState} (h : s.PortsIn H)
    (hk : K.leaving = H.leaving) (hf : (s.ports[p]).LawIn (p ∈ H.leaving) → (f s.ports[p]).LawIn (p ∈ H.leaving))
    (hl : (f s.ports[p]).link = s.ports[p].link) : (s.onPort p f).PortsIn K :=
  h.onPort (fun q _ hq => hk ▸ hq) (by rw [hk]; exact hf) fun _ => .inl hl

/-- A port whose link starts again: the runs are 0 and no training deadline runs (R3, R4, R6, R7). -/
theorem PortState.LawIn.restart {x y : Prop} {dest : LinkState} (h : P.LawIn x) (hd : dest = .down ∨ dest = .disabled)
    (hq : ¬ y → P.Quiescent) : (P.restartLink dest).LawIn y where
  queue := h.queue.of_same rfl rfl
  valid := by simp [PortState.restartLink]
  invalid := by simp [PortState.restartLink]
  training := by rcases hd with rfl | rfl <;> simp [PortState.restartLink]
  bytes := h.bytes
  hold := h.hold
  quiet := fun _ hn => hq hn

theorem PortState.LawIn.clearFlow {x y : Prop} (h : P.LawIn x)
    (hq : ¬ y → P.link ≠ .up → P.rx = .idle ∧ P.tx = .idle ∧ ∀ k : Class, P.queues[k] = []) : P.clearFlow.LawIn y where
  queue := h.queue.of_same rfl rfl
  valid := h.valid
  invalid := h.invalid
  training := h.training
  bytes := h.bytes
  hold := fun _ => rfl
  quiet := fun hl hn => by
    obtain ⟨h1, h2, h3⟩ := hq hn hl
    exact ⟨h1, h2, h3, rfl, rfl, rfl⟩

theorem PortState.reset_law {x : Prop} (hl : P.link = .down) (hv : P.validRun = 0) (hi : P.invalidRun = 0)
    (ht : P.trainingDeadline = none) (hq : P.Quiescent) : P.LawIn x := by
  obtain ⟨hrx, htx, hqs, -, hd, -⟩ := id hq
  refine ⟨⟨fun k => by simp [hqs k], fun e he => by rw [htx] at he; cases he⟩, by omega, by omega, by simp [ht, hl],
    fun b n h => (by rw [hrx] at h; cases h), fun _ => hd, fun _ _ => hq⟩

theorem PortState.reset_quiescent : PortState.reset.Quiescent :=
  ⟨rfl, rfl, fun k => by simp [PortState.reset], rfl, rfl, rfl⟩

theorem PortState.abandonedRx_port (P : PortState) :
    ∃ ctr, P.abandonedRx = { P with rx := .idle, ctr := ctr } := by
  unfold PortState.abandonedRx
  split
  · next h => exact ⟨P.ctr, by rw [← h]⟩
  · exact ⟨_, rfl⟩
  · exact ⟨_, rfl⟩
  · exact ⟨P.ctr, rfl⟩

/-- A transmission abandoned at RESET FORWARDING (R17). -/
theorem PortState.abandonedTx_port (P : PortState) : ∃ d n ctr sent, P.abandonedTx =
    { P with tx := .idle, queues := vset P.queues d (P.queues[d].drop n), ctr := ctr, sent := sent } := by
  unfold PortState.abandonedTx
  split
  · next h => exact ⟨0, 0, P.ctr, P.sent, by rw [← h, List.drop_zero, Fin.getElem_fin, vset_get_same]⟩
  · next e _ => exact ⟨e.hdr.cls, 1, _, _, by rw [List.drop_one]; rfl⟩

/-- A port at RESET FORWARDING receives, sends and queues nothing; all else of it stands but counters and what it has sent
(R8, R106). -/
theorem PortState.resetForwarding_port (P : PortState) : ∃ queues ctr sent, P.resetForwarding =
    { P with rx := .idle, tx := .idle, queues := queues, ctr := ctr, sent := sent } ∧ ∀ k : Class, queues[k] = [] := by
  obtain ⟨ctr, hr⟩ := P.abandonedRx_port
  obtain ⟨d, n, ctr', sent, ht⟩ := P.abandonedRx.abandonedTx_port
  refine ⟨P.resetForwarding.queues, P.resetForwarding.ctr, sent, ?_, fun k => ?_⟩
  · unfold PortState.resetForwarding PortState.flushed
    rw [ht, hr]
  · have hidle : P.abandonedRx.abandonedTx.tx = .idle := by rw [ht]
    have hq : P.resetForwarding.queues[k] = P.abandonedRx.abandonedTx.unflushed k := PortState.flushed_queue _ k
    rw [hq, PortState.unflushed_idle hidle]

theorem PortState.LawIn.resetForwarding {x : Prop} (h : P.LawIn x) : P.resetForwarding.LawIn x := by
  obtain ⟨queues, ctr, sent, hP, hq⟩ := P.resetForwarding_port
  rw [hP]
  refine ⟨⟨fun k => by simp [hq k], fun e he => by cases he⟩, h.valid, h.invalid, h.training,
    fun b n h => (by cases h), h.hold, fun hl hn => ?_⟩
  obtain ⟨-, -, -, h1, h2, h3⟩ := h.quiet hl hn
  exact ⟨rfl, rfl, hq, h1, h2, h3⟩

theorem State.forwardingCore_port (s : State) (p : Port) :
    ((s.ports[p]).resetForwarding).Asked (s.forwardingCore.ports[p]) ∧
      s.forwardingCore.initializing = s.initializing := by
  unfold State.forwardingCore
  dsimp only
  have hget : (vmap PortState.resetForwarding s.ports)[p] = (s.ports[p]).resetForwarding := vmap_get _ _ _ _
  split
  · exact ⟨.inl hget, rfl⟩
  · refine ⟨?_, rfl⟩
    rw [← hget]
    exact State.askUp_asked _ _ p

theorem State.fullReset_portsIn (s : State) : s.fullReset.PortsIn Hand.empty := fun p => by
  have hget : s.fullReset.ports[p] = (s.ports[p]).resetFull := vmap_get _ _ _ _
  rw [hget]
  exact ⟨PortState.reset_law rfl rfl rfl rfl ⟨rfl, rfl, fun k => by simp [PortState.resetFull, PortState.reset], rfl, rfl, rfl⟩,
    fun _ => .inl rfl⟩

theorem State.PortsIn.forwarding (h : s.PortsIn Hand.empty) : s.forwardingCore.PortsIn Hand.empty := fun p => by
  obtain ⟨ha, hi⟩ := s.forwardingCore_port p
  obtain ⟨queues, ctr, sent, hP, -⟩ := (s.ports[p]).resetForwarding_port
  have hlink : (s.ports[p]).resetForwarding.link = s.ports[p].link := by rw [hP]
  obtain ⟨hlaw, hinit⟩ := h p
  rw [ha.link, hlink, hi]
  exact ⟨hlaw.resetForwarding.of_asked ha, hinit⟩

theorem State.PortsIn.initEnd (h : s.PortsIn H) (hi : s.initializing = true) :
    ({ s with initializing := false, ports := vmap (·.restartLink .down) s.ports } : State).PortsIn H := fun p => by
  have hget : (vmap (PortState.restartLink · .down) s.ports)[p] = (s.ports[p]).restartLink .down := vmap_get _ _ _ _
  obtain ⟨hlaw, hinit⟩ := h p
  have hne : s.ports[p].link ≠ .up := by rcases hinit hi with k | k <;> rw [k] <;> decide
  refine ⟨?_, fun k => by cases k⟩
  show ((vmap (PortState.restartLink · .down) s.ports)[p]).LawIn _
  rw [hget]
  exact hlaw.restart (.inl rfl) fun hn => hlaw.quiet hne hn

theorem PortState.endSending_law {x : Prop} {e : Entry} {ctr : PortCounters} {sent : List LineItem}
    (htx : P.tx = .sending e) (h : P.LawIn x) :
    ({ P.endSending e with ctr := ctr, sent := sent } : PortState).LawIn x where
  queue := h.queue.shrink (P.dropHead_queue e.hdr.cls) rfl
  valid := h.valid
  invalid := h.invalid
  training := h.training
  bytes := h.bytes
  hold := h.hold
  quiet := fun hl hn => by
    obtain ⟨-, hidle, -⟩ := h.quiet hl hn
    rw [htx] at hidle; cases hidle

theorem PortState.expire_law {x : Prop} {e : Entry} (htx : P.tx = .idle) (h : P.LawIn x) :
    ((P.dropHead e.hdr.cls).tally .qExpired).LawIn x where
  queue := h.queue.shrink (P.dropHead_queue e.hdr.cls) htx
  valid := h.valid
  invalid := h.invalid
  training := h.training
  bytes := h.bytes
  hold := h.hold
  quiet := fun hl hn => by
    obtain ⟨h1, h2, h3, h4⟩ := h.quiet hl hn
    refine ⟨h1, h2, fun k => ?_, h4⟩
    obtain ⟨n, hq⟩ := P.dropHead_queue e.hdr.cls k
    exact hq.trans (by rw [h3 k, List.drop_nil])

theorem PortState.flushed_law {x : Prop} (h : P.LawIn x) : P.flushed.LawIn x where
  queue := P.flushed_queueLaw h.queue
  valid := h.valid
  invalid := h.invalid
  training := h.training
  bytes := h.bytes
  hold := h.hold
  quiet := fun hl hn => by
    obtain ⟨h1, h2, -, h4⟩ := h.quiet hl hn
    exact ⟨h1, h2, fun k => (P.flushed_queue k).trans (PortState.unflushed_idle h2 k), h4⟩

theorem PortState.joined_law {x : Prop} {e : Entry} (hup : P.link = .up) (hroom : P.queues[e.hdr.cls].length < 16)
    (h : P.LawIn x) :
    ({ P with queues := vset P.queues e.hdr.cls (P.queues[e.hdr.cls] ++ [e]) } : PortState).LawIn x :=
  ⟨PortState.joined_queueLaw h.queue hroom, h.valid, h.invalid, h.training, h.bytes, h.hold, fun hl => absurd hup hl⟩

theorem PortState.rx_law {x : Prop} {r : RxState} {ctr : PortCounters} (hup : P.link = .up ∨ r = .idle)
    (hn : ∀ b n, r = .receiving b n → n ≤ 71) (h : P.LawIn x) :
    ({ P with rx := r, ctr := ctr } : PortState).LawIn x :=
  ⟨h.queue.of_same rfl rfl, h.valid, h.invalid, h.training, hn, h.hold, fun hl hx => by
    obtain ⟨-, h2⟩ := h.quiet hl hx
    exact ⟨hup.resolve_left hl, h2⟩⟩

theorem PortState.hold_law {x : Prop} {flag : Bool} {deadline : Option Tick} (hnone : flag = false → deadline = none)
    (hflag : flag = true → P.link = .up ∨ P.partnerHold = true) (h : P.LawIn x) :
    ({ P with partnerHold := flag, holdDeadline := deadline } : PortState).LawIn x :=
  ⟨h.queue.of_same rfl rfl, h.valid, h.invalid, h.training, h.bytes, hnone, fun hl hx => by
    obtain ⟨h1, h2, h3, h4, -, h6⟩ := h.quiet hl hx
    have hf : flag = false := by
      cases flag with
      | false => rfl
      | true =>
        rcases hflag rfl with k | k
        · exact absurd k hl
        · rw [h4] at k; cases k
    exact ⟨h1, h2, h3, hf, hnone hf, h6⟩⟩

theorem PortState.send_law {x : Prop} {e : Entry} (htop : P.topHead = some e) (hup : P.link = .up) (h : P.LawIn x) :
    ({ P with tx := .sending e } : PortState).LawIn x :=
  ⟨⟨h.queue.1, fun y hy => by cases hy; exact PortState.topHead_head (P := P) h.queue htop⟩, h.valid, h.invalid, h.training,
    h.bytes, h.hold, fun hl => absurd hup hl⟩

theorem PortState.train_law {x : Prop} {d : Tick} (hl : P.link = .down) (h : P.LawIn x) :
    ({ P with link := .training, trainingDeadline := some d, validRun := 0, quiet := false } : PortState).LawIn x :=
  ⟨h.queue.of_same rfl rfl, by simp, h.invalid, by simp, h.bytes, h.hold, fun _ hx => h.quiet (by rw [hl]; decide) hx⟩

theorem PortState.enterUp_law {x : Prop} (episode : Episode) (h : P.LawIn x) : (P.enterUp episode).LawIn x where
  queue := PortState.QueueLaw.idle (P := P) rfl rfl h.queue
  valid := by simp [PortState.enterUp]
  invalid := by simp [PortState.enterUp]
  training := by simp [PortState.enterUp]
  bytes := fun b n hr => by cases hr
  hold := fun _ => rfl
  quiet := fun hne => absurd rfl hne

theorem Move.portsIn {x y : Hand × State} (m : Move c ok x y) (h : x.2.PortsIn x.1) : y.2.PortsIn y.1 := by
  cases m
  case alike ha =>
    intro p
    obtain ⟨hlaw, hinit⟩ := h p
    rw [ha.initializing, (ha.ports p).link]
    exact ⟨hlaw.of_alike (ha.ports p) id, hinit⟩
  case rx hup hn _ => exact h.onPort_link rfl (PortState.rx_law hup hn) rfl
  case send p e htx htop hup =>
    exact h.onPort_link rfl (PortState.send_law htop hup) rfl
  case endSending htx _ => exact h.onPort_link rfl (PortState.endSending_law htx) rfl
  case expire htx _ => exact h.onPort_link rfl (PortState.expire_law htx) rfl
  case flush => exact h.onPort_link rfl PortState.flushed_law rfl
  case join H s p b hd o hup hroom _ _ =>
    have hj := h.onPort_link (f := fun P => { P with
      queues := vset P.queues hd.cls (P.queues[hd.cls] ++ [⟨b, hd, s.now, o⟩]) }) rfl
      (PortState.joined_law (e := ⟨b, hd, s.now, o⟩) hup hroom) rfl
    exact hj.of_asked (fun q => .inl (congrArg (·[q]) (State.addRef_ports _ b))) (State.addRef_frame _ b).tables.2.1 rfl
  case hold hnone hflag _ => exact h.onPort_link rfl (PortState.hold_law hnone hflag) rfl
  case control ha =>
    exact h.onPort_link rfl (fun k => ⟨k.queue.of_same rfl rfl, k.valid, k.invalid, k.training, k.bytes, k.hold,
      fun hl hx => by
        obtain ⟨-, -, -, -, -, hnil⟩ := k.quiet hl hx
        rw [ha] at hnil; cases hnil⟩) rfl
  case train hl hi =>
    exact h.onPort (fun q _ hq => hq) (PortState.train_law hl) fun hin => by rw [hi] at hin; cases hin
  case up p hl =>
    refine h.onPort (fun q _ hq => hq) (PortState.enterUp_law _) fun hin => ?_
    rcases (h p).2 hin with k | k <;> rw [hl] at k <;> cases k
  case restart hl hd =>
    exact h.onPort (fun q _ hq => hq) (fun k => k.restart hd fun hx => k.quiet hl hx) fun _ => .inr hd
  case leave p =>
    exact h.onPort (fun q _ hq => List.mem_cons_of_mem p hq)
      (fun k => k.restart (.inl rfl) fun hx => absurd List.mem_cons_self hx) fun _ => .inr (.inl rfl)
  case left p hl hrx htx hq =>
    exact h.onPort (fun q hne hq => (List.mem_cons.1 hq).resolve_left hne)
      (fun k => k.clearFlow fun _ _ => ⟨hrx, htx, hq⟩) fun _ => .inl rfl
  case quit p hrx htx hq =>
    exact h.onPort (fun q _ hq => hq)
      (fun k => (k.clearFlow (y := False) fun _ _ => ⟨hrx, htx, hq⟩).restart (.inr rfl)
        fun _ => ⟨hrx, htx, hq, rfl, rfl, rfl⟩) fun _ => .inr (.inr rfl)
  case initEnd hi => exact h.initEnd hi
  case release b =>
    exact .of_asked (State.release_asked _ b) (State.release_frame _ b).tables.2.1 rfl h
  case addRef b _ =>
    exact h.of_asked (fun p => .inl (congrArg (·[p]) (State.addRef_ports _ b))) (State.addRef_frame _ b).tables.2.1 rfl
  case pop b hu =>
    obtain ⟨-, -, hports⟩ := State.takeTop_store hu
    refine .of_asked (fun p => ?_) (State.pop_blocks hu).tables.2.1 rfl h
    rw [← hports]
    exact State.popMarked_asked _ p
  case full => exact State.fullReset_portsIn _
  case forwarding => exact h.forwarding
  all_goals exact h

theorem State.powerUp_portsIn (node : Node) (rest : List Instr) :
    ({ State.powerUp node with pending := rest } : State).PortsIn Hand.empty := fun p => by
  have hget : ({ State.powerUp node with pending := rest } : State).ports[p] = PortState.reset := by simp [State.powerUp]
  show (({ State.powerUp node with pending := rest } : State).ports[p]).LawIn _ ∧ _
  rw [hget]
  exact ⟨PortState.reset_law rfl rfl rfl rfl PortState.reset_quiescent, fun _ => .inl rfl⟩

/-- Settles O53: each primitive change keeps the law of every port that is not in the middle of leaving UP. -/
theorem portLawIsKept : Obligations.PortLawIsKept := by
  unfold Obligations.PortLawIsKept
  intro s t h hs
  rw [State.portLaw_iff] at h ⊢
  exact step_keeps (Q := fun x => x.2.PortsIn x.1) Move.portsIn (fun _ h => h) State.powerUp_portsIn h (fun _ h => h) hs

end

end Sys2Proof.Machine
end

