-- ==== Sys2Proof/Proofs/KeptStock.lean ====
section
/-! PROOF. O54: what every step keeps of low stock: the episode's marks, and that within an episode every UP link was last sent
or asked HOLD (R31 to R33). -/

namespace Sys2Proof.Machine

section
variable {c : Option Instr} {ok : Prop} {s t u : State} {P Q : PortState}

/-- Where neither depth nor episode changes, low stock is kept if no port enters UP and no UP port's last symbol changes. -/
theorem State.StockLaw.of_same (hf : t.store.free = s.store.free) (he : t.store.episode = s.store.episode)
    (hp : ∀ p : Port, t.ports[p].link = .up →
      s.ports[p].link = .up ∧ t.ports[p].lastFlow = s.ports[p].lastFlow) (h : s.StockLaw) : t.StockLaw := by
  obtain ⟨h1, h2, h3, h4⟩ := h
  unfold State.StockLaw Store.depth
  rw [hf, he]
  refine ⟨h1, h2, h3, fun hne p hup => ?_⟩
  obtain ⟨hup', hflow⟩ := hp p hup
  exact hflow.trans (h4 hne p hup')

/-- A change of one port that neither brings it to UP nor changes its last symbol. -/
theorem State.StockLaw.onPort {p : Port} {f : PortState → PortState} (h : s.StockLaw)
    (hf : (f s.ports[p]).link = .up → s.ports[p].link = .up ∧ (f s.ports[p]).lastFlow = s.ports[p].lastFlow) :
    (s.onPort p f).StockLaw := by
  refine State.StockLaw.of_same (s := s) rfl rfl (fun q => ?_) h
  by_cases hq : q = p
  · subst hq; rw [State.onPort_get]; exact hf
  · rw [State.onPort_get_ne s f hq]; exact fun hup => ⟨hup, rfl⟩

/-- A port's last symbol once one more is asked. -/
theorem PortState.lastFlow_asked (P : PortState) (f : FlowSymbol) :
    PortState.lastFlow { P with asked := P.asked ++ [f] } = some f := by
  simp [PortState.lastFlow, ← List.append_assoc]

/-- A symbol asked and then sent remains the last (R18). -/
theorem PortState.lastFlow_control {f : FlowSymbol} {rest : List FlowSymbol} (h : P.asked = f :: rest) :
    PortState.lastFlow { P with asked := rest, sent := P.sent ++ [.flow f] } = P.lastFlow := by
  simp [PortState.lastFlow, h]

/-- On entry to UP during an episode HOLD is sent before anything else (R4, R31). -/
theorem PortState.lastFlow_enterUp {episode : Episode} (h : episode ≠ .none) :
    (P.enterUp episode).lastFlow = some .hold := by
  simp [PortState.lastFlow, PortState.enterUp, h]

/-- An episode that begins asks HOLD of every UP port (R31). -/
theorem State.askUp_lastFlow (s : State) (f : FlowSymbol) (p : Port) (h : (s.askUp f).ports[p].link = .up) :
    (s.askUp f).ports[p].lastFlow = some f := by
  have hget : (s.askUp f).ports[p] =
      if s.ports[p].link = .up then { s.ports[p] with asked := s.ports[p].asked ++ [f] } else s.ports[p] :=
    vmap_get _ _ _ _
  rw [hget] at h ⊢
  split at h
  · next hup => rw [if_pos hup]; exact PortState.lastFlow_asked _ f
  · next hup => exact absurd h hup

/-! ## The stock rises and falls (R25, R31 to R33) -/

theorem State.release_stockLaw (b : BufNo) (h : s.StockLaw) : (s.release b).StockLaw := by
  unfold State.release
  split
  · exact h
  · obtain ⟨h1, h2, h3, h4⟩ := h
    unfold Store.depth at h1 h2 h3
    unfold State.endEpisode
    split
    · next hend =>
      obtain ⟨hd, -⟩ := hend
      unfold State.StockLaw
      refine ⟨fun _ => ?_, fun hne => absurd rfl hne, fun hlow => (by cases hlow), fun hne => absurd rfl hne⟩
      show 8 < _
      rw [State.askUp_store]
      exact Nat.lt_of_lt_of_eq (by decide) hd.symm
    · next hend =>
      have hd : ∀ ep, s.store.episode = ep → ep ≠ .none → s.store.free.length + 1 ≠ 24 :=
        fun ep hep hne k => hend ⟨k, by show s.store.episode ≠ .none; rw [hep]; exact hne⟩
      refine ⟨fun hn => ?_, fun hne => ?_, fun _ => Nat.succ_pos _, h4⟩
      · have := h1 hn
        show 8 < s.store.free.length + 1
        omega
      · have := h2 hne
        have := hd _ rfl hne
        show s.store.free.length + 1 < 24
        omega
  · exact h.of_same rfl rfl fun p hup => ⟨hup, rfl⟩

theorem State.addRef_stockLaw (b : BufNo) (h : s.StockLaw) : (s.addRef b).StockLaw := by
  unfold State.addRef
  split
  · exact h
  · exact h.of_same rfl rfl fun p hup => ⟨hup, rfl⟩

theorem State.pop_stockLaw {b : BufNo} (hu : s.takeTop = some (b, u)) (h : s.StockLaw) : u.popMarked.StockLaw := by
  obtain ⟨hfree, -, hports⟩ := State.takeTop_store hu
  have hepisode : u.store.episode = s.store.episode := by
    unfold State.takeTop at hu
    split at hu
    · cases hu
    · cases hu; rfl
  obtain ⟨h1, h2, h3, h4⟩ := h
  rw [← hepisode] at h1 h2 h3 h4
  rw [← hports] at h4
  have hdepth : s.store.depth = u.store.depth + 1 := by rw [Store.depth, hfree]; rfl
  rw [hdepth] at h1 h2 h3
  unfold State.popMarked
  split
  · next h8 =>
    obtain ⟨h8, -⟩ := h8
    refine ⟨fun hn => (by cases hn), fun _ => ?_, fun _ => ?_, fun _ => State.askUp_lastFlow _ .hold⟩
    · show u.store.depth < 24; omega
    · show 0 < u.store.depth; omega
  · next h8 =>
    split
    · next h0 =>
      obtain ⟨h0, hlow⟩ := h0
      refine ⟨fun hn => (by cases hn), fun _ => ?_, fun hn => (by cases hn), fun _ => h4 (by rw [hlow]; simp)⟩
      show u.store.depth < 24; omega
    · next h0 =>
      refine ⟨fun hn => ?_, fun hne => ?_, fun hlow => ?_, h4⟩
      · have := h1 hn
        have : u.store.depth ≠ 8 := fun k => h8 ⟨k, hn⟩
        omega
      · have := h2 hne; omega
      · have : u.store.depth ≠ 0 := fun k => h0 ⟨k, hlow⟩
        omega

/-- A full stack without an episode. -/
theorem State.fullStock (hf : t.store.free = Store.resetOrder) (he : t.store.episode = .none) : t.StockLaw := by
  refine ⟨fun _ => ?_, fun hne => absurd he hne, fun hlow => ?_, fun hne => absurd he hne⟩
  · rw [Store.depth, hf]; simp [Store.resetOrder]
  · rw [he] at hlow; cases hlow

theorem Move.stockLaw {x y : Hand × State} (m : Move c ok x y) (h : x.2.StockLaw) : y.2.StockLaw := by
  cases m
  case alike ha =>
    refine h.of_same ha.free ha.episode fun p hup => ⟨(ha.ports p).link ▸ hup, (ha.ports p).lastFlow⟩
  case rx => exact h.onPort fun hup => ⟨hup, rfl⟩
  case send => exact h.onPort fun hup => ⟨hup, rfl⟩
  case endSending hf => exact h.onPort fun hup => ⟨hup, hf⟩
  case expire => exact h.onPort fun hup => ⟨hup, rfl⟩
  case flush => exact h.onPort fun hup => ⟨hup, rfl⟩
  case join H s p b hd o _ _ _ _ =>
    have hj := h.onPort (p := p) (f := fun P => { P with
      queues := vset P.queues hd.cls (P.queues[hd.cls] ++ [⟨b, hd, s.now, o⟩]) }) fun hup => ⟨hup, rfl⟩
    exact State.addRef_stockLaw b hj
  case hold => exact h.onPort fun hup => ⟨hup, rfl⟩
  case control ha => exact h.onPort fun hup => ⟨hup, PortState.lastFlow_control ha⟩
  case train => exact h.onPort fun hup => by cases hup
  case up p hl =>
    obtain ⟨h1, h2, h3, h4⟩ := h
    refine ⟨h1, h2, h3, fun hne q hup => ?_⟩
    by_cases hq : q = p
    · subst hq
      show ((State.onPort _ q _).ports[q]).lastFlow = _
      rw [State.onPort_get]
      exact PortState.lastFlow_enterUp hne
    · show ((State.onPort _ p _).ports[q]).lastFlow = _
      have hup' : ((State.onPort _ p _).ports[q]).link = .up := hup
      rw [State.onPort_get_ne _ _ hq] at hup' ⊢
      exact h4 hne q hup'
  case restart hd => exact h.onPort fun hup => by rcases hd with rfl | rfl <;> cases hup
  case leave => exact h.onPort fun hup => by cases hup
  case left hl _ _ _ => exact h.onPort fun hup => absurd hup hl
  case quit => exact h.onPort fun hup => by cases hup
  case initEnd s _ =>
    refine State.StockLaw.of_same (s := s) rfl rfl (fun p hup => ?_) h
    have hget : (vmap (PortState.restartLink · .down) s.ports)[p] = (s.ports[p]).restartLink .down := vmap_get _ _ _ _
    change ((vmap (PortState.restartLink · .down) s.ports)[p]).link = .up at hup
    rw [hget] at hup
    cases hup
  case release b => exact State.release_stockLaw b h
  case addRef b _ => exact State.addRef_stockLaw b h
  case pop hu => exact State.pop_stockLaw hu h
  case full => exact State.fullStock rfl rfl
  case forwarding s r _ _ =>
    exact State.fullStock (congrArg Store.free s.forwardingCore_store) (congrArg Store.episode s.forwardingCore_store)
  all_goals exact h

/-- Settles O54: each primitive change keeps the law of low stock, and a depth of 8 or below is an episode. -/
theorem lowStockHoldsEveryUpLink : Obligations.LowStockHoldsEveryUpLink := by
  unfold Obligations.LowStockHoldsEveryUpLink
  intro s t h _ hs
  have ht : t.StockLaw := step_keeps (Q := fun x => x.2.StockLaw) Move.stockLaw (fun _ h => h)
    (fun _ _ => State.fullStock rfl rfl) h (fun _ h => h) hs
  refine ⟨ht, fun hd p hup => ?_⟩
  obtain ⟨hnone, -, -, hflow⟩ := ht
  exact hflow (fun hn => absurd (hnone hn) (by omega)) p hup

end

end Sys2Proof.Machine
end

