-- ==== Sys2Proof/Proofs/KeptCounts.lean ====
section
/-! PROOF. O52: every reference count is the number of claims on its buffer. The claims stand as one multiset of buffers,
what a command has in hand included; a primitive change moves a claim, or adds or ends one together with the count. -/

namespace Sys2Proof.Machine

section
variable {c : Option Instr} {ok : Prop} {s t u : State} {H K : Hand} {P Q : PortState}

/-! ## The claims (R24) -/

/-- The buffers these entries name. -/
def entryBufs (es : List Entry) : Multiset BufNo := (es.map (·.buf) : List BufNo)

/-- The buffers the entries of a port name. -/
def PortState.queued (P : PortState) : Multiset BufNo := ∑ k : Class, entryBufs P.queues[k]

/-- The buffer a disposition keeps. -/
def disposalBufs (d : Option Disposal) : List BufNo := (d.map (·.buf)).toList

/-- Claims of those that write a buffer: receivers, and requests that wait (R23). -/
def State.writers (s : State) : Multiset BufNo :=
  ∑ p : Port, (s.ports[p].rx.bufs : Multiset BufNo) + (s.agent.queue.map (·.buf) : List BufNo)

/-- Claims of those that read a buffer: the request under execution, dispositions, queue entries and holds. -/
def State.readers (s : State) : Multiset BufNo :=
  (s.agent.executing.toList.map (·.buf) : List BufNo) + ∑ p : Port, (disposalBufs s.disposing[p] : Multiset BufNo) +
    ∑ p : Port, s.ports[p].queued + ∑ n : SlotNo, (heldBufs s.slots[n].held : Multiset BufNo)

theorem List.countP_eq_sum {α : Type} (p : α → Bool) (l : List α) :
    l.countP p = (l.map fun x => if p x then 1 else 0).sum := by
  induction l with
  | nil => rfl
  | cons a l ih => rw [List.countP_cons, ih, List.map_cons, List.sum_cons, Nat.add_comm]

theorem sum_ports {M : Type} [AddCommMonoid M] (f : Port → M) : ∑ p : Port, f p = (Port.all.map f).sum := by
  rw [Fin.sum_univ_def]; rfl

theorem Multiset.count_sum_fin {n : Nat} (f : Fin n → Multiset BufNo) (b : BufNo) :
    (∑ i, f i).count b = ∑ i, (f i).count b := Multiset.count_sum'

theorem count_bufs {α : Type} (f : α → BufNo) (l : List α) (b : BufNo) :
    ((l.map f : List BufNo) : Multiset BufNo).count b = l.countP fun x => decide (f x = b) := by
  rw [Multiset.coe_count, List.count_eq_countP, List.countP_map]
  rfl

/-- The claims on a buffer are those of its writers and those of its readers. -/
theorem State.claims_eq (s : State) (b : BufNo) :
    s.receptions b + s.disposals b + s.queueReferences b + s.holdReferences b = s.writers.count b + s.readers.count b ∧
      s.receptions b = s.writers.count b + s.agent.executing.toList.countP fun r => decide (r.buf = b) := by
  have hrx : Port.all.countP (fun p => s.ports[p].rx.fills b) =
      (∑ p : Port, (s.ports[p].rx.bufs : Multiset BufNo)).count b := by
    rw [Multiset.count_sum_fin, sum_ports, List.countP_eq_sum]
    refine congrArg List.sum (List.map_congr_left fun p _ => ?_)
    cases s.ports[p].rx <;> simp [RxState.fills, RxState.bufs, Multiset.count_singleton, eq_comm]
  have hdisposals : s.disposals b = (∑ p : Port, (disposalBufs s.disposing[p] : Multiset BufNo)).count b := by
    rw [Multiset.count_sum_fin, sum_ports, State.disposals, List.countP_eq_sum]
    refine congrArg List.sum (List.map_congr_left fun p _ => ?_)
    cases s.disposing[p] <;> simp [disposalBufs, Multiset.count_singleton, eq_comm]
  have hqueues : s.queueReferences b = (∑ p : Port, s.ports[p].queued).count b := by
    rw [Multiset.count_sum_fin, sum_ports, State.queueReferences]
    refine congrArg List.sum (List.map_congr_left fun p _ => ?_)
    rw [PortState.queued, Multiset.count_sum_fin, PortState.naming, Fin.sum_univ_def]
    refine congrArg List.sum (List.map_congr_left fun k _ => ?_)
    rw [entryBufs, count_bufs]
  have hholds : s.holdReferences b = (∑ n : SlotNo, (heldBufs s.slots[n].held : Multiset BufNo)).count b := by
    rw [Multiset.count_sum_fin, Fin.sum_univ_def, State.holdReferences, List.countP_eq_sum]
    refine congrArg List.sum (List.map_congr_left fun n _ => ?_)
    unfold Slot.holds heldBufs
    cases s.slots[n].held <;> simp [Multiset.count_singleton, eq_comm]
  rw [hdisposals, hqueues, hholds]
  unfold State.receptions State.writers State.readers
  rw [hrx]
  simp only [Multiset.count_add, count_bufs]
  exact ⟨by omega, trivial⟩

/-! ## Accounts -/

/-- Every count is the number of claims, what is in hand included, and a buffer that is written, or of which the command has
the only claim, has one. -/
structure State.Accounts (s : State) (H : Hand) : Prop where
  counts  : ∀ b : BufNo, s.store.count[b] = (s.writers + H.fresh + (s.readers + H.shared)).count b
  writers : ∀ b : BufNo, b ∈ s.writers + H.fresh → s.store.count[b] = 1

/-- The part's laws, and its accounts. -/
theorem State.accounts_iff (hx : s.agent.executing = none) : s.CountLaw ∧ s.WriterLaw ↔ s.Accounts Hand.empty := by
  have hclaims := fun b => (s.claims_eq b).1
  have hwriters := fun b => (s.claims_eq b).2
  simp only [hx, Option.toList_none, List.countP_nil, Nat.add_zero] at hwriters
  constructor
  · rintro ⟨hc, hw⟩
    refine ⟨fun b => ?_, fun b hb => hw b ?_⟩
    · rw [hc b, hclaims b]; simp [Hand.empty]
    · rw [hwriters b]; exact Multiset.count_pos.2 (by simpa [Hand.empty] using hb)
  · rintro ⟨hc, hw⟩
    refine ⟨fun b => ?_, fun b hb => hw b ?_⟩
    · rw [hc b, hclaims b]; simp [Hand.empty]
    · rw [hwriters b] at hb; simpa [Hand.empty] using Multiset.count_pos.1 hb

/-- A change that moves claims alone. -/
theorem State.Accounts.move (h : s.Accounts H) (hc : t.store.count = s.store.count)
    (hsum : t.writers + K.fresh + (t.readers + K.shared) = s.writers + H.fresh + (s.readers + H.shared))
    (hw : t.writers + K.fresh ≤ s.writers + H.fresh) : t.Accounts K :=
  ⟨fun b => by rw [hc, hsum]; exact h.counts b, fun b hb => by rw [hc]; exact h.writers b (Multiset.mem_of_le hw hb)⟩

/-- A buffer with a reader's claim has no writer's. -/
theorem State.Accounts.unwritten (h : s.Accounts H) {b : BufNo} (hb : b ∈ s.readers + H.shared) :
    s.store.count[b] ≠ 0 ∧ b ∉ s.writers + H.fresh := by
  have hpos := Multiset.count_pos.2 hb
  have hcount := h.counts b
  rw [Multiset.count_add] at hcount
  refine ⟨by omega, fun hw => ?_⟩
  have := h.writers b hw
  have := Multiset.count_pos.2 hw
  omega

theorem State.addRef_count (h : t.store = s.store) (b : BufNo) : (t.addRef b).store.count = (s.addRef b).store.count := by
  unfold State.addRef
  rw [h]
  split
  · exact congrArg Store.count h
  · rfl

/-- A reader's claim added with its reference (R27). -/
theorem State.Accounts.addRef {b : BufNo} (h : s.Accounts H) (hb : b ∈ s.readers + H.shared)
    (hw : t.writers + K.fresh = s.writers + H.fresh) (hr : t.readers + K.shared = b ::ₘ (s.readers + H.shared))
    (hc : t.store.count = (s.addRef b).store.count) : t.Accounts K := by
  obtain ⟨hne, hnw⟩ := h.unwritten hb
  rw [State.addRef_store s b hne] at hc
  refine ⟨fun x => ?_, fun x hx => ?_⟩
  · rw [hc, hw, hr, Multiset.count_add, Multiset.count_cons, vset_fin]
    have hcount := h.counts x
    rw [Multiset.count_add] at hcount
    split
    · next hxb => subst hxb; omega
    · omega
  · rw [hw] at hx
    rw [hc, vset_fin, if_neg (fun hxb : x = b => hnw (hxb ▸ hx))]
    exact h.writers x hx

/-- A reader's claim ended with its reference (R25, R28). -/
theorem State.Accounts.release {b : BufNo} (h : s.Accounts (H.ref b)) (hw : t.writers = s.writers)
    (hr : t.readers = s.readers) (hc : t.store.count = (s.release b).store.count) : t.Accounts H := by
  have hmem : b ∈ s.readers + (H.ref b).shared := Multiset.mem_add.2 (.inr (by simp [Hand.ref]))
  obtain ⟨-, hnw⟩ := h.unwritten hmem
  rw [(State.release_store s b).1] at hc
  have hcons : s.readers + ((H.ref b).shared : Multiset BufNo) = b ::ₘ (s.readers + H.shared) := by
    rw [Hand.ref, ← Multiset.cons_coe, Multiset.add_cons]
  refine ⟨fun x => ?_, fun x hx => ?_⟩
  · have hcount := h.counts x
    rw [hcons, Multiset.count_add, Multiset.count_cons] at hcount
    have hfresh : (H.ref b).fresh = H.fresh := rfl
    rw [hc, hw, hr, Multiset.count_add, vset_fin]
    rw [hfresh] at hcount
    split
    · next hxb => subst hxb; rw [if_pos rfl] at hcount; omega
    · next hxb => rw [if_neg hxb] at hcount; omega
  · rw [hw] at hx
    rw [hc, vset_fin, if_neg (fun hxb : x = b => hnw (hxb ▸ hx))]
    exact h.writers x hx

/-! ## Claims of a changed part -/

/-- One term of a sum changes. -/
theorem sum_vset {α : Type} {n : Nat} (v : Vector α n) (i : Fin n) (x : α) (g : α → Multiset BufNo) :
    ∑ j : Fin n, g (vset v i x)[j] + g v[i] = ∑ j : Fin n, g v[j] + g x := by
  rw [← Finset.add_sum_erase _ _ (Finset.mem_univ i), ← Finset.add_sum_erase _ (fun j => g v[j]) (Finset.mem_univ i)]
  have hrest : ∑ j ∈ Finset.univ.erase i, g (vset v i x)[j] = ∑ j ∈ Finset.univ.erase i, g v[j] :=
    Finset.sum_congr rfl fun j hj => by rw [vset_fin, if_neg (Finset.ne_of_mem_erase hj)]
  have hi : (vset v i x)[i] = x := by rw [vset_fin, if_pos rfl]
  rw [hrest, hi]
  abel

/-- A port changed: its reception's claim and its entries' claims. -/
theorem State.onPort_claims (s : State) (p : Port) (f : PortState → PortState) :
    (s.onPort p f).writers + (s.ports[p].rx.bufs : Multiset BufNo) = s.writers + ((f s.ports[p]).rx.bufs : Multiset BufNo) ∧
      (s.onPort p f).readers + s.ports[p].queued = s.readers + (f s.ports[p]).queued := by
  have hrx := sum_vset s.ports p (f s.ports[p]) fun P => (P.rx.bufs : Multiset BufNo)
  have hq := sum_vset s.ports p (f s.ports[p]) PortState.queued
  constructor
  · show ∑ j : Port, ((vset s.ports p (f s.ports[p]))[j].rx.bufs : Multiset BufNo) + _ + _ = _ + _ + _
    rw [add_right_comm, hrx, add_right_comm]; rfl
  · show _ + _ + ∑ j : Port, (vset s.ports p (f s.ports[p]))[j].queued + _ + _ = _ + _ + _ + _ + _
    rw [add_right_comm, add_assoc (_ + _) _ s.ports[p].queued, hq, ← add_assoc, add_right_comm]
    rfl

/-- A port changed without its reception: only its entries' claims differ. -/
theorem State.onPort_queues {p : Port} {f : PortState → PortState} (hrx : (f s.ports[p]).rx = s.ports[p].rx) :
    (s.onPort p f).writers = s.writers ∧ (s.onPort p f).readers + s.ports[p].queued = s.readers + (f s.ports[p]).queued := by
  obtain ⟨hw, hr⟩ := s.onPort_claims p f
  rw [hrx] at hw
  exact ⟨add_right_cancel hw, hr⟩

/-- A port changed in neither. -/
theorem State.onPort_same {p : Port} {f : PortState → PortState} (hrx : (f s.ports[p]).rx = s.ports[p].rx)
    (hq : (f s.ports[p]).queues = s.ports[p].queues) :
    (s.onPort p f).writers = s.writers ∧ (s.onPort p f).readers = s.readers := by
  obtain ⟨hw, hr⟩ := State.onPort_queues (f := f) hrx
  have : (f s.ports[p]).queued = s.ports[p].queued := by unfold PortState.queued; rw [hq]
  rw [this] at hr
  exact ⟨hw, add_right_cancel hr⟩

/-- Two parts with the same claims in every block. -/
theorem State.same_claims (hp : ∀ p : Port, t.ports[p].rx = s.ports[p].rx ∧ t.ports[p].queues = s.ports[p].queues)
    (hq : t.agent.queue = s.agent.queue) (hx : t.agent.executing = s.agent.executing) (hd : t.disposing = s.disposing)
    (hs : ∀ n : SlotNo, t.slots[n].held = s.slots[n].held) : t.writers = s.writers ∧ t.readers = s.readers := by
  have hrx : ∀ p : Port, t.ports[p].rx = s.ports[p].rx := fun p => (hp p).1
  have hqs : ∀ p : Port, t.ports[p].queued = s.ports[p].queued := fun p => by unfold PortState.queued; rw [(hp p).2]
  unfold State.writers State.readers
  constructor
  · simp only [hrx, hq]
  · simp only [hqs, hx, hd, hs]

theorem State.SameBlocks.disposing (h : s.SameBlocks t) : t.disposing = s.disposing := by
  obtain ⟨-, -, -, -, -, -, -, -, -, h, -⟩ := h.tables
  exact h

theorem State.SameBlocks.claims (h : s.SameBlocks t) (hp : ∀ p : Port, (s.ports[p]).Asked (t.ports[p])) :
    t.writers = s.writers ∧ t.readers = s.readers := by
  refine State.same_claims (fun p => ?_) (congrArg Agent.queue h.agent) (congrArg Agent.executing h.agent)
    h.disposing fun n => by rw [h.tables.slots]
  obtain hP | ⟨-, f, hP⟩ := hp p <;> rw [hP] <;> exact ⟨rfl, rfl⟩

/-! ## Entries of a port -/

theorem entryBufs_append (es fs : List Entry) : entryBufs (es ++ fs) = entryBufs es + entryBufs fs := by
  simp [entryBufs]

theorem entryBufs_cons (e : Entry) (es : List Entry) : entryBufs (e :: es) = {e.buf} + entryBufs es := rfl

theorem PortState.queued_vset (P : PortState) (k : Class) (es : List Entry) :
    ({ P with queues := vset P.queues k es } : PortState).queued + entryBufs P.queues[k] = P.queued + entryBufs es :=
  sum_vset P.queues k es entryBufs

/-- The head of a class queue and the rest of the port (R100, R102). -/
theorem PortState.queued_dropHead {e : Entry} (h : P.queues[e.hdr.cls].head? = some e) :
    P.queued = (P.dropHead e.hdr.cls).queued + {e.buf} := by
  have hv := P.queued_vset e.hdr.cls P.queues[e.hdr.cls].tail
  have hes : P.queues[e.hdr.cls] = e :: P.queues[e.hdr.cls].tail := (List.cons_head?_tail h).symm
  have hq : entryBufs P.queues[e.hdr.cls] = {e.buf} + entryBufs P.queues[e.hdr.cls].tail := by
    rw [← entryBufs_cons, ← hes]
  rw [hq, ← add_assoc] at hv
  exact (add_right_cancel hv).symm

/-- A flush releases the references of the entries that waited (R105). -/
theorem PortState.queued_flushed (P : PortState) : P.queued = P.flushed.queued + entryBufs P.allWaiting := by
  have hsplit : ∀ k : Class, entryBufs P.queues[k] = entryBufs (P.unflushed k) + entryBufs (P.waiting k) := by
    intro k
    unfold PortState.unflushed PortState.waiting
    split
    · rw [← entryBufs_append, ← List.drop_one, List.take_append_drop]
    · exact (zero_add _).symm
  have hwait : entryBufs P.allWaiting = ∑ k : Class, entryBufs (P.waiting k) := by
    have hp : entryBufs P.allWaiting = entryBufs (Class.urgentFirst.flatMap P.waiting) :=
      Multiset.coe_eq_coe.2 (P.allWaiting_perm.map _)
    rw [hp, Fin.sum_univ_four]
    simp only [Class.urgentFirst, List.flatMap_cons, List.flatMap_nil, List.append_nil, entryBufs_append]
    abel
  rw [hwait]
  unfold PortState.queued
  rw [← Finset.sum_add_distrib]
  exact Finset.sum_congr rfl fun k _ => by rw [P.flushed_queue]; exact hsplit k

theorem PortState.queued_joined (P : PortState) (e : Entry) :
    ({ P with queues := vset P.queues e.hdr.cls (P.queues[e.hdr.cls] ++ [e]) } : PortState).queued = P.queued + {e.buf} := by
  have hv := P.queued_vset e.hdr.cls (P.queues[e.hdr.cls] ++ [e])
  rw [entryBufs_append, add_comm (entryBufs P.queues[e.hdr.cls]), ← add_assoc] at hv
  exact add_right_cancel hv

theorem PortState.queued_nil (h : ∀ k : Class, P.queues[k] = []) : P.queued = 0 := by
  unfold PortState.queued
  exact Finset.sum_eq_zero fun k _ => by rw [h k]; rfl

/-! ## The primitive changes -/

/-- A change that moves the claims of readers alone. -/
theorem State.Accounts.moveReaders (h : s.Accounts H) (hc : t.store.count = s.store.count) (hf : K.fresh = H.fresh)
    (hw : t.writers = s.writers) (hr : t.readers + K.shared = s.readers + H.shared) : t.Accounts K :=
  h.move hc (by rw [hw, hf, hr]) (by rw [hw, hf])

theorem claims_moved {r r' x y a b : Multiset BufNo} (h : r' + x = r + y) (hp : y + a = x + b) : r' + a = r + b := by
  refine add_right_cancel (b := x) ?_
  rw [add_right_comm, h, add_assoc, hp, add_right_comm, add_assoc]

theorem claims_lost {r r' x y z : Multiset BufNo} (h : r' + x = r + y) (hx : x = y + z) : z + r' = r := by
  rw [hx, ← add_assoc, add_right_comm] at h
  rw [add_comm]; exact add_right_cancel h

theorem claims_gained {r r' x y z : Multiset BufNo} (h : r' + x = r + y) (hy : y = x + z) : r' = r + z := by
  rw [hy, ← add_assoc, add_right_comm] at h
  exact add_right_cancel h

/-- A claim that is no writer's. -/
theorem State.Claimed.mem {b : BufNo} (h : s.Claimed H b) : b ∈ s.readers + H.shared := by
  have hsum : ∀ {n : Nat} (f : Fin n → List BufNo) (i : Fin n), b ∈ f i → b ∈ ∑ j, (f j : Multiset BufNo) :=
    fun f i hi => Multiset.mem_sum.2 ⟨i, Finset.mem_univ i, hi⟩
  unfold State.readers
  cases h with
  | disposal p d h hb =>
    have : b ∈ disposalBufs s.disposing[p] := by rw [h]; simp [disposalBufs, hb]
    simp only [Multiset.mem_add]
    exact .inl (.inl (.inl (.inr (hsum _ p this))))
  | hold n x h hb =>
    have : b ∈ heldBufs s.slots[n].held := by rw [h]; simp [heldBufs, hb]
    simp only [Multiset.mem_add]
    exact .inl (.inr (hsum _ n this))
  | request r h hb =>
    simp only [Multiset.mem_add]
    exact .inl (.inl (.inl (.inl (by rw [h]; simp [hb]))))
  | hand h => exact Multiset.mem_add.2 (.inr h)

/-- An entry that has left its port: its claim is in hand (R16, R100). -/
theorem State.Accounts.dropHead {p : Port} {e : Entry} {f : PortState → PortState} (h : s.Accounts H)
    (hhead : s.ports[p].queues[e.hdr.cls].head? = some e) (hrx : (f s.ports[p]).rx = s.ports[p].rx)
    (hq : (f s.ports[p]).queues = (s.ports[p].dropHead e.hdr.cls).queues) : (s.onPort p f).Accounts (H.ref e.buf) := by
  obtain ⟨hw, hr⟩ := State.onPort_queues (f := f) hrx
  have hqueued : (f s.ports[p]).queued = (s.ports[p].dropHead e.hdr.cls).queued := by unfold PortState.queued; rw [hq]
  refine h.moveReaders rfl rfl hw ?_
  rw [← claims_lost hr (hqueued ▸ PortState.queued_dropHead hhead), Hand.ref, ← Multiset.cons_coe,
    ← Multiset.singleton_add]
  abel

theorem State.Accounts.flush {p : Port} (h : s.Accounts H) :
    (s.onPort p PortState.flushed).Accounts (H.refs (s.ports[p].allWaiting.map (·.buf))) := by
  obtain ⟨hw, hr⟩ := State.onPort_queues (s := s) (p := p) (f := PortState.flushed) rfl
  refine h.moveReaders rfl rfl hw ?_
  rw [← claims_lost hr s.ports[p].queued_flushed, Hand.refs, ← Multiset.coe_add, entryBufs]
  abel

theorem State.Accounts.join {p : Port} {b : BufNo} {hd : Header} {o : Origin} (h : s.Accounts H)
    (hb : s.Claimed H b) : (s.joined p b hd o).Accounts H := by
  obtain ⟨hw, hr⟩ := State.onPort_queues (s := s) (p := p) (f := fun P => { P with
    queues := vset P.queues hd.cls (P.queues[hd.cls] ++ [⟨b, hd, s.now, o⟩]) }) rfl
  have hr := claims_gained hr (s.ports[p].queued_joined ⟨b, hd, s.now, o⟩)
  unfold State.joined
  generalize hu : (s.onPort p fun P => { P with
    queues := vset P.queues hd.cls (P.queues[hd.cls] ++ [⟨b, hd, s.now, o⟩]) }) = u at hw hr ⊢
  obtain ⟨hw', hr'⟩ := (State.addRef_frame u b).blocks.claims fun q => .inl (congrArg (·[q]) (State.addRef_ports u b))
  have hcount : u.store = s.store := by rw [← hu]; rfl
  refine h.addRef hb.mem (by rw [hw', hw]) ?_ (State.addRef_count hcount b)
  rw [hr', hr, ← Multiset.singleton_add]
  abel

/-- A buffer taken off the stack has no claim but the command's (R26). -/
theorem State.Accounts.pop {b : BufNo} (h : s.Accounts H) (hs : s.StoreLaw) (hu : s.takeTop = some (b, u)) :
    u.popMarked.Accounts (H.sole b) := by
  obtain ⟨hfree, hcount, hports⟩ := State.takeTop_store hu
  obtain ⟨hc, -⟩ := u.popMarked_store
  obtain ⟨hw, hr⟩ := (State.pop_blocks hu).claims fun p => by
    rw [← hports]; exact State.popMarked_asked u p
  have h0 : s.store.count[b] = 0 := (hs.2 b).1 (by rw [hfree]; exact List.mem_cons_self)
  have hnone := h.counts b
  rw [h0] at hnone
  have hsum : s.writers + ((H.sole b).fresh : Multiset BufNo) + (s.readers + (H.sole b).shared) =
      b ::ₘ (s.writers + H.fresh + (s.readers + H.shared)) := by
    rw [Hand.sole, ← Multiset.cons_coe, Multiset.add_cons, Multiset.cons_add]
  refine ⟨fun x => ?_, fun x hx => ?_⟩
  · rw [hc, hcount, hw, hr, hsum, vset_fin, Multiset.count_cons]
    split
    · next hxb => subst hxb; omega
    · rw [h.counts x]; omega
  · rw [hc, hcount, vset_fin]
    split
    · rfl
    · next hxb =>
      rw [hw, Hand.sole, ← Multiset.cons_coe, Multiset.add_cons, Multiset.mem_cons] at hx
      exact h.writers x (hx.resolve_left hxb)

theorem Multiset.coe_perm_add {a b x y : List BufNo} (h : (a ++ b).Perm (x ++ y)) :
    (a : Multiset BufNo) + b = x + y := by
  rw [Multiset.coe_add, Multiset.coe_add]; exact Multiset.coe_eq_coe.2 h

theorem State.Accounts.rx {p : Port} {r : RxState} {ctr : PortCounters} {fresh : List BufNo} (h : s.Accounts H)
    (hp : (r.bufs ++ fresh).Perm (s.ports[p].rx.bufs ++ H.fresh)) :
    (s.onPort p fun P => { P with rx := r, ctr := ctr }).Accounts { H with fresh := fresh } := by
  obtain ⟨hw, hr⟩ := s.onPort_claims p fun P => { P with rx := r, ctr := ctr }
  have hr := add_right_cancel hr
  have hw := claims_moved hw (Multiset.coe_perm_add hp)
  exact h.move rfl (by rw [hr, hw]) (le_of_eq hw)

theorem State.Accounts.slot {n : SlotNo} {y : Slot} {shared : List BufNo} (h : s.Accounts H)
    (hp : (heldBufs y.held ++ shared).Perm (heldBufs s.slots[n].held ++ H.shared)) :
    (s.setSlot n y).Accounts { H with shared := shared } := by
  have hsum := sum_vset s.slots n y fun x => (heldBufs x.held : Multiset BufNo)
  refine h.moveReaders rfl rfl rfl (claims_moved (x := (heldBufs s.slots[n].held : Multiset BufNo)) ?_
    (Multiset.coe_perm_add hp))
  show _ + _ + _ + ∑ j : SlotNo, (heldBufs (vset s.slots n y)[j].held : Multiset BufNo) + _ = _ + _ + _ + _ + _
  rw [add_assoc, hsum, ← add_assoc]
  rfl

theorem claims_between {a b c m m' x y : Multiset BufNo} (h : m' + x = m + y) : a + m' + b + c + x = a + m + b + c + y := by
  rw [add_right_comm _ c, add_right_comm _ b, add_assoc a, h, ← add_assoc, add_right_comm _ y, add_right_comm _ y]

theorem State.withDisposal_claims (s : State) (p : Port) (d : Option Disposal) :
    (s.withDisposal p d).writers = s.writers ∧ (s.withDisposal p d).readers + (disposalBufs s.disposing[p] : Multiset BufNo) =
      s.readers + (disposalBufs d : Multiset BufNo) := by
  have hsum := sum_vset s.disposing p d fun x => (disposalBufs x : Multiset BufNo)
  refine ⟨rfl, ?_⟩
  exact claims_between hsum

/-- A disposition that goes on for the same buffer. -/
theorem State.goOn_claims {p : Port} {d d' : Disposal} (hd : s.disposing[p] = some d) (hb : d'.buf = d.buf) :
    (s.goOn p d').writers = s.writers ∧ (s.goOn p d').readers = s.readers := by
  obtain ⟨hw, hr⟩ := s.withDisposal_claims p (some d')
  have hsame : (disposalBufs s.disposing[p] : Multiset BufNo) = disposalBufs (some d') := by
    rw [hd]; simp [disposalBufs, hb]
  rw [hsame] at hr
  exact ⟨hw, add_right_cancel hr⟩

theorem State.Accounts.dispose {p : Port} {b : BufNo} {d : Disposal} (h : s.Accounts (H.sole b))
    (hd : s.disposing[p] = none) (hb : d.buf = b) : (s.goOn p d).Accounts H := by
  obtain ⟨hw, hr⟩ := s.withDisposal_claims p (some d)
  have hnone : (disposalBufs s.disposing[p] : Multiset BufNo) = 0 := by rw [hd]; rfl
  have hsome : (disposalBufs (some d) : Multiset BufNo) = {b} := by rw [← hb]; rfl
  rw [hnone, add_zero, hsome] at hr
  change (s.goOn p d).readers = _ at hr
  change (s.goOn p d).writers = _ at hw
  refine h.move rfl ?_ ?_
  · rw [hw, hr, Hand.sole, ← Multiset.cons_coe, ← Multiset.singleton_add]; abel
  · rw [hw, Hand.sole, ← Multiset.cons_coe, Multiset.add_cons]
    exact Multiset.le_cons_self _ _

theorem State.Accounts.close {p : Port} {d : Disposal} (h : s.Accounts H) (hd : s.disposing[p] = some d) :
    (s.withDisposal p none).Accounts (H.ref d.buf) := by
  obtain ⟨hw, hr⟩ := s.withDisposal_claims p none
  have hsome : (disposalBufs s.disposing[p] : Multiset BufNo) = 0 + {d.buf} := by rw [hd]; rfl
  have hnone : (disposalBufs (none : Option Disposal) : Multiset BufNo) = 0 := rfl
  rw [hnone] at hr
  refine h.moveReaders rfl rfl hw ?_
  rw [← claims_lost hr hsome, Hand.ref, ← Multiset.cons_coe, ← Multiset.singleton_add]
  abel

theorem State.Accounts.arrive {p : Port} {b : BufNo} (h : s.Accounts (H.sole b)) :
    ({ s with agent := { s.agent with queue := s.agent.queue ++ [{ buf := b, port := p }] } } : State).Accounts H := by
  have hw : ({ s with agent := { s.agent with queue := s.agent.queue ++ [{ buf := b, port := p }] } } : State).writers + H.fresh =
      s.writers + (H.sole b).fresh := by
    unfold State.writers
    rw [Hand.sole, ← Multiset.cons_coe, List.map_append, ← Multiset.coe_add, List.map_singleton, Multiset.coe_singleton,
      ← Multiset.singleton_add]
    abel
  exact h.move rfl (by rw [hw]; rfl) (le_of_eq hw)

theorem State.Accounts.begin {r : Request} {rest : List Request} (h : s.Accounts H) (hq : s.agent.queue = r :: rest)
    (hx : s.agent.executing = none) : (s.beginRequest r rest).Accounts (H.serve r) := by
  have hw : s.writers = {r.buf} + (s.beginRequest r rest).writers := by
    unfold State.writers
    rw [hq, List.map_cons, ← Multiset.cons_coe, Multiset.add_cons, ← Multiset.singleton_add]; rfl
  have hr : (s.beginRequest r rest).readers = {r.buf} + s.readers := by
    unfold State.readers
    rw [hx]
    show ((r.buf :: []: List BufNo) : Multiset BufNo) + _ + _ + _ = _
    rw [Multiset.coe_singleton, Option.toList_none, List.map_nil, Multiset.coe_nil, zero_add, ← add_assoc, ← add_assoc]
    rfl
  refine h.move rfl ?_ ?_
  · rw [hw, hr, Hand.serve]; abel
  · rw [hw, Hand.serve, add_assoc]
    exact Multiset.le_add_left _ _

theorem State.Accounts.idle {r : Request} (h : s.Accounts (H.serve r)) (hx : s.agent.executing = some r) :
    s.idled.Accounts (H.ref r.buf) := by
  have hr : s.readers = {r.buf} + s.idled.readers := by
    unfold State.readers
    rw [hx]
    show ((r.buf :: []: List BufNo) : Multiset BufNo) + _ + _ + _ = _
    rw [Multiset.coe_singleton]
    show _ = _ + (((([] : List Request).map (·.buf) : List BufNo) : Multiset BufNo) + _ + _ + _)
    rw [List.map_nil, Multiset.coe_nil, zero_add, ← add_assoc, ← add_assoc]
    rfl
  refine h.moveReaders rfl rfl rfl ?_
  rw [hr, Hand.ref, Hand.serve, ← Multiset.cons_coe, ← Multiset.singleton_add]
  abel

theorem State.Accounts.share {b : BufNo} (h : s.Accounts (H.sole b)) : s.Accounts (H.ref b) := by
  refine h.move rfl ?_ ?_
  · rw [Hand.sole, Hand.ref, ← Multiset.cons_coe, ← Multiset.cons_coe, Multiset.add_cons, Multiset.add_cons,
      Multiset.add_cons, Multiset.cons_add]
  · rw [Hand.sole, Hand.ref, ← Multiset.cons_coe, Multiset.add_cons]
    exact Multiset.le_cons_self _ _

/-- A part in which nothing claims a buffer and every count is 0. -/
theorem State.noClaims (hc : t.store.count = Vector.replicate 128 0)
    (hp : ∀ p : Port, t.ports[p].rx = .idle ∧ ∀ k : Class, t.ports[p].queues[k] = [])
    (hd : ∀ p : Port, t.disposing[p] = none) (hs : ∀ n : SlotNo, t.slots[n].held = none)
    (hq : t.agent.queue = []) (hx : t.agent.executing = none) : t.Accounts Hand.empty := by
  have hw : t.writers = 0 := by
    unfold State.writers
    have hrx : ∑ p : Port, (t.ports[p].rx.bufs : Multiset BufNo) = 0 :=
      Finset.sum_eq_zero fun p _ => by rw [(hp p).1]; rfl
    rw [hq, hrx]
    rfl
  have hr : t.readers = 0 := by
    unfold State.readers
    have hdisposals : ∑ p : Port, (disposalBufs t.disposing[p] : Multiset BufNo) = 0 :=
      Finset.sum_eq_zero fun p _ => by rw [hd p]; rfl
    have hqueues : ∑ p : Port, t.ports[p].queued = 0 := Finset.sum_eq_zero fun p _ => PortState.queued_nil (hp p).2
    have hholds : ∑ n : SlotNo, (heldBufs t.slots[n].held : Multiset BufNo) = 0 :=
      Finset.sum_eq_zero fun n _ => by rw [hs n]; rfl
    rw [hx, hdisposals, hqueues, hholds]
    rfl
  refine ⟨fun b => ?_, fun b hb => ?_⟩
  · rw [hc, hw, hr]; simp [Hand.empty]
  · rw [hw] at hb; simp [Hand.empty] at hb

theorem State.fullReset_accounts (s : State) : s.fullReset.Accounts Hand.empty := by
  refine State.noClaims rfl (fun p => ?_) (fun p => ?_) (fun n => ?_) rfl rfl
  · have hget : s.fullReset.ports[p] = (s.ports[p]).resetFull := vmap_get _ _ _ _
    rw [hget]
    exact ⟨rfl, fun k => by simp [PortState.resetFull, PortState.reset]⟩
  · exact State.fullReset_disposing s p
  · simp [State.fullReset, Slot.reset]

theorem State.forwardingCore_accounts (hs : s.SlotLaw) : s.forwardingCore.Accounts Hand.empty := by
  refine State.noClaims (congrArg Store.count s.forwardingCore_store) (fun p => ?_) (fun p => ?_) (fun n => ?_)
    (congrArg Agent.queue s.forwardingCore_agent) (congrArg Agent.executing s.forwardingCore_agent)
  · obtain ⟨ha, -⟩ := s.forwardingCore_port p
    obtain ⟨queues, ctr, sent, hP, hq⟩ := (s.ports[p]).resetForwarding_port
    rw [hP] at ha
    obtain ha | ⟨-, f, ha⟩ := ha <;> rw [ha] <;> exact ⟨rfl, hq⟩
  · rw [s.forwardingCore_disposing]; simp
  · rw [s.forwardingCore_slots]
    have hget : (vmap (·.restarted s.now) s.slots)[n] = (s.slots[n]).restarted s.now := vmap_get _ _ _ _
    rw [hget]
    unfold Slot.restarted
    split
    · next hoff =>
      obtain ⟨-, -, hheld, -⟩ := hs n
      refine Option.eq_none_iff_forall_ne_some.2 fun x hx => ?_
      rcases hheld (by rw [hx]; rfl) with k | k <;> rw [hoff] at k <;> cases k
    · rfl

/-- The laws that the accounts of a step rest on. -/
structure State.Books (s : State) (H : Hand) : Prop where
  accounts : s.Accounts H
  store    : s.StoreLaw
  ports    : s.PortsIn H
  slots    : s.SlotLaw
  requests : s.Requests H

/-- A port changed in neither its reception nor its queues. -/
theorem State.Accounts.onPort {p : Port} {f : PortState → PortState} (h : s.Accounts H)
    (hrx : (f s.ports[p]).rx = s.ports[p].rx) (hq : (f s.ports[p]).queues = s.ports[p].queues) : (s.onPort p f).Accounts H := by
  obtain ⟨hw, hr⟩ := State.onPort_same (f := f) hrx hq
  exact h.moveReaders rfl rfl hw (by rw [hr])

/-- A part with the same ports, slots and dispositions, requests and counts. -/
theorem State.Accounts.same (h : s.Accounts H) (hc : t.store.count = s.store.count) (hp : t.ports = s.ports)
    (hq : t.agent.queue = s.agent.queue) (hx : t.agent.executing = s.agent.executing) (hd : t.disposing = s.disposing)
    (hs : t.slots = s.slots) (hf : K.fresh = H.fresh) (hsh : K.shared = H.shared) : t.Accounts K := by
  obtain ⟨hw, hr⟩ := State.same_claims (fun p => by rw [hp]; exact ⟨rfl, rfl⟩) hq hx hd fun n => by rw [hs]
  exact h.moveReaders hc hf hw (by rw [hr, hsh])

theorem Move.accounts {x y : Hand × State} (hok : ok) (m : Move c ok x y) (h : x.2.Books x.1) : y.2.Accounts y.1 := by
  obtain ⟨ha, hstore, hports, hslots, hreq⟩ := h
  cases m
  case alike hs =>
    obtain ⟨hw, hr⟩ := State.same_claims (fun p => ⟨(hs.ports p).rx, (hs.ports p).queues⟩) hs.queue hs.executing
      hs.disposing fun n => (hs.slots n).held
    exact ha.moveReaders hs.count rfl hw (by rw [hr])
  case rx hp _ _ _ => exact ha.rx hp
  case send p e htx htop hup => exact ha.onPort (f := fun P => { P with tx := .sending e }) rfl rfl
  case endSending p e ctr sent htx hf =>
    exact ha.dropHead (f := fun P => { P.endSending e with ctr := ctr, sent := sent }) ((hports p).1.queue.2 e htx) rfl rfl
  case expire p e htx htop =>
    exact ha.dropHead (f := fun P => (P.dropHead e.hdr.cls).tally .qExpired)
      (PortState.topHead_head (hports p).1.queue htop) rfl rfl
  case flush p => exact ha.flush
  case join hb _ => exact ha.join hb
  case hold p flag deadline _ _ _ =>
    exact ha.onPort (p := p) (f := fun P => { P with partnerHold := flag, holdDeadline := deadline }) rfl rfl
  case control p f rest _ =>
    exact ha.onPort (f := fun P => { P with asked := rest, sent := P.sent ++ [.flow f] }) rfl rfl
  case train s p _ _ =>
    exact ha.onPort (p := p) (f := fun P =>
      { P with link := .training, trainingDeadline := some (s.now + 20), validRun := 0, quiet := false }) rfl rfl
  case up s p hl =>
    obtain ⟨hrx, -⟩ := (hports p).1.quiet (by rw [hl]; decide) List.not_mem_nil
    exact ha.onPort (p := p) (f := (·.enterUp s.store.episode)) hrx.symm rfl
  case restart p dest _ _ => exact ha.onPort (p := p) (f := (·.restartLink dest)) rfl rfl
  case leave p => exact (ha.onPort (p := p) (f := (·.restartLink .down)) rfl rfl).same rfl rfl rfl rfl rfl rfl rfl rfl
  case left p _ _ _ _ => exact (ha.onPort (p := p) (f := PortState.clearFlow) rfl rfl).same rfl rfl rfl rfl rfl rfl rfl rfl
  case quit p _ _ _ => exact ha.onPort (p := p) (f := fun P => P.clearFlow.restartLink .disabled) rfl rfl
  case initEnd s hi =>
    have hget : ∀ p : Port, (vmap (PortState.restartLink · .down) s.ports)[p] = (s.ports[p]).restartLink .down :=
      fun p => vmap_get _ _ _ _
    obtain ⟨hw, hr⟩ := State.same_claims (s := s) (t := { s with
      initializing := false, ports := vmap (PortState.restartLink · .down) s.ports })
      (fun p => by rw [hget]; exact ⟨rfl, rfl⟩) rfl rfl rfl fun _ => rfl
    exact ha.moveReaders rfl rfl hw (by rw [hr])
  case release s b =>
    obtain ⟨hw, hr⟩ := (State.release_frame s b).blocks.claims (State.release_asked s b)
    exact ha.release hw hr rfl
  case share => exact ha.share
  case addRef H s b hb =>
    obtain ⟨hw, hr⟩ := (State.addRef_frame s b).blocks.claims fun q => .inl (congrArg (·[q]) (State.addRef_ports s b))
    refine ha.addRef hb.mem (by rw [hw]; rfl) ?_ rfl
    rw [hr, Hand.ref, ← Multiset.cons_coe, Multiset.add_cons]
  case pop hu => exact ha.pop hstore hu
  case slot hp => exact ha.slot hp
  case arrive => exact ha.arrive
  case begin hq hw => exact ha.begin hq (hreq.2.trans hw)
  case idle hx => exact ha.idle hx
  case dispose hd => exact ha.dispose (hd hok) rfl
  case goOn hd hb hr hg hl =>
    obtain ⟨hw, hr⟩ := State.goOn_claims hd hb
    exact ha.moveReaders rfl rfl hw (by rw [hr])
  case close hd => exact ha.close hd
  case full => exact State.fullReset_accounts _
  case forwarding => exact State.forwardingCore_accounts hslots
  all_goals exact ha.same rfl rfl rfl rfl rfl rfl rfl rfl

/-- A primitive change of a command that began at rest keeps the accounts and the laws they rest on. -/
theorem Move.books {x y : Hand × State} (hok : ok) (m : Move c ok x y) (h : x.2.Books x.1) : y.2.Books y.1 :=
  ⟨m.accounts hok h, m.storeLaw h.store, m.portsIn h.ports, m.slotLaw h.slots, m.requests h.requests⟩

/-- What the laws of the accounts do not read. -/
theorem State.Books.same (h : s.Books H) (hst : t.store = s.store) (hp : t.ports = s.ports)
    (hi : t.initializing = s.initializing) (ha : t.agent = s.agent) (hd : t.disposing = s.disposing)
    (hs : t.slots = s.slots) : t.Books H := by
  obtain ⟨haccounts, hstore, hports, hslots, hreq⟩ := h
  refine ⟨haccounts.same (by rw [hst]) hp (by rw [ha]) (by rw [ha]) hd hs rfl rfl, ?_, ?_, ?_, ?_⟩
  · unfold State.StoreLaw; rw [hst]; exact hstore
  · unfold State.PortsIn; rw [hp, hi]; exact hports
  · unfold State.SlotLaw; rw [hs]; exact hslots
  · unfold State.Requests; rw [ha]; exact hreq

theorem State.powerUp_books (node : Node) (rest : List Instr) :
    ({ State.powerUp node with pending := rest } : State).Books Hand.empty where
  accounts := State.noClaims rfl (fun p => by simp [State.powerUp, PortState.reset]) (fun p => by simp [State.powerUp])
    (fun n => by simp [State.powerUp, Slot.reset]) rfl rfl
  store := Store.reset_law rfl rfl
  ports := State.powerUp_portsIn node rest
  slots := State.resetSlots rfl
  requests := ⟨Nat.zero_le _, rfl⟩

/-- Settles O52: the accounts hold at the end of a command because each primitive change of it keeps them. -/
theorem referenceCountsAreClaims : Obligations.ReferenceCountsAreClaims := by
  unfold Obligations.ReferenceCountsAreClaims
  rintro s t hstore hcount hwriter hport hslot ⟨hqueue, hexec, hdue⟩ hs
  have hbooks : s.Books Hand.empty :=
    ⟨(State.accounts_iff hexec).1 ⟨hcount, hwriter⟩, hstore, s.portLaw_iff.1 hport, hslot, hqueue, hexec⟩
  have ht : t.Books Hand.empty := step_keeps (Q := fun x => x.2.Books x.1) (Move.books ⟨hdue, hexec⟩)
    (fun _ h => h.same rfl rfl rfl rfl rfl rfl) State.powerUp_books hbooks
    (fun _ h => h.same rfl rfl rfl rfl rfl rfl) hs
  exact (State.accounts_iff ht.requests.2).2 ht.accounts

end

end Sys2Proof.Machine
end

