-- ==== Sys2Proof/Proofs/KeptDisposals.lean ====
section
/-! PROOF. O23: the law of the dispositions in progress, and where a TRANSIT entry comes from. A primitive change adds an entry
only for a disposition at stage 6, and no change but the opening of a disposition makes one of another frame. -/

namespace Sys2Proof.Machine

section
variable {c : Option Instr} {ok : Prop} {s t u : State} {H K : Hand} {P Q : PortState} {p : Port} {b : BufNo}
  {fills : Prop} {forwards : BufNo → Prop}

/-! ## What a primitive change adds to a port -/

/-- `Q` has no TRANSIT entry that `P` has not, but for a buffer that is forwarded, and fills no buffer that `P` does not fill,
unless the command fills buffers. -/
structure PortState.Within (fills : Prop) (forwards : BufNo → Prop) (P Q : PortState) : Prop where
  entries : ∀ (k : Class), ∀ e ∈ Q.queues[k], e.origin = .transit → e ∈ P.queues[k] ∨ forwards e.buf
  rx      : Q.rx = P.rx ∨ Q.rx.bufs = [] ∨ fills

theorem PortState.Within.of_same (hq : Q.queues = P.queues) (hr : Q.rx = P.rx) : P.Within fills forwards Q :=
  ⟨fun _ _ he _ => .inl (hq ▸ he), .inl hr⟩

theorem PortState.Within.of_empty (hq : ∀ k : Class, Q.queues[k] = []) (hr : Q.rx = .idle) : P.Within fills forwards Q :=
  ⟨fun k _ he _ => absurd (hq k ▸ he) List.not_mem_nil, .inr (.inl (by rw [hr]; rfl))⟩

theorem PortState.within_dropHead {k : Class} (hq : Q.queues = (P.dropHead k).queues) (hr : Q.rx = P.rx) :
    P.Within fills forwards Q := by
  refine ⟨fun j e he _ => .inl ?_, .inl hr⟩
  obtain ⟨n, hn⟩ := P.dropHead_queue k j
  rw [hq, hn] at he
  exact List.mem_of_mem_drop he

theorem PortState.within_flushed (P : PortState) : P.Within fills forwards P.flushed := by
  refine ⟨fun k e he _ => .inl ?_, .inl rfl⟩
  rw [P.flushed_queue] at he
  unfold PortState.unflushed at he
  split at he
  · exact List.mem_of_mem_take he
  · cases he

theorem PortState.within_joined {k : Class} {e : Entry} (he : e.origin = .transit → forwards e.buf) :
    P.Within fills forwards { P with queues := vset P.queues k (P.queues[k] ++ [e]) } := by
  refine ⟨fun j x hx ho => ?_, .inl rfl⟩
  change x ∈ (vset P.queues k (P.queues[k] ++ [e]))[j] at hx
  rw [vset_fin] at hx
  split at hx
  · next hj =>
    subst hj
    rcases List.mem_append.1 hx with hx | hx
    · exact .inl hx
    · cases List.mem_singleton.1 hx
      exact .inr (he ho)
  · exact .inl hx

theorem PortState.Asked.within (h : P.Asked Q) : P.Within fills forwards Q := by
  obtain hQ | ⟨-, f, hQ⟩ := h <;> rw [hQ] <;> exact .of_same rfl rfl

theorem State.within_onPort {f : PortState → PortState} {q : Port} (h : p = q → (s.ports[p]).Within fills forwards (f s.ports[p])) :
    (s.ports[q]).Within fills forwards ((s.onPort p f).ports[q]) := by
  show (s.ports[q]).Within _ _ ((vset s.ports p (f s.ports[p]))[q])
  rw [vset_fin]
  split
  · next hq => subst hq; exact h rfl
  · exact .of_same rfl rfl

/-- No port takes a TRANSIT entry but for a disposition at stage 6 (R97), or a buffer but by a command that fills one. -/
theorem Move.within {x y : Hand × State} (m : Move c ok x y) (q : Port) :
    (x.2.ports[q]).Within (FillsBuffer c) (x.2.Forwards q) (y.2.ports[q]) := by
  cases m
  case alike hs => exact .of_same (hs.ports q).queues (hs.ports q).rx
  case join s p b hd o _ _ _ ho =>
    show (s.ports[q]).Within _ _ ((s.joined p b hd o).ports[q])
    unfold State.joined
    rw [State.addRef_ports]
    exact State.within_onPort fun hq => PortState.within_joined fun h => hq ▸ (ho h).2
  case rx hc => exact State.within_onPort fun _ => ⟨fun k e he _ => .inl he, .inr hc⟩
  case send p e _ _ _ => exact State.within_onPort (f := fun P => { P with tx := .sending e }) fun _ => .of_same rfl rfl
  case endSending => exact State.within_onPort fun _ => PortState.within_dropHead (by rfl) (by rfl)
  case expire => exact State.within_onPort fun _ => PortState.within_dropHead (by rfl) (by rfl)
  case flush p => exact State.within_onPort fun _ => PortState.within_flushed _
  case up p hl =>
    exact State.within_onPort fun _ => ⟨fun k e he _ => .inl he, .inr (.inl rfl)⟩
  case initEnd s _ =>
    show (s.ports[q]).Within _ _ ((vmap (PortState.restartLink · .down) s.ports)[q])
    have hget : (vmap (PortState.restartLink · .down) s.ports)[q] = (s.ports[q]).restartLink .down := vmap_get _ _ _ _
    rw [hget]
    exact .of_same rfl rfl
  case release => exact (State.release_asked _ _ q).within
  case addRef s b _ => rw [State.addRef_ports]; exact .of_same rfl rfl
  case pop u b hu =>
    obtain ⟨-, -, hports⟩ := State.takeTop_store hu
    have hasked := u.popMarked_asked q
    rw [hports] at hasked
    exact hasked.within
  case full s _ _ _ =>
    have hget : s.fullReset.ports[q] = (s.ports[q]).resetFull := vmap_get _ _ _ _
    rw [hget]
    exact .of_empty (fun k => by simp [PortState.resetFull, PortState.reset]) rfl
  case forwarding s _ _ _ =>
    obtain ⟨queues, ctr, sent, hP, hq⟩ := (s.ports[q]).resetForwarding_port
    obtain ⟨ha, -⟩ := s.forwardingCore_port q
    rw [hP] at ha
    obtain ha | ⟨-, f, ha⟩ := ha <;> rw [ha] <;> exact .of_empty hq rfl
  case hold | control | train | restart | leave | left | quit =>
    exact State.within_onPort fun _ => .of_same (by rfl) (by rfl)
  all_goals exact .of_same rfl rfl

/-! ## What becomes of the dispositions -/

/-- Each disposition of `t` is one of `s`, gone on for the same frame and within its law. -/
def State.Continues (s t : State) : Prop := ∀ (p : Port) (d : Disposal), t.disposing[p] = some d →
  ∃ d0, s.disposing[p] = some d0 ∧ d.buf = d0.buf ∧ d.received = d0.received ∧ (d0.Law p → d.Law p)

theorem State.Continues.of_same (h : t.disposing = s.disposing) : s.Continues t :=
  fun _ d hd => ⟨d, h ▸ hd, rfl, rfl, id⟩

theorem State.Continues.of_none (h : ∀ p : Port, t.disposing[p] = none) : s.Continues t :=
  fun _ _ hd => by rw [h] at hd; cases hd

/-- No change of a command but the END of a frame opens a disposition (R42). -/
theorem Move.continues {x y : Hand × State} (m : Move c ok x y) (hc : ∀ e, c ≠ some (.rxEnd e)) : x.2.Continues y.2 := by
  have hvset : ∀ {v : Vector (Option Disposal) 4} {p q : Port} {d : Option Disposal} {d' : Disposal},
      (vset v p d)[q] = some d' → (q = p ∧ d = some d') ∨ v[q] = some d' := fun h => by
    rw [vset_fin] at h
    split at h
    · next hq => exact .inl ⟨hq, h⟩
    · exact .inr h
  cases m
  case alike hs => exact .of_same hs.disposing
  case join => exact .of_same (State.joined_blocks _ _ _ _ _).disposing
  case release => exact .of_same (State.release_frame _ _).blocks.disposing
  case addRef => exact .of_same (State.addRef_frame _ _).blocks.disposing
  case pop hu => exact .of_same (State.pop_blocks hu).disposing
  case dispose he _ => obtain ⟨e, he⟩ := he; exact absurd he (hc e)
  case goOn s p d d' _ hd hb hr _ hl =>
    intro q e he
    rcases hvset (v := s.disposing) (d := some d') he with ⟨rfl, hx⟩ | he
    · cases hx; exact ⟨d, hd, hb, hr, hl⟩
    · exact ⟨e, he, rfl, rfl, id⟩
  case close s _ _ _ _ =>
    intro q e he
    rcases hvset (v := s.disposing) (d := none) he with ⟨-, hx⟩ | he
    · cases hx
    · exact ⟨e, he, rfl, rfl, id⟩
  case full s _ _ _ => exact .of_none s.fullReset_disposing
  case forwarding s _ _ _ => exact .of_none fun p => by rw [s.forwardingCore_disposing]; simp
  all_goals exact .of_same rfl

/-! ## Where entries and dispositions come from -/

/-- The dispositions of `t` keep their law and are of frames that `origin` names, and each TRANSIT entry of `t` is one of `s`
or was made for such a frame, received on another port with an Age above 0. -/
structure State.Descends (origin : Port → BufNo → Header → Prop) (s t : State) : Prop where
  law     : t.DispositionLaw
  frames  : ∀ (p : Port) (d : Disposal), t.disposing[p] = some d → origin p d.buf d.received
  entries : ∀ (q : Port) (k : Class), ∀ e ∈ t.ports[q].queues[k], e.origin = .transit → e ∈ s.ports[q].queues[k] ∨
    ∃ (p : Port) (h : Header), p ≠ q ∧ origin p e.buf h ∧ h.age ≠ 0

variable {origin origin' : Port → BufNo → Header → Prop}

theorem Move.descends {x y : Hand × State} (m : Move c ok x y) (hc : ∀ e, c ≠ some (.rxEnd e))
    (h : State.Descends origin s x.2) : State.Descends origin s y.2 := by
  have hcont := m.continues hc
  refine ⟨fun p d hd => ?_, fun p d hd => ?_, fun q k e he ho => ?_⟩
  · obtain ⟨d0, h0, -, -, hlaw⟩ := hcont p d hd
    exact hlaw (h.law p d0 h0)
  · obtain ⟨d0, h0, hb, hr, -⟩ := hcont p d hd
    rw [hb, hr]; exact h.frames p d0 h0
  · rcases (m.within q).entries k e he ho with hx | ⟨p, d, hd, hb, hstage, hq⟩
    · exact h.entries q k e hx ho
    · obtain ⟨hself, -, hage, -⟩ := h.law p d hd
      refine .inr ⟨p, d.received, fun hpq => ?_, hb ▸ h.frames p d hd, hage hstage⟩
      rw [hpq, hq] at hself; cases hself

/-- A receiver that fills a buffer after changes of a command that fills none has filled it before. -/
theorem Move.receives {x y : Hand × State} (m : Move c ok x y) (hc : ¬ FillsBuffer c) {q : Port} {b : BufNo} {n : Nat}
    (h : y.2.ports[q].rx = .receiving b n) : x.2.ports[q].rx = .receiving b n := by
  rcases (m.within q).rx with hr | hr | hr
  · rw [← hr]; exact h
  · rw [h] at hr; cases hr
  · exact absurd hr hc

/-- What a disposition in progress in `s` keeps. -/
def State.Disposes (s : State) (p : Port) (b : BufNo) (h : Header) : Prop :=
  ∃ d, s.disposing[p] = some d ∧ d.buf = b ∧ d.received = h

theorem State.Descends.refl (h : s.DispositionLaw) : State.Descends s.Disposes s s :=
  ⟨h, fun _ d hd => ⟨d, hd, rfl, rfl⟩, fun _ _ _ he _ => .inl he⟩

theorem State.Descends.weaken (h : State.Descends origin s t) (hw : ∀ p b k, origin p b k → origin' p b k) :
    State.Descends origin' s t :=
  ⟨h.law, fun p d hd => hw _ _ _ (h.frames p d hd), fun q k e he ho =>
    (h.entries q k e he ho).imp_right fun ⟨p, x, hp, hx, ha⟩ => ⟨p, x, hp, hw _ _ _ hx, ha⟩⟩

theorem State.Descends.run {x y : Hand × State} (h : State.Descends origin s x.2) (hr : Run c ok x y)
    (hc : ∀ e, c ≠ some (.rxEnd e)) : State.Descends origin s y.2 :=
  hr.keeps (P := fun z => State.Descends origin s z.2) (fun m => m.descends hc) h

/-- The END of a frame goes on with its port's earlier disposition, and then opens the disposition of the frame received or
none (R12, R13, R45). -/
theorem exec_rxEnd_cases (e : FrameEnd) (h : exec (.rxEnd e) s = .next t) :
    Run none True (Hand.empty, s) (Hand.empty, s.beforeEnd e.port) ∧
      (Run none True (Hand.empty, s.beforeEnd e.port) (Hand.empty, t) ∨
        ∃ b n u, (s.beforeEnd e.port).ports[e.port].rx = .receiving b n ∧ u.store.mem = (s.beforeEnd e.port).store.mem ∧
          Run none True (Hand.empty, s.beforeEnd e.port) (Hand.empty.sole b, u) ∧
          Run none True (Hand.empty, u.goOn e.port (u.openDisposal b)) (Hand.empty, t)) := by
  cases h
  refine ⟨?_, ?_⟩
  · unfold State.beforeEnd
    split
    · exact State.settle_run (.inl rfl) s _
    · exact .refl
  generalize s.beforeEnd e.port = r
  by_cases hup : r.initializing = false ∧ r.ports[e.port].link = .up
  · have hheard : Run none True (Hand.empty, r) (Hand.empty, r.onPort e.port PortState.heard) :=
      (State.alike_onPort r e.port _ PortState.alike_heard).leads _
    have hvalid : r.takeValid e.port (·.endInUp e.port e.pace) =
        (r.onPort e.port PortState.heard).endInUp e.port e.pace := by
      simp only [State.takeValid, hup.1, hup.2]; rfl
    rw [hvalid]
    obtain h | ⟨b, n, hrx, h⟩ := (r.onPort e.port PortState.heard).endInUp_cases e.port e.pace
    · exact .inl ((hheard.trans (h none True Hand.empty)).trans (State.finish_run _))
    · refine .inr ⟨b, n, _, (State.heard_rx r e.port) ▸ hrx, ?_, hheard.trans (State.rxGood_run hrx), ?_⟩
      · rfl
      · rw [h]
        exact (State.takeStages_leads (.inl rfl) _ e.port _ _).trans (State.finish_run _)
  · exact .inl ((State.takeValid_run fun hi hl => absurd ⟨hi, hl⟩ hup).trans (State.finish_run _))

/-- A frame received on port `p` whose END came with this step, or one of a disposition in progress. -/
def State.Handed (s : State) (p : Port) (b : BufNo) (h : Header) : Prop :=
  s.Disposes p b h ∨ ∃ n, s.ports[p].rx = .receiving b n ∧ (s.disposing[p] = none → h = s.headerAt b)

theorem State.openDisposal_law (s : State) (b : BufNo) (p : Port) : (s.openDisposal b).Law p :=
  ⟨by simp [State.openDisposal, PortSet.has], by simp [State.openDisposal, PortSet.has], (by simp [State.openDisposal]),
    by simp [State.openDisposal]⟩

theorem exec_rxEnd_descends (e : FrameEnd) (hlaw : s.DispositionLaw) (h : exec (.rxEnd e) s = .next t) :
    State.Descends s.Handed s t := by
  obtain ⟨hbefore, h | ⟨b, n, u, hrx, hmem, hu, ht⟩⟩ := exec_rxEnd_cases e h
  · exact (((State.Descends.refl hlaw).run hbefore (by simp)).run h (by simp)).weaken fun p b k hk => .inl hk
  · have hd := (((State.Descends.refl hlaw).run hbefore (by simp)).run hu (by simp)).weaken (origin' := s.Handed)
      fun p b k hk => .inl hk
    have hs : s.ports[e.port].rx = .receiving b n :=
      hbefore.keeps (P := fun x => x.2.ports[e.port].rx = .receiving b n → s.ports[e.port].rx = .receiving b n)
        (fun m ih hr => ih (m.receives (by simp [FillsBuffer]) hr)) id hrx
    have hheader : s.disposing[e.port] = none → u.headerAt b = s.headerAt b := fun hn => by
      rw [State.beforeEnd_ended hn] at hmem
      unfold State.headerAt State.byteAt
      rw [hmem]
    refine State.Descends.run (x := (Hand.empty, u.goOn e.port (u.openDisposal b))) ⟨fun p d hp => ?_, fun p d hp => ?_, hd.entries⟩ ht (by simp)
    all_goals
      change (vset u.disposing e.port (some (u.openDisposal b)))[p] = some d at hp
      rw [vset_fin] at hp
      split at hp
    · cases hp; exact u.openDisposal_law b p
    · exact hd.law p d hp
    · next hpe => cases hp; subst hpe; exact .inr ⟨n, hs, hheader⟩
    · exact hd.frames p d hp

theorem step_descends (hlaw : s.DispositionLaw) (h : step s = .next t) : State.Descends s.Handed s t := by
  have hrest : ∀ rest, State.Descends s.Disposes s { s with pending := rest } := fun rest =>
    ⟨hlaw, (State.Descends.refl hlaw).frames, (State.Descends.refl hlaw).entries⟩
  have hweak : ∀ {t}, State.Descends s.Disposes s t → State.Descends s.Handed s t :=
    fun hd => hd.weaken fun p b k hk => .inl hk
  obtain ⟨hr, -⟩ | ⟨i, rest, -, ⟨node, rfl⟩ | ⟨u, hr, -, rfl⟩ | ⟨-, hx, hr⟩⟩ := step_cases h
  · exact hweak ((State.Descends.refl hlaw).run hr (by simp))
  · refine ⟨fun p d hd => ?_, fun p d hd => ?_, fun q k e he => ?_⟩
    · simp [State.powerUp] at hd
    · simp [State.powerUp] at hd
    · simp [State.powerUp, PortState.reset] at he
  · have hd := (hrest rest).run hr (by simp)
    exact hweak ⟨hd.law, hd.frames, hd.entries⟩
  · by_cases hi : ∃ e, i = .rxEnd e
    · obtain ⟨e, rfl⟩ := hi
      have hd := exec_rxEnd_descends (s := { s with pending := rest }) e hlaw hx
      exact ⟨hd.law, hd.frames, hd.entries⟩
    · exact hweak ((hrest rest).run hr fun e he => hi ⟨e, Option.some.inj he⟩)

/-- Settles O23: a step goes on with the dispositions it finds and adds TRANSIT entries for them alone, and for the frame whose
END it is. -/
theorem dispositionLawIsKept : Obligations.DispositionLawIsKept := by
  unfold Obligations.DispositionLawIsKept
  intro s t hlaw h
  have hd := step_descends hlaw h
  refine ⟨hd.law, fun q k e he ho => (hd.entries q k e he ho).imp_right ?_⟩
  rintro ⟨p, x, hpq, ⟨d, hp, hb, rfl⟩ | ⟨n, hrx, hx⟩, hage⟩
  · exact ⟨p, hpq, .inl ⟨d, hp, hb, hage⟩⟩
  · exact ⟨p, hpq, .inr ⟨n, hrx, fun hn => hx hn ▸ hage⟩⟩

end

end Sys2Proof.Machine
end

