-- ==== Sys2Proof/Proofs/KeptTime.lean ====
section
/-! PROOF. O60: no deadline is acted on later than at the advance that reaches it. A primitive change sets no deadline but one
that lies ahead of the counter; TICK takes all that is due before the counter goes on, so that what is left lies ahead. -/

namespace Sys2Proof.Machine

section
variable {c : Option Instr} {ok : Prop} {s t u : State} {H K : Hand} {P Q : PortState}

/-! ## What the counter is compared with (R45, R55, R78, R79, R174) -/

/-- The deadlines of the part. -/
inductive Deadline where
  | training (p : Port) | hold (p : Port) | slot (n : SlotNo) | lease | limit | retransmit

/-- Where a deadline stands, if it does. -/
def State.deadlineOf (s : State) : Deadline → Option Tick
  | .training p => s.ports[p].trainingDeadline
  | .hold p => s.ports[p].holdDeadline
  | .slot n => s.slots[n].deadline
  | .lease => s.agent.session.leaseDeadline
  | .limit => s.agent.resetPending.map (·.limit)
  | .retransmit => s.events.timer

/-- What ends before the second advance after it began: a disposition, and a copy. -/
inductive Work where
  | disposal (p : Port) | copy

/-- The tick a piece of work began at, if it is in progress. -/
def State.beganAt (s : State) : Work → Option Tick
  | .disposal p => s.disposing[p].map (·.begun)
  | .copy => s.route.copier.map (·.begun)

/-- The raises that wait and were made before the last advance. -/
def State.staleOnes (s : State) : List Raise := s.transit.filter fun r => decide (r.tick ≠ s.now)

/-- The law of time: `State.TimelyLaw` with its deadlines and works named. -/
structure State.Timely (s : State) : Prop where
  starting  : s.initializing = true → s.now.toNat ≤ 10
  deadlines : ∀ x : Deadline, ahead s.now (s.deadlineOf x)
  works     : ∀ (w : Work) (b : Tick), s.beganAt w = some b → (s.now - b).toNat ≤ 1
  raises    : ∀ r ∈ s.transit, (s.now - r.tick).toNat ≤ 1

theorem State.timelyLaw_iff (s : State) : s.TimelyLaw ↔ s.Timely := by
  constructor
  · rintro ⟨hi, hd, hp, hs, hl, hr, ht, hw, hc⟩
    refine ⟨hi, fun x => ?_, fun w b hb => ?_, hw⟩
    · cases x with
      | training p => exact (hp p).1
      | hold p => exact (hp p).2
      | slot n => exact hs n
      | lease => exact hl
      | limit =>
        intro d hd'
        obtain ⟨r, hr', rfl⟩ := Option.map_eq_some_iff.1 hd'
        exact hr r hr' _ rfl
      | retransmit => exact ht
    · cases w with
      | disposal p =>
        obtain ⟨d, hd', rfl⟩ := Option.map_eq_some_iff.1 hb
        exact hd p d hd'
      | copy =>
        obtain ⟨k, hk, rfl⟩ := Option.map_eq_some_iff.1 hb
        exact hc k hk
  · rintro ⟨hi, hd, hw, hr⟩
    refine ⟨hi, fun p d h => hw (.disposal p) _ (congrArg (Option.map _) h), fun p => ⟨hd (.training p), hd (.hold p)⟩,
      fun n => hd (.slot n), hd .lease, fun r h d hd' => hd .limit d ?_, hd .retransmit, hr,
      fun k h => hw .copy _ (congrArg (Option.map _) h)⟩
    cases hd'; exact congrArg (Option.map _) h

/-! ## What a change does to them -/

/-- A deadline stands where it stood, or is a new one that lies ahead, or is none. -/
def Onwards (now : Tick) (x y : Option Tick) : Prop := ∀ d, y = some d → x = some d ∨ later now d

/-- `t` comes from `s` at the same value of the counter: each deadline stands where it stood or lies ahead, each work in
progress was in progress or began now, and no raise that waits is older. -/
structure State.Onward (s t : State) : Prop where
  now       : t.now = s.now
  starting  : t.initializing = true → s.initializing = true
  deadlines : ∀ x : Deadline, Onwards s.now (s.deadlineOf x) (t.deadlineOf x)
  works     : ∀ (w : Work) (b : Tick), t.beganAt w = some b → s.beganAt w = some b ∨ b = s.now
  raises    : t.staleOnes.Sublist s.staleOnes

theorem Onwards.refl (now : Tick) (x : Option Tick) : Onwards now x x := fun _ h => .inl h

theorem State.Onward.refl (s : State) : s.Onward s := ⟨rfl, id, fun _ => .refl _ _, fun _ _ h => .inl h, .refl _⟩

theorem State.Onward.trans (h : s.Onward t) (k : t.Onward u) : s.Onward u where
  now := k.now.trans h.now
  starting := h.starting ∘ k.starting
  deadlines x d hd := by
    rcases k.deadlines x d hd with hd | hd
    · exact h.deadlines x d hd
    · exact .inr (h.now ▸ hd)
  works w b hb := by
    rcases k.works w b hb with hb | hb
    · exact h.works w b hb
    · exact .inr (hb.trans h.now)
  raises := k.raises.trans h.raises

theorem State.Onward.timely (h : s.Onward t) (k : s.Timely) : t.Timely where
  starting hi := by rw [h.now]; exact k.starting (h.starting hi)
  deadlines x d hd := by
    rw [h.now]
    rcases h.deadlines x d hd with hd | hd
    · exact k.deadlines x d hd
    · exact le_of_lt hd
  works w b hb := by
    rw [h.now]
    rcases h.works w b hb with hb | hb
    · exact k.works w b hb
    · rw [hb, BitVec.sub_self]; simp
  raises r hr := by
    rw [h.now]
    by_cases hn : r.tick = s.now
    · rw [hn, BitVec.sub_self]; simp
    · have hmem : r ∈ t.staleOnes := List.mem_filter.2 ⟨hr, by simpa [h.now] using hn⟩
      exact k.raises r (List.mem_filter.1 (h.raises.subset hmem)).1

theorem Onwards.of_eq {now : Tick} {x y : Option Tick} (h : y = x) : Onwards now x y := h ▸ .refl now y

theorem Onwards.of_none {now : Tick} {x y : Option Tick} (h : y = none) : Onwards now x y := fun d hd => by
  rw [h] at hd; cases hd

/-- A change of deadlines alone. -/
theorem State.Onward.of_deadlines (hn : t.now = s.now) (hi : t.initializing = true → s.initializing = true)
    (hd : ∀ x : Deadline, Onwards s.now (s.deadlineOf x) (t.deadlineOf x))
    (hdis : t.disposing = s.disposing) (hc : t.route.copier = s.route.copier) (hw : t.transit = s.transit) : s.Onward t where
  now := hn
  starting := hi
  deadlines := hd
  works w b h := by
    refine .inl (h ▸ ?_)
    cases w with
    | disposal p => simp only [State.beganAt, hdis]
    | copy => simp only [State.beganAt, hc]
  raises := by unfold State.staleOnes; rw [hn, hw]

/-- A change that reaches none of them. -/
theorem State.Onward.of_same (hn : t.now = s.now) (hi : t.initializing = s.initializing)
    (hp : ∀ p : Port, t.ports[p].trainingDeadline = s.ports[p].trainingDeadline ∧
      t.ports[p].holdDeadline = s.ports[p].holdDeadline)
    (hs : ∀ n : SlotNo, t.slots[n].deadline = s.slots[n].deadline)
    (hl : t.agent.session.leaseDeadline = s.agent.session.leaseDeadline)
    (hr : t.agent.resetPending = s.agent.resetPending) (ht : t.events.timer = s.events.timer)
    (hd : t.disposing = s.disposing) (hc : t.route.copier = s.route.copier) (hw : t.transit = s.transit) : s.Onward t := by
  refine .of_deadlines hn (fun h => hi ▸ h) (fun x => .of_eq ?_) hd hc hw
  cases x with
  | training p => exact (hp p).1
  | hold p => exact (hp p).2
  | slot n => exact hs n
  | lease => exact hl
  | limit => exact congrArg (Option.map _) hr
  | retransmit => exact ht

/-- A port changed. -/
theorem State.Onward.onPort {p : Port} {f : PortState → PortState} (ht : t = s.onPort p f)
    (htr : Onwards s.now s.ports[p].trainingDeadline (f s.ports[p]).trainingDeadline)
    (hho : Onwards s.now s.ports[p].holdDeadline (f s.ports[p]).holdDeadline) : s.Onward t := by
  subst ht
  have hget : ∀ q : Port, (s.onPort p f).ports[q] = if q = p then f s.ports[p] else s.ports[q] := fun q => vset_fin _ _ _ _
  refine .of_deadlines rfl id (fun x => ?_) rfl rfl rfl
  cases x with
  | training q =>
    simp only [State.deadlineOf, hget]
    split
    · next hq => subst hq; exact htr
    · exact .refl _ _
  | hold q =>
    simp only [State.deadlineOf, hget]
    split
    · next hq => subst hq; exact hho
    · exact .refl _ _
  | _ => exact .refl _ _

theorem State.SameBlocks.onward (h : s.SameBlocks t) (hp : ∀ p : Port, (s.ports[p]).Asked (t.ports[p])) : s.Onward t := by
  obtain ⟨hn, hi, hnow, hroute, -, -, hslots, hagent, -, hdis, -⟩ := h.tables
  refine .of_same hnow hi (fun p => ?_) (fun n => by rw [hslots]) (by rw [hagent]) (by rw [hagent]) (by rw [h.events.1]) hdis
    (by rw [hroute]) h.events.2
  obtain hQ | ⟨-, f, hQ⟩ := hp p <;> rw [hQ] <;> exact ⟨rfl, rfl⟩

/-! ## The primitive changes -/

/-- A deadline of at least one of the units an operand counts lies ahead. -/
theorem later_units {now : Tick} (k : BitVec 8) (h : k ≠ 0) : later now (now + ticksOf10Ms k.toNat) := by
  have hpos : 0 < k.toNat := Nat.pos_of_ne_zero fun h0 => h (BitVec.eq_of_toNat_eq h0)
  have hk : (ticksOf10Ms k.toNat).toNat = 100 * k.toNat := by
    unfold ticksOf10Ms
    rw [BitVec.toNat_ofNat, Nat.mod_eq_of_lt]
    have := k.isLt
    omega
  have := k.isLt
  exact later_add (by omega) (by omega)

/-- The laws by which a change sets its deadlines ahead. -/
structure State.Clockwork (s : State) (H : Hand) : Prop where
  ports   : s.PortsIn H
  slots   : s.SlotLaw
  session : s.SessionLaw
  notices : s.Notices
  timely  : s.Timely

theorem State.onward_route {f : RouteTable → RouteTable} (ht : t = s.onRoute f)
    (h : ∀ k, (f s.route).copier = some k → k.begun = s.now ∨ ∃ k0, s.route.copier = some k0 ∧ k.begun = k0.begun) :
    s.Onward t := by
  subst ht
  refine ⟨rfl, id, fun x => by cases x <;> exact .refl _ _, fun w b hb => ?_, .refl _⟩
  cases w with
  | disposal p => exact .inl hb
  | copy =>
    obtain ⟨k, hk, rfl⟩ := Option.map_eq_some_iff.1 hb
    rcases h k hk with hk' | ⟨k0, h0, hk'⟩
    · exact .inr hk'
    · exact .inl (by rw [hk']; exact congrArg (Option.map _) h0)

theorem RouteTable.setBank_copier (t : RouteTable) (n : BankName) (v : Vector RouteEntry 64) :
    (t.setBank n v).copier = t.copier := by
  cases n <;> rfl

theorem State.onward_disposal {p : Port} {d : Option Disposal} (ht : t = s.withDisposal p d)
    (hd : ∀ d', d = some d' → (∃ d0, s.disposing[p] = some d0 ∧ d'.begun = d0.begun) ∨ d'.begun = s.now) : s.Onward t := by
  subst ht
  refine ⟨rfl, id, fun x => by cases x <;> exact .refl _ _, fun w b hb => ?_, .refl _⟩
  cases w with
  | disposal q =>
    change ((vset s.disposing p d)[q]).map _ = some b at hb
    rw [vset_fin] at hb
    split at hb
    · next hq =>
      subst hq
      obtain ⟨d', hd', rfl⟩ := Option.map_eq_some_iff.1 hb
      rcases hd d' hd' with ⟨d0, h0, hg⟩ | hg
      · exact .inl (hg ▸ congrArg (Option.map _) h0)
      · exact .inr hg
    · exact .inl hb
  | copy => exact .inl hb

/-! ### A change of one deadline, of one work, of the raises -/

theorem State.onward_timer {q : EventQueue} (ht : t = { s with events := q }) (hq : Onwards s.now s.events.timer q.timer) :
    s.Onward t := by
  subst ht
  refine .of_deadlines rfl id (fun x => ?_) rfl rfl rfl
  cases x with
  | retransmit => exact hq
  | _ => exact .refl _ _

theorem State.onward_lease {x : Session} {token : Byte}
    (hx : Onwards s.now s.agent.session.leaseDeadline x.leaseDeadline) : s.Onward (s.withSession x token) := by
  refine .of_deadlines rfl id (fun x => ?_) rfl rfl rfl
  cases x with
  | lease => exact hx
  | _ => exact .refl _ _

theorem State.onward_pend {r : PendingReset} (hr : later s.now r.limit) :
    s.Onward { s with agent := { s.agent with resetPending := some r } } := by
  refine .of_deadlines rfl id (fun x => ?_) rfl rfl rfl
  cases x with
  | limit =>
    intro d hd
    cases hd
    exact .inr hr
  | _ => exact .refl _ _

theorem State.onward_slot {n : SlotNo} {y : Slot} (hy : Onwards s.now s.slots[n].deadline y.deadline) :
    s.Onward (s.setSlot n y) := by
  refine .of_deadlines rfl id (fun x => ?_) rfl rfl rfl
  cases x with
  | slot m =>
    simp only [State.deadlineOf, State.setSlot_get]
    split
    · next hm => subst hm; exact hy
    · exact .refl _ _
  | _ => exact .refl _ _

theorem State.onward_sendRaise {r : Raise} (hr : r.tick = s.now) : s.Onward (s.sendRaise r) := by
  refine ⟨rfl, id, fun x => by cases x <;> exact .refl _ _, fun w b h => .inl (by cases w <;> exact h), ?_⟩
  show ((s.transit ++ [r]).filter _).Sublist _
  rw [List.filter_append, List.filter_singleton]
  simp only [State.sendRaise, hr, ne_eq, not_true_eq_false, decide_false, cond_false, List.append_nil]
  exact .refl _

theorem State.onward_unwait (s : State) (k : Nat) (r : Raise) : s.Onward { s with
    transit := s.transit.eraseIdx k, events := s.events.take r.kind r.subject r.tick r.detail } := by
  obtain ⟨-, htimer, -⟩ := s.events.take_outstanding r.kind r.subject r.tick r.detail
  refine ⟨rfl, id, fun x => ?_, fun w b h => .inl (by cases w <;> exact h), (List.eraseIdx_sublist s.transit k).filter _⟩
  cases x with
  | retransmit => exact .of_eq htimer
  | _ => exact .refl _ _

/-- Copying goes on with the copy that runs (R55). -/
theorem RouteTable.copyNext_begun {r : RouteTable} {k : BankCopy} (hk : r.copyNext.copier = some k) :
    ∃ k0, r.copier = some k0 ∧ k.begun = k0.begun := by
  unfold RouteTable.copyNext at hk
  split at hk
  · exact ⟨k, hk, rfl⟩
  · next k0 h0 =>
    split at hk
    · cases hk; exact ⟨k0, h0, rfl⟩
    · exact ⟨k, hk, rfl⟩

theorem RouteTable.copyDone_begun {r : RouteTable} {k : BankCopy} (hk : r.copyDone.copier = some k) :
    ∃ k0, r.copier = some k0 ∧ k.begun = k0.begun := by
  unfold RouteTable.copyDone at hk
  split at hk
  · exact ⟨k, hk, rfl⟩
  · cases hk

/-! ### The end of the initialization, and the resets -/

theorem State.onward_initEnd (s : State) :
    s.Onward { s with initializing := false, ports := vmap (·.restartLink .down) s.ports } := by
  have hget : ∀ p : Port, (vmap (PortState.restartLink · .down) s.ports)[p] = (s.ports[p]).restartLink .down :=
    fun p => vmap_get _ _ _ _
  refine .of_deadlines rfl (fun h => by cases h) (fun x => ?_) rfl rfl rfl
  cases x with
  | training p => simp only [State.deadlineOf, hget]; exact .of_none rfl
  | hold p => simp only [State.deadlineOf, hget]; exact .refl _ _
  | _ => exact .refl _ _

theorem State.onward_fullReset (s : State) : s.Onward s.fullReset := by
  have hget : ∀ p : Port, s.fullReset.ports[p] = (s.ports[p]).resetFull := fun p => vmap_get _ _ _ _
  refine ⟨rfl, id, fun x => ?_, fun w b h => ?_, List.nil_sublist _⟩
  · cases x with
    | training p => simp only [State.deadlineOf, hget]; exact .of_none rfl
    | hold p => simp only [State.deadlineOf, hget]; exact .of_none rfl
    | slot n => exact .of_none (by simp [State.deadlineOf, State.fullReset, Slot.reset])
    | lease => exact .of_none rfl
    | limit => exact .of_none rfl
    | retransmit => exact .of_none rfl
  · cases w with
    | disposal p => simp [State.beganAt, s.fullReset_disposing p] at h
    | copy => cases h

theorem State.onward_forwardingCore (hslots : s.SlotLaw) (htimely : s.Timely) : s.Onward s.forwardingCore := by
  obtain ⟨he, htransit⟩ := s.forwardingCore_events
  have hagent := s.forwardingCore_agent
  have hnow : s.forwardingCore.now = s.now ∧ s.forwardingCore.route = s.route := by
    unfold State.forwardingCore
    dsimp only
    split <;> exact ⟨rfl, rfl⟩
  have hport : ∀ p : Port, s.forwardingCore.ports[p].trainingDeadline = s.ports[p].trainingDeadline ∧
      s.forwardingCore.ports[p].holdDeadline = s.ports[p].holdDeadline := fun p => by
    obtain ⟨ha, -⟩ := s.forwardingCore_port p
    obtain ⟨queues, ctr, sent, hP, -⟩ := (s.ports[p]).resetForwarding_port
    rw [hP] at ha
    obtain ha | ⟨-, f, ha⟩ := ha <;> rw [ha] <;> exact ⟨rfl, rfl⟩
  refine ⟨hnow.1, fun h => (s.forwardingCore_port 0).2 ▸ h, fun x => ?_, fun w b h => ?_, ?_⟩
  · cases x with
    | training p => exact .of_eq (hport p).1
    | hold p => exact .of_eq (hport p).2
    | slot n =>
      have hget : (vmap (·.restarted s.now) s.slots)[n] = (s.slots[n]).restarted s.now := vmap_get _ _ _ _
      simp only [State.deadlineOf, s.forwardingCore_slots, hget]
      exact Slot.restarted_step.deadline (hslots n) (htimely.deadlines (.slot n))
    | lease => simp only [State.deadlineOf, hagent]; exact .refl _ _
    | limit => simp only [State.deadlineOf, hagent]; exact .of_none rfl
    | retransmit => simp only [State.deadlineOf, he]; exact .of_none rfl
  · cases w with
    | disposal p => simp [State.beganAt, s.forwardingCore_disposing] at h
    | copy => simp only [State.beganAt, hnow.2] at h; exact .inl h
  · unfold State.staleOnes; rw [htransit, hnow.1]

/-! ### Every primitive change -/

theorem Move.onward (m : Move c ok (H, s) (K, t)) (h : s.Clockwork H) : s.Onward t := by
  obtain ⟨hports, hslots, hsession, hnotices, htimely⟩ := h
  cases m
  case alike hs =>
    exact .of_same hs.now hs.initializing (fun p => ⟨(hs.ports p).trainingDeadline, (hs.ports p).holdDeadline⟩)
      (fun n => (hs.slots n).deadline) (by rw [hs.session]) hs.resetPending (by rw [hs.events]) hs.disposing hs.copier
      hs.transit
  case send p e _ _ _ => exact .onPort (p := p) (f := fun P => { P with tx := .sending e }) rfl (by exact .refl _ _) (by exact .refl _ _)
  case join p b hd o _ _ _ _ =>
    exact (State.Onward.onPort (s := s) (p := p) rfl (by exact .refl _ _) (by exact .refl _ _)).trans
      ((State.addRef_frame _ b).blocks.onward fun q => .inl (congrArg (·[q]) (State.addRef_ports _ b)))
  case hold hd => exact .onPort rfl (by exact .refl _ _) (by exact hd)
  case train p _ _ =>
    refine .onPort rfl ?_ (by exact .refl _ _)
    intro d hd
    cases hd
    exact .inr (later_add (by decide) (by decide))
  case restart | leave => exact .onPort rfl (by exact .of_none rfl) (by exact .refl _ _)
  case left => exact .onPort rfl (by exact .refl _ _) (by exact .of_none rfl)
  case up | quit => exact .onPort rfl (by exact .of_none rfl) (by exact .of_none rfl)
  case rx | endSending | expire | flush | control =>
    exact .onPort rfl (by exact .refl _ _) (by exact .refl _ _)
  case initEnd => exact s.onward_initEnd
  case release b => exact (State.release_frame _ b).blocks.onward (State.release_asked _ b)
  case addRef b _ =>
    exact (State.addRef_frame _ b).blocks.onward fun q => .inl (congrArg (·[q]) (State.addRef_ports _ b))
  case pop u b hu =>
    obtain ⟨-, -, hp⟩ := State.takeTop_store hu
    exact (State.pop_blocks hu).onward fun p => by rw [← hp]; exact u.popMarked_asked p
  case stage v hs hv =>
    refine State.onward_route rfl fun k hk => .inr ⟨k, ?_, rfl⟩
    exact (s.route.setBank_copier _ v).symm.trans hk
  case commit | startCopy => exact State.onward_route rfl (by intro k hk; cases hk; exact .inl rfl)
  case copyNext => exact State.onward_route rfl fun k hk => .inr (RouteTable.copyNext_begun hk)
  case copyDone => exact State.onward_route rfl fun k hk => .inr (RouteTable.copyDone_begun hk)
  case slot n y _ hy _ => exact State.onward_slot (hy.deadline (hslots n) (htimely.deadlines (.slot n)))
  case session hd => exact State.onward_lease (hd hsession)
  case pend r _ hl =>
    refine State.onward_pend ?_
    rw [hl]
    exact later_add (by decide) (by decide)
  case take kind subject detail _ _ =>
    obtain ⟨-, htimer, -⟩ := s.events.take_outstanding kind subject s.now detail
    exact State.onward_timer rfl (.of_eq htimer)
  case wait hn => exact State.onward_sendRaise hn
  case unwait k r _ => exact s.onward_unwait k r
  case arm => exact State.onward_timer rfl fun d hd => by cases hd; exact .inr (later_units _ hnotices.interval)
  case disarm | acknowledge => exact State.onward_timer rfl (.of_none rfl)
  case dispose p b _ _ => exact State.onward_disposal (d := some (s.openDisposal b)) rfl fun _ h => by cases h; exact .inr rfl
  case goOn p d d' _ hb hr hg hl hd =>
    exact State.onward_disposal (d := some d') rfl fun _ h => by cases h; exact .inl ⟨d, hd, hg⟩
  case close => exact State.onward_disposal rfl fun _ h => by cases h
  case full => exact s.onward_fullReset
  case forwarding => exact State.onward_forwardingCore hslots htimely
  all_goals exact .of_same rfl rfl (fun _ => ⟨rfl, rfl⟩) (fun _ => rfl) rfl rfl rfl rfl rfl rfl

theorem Move.clockwork {x y : Hand × State} (m : Move c ok x y) (h : x.2.Clockwork x.1) : y.2.Clockwork y.1 :=
  ⟨m.portsIn h.ports, m.slotLaw h.slots, m.sessionLaw h.session, m.notices h.notices, (Move.onward m h).timely h.timely⟩

theorem Run.onward {x y : Hand × State} (hr : Run c ok x y) (h : x.2.Clockwork x.1) : y.2.Clockwork y.1 ∧ x.2.Onward y.2 :=
  hr.keeps (P := fun z => z.2.Clockwork z.1 ∧ x.2.Onward z.2) (fun m k => ⟨m.clockwork k.1, k.2.trans (Move.onward m k.1)⟩)
    ⟨h, .refl _⟩

/-! ## TICK takes what is due (R78, R79) -/

/-- A deadline that stands lies ahead. -/
def State.Tight (s : State) (x : Deadline) : Prop := ∀ d, s.deadlineOf x = some d → later s.now d

/-- A work in progress began at the counter's present value. -/
def State.Recent (s : State) (w : Work) : Prop := ∀ b, s.beganAt w = some b → b = s.now

variable {x : Deadline} {w : Work} {p : Port} {n : SlotNo}

theorem State.Onward.tight (h : s.Onward t) (k : s.Tight x) : t.Tight x := fun d hd => by
  rw [h.now]
  rcases h.deadlines x d hd with hd | hd
  · exact k d hd
  · exact hd

theorem State.Onward.recent (h : s.Onward t) (k : s.Recent w) : t.Recent w := fun b hb => by
  rw [h.now]
  rcases h.works w b hb with hb | hb
  · exact k b hb
  · exact hb

theorem State.tight_none (h : s.deadlineOf x = none) : s.Tight x := fun d hd => by rw [h] at hd; cases hd

/-- A deadline that neither lies behind nor is reached lies ahead. -/
theorem State.Timely.tight (h : s.Timely) (hd : due s.now (s.deadlineOf x) = false) : s.Tight x := fun d k => by
  have hd : ¬ 0 ≤ (s.now - d).toInt := by simpa [k, due, reached] using hd
  have ha := h.deadlines x d k
  unfold later
  rcases eq_or_ne (d - s.now) 0 with he | he
  · have : d = s.now := by rw [← sub_eq_zero]; exact he
    subst this
    simp at hd
  · rcases lt_or_eq_of_le ha with hl | hl
    · exact hl
    · exact absurd (BitVec.eq_of_toInt_eq (hl.symm.trans BitVec.toInt_zero.symm)) he

/-- What is ahead at one moment of a command is ahead at its end. -/
theorem State.Clockwork.tight_by (h : s.Clockwork H) (hr : Run c ok (H, s) (K, u)) (hu : u.Tight x)
    (hr' : Run c ok (K, u) (Hand.empty, t)) : t.Tight x :=
  (Run.onward hr' (Run.onward hr h).1).2.tight hu

theorem State.takeTrainingDeadline_tight (h : s.Clockwork Hand.empty) : (s.takeTrainingDeadline p).Tight (.training p) := by
  unfold State.takeTrainingDeadline
  split
  · next hd =>
    have hraise := State.raise_leads (c := none) (ok := True) (s.onPort p (·.enterUp s.store.episode)) (kind := .portUp)
      (subject := BitVec.ofNat 8 p.val) (detail := 0) (by decide) (by decide) (portByte_lt p)
    exact h.tight_by (.single (.up p hd.1)) (State.tight_none (by simp [State.deadlineOf, PortState.enterUp]))
      (((hraise.trans (State.askNext_leads _ p)) _).trans (State.finish_run _))
  · next hd =>
    by_cases hl : s.ports[p].link = .training
    · exact h.timely.tight (Bool.eq_false_iff.2 fun k => hd ⟨hl, k⟩)
    · exact State.tight_none (Option.not_isSome_iff_eq_none.1 (mt (h.ports p).1.training.1 hl))

theorem State.takeHoldDeadline_tight (h : s.Clockwork Hand.empty) : (s.takeHoldDeadline p).Tight (.hold p) := by
  unfold State.takeHoldDeadline
  split
  · refine h.tight_by (c := none) (ok := True) (State.holdCleared_leads s p _)
      (State.tight_none (by simp [State.deadlineOf])) ?_
    exact (State.raise_leads _ (by decide) (by decide) (portByte_lt p) _).trans (State.finish_run _)
  · next hd =>
    by_cases hl : s.ports[p].partnerHold = true
    · exact h.timely.tight (Bool.eq_false_iff.2 fun k => hd ⟨hl, k⟩)
    · exact State.tight_none ((h.ports p).1.hold (by simpa using hl))

theorem State.takePortTick_tight (h : s.Clockwork Hand.empty) :
    (s.takePortTick p).Tight (.training p) ∧ (s.takePortTick p).Tight (.hold p) := by
  have hrun : Run none True (Hand.empty, s) (Hand.empty, s.takeTrainingDeadline p) := State.takeTrainingDeadline_run s p
  have hmid := (hrun.onward h).1
  exact ⟨((State.takeHoldDeadline_run (c := none) (ok := True) _ p).onward hmid).2.tight (State.takeTrainingDeadline_tight h),
    State.takeHoldDeadline_tight hmid⟩

/-- A slot's deadline that the start window's end leaves is not one of WAITING. -/
theorem State.takeSlotDeadline_tight (h : s.Clockwork Hand.empty)
    (hw : s.slots[n].state = .waiting → s.Tight (.slot n)) : (s.takeSlotDeadline n).Tight (.slot n) := by
  unfold State.takeSlotDeadline
  split
  · next hd =>
    obtain ⟨hs, hdue⟩ := (s.slotDue_iff n).1 hd
    unfold State.slotMiss
    split
    · next hm =>
      refine h.tight_by (c := none) (ok := True) (State.slotLate_leads hd hm _) (fun d k => ?_)
        ((State.missLate_leads n _).trans (State.finish_run _))
      simp only [State.deadlineOf, State.setSlot_get, if_true] at k
      exact Slot.late_deadline hs hdue (h.slots n) (h.timely.deadlines (.slot n)) d k
    · next hm =>
      exact h.tight_by (c := none) (ok := True) (State.slotLost_run hd hm)
        (State.tight_none (by simp [State.deadlineOf, Slot.lost]))
        ((State.missLost_run n).trans (State.finish_run _))
  · next hd =>
    obtain ⟨-, -, -, hx⟩ := h.slots n
    have htight : s.slots[n].state = .fresh ∨ s.slots[n].state = .late → s.Tight (.slot n) := fun hs =>
      h.timely.tight (Bool.eq_false_iff.2 fun k => hd ((s.slotDue_iff n).2 ⟨hs, k⟩))
    cases hs : s.slots[n].state with
    | off => rw [hs] at hx; exact State.tight_none hx.1
    | waiting => exact hw hs
    | fresh => exact htight (.inl hs)
    | late => exact htight (.inr hs)
    | lost => rw [hs] at hx; exact State.tight_none hx.1

theorem State.takeSlotTick_tight (h : s.Clockwork Hand.empty) : (s.takeSlotTick n).Tight (.slot n) := by
  have hrun : Run none True (Hand.empty, s) (Hand.empty, s.takeStartWindow n) := State.takeStartWindow_run s n
  refine State.takeSlotDeadline_tight (hrun.onward h).1 fun hs => ?_
  unfold State.takeStartWindow at hs ⊢
  split
  · next hw =>
    have hstep : State.Leads none True s (s.onSlot n fun x => { x with state := .lost, deadline := none }) :=
      State.setSlot_leads (Slot.neverSeen_step ((s.windowExpired_iff n).1 hw).1) rfl
    exact h.tight_by (hstep _) (State.tight_none (by simp [State.deadlineOf]))
      ((State.raise_leads _ (by decide) (by decide) (slotByte_lt n) _).trans (State.finish_run _))
  · next hw =>
    rw [if_neg hw] at hs
    exact h.timely.tight (Bool.eq_false_iff.2 fun k => hw ((s.windowExpired_iff n).2 ⟨hs, k⟩))

theorem State.takeLeaseDeadline_tight (h : s.Clockwork Hand.empty) : s.takeLeaseDeadline.Tight .lease := by
  unfold State.takeLeaseDeadline
  split
  · exact h.tight_by (c := none) (ok := True) (State.closeSession_leads s _) (State.tight_none rfl)
      ((State.raise_leads _ (by decide) (by decide) (by decide) _).trans (State.finish_run _))
  · next hd =>
    by_cases ho : s.agent.session.isOpen = true
    · exact h.timely.tight (Bool.eq_false_iff.2 fun k => hd ⟨ho, k⟩)
    · have hc := h.session.2.1 (by simpa using ho)
      exact State.tight_none (by simp only [State.deadlineOf, hc]; rfl)

theorem State.takeResetLimit_tight (h : s.Clockwork Hand.empty) : s.takeResetLimit.Tight .limit := by
  unfold State.takeResetLimit
  split
  · next r hr =>
    split
    · have hnone : (State.finish { s with resetDue := true }).agent.resetPending = none := by
        unfold State.finish
        rw [if_pos rfl, hr]
        cases hs : r.scope with
        | full => simp only [hs]; rfl
        | forwarding => simp only [hs]; exact (State.forwardingReset_noReset _).1
      exact State.tight_none (by simp only [State.deadlineOf, hnone]; rfl)
    · next hd => exact h.timely.tight (by simpa [State.deadlineOf, hr, due] using hd)
  · next hr => exact State.tight_none (by simp [State.deadlineOf, hr])

theorem State.takeRetransmit_tight (h : s.Clockwork Hand.empty) : s.takeRetransmit.Tight .retransmit := by
  unfold State.takeRetransmit
  split
  · exact h.tight_by (c := none) (ok := True) (.single .disarm) (State.tight_none rfl)
      ((State.tryDeliver_leads _ _).trans (State.finish_run _))
  · next hd => exact h.timely.tight (by simpa [State.deadlineOf] using hd)

/-! ## Work and raises left from before the last advance (R45, R55, R174) -/

theorem State.settleStale_recent (hdue : s.resetDue = false) : (s.settleStale p).Recent (.disposal p) := by
  unfold State.settleStale
  split
  · next d hd =>
    split
    · next hb => intro b h; simp only [State.beganAt, hd, Option.map_some, Option.some.injEq] at h; rw [← h, hb]
    · intro b h; simp [State.beganAt, State.settle_ends hdue p] at h
  · next hd => intro b h; simp [State.beganAt, hd] at h

theorem State.settleStale_due (hdue : s.resetDue = false) : (s.settleStale p).resetDue = false := by
  unfold State.settleStale
  split
  · split
    · exact hdue
    · unfold State.settle
      split
      · exact hdue
      · exact State.finish_due _
  · exact hdue

theorem State.endStaleCopy_recent : s.endStaleCopy.Recent .copy := by
  unfold State.endStaleCopy
  split
  · next k hk =>
    split
    · next hb => intro b h; simp only [State.beganAt, hk, Option.map_some, Option.some.injEq] at h; rw [← h, hb]
    · intro b h; simp [State.beganAt, RouteTable.copyDone, hk] at h
  · next hk => intro b h; simp [State.beganAt, hk] at h

/-- The initialization does not outlast the counter's value 10 (R77). -/
theorem State.takeInitEnd_over (h : s.Timely) : s.takeInitEnd.initializing = true → s.takeInitEnd.now.toNat < 10 := by
  unfold State.takeInitEnd
  split
  · exact fun hi => by cases hi
  · next hd =>
    intro hi
    have hle := h.starting hi
    have hne : s.now.toNat ≠ 10 := fun hn => hd (by
      have : s.now = 10 := BitVec.eq_of_toNat_eq hn
      simp [hi, this, reached])
    omega

/-- A delivery attempt leaves the raises that wait (R177). -/
theorem State.tryDeliver_transit (s : State) : s.tryDeliver.transit = s.transit := by
  unfold State.tryDeliver
  split
  · unfold State.deliver
    split
    · rfl
    · next b t h =>
      have hpop : t.transit = s.transit := by
        obtain ⟨⟨_, u⟩, hu, hx⟩ := Option.map_eq_some_iff.mp h
        cases hx
        have hmark := (State.pop_blocks hu).events.2
        obtain hx | ⟨kind, detail, -, hx⟩ := u.episodeAfterPop_cases fun k d v => v.note k 0 d <;> rw [hx] <;> exact hmark
      have hsend : (t.sendEventFrame b).transit = t.transit := by
        unfold State.sendEventFrame
        refine (State.release_frame _ b).events.2.trans ?_
        obtain ⟨-, hx⟩ | ⟨-, -, hx⟩ | ⟨-, -, hx⟩ := State.enqueue_cases (t.putPayload b (eventPayload t.events.carried))
          t.agent.session.eventPort b (t.relayHeader t.agent.session.replyLabel) .event <;> rw [hx]
        · rfl
        · rfl
        · exact (State.accept_frame _ _ _ _ _).events.2.trans (State.joined_blocks _ _ _ _ _).events.2
      exact hsend.trans hpop
  · rfl

theorem State.takeRaise_transit (s : State) (r : Raise) : (s.takeRaise r).transit = s.transit := by
  unfold State.takeRaise
  split
  · exact State.tryDeliver_transit _
  · rfl

/-- The end of a command leaves the raises that wait, or no raise waits after it (R170, R171). -/
theorem State.finish_transit (s : State) : s.finish.transit = s.transit ∨ s.finish.transit = [] := by
  unfold State.finish
  split
  · split
    · next r _ =>
      cases r.scope with
      | full => exact .inr rfl
      | forwarding => exact .inl ((State.tryDeliver_transit _).trans s.forwardingCore_events.2)
    · exact .inl rfl
  · exact .inl rfl

theorem inTurn_lt {rs : List Raise} {k : Nat} (hk : k < rs.length) : inTurn rs k < rs.length := by
  by_cases hp : rs[k].kind = .portUp
  · obtain ⟨q, hq, -⟩ := inTurn_portUp (List.getElem?_eq_getElem hk) hp
    exact (List.getElem?_eq_some_iff.1 hq).1
  · rw [inTurn_other (List.getElem?_eq_getElem hk) hp]; exact hk

/-- A raise that waits is taken, and fewer wait (R174). -/
theorem State.takeWaiting_fewer {k : Nat} (hk : k < s.transit.length) :
    (s.takeWaiting k).transit.length < s.transit.length := by
  have hlt := inTurn_lt hk
  rw [State.takeWaiting_eq (List.getElem?_eq_getElem hlt)]
  rcases State.finish_transit (State.takeRaise { s with transit := s.transit.eraseIdx (inTurn s.transit k) }
    s.transit[inTurn s.transit k]) with h | h
  · rw [h, State.takeRaise_transit, List.length_eraseIdx_of_lt hlt]; omega
  · rw [h]; exact Nat.lt_of_le_of_lt (Nat.zero_le _) hk

/-- With fuel for every raise that waits, none made before the last advance is left (R174). -/
theorem State.takeStaleRaises_taken : ∀ (fuel : Nat) (s : State), s.transit.length ≤ fuel →
    ∀ r ∈ (State.takeStaleRaises fuel s).transit, r.tick = (State.takeStaleRaises fuel s).now
  | 0, s, h => by
    intro r hr
    unfold State.takeStaleRaises at hr
    rw [List.eq_nil_of_length_eq_zero (Nat.le_zero.1 h)] at hr
    cases hr
  | fuel + 1, s, h => by
    have hnext : ∀ k ∈ s.staleRaises, ∀ r ∈ (State.takeStaleRaises fuel (s.takeWaiting k)).transit,
        r.tick = (State.takeStaleRaises fuel (s.takeWaiting k)).now := fun k hk => by
      have hlt : k < s.transit.length := List.mem_range.1 (List.mem_filter.1 hk).1
      have := State.takeWaiting_fewer hlt
      exact State.takeStaleRaises_taken fuel _ (by omega)
    unfold State.takeStaleRaises
    split
    · next hnone =>
      intro r hr
      by_contra hne
      obtain ⟨k, hk, hget⟩ := List.mem_iff_getElem.1 hr
      have hmem : k ∈ s.staleRaises := by
        refine List.mem_filter.2 ⟨List.mem_range.2 hk, ?_⟩
        rw [List.getElem?_eq_getElem hk, hget]
        simpa using hne
      rw [hnone] at hmem; cases hmem
    · next k hk => exact hnext k (by rw [hk]; exact List.mem_singleton_self k)
    · next k j ks hk =>
      split
      · next hturn => exact hnext _ (by rw [hk]; exact hturn)
      · exact hnext k (by rw [hk]; exact List.mem_cons_self)

/-! ## Before the counter goes on -/

/-- Phases taken for one element after another: what each brings about holds at their end. -/
theorem foldl_brings {α : Type} {f : State → α → State} {Ready : State → Prop} {Done : α → State → Prop}
    (hready : ∀ s a, Ready s → Ready (f s a)) (hdone : ∀ s a, Ready s → Done a (f s a))
    (hkeep : ∀ s a b, Ready s → Done a s → Done a (f s b)) : ∀ (l : List α) (s : State), Ready s →
      Ready (l.foldl f s) ∧ ∀ a, a ∈ l ∨ Done a s → Done a (l.foldl f s)
  | [], s, h => ⟨h, fun a ha => ha.resolve_left List.not_mem_nil⟩
  | b :: l, s, h => by
    obtain ⟨hr, hd⟩ := foldl_brings hready hdone hkeep l (f s b) (hready s b h)
    refine ⟨hr, fun a ha => ?_⟩
    rcases ha with ha | ha
    · rcases List.mem_cons.1 ha with rfl | ha
      · exact hd a (.inr (hdone s a h))
      · exact hd a (.inl ha)
    · exact hd a (.inr (hkeep s a b h ha))

/-- All that the counter's present value brings has been taken. -/
structure State.Taken (s : State) : Prop where
  starting  : s.initializing = true → s.now.toNat < 10
  deadlines : ∀ x : Deadline, s.Tight x
  works     : ∀ w : Work, s.Recent w
  raises    : ∀ r ∈ s.transit, r.tick = s.now

theorem State.staleOnes_nil (s : State) : s.staleOnes = [] ↔ ∀ r ∈ s.transit, r.tick = s.now := by
  simp [State.staleOnes, List.filter_eq_nil_iff]

/-- A part between two phases of TICK. -/
structure State.Ticking (s : State) : Prop where
  clock : s.Clockwork Hand.empty
  calm  : s.resetDue = false

theorem State.takeDue_taken (h : s.Clockwork Hand.empty) (hdue : s.resetDue = false) : s.takeDue.Taken := by
  -- dispositions left from before the last advance
  have hsettle : ∀ (u : State) (p : Port), u.Ticking → (u.settleStale p).Ticking ∧ u.Onward (u.settleStale p) := fun u p k => by
    have hrun := Run.onward (State.settleStale_run (c := none) (ok := True) (.inl rfl) u p) k.clock
    exact ⟨⟨hrun.1, State.settleStale_due k.calm⟩, hrun.2⟩
  obtain ⟨h1, hworks⟩ := foldl_brings (Ready := State.Ticking) (Done := fun p u => u.Recent (.disposal p))
    (fun u p k => (hsettle u p k).1) (fun u p k => State.settleStale_recent k.calm)
    (fun u p q k hp => (hsettle u q k).2.recent hp) Port.all s ⟨h, hdue⟩
  -- raises and a copy left from before the last advance, and the initialization
  unfold State.takeDue
  dsimp only
  generalize Port.all.foldl State.settleStale s = v1 at h1 hworks ⊢
  have hraises := State.takeStaleRaises_taken v1.transit.length v1 le_rfl
  obtain ⟨h2, o2⟩ := Run.onward (State.takeStaleRaises_run (c := none) (ok := True) v1.transit.length v1) h1.clock
  generalize State.takeStaleRaises v1.transit.length v1 = v2 at hraises h2 o2 ⊢
  obtain ⟨h3, o3⟩ := Run.onward (State.endStaleCopy_leads (c := none) (ok := True) (by simp) v2 Hand.empty) h2
  have hcopy : v2.endStaleCopy.Recent .copy := State.endStaleCopy_recent
  dsimp only at h3 o3
  generalize v2.endStaleCopy = v3 at h3 o3 hcopy ⊢
  obtain ⟨h4, o4⟩ := Run.onward (State.takeInitEnd_leads (c := none) (ok := True) v3 Hand.empty) h3
  have hinit : v3.takeInitEnd.initializing = true → v3.takeInitEnd.now.toNat < 10 := State.takeInitEnd_over h3.timely
  dsimp only at h4 o4
  generalize v3.takeInitEnd = v4 at h4 o4 hinit ⊢
  -- the ports and the slots
  have hport : ∀ (u : State) (p : Port), u.Clockwork Hand.empty →
      (u.takePortTick p).Clockwork Hand.empty ∧ u.Onward (u.takePortTick p) :=
    fun u p => Run.onward (State.takePortTick_run (c := none) (ok := True) u p)
  obtain ⟨h5, hports⟩ := foldl_brings (Ready := fun u => u.Clockwork Hand.empty ∧ v4.Onward u)
    (Done := fun p u => u.Tight (.training p) ∧ u.Tight (.hold p))
    (fun u p k => ⟨(hport u p k.1).1, k.2.trans (hport u p k.1).2⟩) (fun u p k => State.takePortTick_tight k.1)
    (fun u p q k hp => ⟨(hport u q k.1).2.tight hp.1, (hport u q k.1).2.tight hp.2⟩) Port.all v4 ⟨h4, .refl _⟩
  generalize Port.all.foldl State.takePortTick v4 = v5 at h5 hports ⊢
  have hslot : ∀ (u : State) (n : SlotNo), u.Clockwork Hand.empty →
      (u.takeSlotTick n).Clockwork Hand.empty ∧ u.Onward (u.takeSlotTick n) :=
    fun u n => Run.onward (State.takeSlotTick_run (c := none) (ok := True) u n)
  obtain ⟨h6, hslots⟩ := foldl_brings (Ready := fun u => u.Clockwork Hand.empty ∧ v5.Onward u)
    (Done := fun n u => u.Tight (.slot n))
    (fun u p k => ⟨(hslot u p k.1).1, k.2.trans (hslot u p k.1).2⟩) (fun u p k => State.takeSlotTick_tight k.1)
    (fun u p q k hp => (hslot u q k.1).2.tight hp) (List.finRange 32) v5 ⟨h5.1, .refl _⟩
  generalize (List.finRange 32).foldl State.takeSlotTick v5 = v6 at h6 hslots ⊢
  -- the Management Agent and the Event Queue
  obtain ⟨h7, o7⟩ := Run.onward (State.takeLeaseDeadline_run (c := none) (ok := True) v6) h6.1
  obtain ⟨h8, o8⟩ := Run.onward (State.takeResetLimit_run (c := none) (ok := True) v6.takeLeaseDeadline) h7
  obtain ⟨h9, o9⟩ := Run.onward (State.takeRetransmit_run (c := none) (ok := True) v6.takeAgentTick) h8
  have o69 := (o7.trans o8).trans o9
  have o39 := (o4.trans (h5.2.trans h6.2)).trans o69
  have o49 := (h5.2.trans h6.2).trans o69
  have o19 := ((o2.trans o3).trans o39)
  have hall : ∀ p : Port, p ∈ Port.all := fun p => by match p with | 0 | 1 | 2 | 3 => simp [Port.all]
  refine ⟨fun hi => ?_, fun x => ?_, fun w => ?_, ?_⟩
  · exact o49.now ▸ hinit (o49.starting hi)
  · cases x with
    | training p => exact (h6.2.trans o69).tight (hports p (.inl (hall p))).1
    | hold p => exact (h6.2.trans o69).tight (hports p (.inl (hall p))).2
    | slot n => exact o69.tight (hslots n (.inl (List.mem_finRange n)))
    | lease => exact (o8.trans o9).tight (State.takeLeaseDeadline_tight h6.1)
    | limit => exact o9.tight (State.takeResetLimit_tight h7)
    | retransmit => exact State.takeRetransmit_tight h8
  · cases w with
    | disposal p => exact o19.recent (hworks p (.inl (hall p)))
    | copy => exact o39.recent hcopy
  · have hnil := (State.staleOnes_nil v2).2 hraises
    exact (State.staleOnes_nil _).1 (List.sublist_nil.1 (hnil ▸ (o3.trans o39).raises))

/-- A deadline that lies ahead does not lie behind after an advance (R78). -/
theorem not_behind_of_later {now d : Tick} (h : later now d) : 0 ≤ (d - (now + 1)).toInt := by
  have hsub : d - (now + 1) = d - now - 1 := by rw [← BitVec.sub_sub]
  unfold later at h
  rw [hsub]
  generalize d - now = k at h
  have hk := k.isLt
  rw [BitVec.toInt_eq_toNat_cond] at h ⊢
  rw [BitVec.toNat_sub]
  split at h
  · have h1 : (1 : Tick).toNat = 1 := rfl
    split <;> omega
  · omega

/-- What is taken before an advance is in time after it (R77, R78). -/
theorem State.Taken.advance (h : s.Taken) : s.advance.drawPace.Timely := by
  have hone : s.now + 1 - s.now = 1 := by rw [BitVec.add_comm]; exact BitVec.add_sub_cancel 1 s.now
  refine ⟨fun hi => ?_, fun x d hd => ?_, fun w b hb => ?_, fun r hr => ?_⟩
  · have hlt := h.starting hi
    show (s.now + 1).toNat ≤ 10
    rw [BitVec.toNat_add]
    exact (Nat.mod_le _ _).trans hlt
  · have hl : later s.now d := h.deadlines x d (by cases x <;> exact hd)
    exact not_behind_of_later hl
  · have hb' : b = s.now := h.works w b (by cases w <;> exact hb)
    show (s.now + 1 - b).toNat ≤ 1
    rw [hb', hone]; decide
  · show (s.now + 1 - r.tick).toNat ≤ 1
    rw [h.raises r hr, hone]; decide

theorem State.powerUp_timely (node : Node) (rest : List Instr) :
    ({ State.powerUp node with pending := rest } : State).Timely := by
  refine ⟨fun _ => Nat.zero_le _, fun x => ?_, fun w b hb => ?_, fun r hr => by cases hr⟩
  · cases x <;> intro d hd <;> simp [State.deadlineOf, State.powerUp, PortState.reset, Slot.reset, Agent.reset, Session.closed,
      EventQueue.resetDone] at hd
  · cases w <;> simp [State.beganAt, State.powerUp, RouteTable.reset] at hb

/-- Settles O60: a step leaves every deadline ahead of the counter because a primitive change sets none behind it, and TICK
takes what is due before the counter goes on. -/
theorem timelyLawIsKept : Obligations.TimelyLawIsKept := by
  unfold Obligations.TimelyLawIsKept
  rintro s t htimely hports hslots hsession ⟨-, -, hdue⟩ hnotices hs
  rw [State.timelyLaw_iff] at htimely ⊢
  have h : s.Clockwork Hand.empty := ⟨s.portLaw_iff.1 hports, hslots, hsession, s.noticeLaw_iff.1 hnotices, htimely⟩
  have hrest : ∀ rest, ({ s with pending := rest } : State).Clockwork Hand.empty := fun rest =>
    ⟨h.ports, h.slots, h.session, ⟨h.notices.list, h.notices.timer, h.notices.interval, h.notices.raises⟩,
      (State.Onward.of_same (s := s) (t := { s with pending := rest }) rfl rfl (fun _ => ⟨rfl, rfl⟩) (fun _ => rfl) rfl rfl rfl rfl rfl rfl).timely htimely⟩
  obtain ⟨hr, -⟩ | ⟨i, rest, -, ⟨node, rfl⟩ | ⟨u, -, hu, rfl⟩ | ⟨-, -, hr⟩⟩ := step_cases hs
  · exact (hr.onward h).1.timely
  · exact State.powerUp_timely node rest
  · have htaken : u.Taken := hu ▸ State.takeDue_taken (hrest rest) hdue
    exact htaken.advance
  · exact (hr.onward (hrest rest)).1.timely

end

end Sys2Proof.Machine
end

