-- ==== Sys2Proof/Proofs/KeptRoles.lean ====
section
/-! PROOF. O56: what may change NODE, the tick counter, the active bank's entries and the bank roles. -/

namespace Sys2Proof.Machine

section
variable {c : Option Instr} {ok : Prop} {s t u : State} {H K : Hand}

theorem State.SameBlocks.fixed (h : s.SameBlocks t) : t.node = s.node ∧ t.now = s.now := by
  obtain ⟨hn, -, hnow, -⟩ := h.tables
  exact ⟨hn, hnow⟩

theorem State.SameBlocks.route (h : s.SameBlocks t) : t.route = s.route := by
  obtain ⟨-, -, -, hr, -⟩ := h.tables
  exact hr

theorem State.forwardingCore_fixed (s : State) : s.forwardingCore.node = s.node ∧ s.forwardingCore.now = s.now ∧
    s.forwardingCore.route = s.route := by
  unfold State.forwardingCore
  dsimp only
  split <;> exact ⟨rfl, rfl, rfl⟩

/-- No primitive change moves the counter or touches NODE (R77). -/
theorem Move.fixed {x y : Hand × State} (m : Move c ok x y) : y.2.node = x.2.node ∧ y.2.now = x.2.now := by
  cases m
  case alike hs => exact ⟨hs.node, hs.now⟩
  case join => exact (State.joined_blocks _ _ _ _ _).fixed
  case release b => exact (State.release_frame _ b).blocks.fixed
  case addRef b _ => exact (State.addRef_frame _ b).blocks.fixed
  case pop hu => exact (State.pop_blocks hu).fixed
  case forwarding s _ _ _ =>
    obtain ⟨hn, hnow, -⟩ := s.forwardingCore_fixed
    exact ⟨hn, hnow⟩
  all_goals exact ⟨rfl, rfl⟩

/-- The bank `n` holds the entries `v` and is active, or is the other one while the copier runs, and the reset that may be
pending is a RESET FORWARDING. -/
structure State.Keeps (s : State) (n : BankName) (v : Vector RouteEntry 64) (commits : Prop) : Prop where
  entries : s.route.bank n = v
  role    : s.route.active = n ∨ (commits ∧ s.route.staging = .copying)
  scope   : ∀ r, s.agent.resetPending = some r → r.scope = .forwarding

variable {n : BankName} {v : Vector RouteEntry 64} {commits : Prop}

theorem State.Keeps.of_same (h : s.Keeps n v commits) (hr : t.route.bank n = s.route.bank n)
    (ha : t.route.active = s.route.active) (hs : t.route.staging = s.route.staging)
    (hp : t.agent.resetPending = s.agent.resetPending) : t.Keeps n v commits :=
  ⟨hr.trans h.entries, by rw [ha, hs]; exact h.role, by rw [hp]; exact h.scope⟩

/-- Writing the staging bank leaves the active one (R38). -/
theorem RouteTable.bank_setBank_other (r : RouteTable) (n : BankName) (w : Vector RouteEntry 64) :
    (r.setBank n.other w).bank n = r.bank n ∧ (r.setBank n.other w).active = r.active := by
  cases n <;> exact ⟨rfl, rfl⟩

theorem State.SameBlocks.keeps (h : s.SameBlocks t) (k : s.Keeps n v commits) : t.Keeps n v commits :=
  k.of_same (by rw [h.route]) (by rw [h.route]) (by rw [h.route]) (by rw [h.agent])

/-- The copier reads the active bank and writes the other (R55). -/
theorem RouteTable.copyNext_bank (r : RouteTable) : r.copyNext.bank r.active = r.bank r.active ∧ r.copyNext.active = r.active := by
  unfold RouteTable.copyNext
  split
  · exact ⟨rfl, rfl⟩
  · split
    · exact r.bank_setBank_other _ _
    · exact ⟨rfl, rfl⟩

theorem RouteTable.copyDone_bank (r : RouteTable) : r.copyDone.bank r.active = r.bank r.active ∧ r.copyDone.active = r.active := by
  unfold RouteTable.copyDone
  split
  · exact ⟨rfl, rfl⟩
  · exact r.bank_setBank_other _ _

theorem Move.keepsBank {x y : Hand × State} (m : Move c ok x y) (hc : c ≠ some .resetFull)
    (h : x.2.Keeps n v (c = some .commit)) : y.2.Keeps n v (c = some .commit) := by
  cases m
  case alike hs =>
    refine h.of_same ?_ hs.active hs.staging hs.resetPending
    cases n
    · exact hs.bankA
    · exact hs.bankB
  case join => exact (State.joined_blocks _ _ _ _ _).keeps h
  case release b => exact (State.release_frame _ b).blocks.keeps h
  case addRef b _ => exact (State.addRef_frame _ b).blocks.keeps h
  case pop hu => exact (State.pop_blocks hu).keeps h
  case stage s w hs hv =>
    have hactive : s.route.active = n := h.role.resolve_right fun k => hs k.2
    obtain ⟨hb, ha⟩ := s.route.bank_setBank_other s.route.active w
    exact ⟨by rw [← hactive] at h ⊢; exact hb.trans h.entries, .inl (ha.trans hactive), h.scope⟩
  case commit hc hs => exact ⟨h.entries, .inr ⟨hc, rfl⟩, h.scope⟩
  case startCopy => exact ⟨h.entries, h.role.imp_right fun k => ⟨k.1, rfl⟩, h.scope⟩
  case copyNext s hc =>
    have hactive : s.route.active = n := h.role.resolve_right fun k => hc k.1
    obtain ⟨hb, ha⟩ := s.route.copyNext_bank
    exact ⟨by rw [← hactive] at h ⊢; exact hb.trans h.entries, .inl (ha.trans hactive), h.scope⟩
  case copyDone s hc =>
    have hactive : s.route.active = n := h.role.resolve_right fun k => hc k.1
    obtain ⟨hb, ha⟩ := s.route.copyDone_bank
    exact ⟨by rw [← hactive] at h ⊢; exact hb.trans h.entries, .inl (ha.trans hactive), h.scope⟩
  case pend r _ hr =>
    refine ⟨h.entries, h.role, fun r' hr' => ?_⟩
    cases hr'
    cases hs : r.scope with
    | full => rw [hs] at hr; exact absurd hr hc
    | forwarding => rfl
  case full hr hs => rw [h.scope _ hr] at hs; cases hs
  case forwarding s _ _ _ =>
    obtain ⟨-, -, hroute⟩ := s.forwardingCore_fixed
    refine ⟨by rw [hroute]; exact h.entries, by rw [hroute]; exact h.role, fun r hr => ?_⟩
    rw [s.forwardingCore_agent] at hr
    cases hr
  all_goals exact ⟨h.entries, h.role, h.scope⟩

/-- Settles O56: no primitive change touches NODE or the counter, and only COMMIT's exchange and a RESET FULL reach the bank
that was active. -/
theorem bankRolesAndClockMoveByTheirOwnCommands : Obligations.BankRolesAndClockMoveByTheirOwnCommands := by
  unfold Obligations.BankRolesAndClockMoveByTheirOwnCommands
  intro i s t h hi
  have hcases : ∃ u, Run (some i) s.AtRest (Hand.empty, s) (Hand.empty, u) ∧ t.node = u.node ∧ (i ≠ .tick → t.now = u.now) ∧
      t.route = u.route := by
    cases hp : plainRow i with
    | true => exact ⟨t, exec_run hp h, rfl, fun _ => rfl, rfl⟩
    | false =>
      obtain rfl | ⟨node, rfl⟩ := plainRow_false hp
      · rw [exec_tick] at h
        have hrun : Run (some .tick) s.AtRest (Hand.empty, s) (Hand.empty, s.takeDue) := State.takeDue_run (.inr (.inl rfl)) s
        generalize s.takeDue = u at h hrun
        cases h
        exact ⟨u, hrun, rfl, fun hne => absurd rfl hne, rfl⟩
      · exact absurd rfl (hi node)
  obtain ⟨u, hr, hnode, hnow, hroute⟩ := hcases
  have hfixed := hr.keeps (P := fun x => x.2.node = s.node ∧ x.2.now = s.now)
    (fun m k => ⟨m.fixed.1.trans k.1, m.fixed.2.trans k.2⟩) ⟨rfl, rfl⟩
  refine ⟨hnode.trans hfixed.1, fun hne => (hnow hne).trans hfixed.2, fun hfull hscope => ?_⟩
  have hk := hr.keeps (P := fun x => x.2.Keeps s.route.active (s.route.bank s.route.active) (some i = some .commit))
    (fun m k => m.keepsBank (by simpa using hfull) k) ⟨rfl, .inl rfl, hscope⟩
  rw [hroute]
  exact ⟨hk.entries, fun hne => hk.role.resolve_right fun k => hne (Option.some.inj k.1)⟩

end

end Sys2Proof.Machine
end

