-- ==== Sys2Proof/Proofs/Resets.lean ====
section
/-! PROOF. O50, O1, O2 and O3: what power-up leaves, which meets every law of the blocks, the end of the initialization, and
which command a step takes. -/

namespace Sys2Proof.Machine

theorem State.powerUp_port (node : Node) (p : Port) : (State.powerUp node).ports[p] = .reset := by
  simp [State.powerUp]

/-- Settles O50: the reset state, law by law. -/
theorem resetMeetsEveryLaw : Obligations.ResetMeetsEveryLaw := by
  unfold Obligations.ResetMeetsEveryLaw
  have hbooks : State.reset.Books Hand.empty := State.powerUp_books Config.resetNode []
  obtain ⟨hcount, hwriter⟩ := (State.accounts_iff hbooks.requests.2).2 hbooks.accounts
  obtain ⟨hbank, hrecord, hcredit⟩ := State.resetTables (t := State.reset) rfl rfl rfl
  exact ⟨hbooks.store, hcount, hwriter, (State.portLaw_iff _).2 hbooks.ports, State.fullStock rfl rfl, (State.bankLaw_iff _).2 hbank, hrecord, hcredit,
    hbooks.slots, State.closedSession_law rfl (show (1 : Byte) ≠ 0 by decide), ⟨Nat.zero_le _, rfl, rfl⟩,
    (State.noticeLaw_iff _).2 (State.resetNotices rfl rfl), rfl,
    fun p d hd => by simp [State.reset, State.powerUp] at hd, (State.timelyLaw_iff _).2 (State.powerUp_timely Config.resetNode [])⟩

/-- Settles O3: the initialization ends where its tick is reached. -/
theorem portInitEndBeginsDown : Obligations.PortInitEndBeginsDown := by
  unfold Obligations.PortInitEndBeginsDown
  intro s hi hr
  show Host.Outcome.next s.takeInitEnd = _
  unfold State.takeInitEnd
  rw [hi, hr]
  rfl

/-- Settles O1: the queue's front is taken, and with nothing under way nothing happens. -/
theorem stepTakesOldestCommand : Obligations.StepTakesOldestCommand := by
  unfold Obligations.StepTakesOldestCommand
  refine ⟨fun c rest s h => by unfold step; rw [h], fun s hq hd ht hc => ?_⟩
  unfold step
  rw [hq]
  exact congrArg Host.Outcome.next (State.idle_ended hd ht hc)

/-- Settles O2: every block at its power-up values, and the queue of commands as it was. -/
theorem rstnReleaseGivesPowerUpValues : Obligations.RstnReleaseGivesPowerUpValues := by
  unfold Obligations.RstnReleaseGivesPowerUpValues
  intro node s
  have hport : ∀ p : Port, ({ State.powerUp node with pending := s.pending } : State).ports[p] = .reset :=
    fun p => State.powerUp_port node p
  refine ⟨_, exec_rstnRelease node s, rfl, rfl, rfl, rfl, fun p => by simp [State.powerUp], rfl, rfl, fun p => ?_,
    fun b => by simp [State.powerUp, Store.reset], rfl, rfl, rfl, rfl, rfl, rfl, rfl,
    fun i => by simp [State.powerUp, RouteTable.reset], fun i => ?_, fun n => by simp [State.powerUp, Bucket.reset],
    fun n => by simp [State.powerUp, Slot.reset, SlotConfig.reset], rfl, rfl, rfl, rfl, rfl, ?_, rfl⟩
  · rw [hport]
    exact ⟨rfl, rfl, rfl, rfl, rfl, rfl, rfl, rfl, fun c => by simp [PortState.reset, PortConfig.reset], rfl, rfl, rfl, rfl,
      by simp [PortState.reset, PortCounters.list, PortCounters.zero]⟩
  · exact ⟨by simp [State.powerUp, ActionTable.reset], by simp [State.powerUp, ActionTable.reset, ActionRecord.reset]⟩
  · simp [State.deviceCounters, State.powerUp, Store.reset, RouteTable.reset, ActionTable.reset, Agent.reset]

end Sys2Proof.Machine
end

