-- ==== Sys2Proof/Proofs/Reception.lean ====
section
/-! PROOF. Symbols on a receive pair: link supervision outside UP (O4), and the frames of a port in UP (O7 to O10, O12). -/

namespace Sys2Proof.Machine

section
variable {s t u : State} {p : Port} {b : BufNo} {n : Nat}

/-! ## Outside UP (R1, R3, R4, R7) -/

theorem State.takeValid_down (hi : s.initializing = false) (hl : s.ports[p].link = .down) (f : State → State) :
    s.takeValid p f = s.onPort p (·.countValid s.now) := by
  simp only [State.takeValid, hi, hl]; rfl

theorem State.takeValid_training (hi : s.initializing = false) (hl : s.ports[p].link = .training) (f : State → State) :
    s.takeValid p f = s.onPort p fun P => { P with quiet := false } := by
  simp only [State.takeValid, hi, hl]; rfl

theorem State.takeValid_disabled (hl : s.ports[p].link = .disabled) (f : State → State) : s.takeValid p f = s := by
  simp only [State.takeValid, hl, ite_self]

/-- Outside UP a command that carries a valid symbol is its effect on link supervision, which brings no reset about. -/
theorem exec_validSymbol_outside {c : Instr} (hc : isValidSymbol c p) (hl : s.ports[p].link ≠ .up) (hd : t.resetDue = false)
    (ht : ∀ f, s.takeValid p f = t) : exec c s = .next t := by
  obtain ⟨f, hf⟩ := exec_validSymbol hc
  rcases hf s (.inr hl) with h | h <;> rw [h, ht]
  rw [State.finish_of_settled _ hd]

theorem PortState.countValid_more {P : PortState} (h : P.validRun < 15) (now : Tick) :
    P.countValid now = { P with validRun := P.validRun + 1, quiet := false } := by
  rw [PortState.countValid, if_neg (by omega)]

theorem PortState.countValid_last {P : PortState} (h : P.validRun = 15) (now : Tick) :
    P.countValid now =
      { P with link := .training, trainingDeadline := some (now + 20), validRun := 0, quiet := false } := by
  rw [PortState.countValid, if_pos (by omega)]

/-- A DISABLED port evaluates nothing (R7). -/
theorem exec_symbol_disabled {c : Instr} (hc : isValidSymbol c p ∨ c = .rxInvalidSymbol p ∨ c = .signalTimeout p)
    (hl : s.ports[p].link = .disabled) (hd : s.resetDue = false) : exec c s = .next s := by
  obtain hc | rfl | rfl := hc
  · exact exec_validSymbol_outside hc (by rw [hl]; decide) hd fun f => State.takeValid_disabled hl f
  · show execRxInvalidSymbol p s = _
    simp only [execRxInvalidSymbol, hl, ite_self]
  · show execSignalTimeout p s = _
    simp only [execSignalTimeout, hl, ite_self]

/-- Settles O4: a valid symbol outside UP is `State.takeValid` by the link state, and the two others by theirs. -/
theorem symbolsOutsideUpDriveTraining : Obligations.SymbolsOutsideUpDriveTraining := by
  unfold Obligations.SymbolsOutsideUpDriveTraining
  refine ⟨fun c p s hc hi hd => ⟨fun hl hv => ?_, fun hl hv => ?_, fun hl => ?_⟩, fun p s hi => ⟨fun hl => ?_, fun hl => ?_⟩,
    fun c p s hc hl hd => exec_symbol_disabled hc hl hd⟩
  · refine exec_validSymbol_outside hc (by rw [hl]; decide) (by exact hd) fun f => (State.takeValid_down hi hl f).trans ?_
    exact State.onPort_congr (PortState.countValid_more hv _)
  · refine exec_validSymbol_outside hc (by rw [hl]; decide) (by exact hd) fun f => (State.takeValid_down hi hl f).trans ?_
    exact State.onPort_congr (PortState.countValid_last hv _)
  · exact exec_validSymbol_outside hc (by rw [hl]; decide) (by exact hd) (State.takeValid_training hi hl)
  · constructor
    · show execRxInvalidSymbol p s = _
      simp only [execRxInvalidSymbol, hi, hl]; rfl
    · show execSignalTimeout p s = _
      simp only [execSignalTimeout, hi, hl]; rfl
  · constructor
    · show execRxInvalidSymbol p s = _
      simp only [execRxInvalidSymbol, hi, hl]; rfl
    · show execSignalTimeout p s = _
      simp only [execSignalTimeout, hi, hl]; rfl

/-! ## A reception that ends (R11, R14) -/

/-- An ignored frame's end: RX-LENGTH where it was cut off, no count otherwise (R11, R14). -/
theorem State.abandonRx_ignoring {cause : IgnoreCause} (h : s.ports[p].rx = .ignoring cause) :
    s.abandonRx p = s.onPort p fun P => { P with
      rx := .idle, ctr := { P.ctr with rxLength := if cause = .cutOff then bump P.ctr.rxLength else P.ctr.rxLength } } := by
  cases cause <;> simp only [State.abandonRx, h] <;> rfl

/-- A frame in RECEIVING given up: RX-ABORTED, and the buffer's one reference ends (R14). -/
theorem State.abandonRx_receiving (h : s.ports[p].rx = .receiving b n) :
    s.abandonRx p = (s.onPort p fun P => { P.tally .rxAborted with rx := .idle }).release b := by
  simp only [State.abandonRx, h]

/-- The release of a received frame's one reference, once its port has taken the symbol, pushes the buffer (R25). -/
theorem State.release_onPort (hc : s.store.count[b] = 1) (p : Port) (f : PortState → PortState)
    (hl : ∀ P, (f P).link = P.link)
    (ha : ∀ (P : PortState) (c : List FlowSymbol),
      f { P with asked := P.asked ++ c } = { f P with asked := (f P).asked ++ c }) :
    (s.onPort p f).release b = (s.pushed b).onPort p f := by
  have hc' : (s.onPort p f).store.count[b] = 1 := hc
  rw [State.release_last hc', State.pushed_onPort s p b f hl ha]

theorem State.Fills.abort (h : s.Fills p b n) : (s.onPort p PortState.heard).abandonRx p = (s.pushed b).onPort p fun P =>
    { P.heard with rx := .idle, ctr := { P.ctr with rxAborted := bump P.ctr.rxAborted } } := by
  have hrx : (s.onPort p PortState.heard).ports[p].rx = .receiving b n := (s.heard_rx p).trans h.filling
  rw [State.abandonRx_receiving hrx, State.onPort_onPort]
  exact State.release_onPort h.own p _ (fun _ => rfl) (fun _ _ => rfl)

theorem State.codeError_receiving (h : s.ports[p].rx = .receiving b n) :
    s.codeError p = (s.onPort p fun P => { P.tally .rxCode with rx := .ignoring .code }).release b := by
  simp only [State.codeError, h]

/-! ## END (R12) -/

/-- END on a listening port whose earlier disposition has ended (R45). -/
theorem exec_rxEnd_up (h : s.Listens p) (hd : s.disposing[p] = none) (pace : Pace) :
    exec (.rxEnd { port := p, pace := pace }) s = .next ((s.onPort p PortState.heard).endInUp p pace).finish := by
  show Host.Outcome.next ((s.beforeEnd p).takeValid p (·.endInUp p pace)).finish = _
  rw [State.beforeEnd_ended hd, State.takeValid_up h]

theorem State.lengthOk_iff (s : State) (b : BufNo) (n : Nat) : s.lengthOk b n = true ↔ s.LengthGood b n := by
  simp only [State.lengthOk, State.LengthGood, Bool.and_eq_true, decide_eq_true_iff, and_assoc]

theorem State.checkOk_iff (s : State) (b : BufNo) : s.checkOk b = true ↔ s.CheckGood b := by
  simp only [State.checkOk, State.CheckGood, decide_eq_true_iff]; rfl

/-- A frame refused at END: the count of the check it failed, the buffer pushed, the receive state IDLE (R12). -/
theorem State.Ends.refused (h : s.Ends p b n) (k : PortCounter) :
    (((s.onPort p PortState.heard).onPort p fun P => { P.tally k with rx := .idle }).release b).finish =
      (s.pushed b).onPort p fun P => { P.heard.tally k with rx := .idle } := by
  rw [State.onPort_onPort]
  exact State.finish_release_onPort h.settled h.own p _ (fun _ => rfl) (fun _ _ => rfl)

/-- Settles O10: END of a frame that fails a check of R12 counts it and pushes the buffer. -/
theorem endRefusesBadFrame : Obligations.EndRefusesBadFrame := by
  unfold Obligations.EndRefusesBadFrame
  intro p pace s b n h
  have hrx : (s.onPort p PortState.heard).ports[p].rx = .receiving b n := (s.heard_rx p).trans h.filling
  have hend : (s.onPort p PortState.heard).endInUp p pace = (s.onPort p PortState.heard).endOfFrame p b n pace := by
    simp only [State.endInUp, hrx]
  rw [exec_rxEnd_up h.toListens h.disposed, hend]
  refine ⟨fun hl => ?_, fun hl hc => ?_⟩
  · have hno : (s.onPort p PortState.heard).lengthOk b n = false := Bool.eq_false_iff.2 (mt (s.lengthOk_iff b n).1 hl)
    rw [State.endOfFrame, if_pos hno]
    exact congrArg _ (h.refused .rxLength)
  · have hyes : (s.onPort p PortState.heard).lengthOk b n = true := (s.lengthOk_iff b n).2 hl
    have hno : (s.onPort p PortState.heard).checkOk b = false := Bool.eq_false_iff.2 (mt (s.checkOk_iff b).1 hc)
    rw [State.endOfFrame, hyes, hno]
    exact congrArg _ (h.refused .rxCheck)

/-- END or ABORT of an ignored frame (R11, R14). -/
theorem exec_endOfIgnored {c : Instr} {cause : IgnoreCause}
    (hc : c = .rxAbort p ∨ (s.disposing[p] = none ∧ ∃ pace, c = .rxEnd { port := p, pace := pace })) (h : s.Listens p)
    (hrx : s.ports[p].rx = .ignoring cause) : exec c s = .next (s.onPort p fun P => { P.heard with
      rx := .idle, ctr := { P.ctr with rxLength := if cause = .cutOff then bump P.ctr.rxLength else P.ctr.rxLength } }) := by
  have hrx' : (s.onPort p PortState.heard).ports[p].rx = .ignoring cause := (s.heard_rx p).trans hrx
  have habandon : (s.onPort p PortState.heard).abandonRx p = s.onPort p fun P => { P.heard with
      rx := .idle, ctr := { P.ctr with rxLength := if cause = .cutOff then bump P.ctr.rxLength else P.ctr.rxLength } } := by
    rw [State.abandonRx_ignoring hrx', State.onPort_onPort]; rfl
  obtain rfl | ⟨hd, pace, rfl⟩ := hc
  · show Host.Outcome.next (s.takeValid p (·.abandonRx p)) = _
    rw [State.takeValid_up h, habandon]
  · have hend : (s.onPort p PortState.heard).endInUp p pace = (s.onPort p PortState.heard).abandonRx p := by
      simp only [State.endInUp, hrx']
    rw [exec_rxEnd_up h hd, hend, habandon, State.finish_of_settled _ (by exact h.settled)]

/-- An invalid symbol inside a frame, short of the fourth in a row (R5, R14). -/
theorem State.Fills.invalid (h : s.Fills p b n) (hrun : s.ports[p].invalidRun < 3) :
    s.invalidInUp p = (s.pushed b).onPort p fun P => { P with
      rx := .ignoring .code, ctr := { P.ctr with rxCode := bump P.ctr.rxCode }, invalidRun := P.invalidRun + 1 } := by
  have hcode := (State.codeError_receiving h.filling).trans (State.release_onPort h.own p _ (fun _ => rfl) (fun _ _ => rfl))
  unfold State.invalidInUp
  rw [if_neg (by omega), hcode, State.onPort_onPort]
  rfl

/-- Settles O12: each ends a frame by the receive state. -/
theorem abortsAndCodeErrorsEndFrames : Obligations.AbortsAndCodeErrorsEndFrames := by
  unfold Obligations.AbortsAndCodeErrorsEndFrames
  refine ⟨fun p s b n h => ⟨?abort, ?idle, fun hrun => ?invalid⟩, fun c p s hc h => ⟨fun hrx => ?_, fun cause hne hrx => ?_⟩⟩
  case abort =>
    show Host.Outcome.next (s.takeValid p (·.abandonRx p)) = _
    rw [State.takeValid_up h.toListens, h.abort]
  case idle =>
    show Host.Outcome.next (s.takeValid p (·.codeError p)) = _
    have hrx : (s.onPort p PortState.heard).ports[p].rx = .receiving b n := (s.heard_rx p).trans h.filling
    rw [State.takeValid_up h.toListens, State.codeError_receiving hrx, State.onPort_onPort]
    exact congrArg _ (State.release_onPort h.own p _ (fun _ => rfl) (fun _ _ => rfl))
  case invalid =>
    show execRxInvalidSymbol p s = _
    simp only [execRxInvalidSymbol, h.started, h.up, h.invalid hrun]
    exact congrArg Host.Outcome.next (State.finish_of_settled _ (by simpa using h.settled))
  · exact exec_endOfIgnored hc h hrx
  · have hx := exec_endOfIgnored hc h hrx
    simp only [if_neg hne] at hx
    exact hx

/-! ## START (R9, R26, R31, R32) -/

/-- The part with the top buffer of the free stack taken off with count 1 (R26). -/
def State.tookTop (s : State) (b : BufNo) (rest : List BufNo) : State :=
  { s with store := { s.store with count := vset s.store.count b 1, free := rest } }

theorem State.takeTop_top {rest : List BufNo} (h : s.store.free = b :: rest) : s.takeTop = some (b, s.tookTop b rest) := by
  simp only [State.takeTop, h]; rfl

/-- The pop of a port receiver, its notices apart (R26). -/
theorem State.pop_top {rest : List BufNo} (h : s.store.free = b :: rest) :
    s.pop = some (b, (s.tookTop b rest).episodeAfterPop fun k d u => u.raise k 0 d) := by
  simp only [State.pop, State.takeTop_top h]; rfl

theorem State.beginFrame_top {rest : List BufNo} (h : s.store.free = b :: rest)
    (h8 : ¬(rest.length = 8 ∧ s.store.episode = .none)) (h0 : ¬(rest.length = 0 ∧ s.store.episode = .low false)) :
    s.beginFrame p = (s.tookTop b rest).onPort p fun P => { P with rx := .receiving b 0 } := by
  simp only [State.beginFrame, State.pop_top h]
  rw [State.episodeAfterPop_quiet (s := s.tookTop b rest) h8 h0]

theorem State.beginFrame_empty (h : s.store.free = []) :
    s.beginFrame p = s.onPort p fun P => { P.tally .rxNobuf with rx := .ignoring .nobuf } := by
  simp only [State.beginFrame, State.pop, State.takeTop, h]; rfl

theorem exec_rxStart_up (h : s.Listens p) :
    exec (.rxStart p) s = .next ((s.onPort p PortState.heard).startInUp p).finish := by
  show Host.Outcome.next (s.takeValid p (·.startInUp p)).finish = _
  rw [State.takeValid_up h]

/-- START on a listening port that takes a buffer without an episode's notice. -/
theorem exec_rxStart_top {rest : List BufNo} {f : PortState → PortState} (h : s.Listens p) (hu : u.resetDue = false)
    (ha : (s.onPort p PortState.heard).abandonRx p = u.onPort p f) (hfree : u.store.free = b :: rest)
    (h8 : ¬(rest.length = 8 ∧ u.store.episode = .none)) (h0 : ¬(rest.length = 0 ∧ u.store.episode = .low false)) :
    exec (.rxStart p) s = .next ((u.tookTop b rest).onPort p fun P => { f P with rx := .receiving b 0 }) := by
  have hb : (u.onPort p f).beginFrame p = ((u.onPort p f).tookTop b rest).onPort p fun P => { P with rx := .receiving b 0 } :=
    State.beginFrame_top hfree h8 h0
  have hcomm : (u.onPort p f).tookTop b rest = (u.tookTop b rest).onPort p f := rfl
  rw [exec_rxStart_up h, State.startInUp, ha, hb, hcomm, State.onPort_onPort, State.finish_of_settled _ (by exact hu)]

/-- START on a listening port that finds no buffer (R9). -/
theorem exec_rxStart_empty {f : PortState → PortState} (h : s.Listens p) (hu : u.resetDue = false)
    (ha : (s.onPort p PortState.heard).abandonRx p = u.onPort p f) (hfree : u.store.free = []) :
    exec (.rxStart p) s = .next (u.onPort p fun P => { (f P).tally .rxNobuf with rx := .ignoring .nobuf }) := by
  have hb : (u.onPort p f).beginFrame p = (u.onPort p f).onPort p fun P => { P.tally .rxNobuf with rx := .ignoring .nobuf } :=
    State.beginFrame_empty hfree
  rw [exec_rxStart_up h, State.startInUp, ha, hb, State.onPort_onPort, State.finish_of_settled _ (by exact hu)]

theorem State.Listens.abandon_idle (hrx : s.ports[p].rx = .idle) :
    (s.onPort p PortState.heard).abandonRx p = s.onPort p PortState.heard := by
  simp only [State.abandonRx, (s.heard_rx p).trans hrx]

theorem State.Listens.abandon_ignoring {cause : IgnoreCause} (hrx : s.ports[p].rx = .ignoring cause) :
    (s.onPort p PortState.heard).abandonRx p = s.onPort p fun P => { P.heard with
      rx := .idle, ctr := { P.ctr with rxLength := if cause = .cutOff then bump P.ctr.rxLength else P.ctr.rxLength } } := by
  rw [State.abandonRx_ignoring ((s.heard_rx p).trans hrx), State.onPort_onPort]; rfl

/-- The free stack, and the marks of an episode, once a buffer is pushed (R25, R33). -/
theorem State.pushed_marks (s : State) (b : BufNo) : (s.pushed b).store.free = b :: s.store.free ∧
    (s.pushed b).store.count = vset s.store.count b 0 ∧
    ((s.pushed b).store.episode = s.store.episode ∨ (s.store.free.length + 1 = 24 ∧ (s.pushed b).store.episode = .none)) := by
  unfold State.pushed
  dsimp only
  split
  · next h => exact ⟨rfl, rfl, .inr ⟨h.1, rfl⟩⟩
  · exact ⟨rfl, rfl, .inl rfl⟩

/-- Settles O7: START ends what the port was receiving and then takes the top buffer, or finds none. -/
theorem startTakesTheTopBuffer : Obligations.StartTakesTheTopBuffer := by
  unfold Obligations.StartTakesTheTopBuffer
  refine fun p s h => ⟨fun b rest hrx hfree h8 h0 => ?_, fun hrx hfree => ?_, fun b n hF h8 h0 => ?_,
    fun cause hrx => ⟨fun b rest hfree h8 h0 => ?_, fun hfree => ?_⟩⟩
  · exact exec_rxStart_top h h.settled (State.Listens.abandon_idle hrx) hfree h8 h0
  · exact exec_rxStart_empty h h.settled (State.Listens.abandon_idle hrx) hfree
  · obtain ⟨hfree, hcount, hep⟩ := s.pushed_marks b
    have h8' : ¬(s.store.free.length = 8 ∧ (s.pushed b).store.episode = .none) := by
      rintro ⟨hl, he⟩
      rcases hep with hep | ⟨hep, -⟩
      · exact h8 ⟨hl, hep ▸ he⟩
      · omega
    have h0' : ¬(s.store.free.length = 0 ∧ (s.pushed b).store.episode = .low false) := by
      rintro ⟨hl, he⟩
      rcases hep with hep | ⟨hep, -⟩
      · exact h0 ⟨hl, hep ▸ he⟩
      · omega
    rw [exec_rxStart_top h (by simpa using h.settled) hF.abort hfree h8' h0']
    have hstore : (s.pushed b).tookTop b s.store.free =
        { s.pushed b with store := { (s.pushed b).store with count := s.store.count, free := s.store.free } } := by
      have hc : vset (s.pushed b).store.count b 1 = s.store.count := by
        have hown : s.store.count[b.val] = 1 := hF.own
        rw [hcount, vset_vset, ← hown, vset_get_same]
      unfold State.tookTop
      rw [hc]
    rw [hstore]
  · exact exec_rxStart_top h h.settled (State.Listens.abandon_ignoring hrx) hfree h8 h0
  · exact exec_rxStart_empty h h.settled (State.Listens.abandon_ignoring hrx) hfree

/-! ## A pop that begins an episode, or empties the stack (R31, R32) -/

/-- The end of START once its pop has raised a notice, where no delivery can start and the list has room. -/
theorem State.raise_onPort_finish {kind : NoticeKind} {subject : Byte} {detail : BitVec 32} (hd : u.resetDue = false)
    (hu : u.Undelivered) (hr : u.NoticeRoom) (f : PortState → PortState) :
    ((u.raise kind subject detail).onPort p f).finish = (u.raised kind subject detail).onPort p f := by
  rw [State.raise_room u kind subject detail hu hr, State.finish_of_settled]
  unfold State.raised
  split <;> exact hd

/-- `u` stands at the tick of `s` with its Event Queue, its waiting raises and its pace of raises. -/
structure State.SameRaising (s u : State) : Prop where
  now        : u.now = s.now
  raisesWait : u.raisesWait = s.raisesWait
  events     : u.events = s.events
  transit    : u.transit = s.transit

/-- What a raise comes to hangs on the Event Queue alone (R174). -/
theorem State.raised_eq (h : s.SameRaising u) (kind : NoticeKind) (subject : Byte) (detail : BitVec 32) :
    u.raised kind subject detail = { u with
      events := (s.raised kind subject detail).events, transit := (s.raised kind subject detail).transit } := by
  unfold State.raised
  simp only [h.now, h.raisesWait, h.events, h.transit]
  split
  · simp only [← h.events]
  · simp only [← h.transit]

/-- A raise changes the Event Queue and the waiting raises alone. -/
theorem State.raised_rest (s : State) (kind : NoticeKind) (subject : Byte) (detail : BitVec 32) :
    s.raised kind subject detail = { s with
      events := (s.raised kind subject detail).events, transit := (s.raised kind subject detail).transit } :=
  State.raised_eq ⟨rfl, rfl, rfl, rfl⟩ _ _ _

section
variable (s : State) (kind : NoticeKind) (subject : Byte) (detail : BitVec 32)

@[simp] theorem State.raised_node : (s.raised kind subject detail).node = s.node := by rw [State.raised_rest]
@[simp] theorem State.raised_initializing : (s.raised kind subject detail).initializing = s.initializing := by rw [State.raised_rest]
@[simp] theorem State.raised_now : (s.raised kind subject detail).now = s.now := by rw [State.raised_rest]
@[simp] theorem State.raised_ports : (s.raised kind subject detail).ports = s.ports := by rw [State.raised_rest]
@[simp] theorem State.raised_store : (s.raised kind subject detail).store = s.store := by rw [State.raised_rest]
@[simp] theorem State.raised_route : (s.raised kind subject detail).route = s.route := by rw [State.raised_rest]
@[simp] theorem State.raised_action : (s.raised kind subject detail).action = s.action := by rw [State.raised_rest]
@[simp] theorem State.raised_disposing : (s.raised kind subject detail).disposing = s.disposing := by rw [State.raised_rest]
@[simp] theorem State.raised_buckets : (s.raised kind subject detail).buckets = s.buckets := by rw [State.raised_rest]
@[simp] theorem State.raised_slots : (s.raised kind subject detail).slots = s.slots := by rw [State.raised_rest]
@[simp] theorem State.raised_agent : (s.raised kind subject detail).agent = s.agent := by rw [State.raised_rest]
@[simp] theorem State.raised_raisesWait : (s.raised kind subject detail).raisesWait = s.raisesWait := by rw [State.raised_rest]
@[simp] theorem State.raised_resetDue : (s.raised kind subject detail).resetDue = s.resetDue := by rw [State.raised_rest]
@[simp] theorem State.raised_pending : (s.raised kind subject detail).pending = s.pending := by rw [State.raised_rest]

end

/-- Settles O8: what the pop raises is the notice of its mark. -/
theorem popAtEightBeginsEpisode : Obligations.PopAtEightBeginsEpisode := by
  unfold Obligations.PopAtEightBeginsEpisode
  intro p s b rest h hrx hfree hu hr
  have hexec : exec (.rxStart p) s = .next ((((s.onPort p PortState.heard).tookTop b rest).episodeAfterPop
      fun k d u => u.raise k 0 d).onPort p fun P => { P with rx := .receiving b 0 }).finish := by
    rw [exec_rxStart_up h, State.startInUp, State.Listens.abandon_idle hrx]
    have hpop : (s.onPort p PortState.heard).pop = _ := State.pop_top (s := s.onPort p PortState.heard) hfree
    simp only [State.beginFrame, hpop]
  rw [hexec]
  refine ⟨fun h8 he => ?low, fun h0 he => ?empty⟩
  case low =>
    have hlow : ((s.onPort p PortState.heard).tookTop b rest).store.depth = 8 ∧
        ((s.onPort p PortState.heard).tookTop b rest).store.episode = .none := ⟨h8, he⟩
    rw [State.episodeAfterPop, if_pos hlow, State.raise_onPort_finish (by exact h.settled) (by exact hu) (by exact hr)]
    rw [State.raised_eq (s := s) ?same]
    case same => exact ⟨rfl, rfl, rfl, rfl⟩
    have hup : s.ports[p.val].link = .up := h.up
    simp [State.onPort, State.tookTop, vmap_vset, hup, PortState.heard]
  case empty =>
    subst h0
    have hlow : ¬(((s.onPort p PortState.heard).tookTop b []).store.depth = 8 ∧
        ((s.onPort p PortState.heard).tookTop b []).store.episode = .none) := fun k => absurd k.1 (Nat.zero_ne_add_one 7)
    have hempty : ((s.onPort p PortState.heard).tookTop b []).store.depth = 0 ∧
        ((s.onPort p PortState.heard).tookTop b []).store.episode = .low false := ⟨rfl, he⟩
    rw [State.episodeAfterPop, if_neg hlow, if_pos hempty,
      State.raise_onPort_finish (by exact h.settled) (by exact hu) (by exact hr)]
    rw [State.raised_eq (s := s) ?same]
    case same => exact ⟨rfl, rfl, rfl, rfl⟩
    simp [State.onPort, State.tookTop, PortState.heard]

/-! ## Data bytes (R10, R11) -/

theorem exec_rxDataByte_up (h : s.Listens p) (v : Byte) :
    exec (.rxDataByte p v) s = .next ((s.onPort p PortState.heard).dataInUp p v) := by
  show Host.Outcome.next (s.takeValid p (·.dataInUp p v)) = _
  rw [State.takeValid_up h]

/-- A byte short of the 72nd is stored, and the second is followed by the Label comparison (R10, R11). -/
theorem State.dataInUp_short (h : s.ports[p].rx = .receiving b n) (hn : n < 71) (v : Byte) :
    s.dataInUp p v = if n = 1 then (s.storeByte p b n v).labelCheck p b else s.storeByte p b n v := by
  simp only [State.dataInUp, h, if_pos hn]

/-- The 72nd byte ends the reception (R11). -/
theorem State.dataInUp_cutOff (h : s.ports[p].rx = .receiving b 71) (v : Byte) :
    s.dataInUp p v = (s.onPort p fun P => { P with rx := .ignoring .cutOff }).release b := by
  simp only [State.dataInUp, h, if_neg (Nat.lt_irrefl 71)]

theorem State.labelCheck_passes (h : (s.headerAt b).label = ownLabel s.node ∨ 4 ≤ s.store.depth) :
    s.labelCheck p b = s := by
  rw [State.labelCheck, if_neg]
  rintro ⟨hl, hd⟩
  rcases h with h | h
  · exact hl h
  · omega

theorem State.labelCheck_abandons (hl : (s.headerAt b).label ≠ ownLabel s.node) (hd : s.store.depth < 4) :
    s.labelCheck p b = (s.onPort p fun P => { P.tally .rxNobuf with rx := .ignoring .reserve }).release b := by
  rw [State.labelCheck, if_pos ⟨hl, hd⟩]

/-- The part with one data byte heard and stored in the buffer that port `p` fills (R11). -/
def State.heardByte (s : State) (p : Port) (b : BufNo) (n : Nat) (v : Byte) : State :=
  (s.onPort p PortState.heard).storeByte p b n v

theorem State.heardByte_eq (s : State) (p : Port) (b : BufNo) (n : Nat) (v : Byte) :
    s.heardByte p b n v = { s.onPort p fun P => { P.heard with rx := .receiving b (n + 1) } with
      store := { s.store with mem := (s.heardByte p b n v).store.mem } } := by
  simp [State.heardByte, State.storeByte, State.onPort, State.putBytes]

/-- The byte stored is the byte read, and every other stands (R23). -/
theorem State.heardByte_byteAt (hm : s.MemoryLaw) (p : Port) (b : BufNo) (n : Nat) (v : Byte) :
    (s.heardByte p b n v).byteAt b n = v :=
  Memory.read_write_same _ _ hm

theorem State.heardByte_other (s : State) (p : Port) (b : BufNo) (n : Nat) (v : Byte) {a : Nat} (h : a ≠ storeAddr b n) :
    Memory.read (s.heardByte p b n v).store.mem a = Memory.read s.store.mem a :=
  Memory.read_write_ne v h _

/-- The Label of a frame whose second byte has just come (R183). -/
theorem State.heardByte_label (hm : s.MemoryLaw) (p : Port) (b : BufNo) (v : Byte) :
    ((s.heardByte p b 1 v).headerAt b).label = s.byteAt b 0 ++ v := by
  have hfirst : (s.heardByte p b 1 v).byteAt b 0 = s.byteAt b 0 :=
    State.heardByte_other s p b 1 v (by simp [storeAddr])
  show word16 _ _ = _
  rw [hfirst, State.heardByte_byteAt hm]
  rfl

/-- Short of the depth of 24 a push ends no episode (R33). -/
theorem State.pushed_low (h : s.store.depth < 23) : s.pushed b = { s with
    store := { s.store with count := vset s.store.count b 0, free := b :: s.store.free } } := by
  have h' : s.store.free.length < 23 := h
  unfold State.pushed
  rw [if_neg (by omega)]

/-- A data byte that is stored, the Label comparison apart (R11). -/
theorem State.Fills.dataByte (h : s.Fills p b n) (hn : n < 71) (v : Byte) : exec (.rxDataByte p v) s =
    .next (if n = 1 then (s.heardByte p b n v).labelCheck p b else s.heardByte p b n v) := by
  rw [exec_rxDataByte_up h.toListens, State.dataInUp_short ((s.heard_rx p).trans h.filling) hn]
  rfl

/-- Settles O9: a byte is stored and the frame goes on, or the reception ends at the Label comparison or at the 72nd byte. -/
theorem dataByteIsStoredOrEndsReception : Obligations.DataByteIsStoredOrEndsReception := by
  unfold Obligations.DataByteIsStoredOrEndsReception
  refine ⟨fun p s b n v h hn hm hpass => ?stored, fun p s b v h hm hd hl => ?reserve, fun p s b v h => ?cutOff⟩
  case stored =>
    refine ⟨s.heardByte p b n v, ?_, s.heardByte_byteAt hm p b n v, fun a ha => s.heardByte_other p b n v ha,
      s.heardByte_eq p b n v⟩
    rw [h.dataByte (by omega)]
    split
    · next h1 =>
      subst h1
      rw [State.labelCheck_passes]
      rcases hpass rfl with hd | hl
      · exact .inr hd
      · exact .inl ((s.heardByte_label hm p b v).trans hl)
    · rfl
  case reserve =>
    have hlabel : ((s.heardByte p b 1 v).headerAt b).label ≠ ownLabel (s.heardByte p b 1 v).node := by
      rw [s.heardByte_label hm]; exact hl
    have hcount : (s.heardByte p b 1 v).store.count[b] = 1 := h.own
    have hpushed := State.pushed_low (s := s.heardByte p b 1 v) (b := b) (by exact Nat.lt_trans hd (by decide))
    refine ⟨(((s.heardByte p b 1 v).pushed b).onPort p fun P => { P.tally .rxNobuf with rx := .ignoring .reserve }), ?_, ?_, ?_⟩
    · rw [h.dataByte (by omega), if_pos rfl, State.labelCheck_abandons hlabel hd]
      exact congrArg Host.Outcome.next (State.release_onPort hcount p _ (fun _ => rfl) (fun _ _ => rfl))
    · intro a ha
      rw [hpushed]
      exact s.heardByte_other p b 1 v ha
    · rw [hpushed, s.heardByte_eq]
      simp [State.onPort, PortState.tally, PortCounters.update, PortState.heard]
  case cutOff =>
    rw [exec_rxDataByte_up h.toListens, State.dataInUp_cutOff ((s.heard_rx p).trans h.filling), State.onPort_onPort]
    exact congrArg Host.Outcome.next (State.release_onPort h.own p _ (fun _ => rfl) (fun _ _ => rfl))

end

end Sys2Proof.Machine
end

