-- ==== Sys2Proof/Proofs/Service.lean ====
section
/-! PROOF. Transmission, flow control and service (sections 1.4, 1.5, 6.3, 6.4): what the choice of R99 and R100 comes to, and
O13 to O16. -/

namespace Sys2Proof.Machine

section
variable {s t u : State} {p : Port} {P Q : PortState} {e : Entry} {now : Tick}

/-! ## Heads and survivors (R99, R100) -/

/-- Every entry stands in the queue of its own class (R92). -/
def PortState.Sorted (P : PortState) : Prop := ∀ c : Class, ∀ e ∈ P.queues[c], e.hdr.cls = c

/-- What is left of a class queue once its expired heads have gone (R100). -/
def PortState.surviving (P : PortState) (now : Tick) (c : Class) : List Entry := P.queues[c].dropWhile (P.expired now)

theorem PortState.firstSurvivor_eq (P : PortState) (now : Tick) :
    P.firstSurvivor now = ([3, 2, 1, 0] : List Class).findSome? fun c => (P.surviving now c).head? := rfl

theorem PortState.topHead_none (h : P.topHead = none) (c : Class) : P.queues[c] = [] := by
  unfold PortState.topHead at h
  split at h
  · next hf =>
    have hc : c ∈ Class.urgentFirst := by
      match c with
      | 0 | 1 | 2 | 3 => decide
    have := List.find?_eq_none.1 hf c hc
    simpa [PortState.nonEmpty] using this
  · next k hk =>
    have := List.find?_some hk
    simp only [PortState.nonEmpty, List.head?_eq_none_iff.1 h] at this
    cases this

/-- The head that is offered is the head of its class queue, and the queues above are empty (R99). -/
theorem PortState.topHead_some (hs : P.Sorted) (h : P.topHead = some e) :
    ∃ q, P.queues[e.hdr.cls] = e :: q ∧ ∀ c : Class, e.hdr.cls < c → P.queues[c] = [] := by
  unfold PortState.topHead at h
  split at h
  · cases h
  · next k hk =>
    have hcls := hs k e (List.mem_of_mem_head? h)
    subst hcls
    obtain ⟨q, hq⟩ := List.head?_eq_some_iff.1 h
    refine ⟨q, hq, fun c hc => ?_⟩
    obtain ⟨-, i, hi, hik, hbefore⟩ := List.find?_eq_some_iff_getElem.1 hk
    have hplace : ∀ d : Class, ∃ j, ∃ hj : j < Class.urgentFirst.length, Class.urgentFirst[j] = d ∧ j + d.val = 3 := by
      decide
    obtain ⟨j, hj, hjc, hjv⟩ := hplace c
    obtain ⟨l, hl, hlc, hlv⟩ := hplace Class.urgentFirst[i]
    have hil : l = i := by
      have hnd : Class.urgentFirst.Nodup := by decide
      exact (List.Nodup.getElem_inj_iff hnd).1 hlc
    subst hil
    have hlt : j < l := by
      have : e.hdr.cls.val < c.val := hc
      rw [← hik] at this
      omega
    have := hbefore j hlt
    rw [hjc] at this
    simpa [PortState.nonEmpty] using this

/-- The first survivor is the head of what is left of the highest class queue that has anything left (R99, R100). -/
theorem PortState.firstSurvivor_some (h : ∀ c : Class, e.hdr.cls < c → P.surviving now c = [])
    (he : (P.surviving now e.hdr.cls).head? = some e) : P.firstSurvivor now = some e := by
  rw [P.firstSurvivor_eq]
  have hk : ∀ k : Class, (∀ c : Class, k < c → P.surviving now c = []) → (P.surviving now k).head? = some e →
      (([3, 2, 1, 0] : List Class).findSome? fun c => (P.surviving now c).head?) = some e := by
    intro k hk he
    match k with
    | 0 => simp [hk 1 (by decide), hk 2 (by decide), hk 3 (by decide), he]
    | 1 => simp [hk 2 (by decide), hk 3 (by decide), he]
    | 2 => simp [hk 3 (by decide), he]
    | 3 => simp [he]
  exact hk _ h he

theorem PortState.firstSurvivor_none (h : ∀ c : Class, P.surviving now c = []) : P.firstSurvivor now = none := by
  rw [P.firstSurvivor_eq]
  simp [h]

/-- A survivor stands in a queue. -/
theorem PortState.firstSurvivor_mem (hs : P.Sorted) (h : P.firstSurvivor now = some e) : e ∈ P.queues[e.hdr.cls] := by
  rw [P.firstSurvivor_eq] at h
  obtain ⟨c, -, hc⟩ := List.exists_of_findSome?_eq_some h
  have hm : e ∈ P.queues[c] := (List.dropWhile_suffix _).subset (List.mem_of_mem_head? hc)
  have := hs c e hm
  subst this
  exact hm

theorem PortState.firstSurvivor_congr (h : ∀ c : Class, Q.surviving now c = P.surviving now c) :
    Q.firstSurvivor now = P.firstSurvivor now := by
  rw [P.firstSurvivor_eq, Q.firstSurvivor_eq]
  simp only [h]

theorem PortState.surviving_congr (hq : Q.queues = P.queues) (hc : Q.cfg = P.cfg) (c : Class) :
    Q.surviving now c = P.surviving now c := by
  have : Q.expired now = P.expired now := by funext e; simp only [PortState.expired, hc]
  rw [PortState.surviving, PortState.surviving, hq, this]

/-! ## The choice (R99 to R101) -/

/-- `Q` is `P` once its transmitter has been served at `now`: the first survivor is chosen, the heads before it have expired
and been counted, and the classes below it stand (R99 to R101). -/
structure PortState.Served (P Q : PortState) (now : Tick) : Prop where
  chosen  : ∀ x, P.firstSurvivor now = some x → Q.tx = .sending x ∧ (∀ c : Class, x.hdr.cls < c → Q.queues[c] = []) ∧
              Q.queues[x.hdr.cls] = P.surviving now x.hdr.cls ∧ ∀ c : Class, c < x.hdr.cls → Q.queues[c] = P.queues[c]
  emptied : P.firstSurvivor now = none → Q.tx = P.tx ∧ ∀ c : Class, Q.queues[c] = []
  fewer   : Q.entries ≤ P.entries
  counted : Q.ctr.qExpired = bumpBy (P.entries - Q.entries) P.ctr.qExpired

/-- A port without entries has been served. -/
theorem PortState.Served.of_empty (h : ∀ c : Class, P.queues[c] = []) : P.Served P now := by
  have hnone : P.firstSurvivor now = none := PortState.firstSurvivor_none fun c => by simp [PortState.surviving, h c]
  refine ⟨fun x hx => ?_, fun _ => ⟨rfl, h⟩, Nat.le_refl _, by simp [bumpBy]⟩
  rw [hnone] at hx; cases hx

/-- A head that passes its residence test is chosen (R99). -/
theorem PortState.Served.of_fresh (hs : P.Sorted) (ht : P.topHead = some e) (he : P.expired now e = false) :
    P.Served { P with tx := .sending e } now := by
  obtain ⟨q, hq, habove⟩ := PortState.topHead_some hs ht
  have hsurv : P.surviving now e.hdr.cls = e :: q := by
    rw [PortState.surviving, hq, List.dropWhile_cons_of_neg (by simp [he])]
  have hfirst : P.firstSurvivor now = some e :=
    PortState.firstSurvivor_some (fun c hc => by simp [PortState.surviving, habove c hc]) (by rw [hsurv]; rfl)
  refine ⟨fun x hx => ?_, fun hx => ?_, Nat.le_refl _, by simp [bumpBy, PortState.entries]⟩
  · rw [hfirst] at hx
    cases hx
    exact ⟨rfl, habove, hq.trans hsurv.symm, fun _ _ => rfl⟩
  · rw [hfirst] at hx; cases hx

theorem PortState.entries_dropHead {q : List Entry} {k : Class} (h : P.queues[k] = e :: q) :
    (P.dropHead k).entries + 1 = P.entries := by
  have hd : ∀ d : Class, (P.dropHead k).queues[d] = if d = k then P.queues[k].tail else P.queues[d] :=
    fun d => vset_fin _ _ _ _
  unfold PortState.entries
  rw [hd 0, hd 1, hd 2, hd 3, h]
  match k, congrArg List.length h with
  | 0, hl | 1, hl | 2, hl | 3, hl => simp at hl ⊢; omega

/-- A head that expires is one entry less, and is what `Served` counts first (R100). -/
theorem PortState.Served.of_expired {R : PortState} {q : List Entry} (hs : P.Sorted) (hq : P.queues[e.hdr.cls] = e :: q)
    (habove : ∀ c : Class, e.hdr.cls < c → P.queues[c] = []) (he : P.expired now e = true)
    (hqueues : Q.queues = (P.dropHead e.hdr.cls).queues) (hcfg : Q.cfg = P.cfg) (htx : Q.tx = P.tx)
    (hctr : Q.ctr.qExpired = bump P.ctr.qExpired) (hR : Q.Served R now) : P.Served R now := by
  have hdrop : ∀ c : Class, Q.queues[c] = if c = e.hdr.cls then q else P.queues[c] := by
    intro c
    rw [hqueues, PortState.dropHead_queues, vset_fin, hq]
    rfl
  have hsurv : ∀ c : Class, Q.surviving now c = P.surviving now c := by
    intro c
    have hexp : Q.expired now = P.expired now := by funext x; simp only [PortState.expired, hcfg]
    rw [PortState.surviving, PortState.surviving, hexp, hdrop]
    split
    · next hc => subst hc; rw [hq, List.dropWhile_cons_of_pos he]
    · rfl
  have hentries : Q.entries + 1 = P.entries := by
    have := PortState.entries_dropHead hq
    unfold PortState.entries at this ⊢
    rw [hqueues]; exact this
  have hfirst := PortState.firstSurvivor_congr hsurv
  refine ⟨fun x hx => ?_, fun hx => ?_, by have := hR.fewer; omega, ?_⟩
  · obtain ⟨htx', hhigh, hown, hlow⟩ := hR.chosen x (hfirst.trans hx)
    refine ⟨htx', hhigh, hown.trans (hsurv _), fun c hc => (hlow c hc).trans ?_⟩
    have hne : c ≠ e.hdr.cls := by
      intro k
      have hmem := PortState.firstSurvivor_mem hs hx
      rw [habove x.hdr.cls (k ▸ hc)] at hmem
      cases hmem
    rw [hdrop, if_neg hne]
  · obtain ⟨htx', hall⟩ := hR.emptied (hfirst.trans hx)
    exact ⟨htx'.trans htx, hall⟩
  · have hfewer := hR.fewer
    rw [hR.counted, hctr, ← hentries, show Q.entries + 1 - R.entries = (Q.entries - R.entries) + 1 by omega]
    rfl

/-- The port once an expired head has left, where no reset is pending (R100). -/
theorem State.expireHead_get (s : State) (p : Port) (e : Entry) : ∃ more, (s.expireHead p e).ports[p] =
    { (s.ports[p].dropHead e.hdr.cls).tally .qExpired with asked := s.ports[p].asked ++ more } := by
  obtain ⟨more, hm⟩ :=
    (State.release_frame (s.onPort p fun P => (P.dropHead e.hdr.cls).tally .qExpired) e.buf).ports p
  refine ⟨more, ?_⟩
  rw [State.expireHead, State.reportEntry_ports, hm]
  simp

theorem State.expireHead_settled (hr : s.agent.resetPending = none) (e : Entry) :
    (s.expireHead p e).agent.resetPending = none ∧ (s.expireHead p e).resetDue = s.resetDue ∧
      (s.expireHead p e).now = s.now := by
  have hf := State.release_frame (s.onPort p fun P => (P.dropHead e.hdr.cls).tally .qExpired) e.buf
  obtain ⟨-, -, hnow, -, -, -, -, hagent, -, -, -⟩ := hf.tables
  have hpend : ((s.onPort p fun P => (P.dropHead e.hdr.cls).tally .qExpired).release e.buf).agent.resetPending = none := by
    rw [hagent]; exact hr
  rw [State.expireHead, State.reportEntry_none _ e hpend]
  exact ⟨hpend, hf.due, hnow⟩

theorem State.choose_empty (fuel : Nat) (h : s.ports[p].topHead = none) : State.choose (fuel + 1) p s = s := by
  simp only [State.choose, h]

theorem State.choose_expired (fuel : Nat) (h : s.ports[p].topHead = some e) (he : s.ports[p].expired s.now e = true)
    (hd : (s.expireHead p e).resetDue = false) :
    State.choose (fuel + 1) p s = State.choose fuel p (s.expireHead p e) := by
  simp only [State.choose, h, if_pos he, hd]
  exact if_neg (by decide)

theorem State.choose_offered (fuel : Nat) (h : s.ports[p].topHead = some e) (he : s.ports[p].expired s.now e = false) :
    State.choose (fuel + 1) p s = s.onPort p fun P => { P with tx := .sending e } := by
  simp only [State.choose, h, he]
  exact if_neg (by decide)

theorem State.expireHead_sorted (hs : s.ports[p].Sorted) (e : Entry) : (s.expireHead p e).ports[p].Sorted := by
  obtain ⟨more, hport⟩ := s.expireHead_get p e
  intro c x hx
  have hx' : x ∈ (s.ports[p].dropHead e.hdr.cls).queues[c] := by rw [hport] at hx; exact hx
  obtain ⟨n, hn⟩ := s.ports[p].dropHead_queue e.hdr.cls c
  rw [hn] at hx'
  exact hs c x (List.mem_of_mem_drop hx')

theorem State.expireHead_entries {q : List Entry} (hq : s.ports[p].queues[e.hdr.cls] = e :: q) :
    (s.expireHead p e).ports[p].entries + 1 = s.ports[p].entries := by
  obtain ⟨more, hport⟩ := s.expireHead_get p e
  have hsame : (s.expireHead p e).ports[p].entries = (s.ports[p].dropHead e.hdr.cls).entries := by rw [hport]; rfl
  rw [hsame]
  exact PortState.entries_dropHead hq

/-- What serves the port once an expired head has left serves the port (R100). -/
theorem State.expireHead_served (hs : s.ports[p].Sorted) (htop : s.ports[p].topHead = some e)
    (he : s.ports[p].expired s.now e = true) (h : ((s.expireHead p e).ports[p]).Served Q s.now) :
    (s.ports[p]).Served Q s.now := by
  obtain ⟨q, hq, habove⟩ := PortState.topHead_some hs htop
  obtain ⟨more, hport⟩ := s.expireHead_get p e
  exact PortState.Served.of_expired hs hq habove he (congrArg PortState.queues hport :) (congrArg PortState.cfg hport :)
    (congrArg PortState.tx hport :) (congrArg (fun R : PortState => R.ctr.qExpired) hport) h

/-- The choice serves the port, where no reset is pending (R99, R100). -/
theorem State.choose_served (fuel : Nat) (p : Port) (s : State) (hfuel : s.ports[p].entries ≤ fuel)
    (hs : s.ports[p].Sorted) (hr : s.agent.resetPending = none) (hd : s.resetDue = false) :
    (s.ports[p]).Served ((State.choose fuel p s).ports[p]) s.now := by
  induction fuel generalizing s with
  | zero =>
    refine PortState.Served.of_empty fun c => List.eq_nil_of_length_eq_zero ?_
    unfold PortState.entries at hfuel
    match c with
    | 0 | 1 | 2 | 3 => omega
  | succ fuel ih =>
    cases htop : s.ports[p].topHead with
    | none =>
      rw [State.choose_empty fuel htop]
      exact PortState.Served.of_empty (PortState.topHead_none htop)
    | some e =>
      cases hexp : s.ports[p].expired s.now e with
      | true =>
        obtain ⟨hr', hd', hnow⟩ := State.expireHead_settled (p := p) hr e
        obtain ⟨q, hq, -⟩ := PortState.topHead_some hs htop
        have hentries := State.expireHead_entries hq
        have hrest := ih (s.expireHead p e) (by omega) (State.expireHead_sorted hs e) hr' (hd'.trans hd)
        rw [State.choose_expired fuel htop hexp (hd'.trans hd)]
        rw [hnow] at hrest
        exact State.expireHead_served hs htop hexp hrest
      | false =>
        rw [State.choose_offered fuel htop hexp, State.onPort_get]
        exact PortState.Served.of_fresh hs htop hexp

/-- An eligible transmitter that asks is served (R15, R99). -/
theorem State.askNext_served (hs : s.ports[p].Sorted) (hr : s.agent.resetPending = none) (hd : s.resetDue = false)
    (hup : s.ports[p].link = .up) (hh : s.ports[p].partnerHold = false) (htx : s.ports[p].tx = .idle) :
    (s.ports[p]).Served ((s.askNext p).ports[p]) s.now := by
  have helig : s.eligible p = true := (s.eligible_iff p).2 ⟨hup, hh, htx, hd⟩
  rw [State.askNext, if_pos helig]
  exact State.choose_served _ p s (Nat.le_refl _) hs hr hd

/-- A held transmitter takes nothing (R15). -/
theorem State.askNext_held (hh : s.ports[p].partnerHold = true) : s.askNext p = s := by
  rw [State.askNext, if_neg]
  intro h
  obtain ⟨-, hh', -, -⟩ := (s.eligible_iff p).1 h
  rw [hh] at hh'; cases hh'

theorem PortState.QueueLaw.sorted (h : P.QueueLaw) : P.Sorted := fun c => (h.1 c).2

/-! ## HOLD, GO and the control symbols asked (R18, R19) -/

theorem exec_rxHold_up (h : s.Listens p) : exec (.rxHold p) s = .next ((s.onPort p PortState.heard).holdInUp p) := by
  show Host.Outcome.next (s.takeValid p (·.holdInUp p)) = _
  rw [State.takeValid_up h]

theorem exec_rxGo_up (h : s.Listens p) : exec (.rxGo p) s = .next ((s.onPort p PortState.heard).goInUp p).finish := by
  show Host.Outcome.next (s.takeValid p (·.goInUp p)).finish = _
  rw [State.takeValid_up h]

theorem State.heard_partnerHold (s : State) (p : Port) :
    (s.onPort p PortState.heard).ports[p].partnerHold = s.ports[p].partnerHold := by
  rw [State.onPort_get]; rfl

theorem State.holdInUp_held (h : s.ports[p].partnerHold = true) : s.holdInUp p = s := by
  rw [State.holdInUp]
  have hid : s.onPort p id = s := by simp [State.onPort]
  exact (State.onPort_congr (f := fun P => if P.partnerHold then P else _) (g := id) (if_pos h)).trans hid

theorem State.holdInUp_free (h : s.ports[p].partnerHold = false) : s.holdInUp p = s.onPort p fun P => { P with
    partnerHold := true
    holdDeadline := if P.cfg.holdLimit = 0 then none else some (s.now + ticksOfMs P.cfg.holdLimit.toNat) } :=
  State.onPort_congr (if_neg (by rw [h]; decide))

theorem State.goInUp_free (h : s.ports[p].partnerHold = false) : s.goInUp p = s := by
  rw [State.goInUp, h]; rfl

theorem State.goInUp_held (h : s.ports[p].partnerHold = true) : s.goInUp p =
    (s.onPort p fun P => { P with partnerHold := false, holdDeadline := none }).askNext p := by
  rw [State.goInUp, h]; rfl

/-- Settles O14: each symbol by the flag as it stands. -/
theorem controlSymbolsAreHeardAndSent : Obligations.ControlSymbolsAreHeardAndSent := by
  unfold Obligations.ControlSymbolsAreHeardAndSent
  refine ⟨fun p s h => ⟨fun hfree => ⟨?hold, ?go⟩, fun hheld => ?again⟩, fun p s c rest hl ha => ?send⟩
  case hold =>
    rw [exec_rxHold_up h, State.holdInUp_free ((s.heard_partnerHold p).trans hfree), State.onPort_onPort]
    rfl
  case go =>
    rw [exec_rxGo_up h, State.goInUp_free ((s.heard_partnerHold p).trans hfree),
      State.finish_of_settled _ (by exact h.settled)]
  case again => rw [exec_rxHold_up h, State.holdInUp_held ((s.heard_partnerHold p).trans hheld)]
  case send =>
    show execSendControlSymbol p s = _
    simp only [execSendControlSymbol, hl, ha]

/-- What asking for control symbols leaves of a port. -/
theorem PortState.FlowOnly.fields (h : P.FlowOnly Q) : Q.link = P.link ∧ Q.rx = P.rx ∧ Q.tx = P.tx ∧ Q.cfg = P.cfg ∧
    Q.partnerHold = P.partnerHold ∧ Q.holdDeadline = P.holdDeadline ∧ Q.queues = P.queues ∧ Q.ctr = P.ctr ∧
    Q.sent = P.sent := by
  obtain ⟨more, rfl⟩ := h
  exact ⟨rfl, rfl, rfl, rfl, rfl, rfl, rfl, rfl, rfl⟩

/-- What service leaves of a port (R15 to R17). -/
theorem PortState.ServiceOnly.fields (h : P.ServiceOnly Q) : Q.rx = P.rx ∧ Q.link = P.link ∧ Q.cfg = P.cfg ∧
    Q.partnerHold = P.partnerHold ∧ Q.holdDeadline = P.holdDeadline ∧ Q.sent = P.sent ∧
    Q.ctr.txFrames = P.ctr.txFrames := by
  obtain ⟨more, tx, queues, expired, rfl⟩ := h
  exact ⟨rfl, rfl, rfl, rfl, rfl, rfl, rfl⟩

theorem State.ServiceFrame.settled (h : State.ServiceFrame p s t) (hr : s.agent.resetPending = none) :
    t.resetDue = s.resetDue :=
  h.due fun r hr' => by rw [hr] at hr'; cases hr'

/-- The port once GO has been heard under HOLD (R19). -/
def PortState.freed (P : PortState) : PortState := { P.heard with partnerHold := false, holdDeadline := none }

/-- Settles O15: GO frees an idle transmitter, and what it then asks for serves the port. -/
theorem goServesStrictlyByClass : Obligations.GoServesStrictlyByClass := by
  unfold Obligations.GoServesStrictlyByClass
  intro p s h hheld hidle hlaw hr
  have hport : (s.onPort p PortState.freed).ports[p] = s.ports[p].freed := State.onPort_get s p _
  have hgo : exec (.rxGo p) s = .next ((s.onPort p PortState.freed).askNext p).finish := by
    rw [exec_rxGo_up h, State.goInUp_held ((s.heard_partnerHold p).trans hheld), State.onPort_onPort]
    rfl
  have hframe := (s.onPort p PortState.freed).askNext_frame p
  have hserved : ((s.onPort p PortState.freed).ports[p]).Served (((s.onPort p PortState.freed).askNext p).ports[p]) s.now := by
    refine State.askNext_served ?_ hr h.settled ?_ ?_ ?_ <;> rw [hport]
    · exact (hlaw p).1.sorted
    · exact h.up
    · rfl
    · exact hidle
  generalize (s.onPort p PortState.freed).askNext p = t at hgo hframe hserved
  have hdue : t.resetDue = false := (hframe.settled hr).trans h.settled
  rw [hport] at hserved
  have hsurv : s.ports[p].freed.firstSurvivor s.now = s.ports[p].firstSurvivor s.now :=
    PortState.firstSurvivor_congr (PortState.surviving_congr rfl rfl)
  obtain ⟨hrx, -, hcfg, hhold, hdeadline, -, -⟩ := hframe.port.fields
  rw [hport] at hrx hcfg hhold hdeadline
  refine ⟨t, by rw [hgo, State.finish_of_settled _ hdue], hhold, hdeadline, fun x hx => ?_, fun hx => ?_, hserved.counted,
    hrx, hcfg, fun q hq => ?_, hframe.mem, hframe.events, hframe.tables⟩
  · exact hserved.chosen x (hsurv.trans hx)
  · obtain ⟨htx, hempty⟩ := hserved.emptied (hsurv.trans hx)
    exact ⟨htx.trans hidle, hempty⟩
  · have := hframe.others q hq
    rwa [State.onPort_get_ne s _ hq] at this

/-! ## The end of a frame sent (R15, R16, R183) -/

theorem headerByte3_eq (h : Header) : headerByte3 h =
    BitVec.ofNat 8 (64 * h.cls.val + (if h.stale then 32 else 0) + h.age.toNat) := by
  have key : ∀ (c : Class) (st : Bool) (a : BitVec 4), BitVec.ofNat 2 c.val ++ BitVec.ofBool st ++ 0#1 ++ a =
      BitVec.ofNat 8 (64 * c.val + (if st then 32 else 0) + a.toNat) := by decide
  exact key h.cls h.stale h.age

/-- The port once the frame of entry `e` has been sent on it (R16). -/
def PortState.frameDone (P : PortState) (e : Entry) (frame : List Byte) : PortState :=
  { (P.endSending e).tally .txFrames with sent := P.sent ++ [.frame frame] }

section
variable (P : PortState) (e : Entry) (frame : List Byte)

@[simp] theorem PortState.frameDone_link : (P.frameDone e frame).link = P.link := rfl
@[simp] theorem PortState.frameDone_rx : (P.frameDone e frame).rx = P.rx := rfl
@[simp] theorem PortState.frameDone_tx : (P.frameDone e frame).tx = .idle := rfl
@[simp] theorem PortState.frameDone_cfg : (P.frameDone e frame).cfg = P.cfg := rfl
@[simp] theorem PortState.frameDone_partnerHold : (P.frameDone e frame).partnerHold = P.partnerHold := rfl
@[simp] theorem PortState.frameDone_sent : (P.frameDone e frame).sent = P.sent ++ [.frame frame] := rfl
@[simp] theorem PortState.frameDone_queues : (P.frameDone e frame).queues = (P.dropHead e.hdr.cls).queues := rfl
@[simp] theorem PortState.frameDone_ctr : (P.frameDone e frame).ctr = P.ctr.update bump .txFrames := rfl

end

theorem State.frameSent_eq (hr : s.agent.resetPending = none) :
    s.frameSent p e = (s.onPort p (·.frameDone e (s.frameBytes e))).release e.buf := by
  have hf := State.release_frame (s.onPort p (·.frameDone e (s.frameBytes e))) e.buf
  obtain ⟨-, -, -, -, -, -, -, hagent, -, -, -⟩ := hf.tables
  exact State.reportEntry_none _ e ((congrArg Agent.resetPending hagent).trans hr)

theorem exec_txEnd_sending (h : s.ports[p].tx = .sending e) :
    exec (.txEnd p) s = .next ((s.frameSent p e).askNext p).finish := by
  show execTxEnd p s = _
  simp only [execTxEnd, h]

/-- An UP port is the only one that sends (R2 to R8). -/
theorem PortState.LinkLaw.sending_up (h : P.LinkLaw) (htx : P.tx = .sending e) : P.link = .up := by
  obtain ⟨-, -, -, -, -, hout⟩ := h
  by_contra hl
  obtain ⟨-, hidle, -⟩ := hout hl
  rw [htx] at hidle; cases hidle

/-- `u` is `s` with the frame of entry `e` sent on port `p` and the entry gone, before the transmitter asks (R16). -/
structure State.FrameOff (p : Port) (e : Entry) (s u : State) : Prop where
  frame : (s.onPort p (·.frameDone e (s.frameBytes e))).FlowFrame u
  count : u.store.count = vset s.store.count e.buf (s.store.count[e.buf] - 1)

theorem State.frameSent_off (hr : s.agent.resetPending = none) : State.FrameOff p e s (s.frameSent p e) := by
  rw [State.frameSent_eq hr]
  exact ⟨State.release_frame _ _, (State.release_store _ _).1⟩

theorem State.FrameOff.tables (h : State.FrameOff p e s u) : s.SameTables u :=
  State.SameTables.trans ⟨rfl, rfl, rfl, rfl, rfl, rfl, rfl, rfl, rfl, rfl, rfl⟩ h.frame.tables

theorem State.FrameOff.port (h : State.FrameOff p e s u) :
    (s.ports[p].frameDone e (s.frameBytes e)).FlowOnly (u.ports[p]) := by
  have := h.frame.ports p
  rwa [State.onPort_get] at this

theorem State.FrameOff.settled (h : State.FrameOff p e s u) (hr : s.agent.resetPending = none) :
    u.agent.resetPending = none := by
  obtain ⟨-, -, -, -, -, -, -, hagent, -, -, -⟩ := h.tables
  rw [hagent]; exact hr

theorem State.FrameOff.queue (h : State.FrameOff p e s u) (c : Class) :
    u.ports[p].queues[c] = if c = e.hdr.cls then s.ports[p].queues[e.hdr.cls].tail else s.ports[p].queues[c] := by
  obtain ⟨-, -, -, -, -, -, hq, -, -⟩ := h.port.fields
  rw [hq, PortState.frameDone_queues]
  exact vset_fin _ _ _ _

theorem State.FrameOff.sorted (h : State.FrameOff p e s u) (hs : s.ports[p].Sorted) : u.ports[p].Sorted := by
  intro c x hx
  rw [h.queue] at hx
  split at hx
  · next hc => rw [hc]; exact hs _ x (List.mem_of_mem_tail hx)
  · exact hs c x hx

/-- Once the frame is off, a transmitter that is not held is served from the queues without its entry (R16, R99). -/
theorem State.FrameOff.tx (h : State.FrameOff p e s u) (hlaw : s.PortLaw) (hd : s.resetDue = false)
    (hr : s.agent.resetPending = none) (htx : s.ports[p].tx = .sending e) :
    (s.ports[p].partnerHold = true → (u.askNext p).ports[p].tx = .idle) ∧
      (s.ports[p].partnerHold = false → (u.askNext p).ports[p].tx =
        match (s.ports[p].dropHead e.hdr.cls).firstSurvivor s.now with
        | some x => .sending x
        | none => .idle) := by
  obtain ⟨hlink, -, hidle, hcfg, hhold, -, hqueues, -, -⟩ := h.port.fields
  simp only [PortState.frameDone_link, PortState.frameDone_tx, PortState.frameDone_cfg, PortState.frameDone_partnerHold,
    PortState.frameDone_queues] at hlink hidle hcfg hhold hqueues
  have hup : u.ports[p].link = .up := hlink.trans ((hlaw p).2.1.sending_up htx)
  have hnow : u.now = s.now := h.tables.2.2.1
  have hsurv : u.ports[p].firstSurvivor s.now = (s.ports[p].dropHead e.hdr.cls).firstSurvivor s.now :=
    PortState.firstSurvivor_congr (PortState.surviving_congr hqueues hcfg)
  refine ⟨fun hh => ?_, fun hh => ?_⟩
  · rw [State.askNext_held (hhold.trans hh)]; exact hidle
  · have hserved := State.askNext_served (h.sorted (hlaw p).1.sorted) (h.settled hr) (h.frame.due.trans hd) hup
      (hhold.trans hh) hidle
    rw [hnow] at hserved
    rw [← hsurv]
    cases hx : u.ports[p].firstSurvivor s.now with
    | some x => exact (hserved.chosen x hx).1
    | none => exact (hserved.emptied hx).1.trans hidle

/-- The entry's reference ends at its END, and no expiry that follows touches its buffer unless an expired entry names it
(R16, R100). -/
theorem State.FrameOff.counted (h : State.FrameOff p e s u)
    (hne : ∀ c : Class, ∀ x ∈ s.ports[p].queues[c], s.ports[p].expired s.now x = true → x.buf ≠ e.buf) :
    (u.askNext p).store.count[e.buf] = s.store.count[e.buf] - 1 := by
  have hspares : State.Spares p e.buf u := by
    intro c x hx hexp
    obtain ⟨-, -, -, hcfg, -⟩ := h.port.fields
    have hexp' : s.ports[p].expired s.now x = true := by
      rw [h.tables.2.2.1] at hexp
      simpa only [PortState.expired, hcfg, PortState.frameDone_cfg] using hexp
    rw [h.queue] at hx
    split at hx
    · exact hne _ x (List.mem_of_mem_tail hx) hexp'
    · exact hne c x hx hexp'
  rw [(u.askNext_frame p).counts e.buf hspares, h.count, Fin.getElem_fin, vset_get_self]

/-- Settles O13: the frame on the line, then what the release of its entry and the next choice leave. -/
theorem txEndSendsRebuiltFrameAndServesNext : Obligations.TxEndSendsRebuiltFrameAndServesNext := by
  unfold Obligations.TxEndSendsRebuiltFrameAndServesNext
  intro p s e htx hlaw hd hr
  have hexec := exec_txEnd_sending htx
  have hoff := State.frameSent_off (p := p) (e := e) hr
  generalize s.frameSent p e = u at hexec hoff
  obtain ⟨hheld, hfree⟩ := hoff.tx hlaw hd hr htx
  have hcount := hoff.counted
  have hask := u.askNext_frame p
  generalize u.askNext p = t at hexec hask hheld hfree hcount
  obtain ⟨hrx, hlink, hcfg, -, -, hline, hframes⟩ := hask.port.fields
  obtain ⟨hlink', hrx', -, hcfg', -, -, -, hctr', hline'⟩ := hoff.port.fields
  rw [hlink', PortState.frameDone_link] at hlink
  rw [hrx', PortState.frameDone_rx] at hrx
  rw [hcfg', PortState.frameDone_cfg] at hcfg
  rw [hline', PortState.frameDone_sent] at hline
  rw [hctr', PortState.frameDone_ctr] at hframes
  have hdue : t.resetDue = false := (hask.settled (hoff.settled hr)).trans (hoff.frame.due.trans hd)
  refine ⟨t, by rw [hexec, State.finish_of_settled _ hdue], ⟨s.frameBytes e, hline, ?onLine⟩,
    hframes, ?own, ?other, hheld, hfree, hcount, hrx, hlink, hcfg, ?ports, hask.mem.trans hoff.frame.mem,
    hoff.frame.events.trans hask.events, hoff.tables.trans hask.tables⟩
  case onLine =>
    rw [← headerByte3_eq]
    simp [State.frameBytes, State.checkedBytes, headerBytes]
  case own =>
    have := hask.queues e.hdr.cls
    rwa [hoff.queue, if_pos rfl] at this
  case other =>
    intro c hc
    have := hask.queues c
    rwa [hoff.queue, if_neg hc] at this
  case ports =>
    intro q hq
    have := (hoff.frame.ports q).trans (hask.others q hq)
    rwa [State.onPort_get_ne s _ hq] at this

/-! ## The hold deadline (R20, R105, R106) -/

theorem PortState.waiting_unflushed (P : PortState) (c : Class) :
    (P.waiting c).length + (P.unflushed c).length = P.queues[c].length := by
  unfold PortState.waiting PortState.unflushed
  split
  · cases P.queues[c] <;> simp
  · simp

/-- What a flush releases is what a port holds but for the entry being sent (R105). -/
theorem PortState.flushed_entries (P : PortState) : P.allWaiting.length + P.flushed.entries = P.entries := by
  have h0 := P.waiting_unflushed 0
  have h1 := P.waiting_unflushed 1
  have h2 := P.waiting_unflushed 2
  have h3 := P.waiting_unflushed 3
  rw [P.allWaiting_length]
  unfold PortState.entries
  rw [P.flushed_queue, P.flushed_queue, P.flushed_queue, P.flushed_queue]
  omega

/-- A flush leaves nothing on an idle port (R105). -/
theorem PortState.flushed_idle (h : P.tx = .idle) (c : Class) : P.flushed.queues[c] = [] := by
  rw [P.flushed_queue]
  exact PortState.unflushed_idle h c

/-- A flush leaves the entry being sent, and nothing else (R105, R106). -/
theorem PortState.flushed_sending (hq : P.QueueLaw) (h : P.tx = .sending e) :
    P.flushed.queues[e.hdr.cls] = [e] ∧ ∀ c : Class, c ≠ e.hdr.cls → P.flushed.queues[c] = [] := by
  have hmark : P.sendingMark = some e.hdr.cls := by simp only [PortState.sendingMark, h]
  obtain ⟨rest, hrest⟩ := List.head?_eq_some_iff.1 (hq.2 e h)
  refine ⟨?_, fun c hc => ?_⟩
  · rw [P.flushed_queue, PortState.unflushed, if_pos hmark, hrest]
    rfl
  · rw [P.flushed_queue, PortState.unflushed, if_neg]
    rw [hmark]
    exact fun k => hc (Option.some.inj k).symm

/-- The port once its hold deadline has been counted, its flush apart (R20). -/
def PortState.stuck (P : PortState) : PortState := { P.tally .holdStuck with holdDeadline := none }

theorem PortState.stuck_asked (P : PortState) (more : List FlowSymbol) :
    ({ P with asked := P.asked ++ more } : PortState).stuck = { P with
      asked := P.asked ++ more, holdDeadline := none, ctr := P.ctr.update bump .holdStuck } := rfl

theorem exec_holdDeadline_due {d : Tick} (hh : s.ports[p].partnerHold = true) (hd : s.ports[p].holdDeadline = some d)
    (hx : reached s.now d = true) : exec (.holdDeadline p) s = .next (s.holdStuck p).finish := by
  show Host.Outcome.next (s.takeHoldDeadline p) = _
  rw [State.takeHoldDeadline, if_pos ⟨hh, by rw [hd]; exact hx⟩]

/-- `u` tests its delivery conditions and its list as `s` does. -/
theorem State.Undelivered.of_same (ha : u.agent = s.agent) (he : u.events = s.events) (h : s.Undelivered) :
    u.Undelivered := by
  unfold State.Undelivered
  rw [ha, he]; exact h

theorem State.NoticeRoom.of_same (he : u.events = s.events) (h : s.NoticeRoom) : u.NoticeRoom := by
  unfold State.NoticeRoom
  rw [he]; exact h

/-- `t` is `s` once the hold deadline of port `p` has been acted on (R20). -/
structure State.HoldStuck (p : Port) (s t : State) : Prop where
  port   : ∃ more, t.ports[p] = { s.ports[p].flushed with
             asked := s.ports[p].asked ++ more, holdDeadline := none, ctr := s.ports[p].flushed.ctr.update bump .holdStuck }
  others : ∀ q : Port, q ≠ p → (s.ports[q]).FlowOnly (t.ports[q])
  events : (s.raised .holdStuck (BitVec.ofNat 8 p.val) 0).SameEvents t
  mem    : t.store.mem = s.store.mem
  tables : s.SameTables t
  due    : t.resetDue = s.resetDue

theorem State.SameTables.symm (h : s.SameTables t) : t.SameTables s := by
  obtain ⟨hnode, hinit, hnow, hroute, haction, hbuckets, hslots, hagent, hpending, hdisposing, hwait⟩ := h
  exact ⟨hnode.symm, hinit.symm, hnow.symm, hroute.symm, haction.symm, hbuckets.symm, hslots.symm, hagent.symm,
    hpending.symm, hdisposing.symm, hwait.symm⟩

theorem State.raised_sameTables (s : State) (kind : NoticeKind) (subject : Byte) (detail : BitVec 32) :
    s.SameTables (s.raised kind subject detail) := by
  rw [State.raised_rest]
  exact ⟨rfl, rfl, rfl, rfl, rfl, rfl, rfl, rfl, rfl, rfl, rfl⟩

/-- A raise where nothing can be delivered and the list has room, after what left the Event Queue alone (R174). -/
theorem State.raise_after (ht : s.SameTables u) (he : s.SameEvents u) (hu : s.Undelivered) (hr : s.NoticeRoom)
    (kind : NoticeKind) (subject : Byte) (detail : BitVec 32) :
    u.raise kind subject detail = u.raised kind subject detail ∧
      (s.raised kind subject detail).SameEvents (u.raised kind subject detail) := by
  obtain ⟨-, -, hnow, -, -, -, -, hagent, -, -, hwait⟩ := ht
  refine ⟨State.raise_room u kind subject detail (hu.of_same hagent he.1) (hr.of_same he.1), ?_⟩
  rw [State.raised_eq (s := s) (u := u) ⟨hnow, hwait, he.1, he.2⟩]
  exact ⟨rfl, rfl⟩

theorem State.holdStuck_eq (s : State) (p : Port) : s.holdStuck p =
    ((s.flush p).onPort p PortState.stuck).raise .holdStuck (BitVec.ofNat 8 p.val) 0 := rfl

theorem State.holdStuck_stuck (hr : s.agent.resetPending = none) (hu : s.Undelivered) (hroom : s.NoticeRoom) :
    State.HoldStuck p s (s.holdStuck p) := by
  obtain ⟨hsame, hevents, hmem, hdue⟩ := s.flush_tables p
  obtain ⟨more, hport⟩ := s.flush_port p
  have hothers := s.flush_others p
  rw [State.holdStuck_eq]
  generalize s.flush p = u at hsame hevents hmem hdue hport hothers
  have htables : s.SameTables (u.onPort p PortState.stuck) :=
    hsame.symm.trans ⟨rfl, rfl, rfl, rfl, rfl, rfl, rfl, rfl, rfl, rfl, rfl⟩
  have hsame' : s.SameEvents (u.onPort p PortState.stuck) := hevents.trans ⟨rfl, rfl⟩
  obtain ⟨hraise, hraised⟩ := State.raise_after htables hsame' hu hroom .holdStuck (BitVec.ofNat 8 p.val) 0
  rw [hraise]
  refine ⟨⟨more, ?_⟩, fun q hq => ?_, hraised, ?_, htables.trans (State.raised_sameTables _ _ _ _), ?_⟩
  · rw [State.raised_ports, State.onPort_get, hport, PortState.stuck_asked]
    simp only [PortState.flushed_asked]
  · rw [State.raised_ports, State.onPort_get_ne _ _ hq]
    exact hothers q hq
  · rw [State.raised_store, State.onPort_store]; exact hmem
  · rw [State.raised_resetDue, State.onPort_resetDue]; exact hdue hr

/-- Settles O16: the flush, the count and the raise of R20. -/
theorem holdDeadlineFlushesThePort : Obligations.HoldDeadlineFlushesThePort := by
  unfold Obligations.HoldDeadlineFlushesThePort
  intro p s d hh hdl hx hlaw hd hr hu hroom
  have hexec := exec_holdDeadline_due hh hdl hx
  have hstuck := State.holdStuck_stuck (p := p) hr hu hroom
  generalize s.holdStuck p = t at hexec hstuck
  obtain ⟨more, hport⟩ := hstuck.port
  have hentries := s.ports[p].flushed_entries
  refine ⟨t, by rw [hexec, State.finish_of_settled _ (hstuck.due.trans hd)], ?_⟩
  have hqueues : t.ports[p].queues = s.ports[p].flushed.queues := by rw [hport]
  have hleft : t.ports[p].entries = s.ports[p].flushed.entries := by simp only [PortState.entries, hqueues]
  refine ⟨?flag, ?deadline, ?tx, ?idle, ?sending, ?flushed, ?counted, ?rx, ?link, ?cfg, hstuck.others, hstuck.events,
    hstuck.mem, hstuck.tables⟩
  case flag => rw [hport]; exact hh
  case deadline => rw [hport]
  case tx => rw [hport, PortState.flushed_tx]
  case idle =>
    intro hidle c
    rw [hqueues]
    exact PortState.flushed_idle hidle c
  case sending =>
    intro e htx
    rw [hqueues]
    exact PortState.flushed_sending (hlaw p).1 htx
  case flushed =>
    rw [hleft, ← hentries, Nat.add_sub_cancel, hport]
    simp [PortCounters.update]
  case counted =>
    rw [hport]
    simp [PortCounters.update]
  case rx => rw [hport, PortState.flushed_rx]
  case link => rw [hport, PortState.flushed_link]
  case cfg => rw [hport, PortState.flushed_cfg]

end

end Sys2Proof.Machine
end

