-- ==== Sys2Proof/Proofs/LinkStates.lean ====
section
/-! PROOF. A port that enters UP and one that loses its link (sections 1.2, 1.3): O5 and O6. -/

namespace Sys2Proof.Machine

section
variable {s t u : State} {p : Port} {P Q : PortState} {e : Entry} {f g : PortState → PortState}

/-! ## One port changed -/

/-- `f` does the same to a port whatever control symbols have been asked of it. -/
def RespectsFlow (f : PortState → PortState) : Prop :=
  ∀ (P : PortState) (more : List FlowSymbol), (f P).FlowOnly (f { P with asked := P.asked ++ more })

theorem RespectsFlow.flowOnly (hf : RespectsFlow f) (h : P.FlowOnly Q) : (f P).FlowOnly (f Q) := by
  obtain ⟨more, rfl⟩ := h
  exact hf P more

/-- `t` is `s` with `f` applied to port `p`, references ended and control symbols asked; a reset becomes due only where one is
pending. -/
structure State.Turns (p : Port) (f : PortState → PortState) (s t : State) : Prop where
  port   : (f s.ports[p]).FlowOnly (t.ports[p])
  others : ∀ q : Port, q ≠ p → (s.ports[q]).FlowOnly (t.ports[q])
  events : s.SameEvents t
  mem    : t.store.mem = s.store.mem
  tables : s.SameTables t
  due    : s.agent.resetPending = none → t.resetDue = s.resetDue

theorem State.Turns.of_same (hp : f s.ports[p] = s.ports[p]) : State.Turns p f s s :=
  ⟨by rw [hp]; exact .refl _, fun _ _ => .refl _, .refl s, rfl, .refl s, fun _ => rfl⟩

theorem State.Turns.onPort (s : State) (p : Port) (f : PortState → PortState) : State.Turns p f s (s.onPort p f) :=
  ⟨by rw [State.onPort_get]; exact .refl _, fun q hq => by rw [State.onPort_get_ne s f hq]; exact .refl _, ⟨rfl, rfl⟩, rfl,
    ⟨rfl, rfl, rfl, rfl, rfl, rfl, rfl, rfl, rfl, rfl, rfl⟩, fun _ => rfl⟩

theorem State.Turns.congr (h : State.Turns p f s t) (hfg : f s.ports[p] = g s.ports[p]) : State.Turns p g s t :=
  ⟨by rw [← hfg]; exact h.port, h.others, h.events, h.mem, h.tables, h.due⟩

theorem State.Turns.flow (h : State.Turns p f s t) (k : t.FlowFrame u) : State.Turns p f s u :=
  ⟨h.port.trans (k.ports p), fun q hq => (h.others q hq).trans (k.ports q), h.events.trans k.events, k.mem.trans h.mem,
    h.tables.trans k.tables, fun hr => k.due.trans (h.due hr)⟩

theorem State.Turns.settled (h : State.Turns p f s t) (hr : s.agent.resetPending = none) : t.agent.resetPending = none := by
  obtain ⟨-, -, -, -, -, -, -, hagent, -, -, -⟩ := h.tables
  rw [hagent]; exact hr

theorem State.Turns.trans (h : State.Turns p f s t) (k : State.Turns p g t u) (hg : RespectsFlow g) :
    State.Turns p (fun P => g (f P)) s u :=
  ⟨(hg.flowOnly h.port).trans k.port, fun q hq => (h.others q hq).trans (k.others q hq), h.events.trans k.events,
    k.mem.trans h.mem, h.tables.trans k.tables, fun hr => (k.due (h.settled hr)).trans (h.due hr)⟩

theorem State.Turns.report (h : State.Turns p f s t) (e : Entry) : State.Turns p f s (t.reportEntry e) := by
  refine ⟨by rw [State.reportEntry_ports]; exact h.port, fun q hq => by rw [State.reportEntry_ports]; exact h.others q hq,
    ?_, by rw [State.reportEntry_store]; exact h.mem, ?_, fun hr => ?_⟩
  · rw [State.reportEntry_eq]; exact h.events
  · rw [State.reportEntry_eq]; exact h.tables
  · rw [State.reportEntry_none _ _ (h.settled hr)]; exact h.due hr

/-! ## What the loss of a link gives up (R6) -/

theorem PortState.abandonedRx_respects : RespectsFlow PortState.abandonedRx := by
  intro P more
  cases hrx : P.rx with
  | idle | receiving b n => exact ⟨more, by simp [PortState.abandonedRx, hrx]⟩
  | ignoring cause => cases cause <;> exact ⟨more, by simp [PortState.abandonedRx, hrx]⟩

theorem State.abandonRx_turns (s : State) (p : Port) : State.Turns p PortState.abandonedRx s (s.abandonRx p) := by
  cases hrx : s.ports[p].rx with
  | idle =>
    have : s.abandonRx p = s := by simp only [State.abandonRx, hrx]
    rw [this]
    exact .of_same (by simp only [PortState.abandonedRx, hrx])
  | receiving b n =>
    rw [State.abandonRx_receiving hrx]
    exact ((State.Turns.onPort s p _).congr (by simp only [PortState.abandonedRx, hrx])).flow (State.release_frame _ b)
  | ignoring cause =>
    cases cause <;> simp only [State.abandonRx, hrx] <;>
      exact (State.Turns.onPort s p _).congr (by simp only [PortState.abandonedRx, hrx])

/-- The transmit side of a port whose transmission is abandoned (R17). -/
def PortState.cutTx (P : PortState) (abort : Bool) : PortState :=
  match P.tx with
  | .idle => P
  | .sending e => { (P.endSending e).tally .txAborted with sent := if abort then P.sent ++ [.abort] else P.sent }

theorem PortState.cutTx_respects (abort : Bool) : RespectsFlow (·.cutTx abort) := by
  intro P more
  cases htx : P.tx with
  | idle | sending e => exact ⟨more, by simp [PortState.cutTx, htx]⟩

theorem State.abandonTx_turns (s : State) (p : Port) (abort : Bool) :
    State.Turns p (·.cutTx abort) s (s.abandonTx p abort) := by
  cases htx : s.ports[p].tx with
  | idle =>
    have : s.abandonTx p abort = s := by simp only [State.abandonTx, htx]
    rw [this]
    exact .of_same (by simp only [PortState.cutTx, htx])
  | sending e =>
    simp only [State.abandonTx, htx]
    exact (((State.Turns.onPort s p _).congr (by simp only [PortState.cutTx, htx])).flow (State.release_frame _ _)).report e

theorem PortState.flushed_respects : RespectsFlow PortState.flushed := fun _ more => ⟨more, rfl⟩

theorem State.flush_turns (s : State) (p : Port) : State.Turns p PortState.flushed s (s.flush p) := by
  obtain ⟨htables, hevents, hmem, hdue⟩ := s.flush_tables p
  exact ⟨s.flush_port p, s.flush_others p, hevents, hmem, htables.symm, hdue⟩

/-- The port once reception, transmission and queues have been given up (R6 items 1 to 3, R7). -/
def PortState.givenUp (P : PortState) (abort : Bool) : PortState := (P.abandonedRx.cutTx abort).flushed

theorem State.dropLink_turns (s : State) (p : Port) :
    ∃ u, State.Turns p (·.givenUp false) s u ∧ s.dropLink p = u.onPort p PortState.clearFlow := by
  refine ⟨((s.abandonRx p).abandonTx p false).flush p, ?_, rfl⟩
  exact ((State.abandonRx_turns s p).trans (State.abandonTx_turns _ p false) (PortState.cutTx_respects false)).trans
    (State.flush_turns _ p) PortState.flushed_respects

theorem PortState.clearFlow_flowOnly (h : P.FlowOnly Q) : Q.clearFlow = P.clearFlow := by
  obtain ⟨more, rfl⟩ := h
  rfl

/-! ## What is left of a port that gave up what it held -/

theorem PortState.abandonedRx_fields (P : PortState) : ∃ ctr, P.abandonedRx = { P with rx := .idle, ctr := ctr } ∧
    ctr.txAborted = P.ctr.txAborted ∧ ctr.qFlushed = P.ctr.qFlushed ∧ ctr.rxCode = P.ctr.rxCode ∧
    (∀ b n, P.rx = .receiving b n → ctr.rxAborted = bump P.ctr.rxAborted) ∧
    (P.rx = .ignoring .cutOff → ctr.rxLength = bump P.ctr.rxLength) := by
  cases hrx : P.rx with
  | idle => exact ⟨P.ctr, by simp only [PortState.abandonedRx, hrx]; rw [← hrx], rfl, rfl, rfl, by simp, by simp⟩
  | receiving b n =>
    exact ⟨P.ctr.update bump .rxAborted, by simp only [PortState.abandonedRx, hrx]; rfl, rfl, rfl, rfl,
      fun _ _ _ => rfl, by simp⟩
  | ignoring cause =>
    cases cause
    case cutOff =>
      exact ⟨P.ctr.update bump .rxLength, by simp only [PortState.abandonedRx, hrx]; rfl, rfl, rfl, rfl, by simp,
        fun _ => rfl⟩
    all_goals exact ⟨P.ctr, by simp only [PortState.abandonedRx, hrx], rfl, rfl, rfl, by simp, by simp⟩

/-- An abandoned transmission takes the entry being sent, and leaves what waits (R17). -/
theorem PortState.cutTx_waiting (P : PortState) (abort : Bool) (c : Class) : (P.cutTx abort).waiting c = P.waiting c := by
  cases htx : P.tx with
  | idle => simp only [PortState.cutTx, htx]
  | sending e =>
    simp only [PortState.cutTx, htx, PortState.waiting, PortState.sendingMark, PortState.tally_queues,
      PortState.endSending_queues, PortState.tally_tx, PortState.endSending_tx, vset_fin]
    by_cases hc : c = e.hdr.cls
    · subst hc; simp
    · have hne : e.hdr.cls ≠ c := fun k => hc k.symm
      simp [hc, hne]

theorem PortState.cutTx_allWaiting (P : PortState) (abort : Bool) :
    (P.cutTx abort).allWaiting.length = P.allWaiting.length := by
  simp only [PortState.allWaiting_length, PortState.cutTx_waiting]

theorem PortState.cutTx_fields (P : PortState) (abort : Bool) : ∃ queues ctr sent, P.cutTx abort =
    { P with tx := .idle, queues := queues, ctr := ctr, sent := sent } ∧ ctr.qFlushed = P.ctr.qFlushed ∧
    ctr.rxAborted = P.ctr.rxAborted ∧ ctr.rxLength = P.ctr.rxLength ∧ ctr.rxCode = P.ctr.rxCode ∧
    (P.tx = .idle → ctr.txAborted = P.ctr.txAborted ∧ sent = P.sent) ∧
    ∀ e, P.tx = .sending e → ctr.txAborted = bump P.ctr.txAborted ∧
      sent = if abort then P.sent ++ [.abort] else P.sent := by
  cases htx : P.tx with
  | idle =>
    exact ⟨P.queues, P.ctr, P.sent, by simp only [PortState.cutTx, htx]; rw [← htx], rfl, rfl, rfl, rfl,
      fun _ => ⟨rfl, rfl⟩, by simp⟩
  | sending e =>
    exact ⟨(P.dropHead e.hdr.cls).queues, P.ctr.update bump .txAborted, if abort then P.sent ++ [.abort] else P.sent,
      by simp only [PortState.cutTx, htx]; rfl, rfl, rfl, rfl, rfl, by simp, fun _ _ => ⟨rfl, rfl⟩⟩

/-- A port that has given up what it held, and its flow control, holds nothing (R6, R7). -/
structure PortState.Emptied (P Q : PortState) (abort : Bool) : Prop where
  rx       : Q.rx = .idle
  tx       : Q.tx = .idle
  queues   : ∀ c : Class, Q.queues[c] = []
  rest     : Q.link = P.link ∧ Q.validRun = P.validRun ∧ Q.invalidRun = P.invalidRun ∧
               Q.trainingDeadline = P.trainingDeadline ∧ Q.quiet = P.quiet ∧ Q.cfg = P.cfg
  flushed  : Q.ctr.qFlushed = bumpBy P.allWaiting.length P.ctr.qFlushed
  rxCode   : Q.ctr.rxCode = P.ctr.rxCode
  aborted  : ∀ b n, P.rx = .receiving b n → Q.ctr.rxAborted = bump P.ctr.rxAborted
  cutOff   : P.rx = .ignoring .cutOff → Q.ctr.rxLength = bump P.ctr.rxLength
  unsent   : P.tx = .idle → Q.ctr.txAborted = P.ctr.txAborted ∧ Q.sent = P.sent
  sending  : ∀ e, P.tx = .sending e → Q.ctr.txAborted = bump P.ctr.txAborted ∧
               Q.sent = if abort then P.sent ++ [.abort] else P.sent

theorem PortState.givenUp_emptied (P : PortState) (abort : Bool) : P.Emptied (P.givenUp abort) abort := by
  obtain ⟨rctr, hrx, htxa, hqf, hcode, hrec, hcut⟩ := P.abandonedRx_fields
  obtain ⟨queues, ctr, sent, htx, hqf', hra, hrl, hrc, hidle, hsend⟩ := P.abandonedRx.cutTx_fields abort
  have hall : (P.abandonedRx.cutTx abort).allWaiting.length = P.allWaiting.length := by
    rw [PortState.cutTx_allWaiting, hrx]
    rfl
  have hctr : (P.givenUp abort).ctr = (P.abandonedRx.cutTx abort).ctr.update (bumpBy P.allWaiting.length) .qFlushed := by
    rw [PortState.givenUp, PortState.flushed_ctr, hall]
  have hcut' : (P.abandonedRx.cutTx abort).ctr = ctr := by rw [htx]
  have htx0 : (P.abandonedRx.cutTx abort).tx = .idle := by rw [htx]
  have hctr' : P.abandonedRx.ctr = rctr := by rw [hrx]
  have htx' : P.abandonedRx.tx = P.tx := by rw [hrx]
  have hsent' : P.abandonedRx.sent = P.sent := by rw [hrx]
  have hsent : (P.givenUp abort).sent = sent := by rw [PortState.givenUp, PortState.flushed_sent, htx]
  rw [hctr'] at hqf' hra hrl hrc hidle hsend
  rw [htx', hsent'] at hidle hsend
  rw [hcut'] at hctr
  refine ⟨?_, ?_, fun c => PortState.flushed_idle htx0 c, ?_, ?_, ?_, fun b n h => ?_, fun h => ?_, fun h => ?_, fun e h => ?_⟩
  · rw [PortState.givenUp, PortState.flushed_rx, htx, hrx]
  · rw [PortState.givenUp, PortState.flushed_tx, htx]
  · rw [PortState.givenUp, PortState.flushed_link, PortState.flushed_validRun, PortState.flushed_invalidRun,
      PortState.flushed_trainingDeadline, PortState.flushed_quiet, PortState.flushed_cfg, htx, hrx]
    exact ⟨rfl, rfl, rfl, rfl, rfl, rfl⟩
  · rw [hctr, ← hqf, ← hqf']; rfl
  · rw [hctr, ← hcode, ← hrc]; rfl
  · rw [hctr, ← hrec b n h, ← hra]; rfl
  · rw [hctr, ← hcut h, ← hrl]; rfl
  · rw [hctr, hsent, ← htxa]; exact hidle h
  · rw [hctr, hsent, ← htxa]; exact hsend e h

/-! ## The loss of a link (R5, R6) -/

/-- `t` is `s` once port `p` has lost its link for `cause` (R5, R6). -/
structure State.LostLink (p : Port) (cause : BitVec 32) (s t : State) : Prop where
  port   : t.ports[p] = ((s.ports[p].restartLink .down).givenUp false).clearFlow
  others : ∀ q : Port, q ≠ p → (s.ports[q]).FlowOnly (t.ports[q])
  events : (s.raised .portDown (BitVec.ofNat 8 p.val) cause).SameEvents t
  mem    : t.store.mem = s.store.mem
  tables : s.SameTables t
  due    : t.resetDue = s.resetDue

theorem State.linkLoss_lost (hr : s.agent.resetPending = none) (hu : s.Undelivered) (hroom : s.NoticeRoom) (p : Port)
    (cause : BitVec 32) : State.LostLink p cause s (s.linkLoss p cause) := by
  have hdown := State.Turns.onPort s p (·.restartLink .down)
  obtain ⟨hraise, hraised⟩ := State.raise_after hdown.tables hdown.events hu hroom .portDown (BitVec.ofNat 8 p.val) cause
  have hget : ((s.onPort p (·.restartLink .down)).raised .portDown (BitVec.ofNat 8 p.val) cause).ports[p] =
      s.ports[p].restartLink .down := by rw [State.raised_ports, State.onPort_get]
  obtain ⟨u, hturn, hdrop⟩ := ((s.onPort p (·.restartLink .down)).raised .portDown (BitVec.ofNat 8 p.val) cause).dropLink_turns p
  have hloss : s.linkLoss p cause = u.onPort p PortState.clearFlow := by
    rw [State.linkLoss, hraise, hdrop]
  have hport := hturn.port
  rw [hget] at hport
  have hclear := State.Turns.onPort u p PortState.clearFlow
  rw [hloss]
  refine ⟨?_, fun q hq => ?_, (hraised.trans hturn.events).trans hclear.events, hclear.mem.trans (hturn.mem.trans ?_),
    hdown.tables.trans ((State.raised_sameTables _ _ _ _).trans (hturn.tables.trans hclear.tables)), ?_⟩
  · rw [State.onPort_get, PortState.clearFlow_flowOnly hport]
  · have := (hturn.others q hq).trans (hclear.others q hq)
    rw [State.raised_ports] at this
    exact (hdown.others q hq).trans this
  · rw [State.raised_store]; rfl
  · rw [State.onPort_resetDue, hturn.due (by rw [State.raised_agent]; exact hr), State.raised_resetDue]; rfl

/-- A frame being received that an invalid symbol costs (R14). -/
def PortState.coded (P : PortState) : PortState :=
  match P.rx with
  | .receiving _ _ => { P.tally .rxCode with rx := .ignoring .code }
  | .idle => P
  | .ignoring _ => P

theorem State.codeError_turns (s : State) (p : Port) : State.Turns p PortState.coded s (s.codeError p) := by
  cases hrx : s.ports[p].rx with
  | receiving b n =>
    rw [State.codeError_receiving hrx]
    exact ((State.Turns.onPort s p _).congr (by simp only [PortState.coded, hrx])).flow (State.release_frame _ b)
  | idle | ignoring cause =>
    have : s.codeError p = s := by simp only [State.codeError, hrx]
    rw [this]
    exact .of_same (by simp only [PortState.coded, hrx])

/-! ### The two ways in which an UP port loses its link (R5) -/

/-- The part before an UP port loses its link: the invalid symbol has cost a frame and been counted, or silence been marked. -/
theorem exec_loseLink {c : Instr} {cause : BitVec 32} (hc : (c = .rxInvalidSymbol p ∧ s.ports[p].invalidRun = 3 ∧ cause = 1) ∨
    (c = .signalTimeout p ∧ cause = 2)) (h : s.Listens p) :
    ∃ u f, State.Turns p f s u ∧ exec c s = .next (u.linkLoss p cause).finish ∧
      ((c = .rxInvalidSymbol p ∧ f = fun P => { P.coded with invalidRun := P.coded.invalidRun + 1 }) ∨
        (c = .signalTimeout p ∧ f = fun P => { P with quiet := true })) := by
  obtain ⟨rfl, hrun, rfl⟩ | ⟨rfl, rfl⟩ := hc
  · refine ⟨(s.codeError p).onPort p fun P => { P with invalidRun := P.invalidRun + 1 },
      fun P => { P.coded with invalidRun := P.coded.invalidRun + 1 },
      (State.codeError_turns s p).trans
        (State.Turns.onPort (s.codeError p) p fun P => { P with invalidRun := P.invalidRun + 1 }) fun P more => ⟨more, rfl⟩,
      ?_, .inl ⟨rfl, rfl⟩⟩
    have hlost : s.invalidInUp p =
        ((s.codeError p).onPort p fun P => { P with invalidRun := P.invalidRun + 1 }).linkLoss p 1 := by
      rw [State.invalidInUp]
      exact if_pos (by omega)
    show execRxInvalidSymbol p s = _
    simp only [execRxInvalidSymbol, h.started, h.up, hlost]
    rfl
  · refine ⟨s.onPort p fun P => { P with quiet := true }, fun P => { P with quiet := true }, State.Turns.onPort s p _, ?_,
      .inr ⟨rfl, rfl⟩⟩
    show execSignalTimeout p s = _
    simp only [execSignalTimeout, h.started, h.up]
    rfl

theorem PortState.allWaiting_congr (hq : Q.queues = P.queues) (ht : Q.tx = P.tx) : Q.allWaiting = P.allWaiting := by
  cases P
  cases Q
  cases hq
  cases ht
  rfl

/-- `R` is port `P` just before its link is lost to `c` (R5, R14). -/
structure PortState.Losing (c : Instr) (p : Port) (P R : PortState) : Prop where
  same    : R.tx = P.tx ∧ R.queues = P.queues ∧ R.sent = P.sent ∧ R.cfg = P.cfg ∧ R.ctr.qFlushed = P.ctr.qFlushed ∧
              R.ctr.txAborted = P.ctr.txAborted
  silence : ∀ b n, P.rx = .receiving b n → c = .signalTimeout p →
              R.rx = .receiving b n ∧ R.ctr.rxAborted = P.ctr.rxAborted
  code    : ∀ b n, P.rx = .receiving b n → c = .rxInvalidSymbol p → R.ctr.rxCode = bump P.ctr.rxCode
  cutOff  : P.rx = .ignoring .cutOff → R.rx = .ignoring .cutOff ∧ R.ctr.rxLength = P.ctr.rxLength

theorem PortState.losing_silence (P : PortState) : P.Losing (.signalTimeout p) p { P with quiet := true } :=
  ⟨⟨rfl, rfl, rfl, rfl, rfl, rfl⟩, fun _ _ h _ => ⟨h, rfl⟩, fun _ _ _ h => (nomatch h), fun h => ⟨h, rfl⟩⟩

theorem PortState.losing_code (P : PortState) :
    P.Losing (.rxInvalidSymbol p) p { P.coded with invalidRun := P.coded.invalidRun + 1 } := by
  cases hrx : P.rx with
  | receiving b n =>
    simp only [PortState.coded, hrx]
    exact ⟨⟨rfl, rfl, rfl, rfl, rfl, rfl⟩, fun _ _ _ h => (nomatch h), fun _ _ _ _ => rfl,
      fun h => (nomatch hrx.symm.trans h)⟩
  | idle =>
    simp only [PortState.coded, hrx]
    exact ⟨⟨rfl, rfl, rfl, rfl, rfl, rfl⟩, fun _ _ _ h => (nomatch h), fun _ _ h => (nomatch hrx.symm.trans h),
      fun h => (nomatch hrx.symm.trans h)⟩
  | ignoring cause =>
    simp only [PortState.coded, hrx]
    exact ⟨⟨rfl, rfl, rfl, rfl, rfl, rfl⟩, fun _ _ _ h => (nomatch h), fun _ _ h => (nomatch hrx.symm.trans h),
      fun h => ⟨hrx.symm.trans h, rfl⟩⟩

/-- What is left of a port whose link has been lost (R5, R6). -/
theorem PortState.Losing.lost {R T : PortState} {c : Instr} (h : P.Losing c p R)
    (hT : T = ((R.restartLink .down).givenUp false).clearFlow) :
    T.link = .down ∧ T.Quiescent ∧ T.trainingDeadline = none ∧ T.validRun = 0 ∧ T.invalidRun = 0 ∧ T.cfg = P.cfg ∧
      T.sent = P.sent ∧ T.ctr.qFlushed = bumpBy P.allWaiting.length P.ctr.qFlushed ∧
      (P.tx = .idle → T.ctr.txAborted = P.ctr.txAborted) ∧
      (∀ e, P.tx = .sending e → T.ctr.txAborted = bump P.ctr.txAborted) ∧
      (∀ b n, P.rx = .receiving b n → c = .signalTimeout p → T.ctr.rxAborted = bump P.ctr.rxAborted) ∧
      (∀ b n, P.rx = .receiving b n → c = .rxInvalidSymbol p → T.ctr.rxCode = bump P.ctr.rxCode) ∧
      (P.rx = .ignoring .cutOff → T.ctr.rxLength = bump P.ctr.rxLength) := by
  obtain ⟨htx, hqueues, hsent, hcfg, hflushed, haborted⟩ := h.same
  have hE := (R.restartLink .down).givenUp_emptied false
  have hall : (R.restartLink .down).allWaiting = P.allWaiting := PortState.allWaiting_congr hqueues htx
  generalize (R.restartLink .down).givenUp false = E at hE hT
  obtain ⟨hlink, hvalid, hinvalid, htrain, -, hcfg'⟩ := hE.rest
  subst hT
  refine ⟨hlink, ⟨hE.rx, hE.tx, hE.queues, rfl, rfl, rfl⟩, htrain, hvalid, hinvalid, hcfg'.trans hcfg, ?_, ?_,
    fun hidle => ?_, fun e he => ?_, fun b n hb hc => ?_, fun b n hb hc => ?_, fun hcut => ?_⟩
  · cases hP : P.tx with
    | idle => exact (hE.unsent (htx.trans hP)).2.trans hsent
    | sending e => exact (hE.sending e (htx.trans hP)).2.trans hsent
  · rw [← hall, ← hflushed]; exact hE.flushed
  · exact (hE.unsent (htx.trans hidle)).1.trans haborted
  · rw [← haborted]; exact (hE.sending e (htx.trans he)).1
  · obtain ⟨hR, hctr⟩ := h.silence b n hb hc
    rw [← hctr]; exact hE.aborted b n hR
  · rw [← h.code b n hb hc]; exact hE.rxCode
  · obtain ⟨hR, hctr⟩ := h.cutOff hcut
    rw [← hctr]; exact hE.cutOff hR

/-- Settles O6: what precedes the loss, the raise, and the effects of R6 in their order. -/
theorem linkLossTakesPortDown : Obligations.LinkLossTakesPortDown := by
  unfold Obligations.LinkLossTakesPortDown
  intro c cause p s hc h hr hu hroom
  obtain ⟨u, f, hturn, hexec, hf⟩ := exec_loseLink hc h
  obtain ⟨htables, hevents⟩ := And.intro hturn.tables hturn.events
  obtain ⟨-, -, hnow, -, -, -, -, hagent, -, -, hwait⟩ := htables
  have hlost := State.linkLoss_lost (hturn.settled hr) (hu.of_same hagent hevents.1) (hroom.of_same hevents.1) p cause
  generalize u.linkLoss p cause = t at hexec hlost
  have hlosing : (s.ports[p]).Losing c p (f s.ports[p]) := by
    rcases hf with ⟨rfl, rfl⟩ | ⟨rfl, rfl⟩
    · exact PortState.losing_code _
    · exact PortState.losing_silence _
  have hports : ∀ R : PortState, (f s.ports[p]).FlowOnly R → (s.ports[p]).Losing c p R := by
    rintro R ⟨more, rfl⟩
    exact ⟨hlosing.same, hlosing.silence, hlosing.code, hlosing.cutOff⟩
  have hdue : t.resetDue = false := hlost.due.trans ((hturn.due hr).trans h.settled)
  obtain ⟨h1, h2, h3, h4, h5, h6, h7, h8, h9, h10, h11, h12, h13⟩ := (hports _ hturn.port).lost hlost.port
  have hraised := State.raised_eq (s := s) (u := u) ⟨hnow, hwait, hevents.1, hevents.2⟩ .portDown (BitVec.ofNat 8 p.val) cause
  refine ⟨t, by rw [hexec, State.finish_of_settled _ hdue], h1, h2, h3, h4, h5, h6, h7, h8, h9, h10, h11, h12, h13,
    fun q hq => (hturn.others q hq).trans (hlost.others q hq), ?_, hlost.mem.trans hturn.mem, hturn.tables.trans hlost.tables⟩
  have hsame : (s.raised .portDown (BitVec.ofNat 8 p.val) cause).SameEvents (u.raised .portDown (BitVec.ofNat 8 p.val) cause) := by
    rw [hraised]
    exact ⟨rfl, rfl⟩
  exact hsame.trans hlost.events

/-! ## Entry to UP (R4) -/

theorem exec_trainingDeadline_due {d : Tick} (hl : s.ports[p].link = .training)
    (hd : s.ports[p].trainingDeadline = some d) (hx : reached s.now d = true) : exec (.trainingDeadline p) s =
      .next ((((s.onPort p (·.enterUp s.store.episode)).raise .portUp (BitVec.ofNat 8 p.val) 0).askNext p).finish) := by
  show Host.Outcome.next (s.takeTrainingDeadline p) = _
  rw [State.takeTrainingDeadline, if_pos ⟨hl, by rw [hd]; exact hx⟩]

/-- A transmitter with nothing in its queues takes nothing (R15). -/
theorem State.askNext_empty (h : ∀ c : Class, s.ports[p].queues[c] = []) : s.askNext p = s := by
  have hzero : s.ports[p].entries = 0 := by
    unfold PortState.entries
    rw [h, h, h, h]
    rfl
  rw [State.askNext]
  split
  · rw [hzero]; rfl
  · rfl

/-- Settles O5: the port's entry to UP, the raise, and an offer of nothing. -/
theorem trainingDeadlineEntersUp : Obligations.TrainingDeadlineEntersUp := by
  unfold Obligations.TrainingDeadlineEntersUp
  intro p s d hl hd hx hlaw hdue hu hroom
  have hup := State.Turns.onPort s p (·.enterUp s.store.episode)
  obtain ⟨hraise, -⟩ := State.raise_after hup.tables hup.events hu hroom .portUp (BitVec.ofNat 8 p.val) 0
  have hraised := State.raised_eq (s := s) (u := s.onPort p (·.enterUp s.store.episode)) ⟨rfl, rfl, rfl, rfl⟩ .portUp
    (BitVec.ofNat 8 p.val) 0
  have hempty : ∀ c : Class,
      ((s.onPort p (·.enterUp s.store.episode)).raised .portUp (BitVec.ofNat 8 p.val) 0).ports[p].queues[c] = [] := by
    intro c
    obtain ⟨-, -, -, -, -, hout⟩ := (hlaw p).2.1
    obtain ⟨-, -, hqueues, -⟩ := hout (by rw [hl]; decide)
    rw [State.raised_ports, State.onPort_get]
    exact hqueues c
  rw [exec_trainingDeadline_due hl hd hx, hraise, State.askNext_empty hempty,
    State.finish_of_settled _ (by rw [State.raised_resetDue]; exact hdue), hraised]
  refine congrArg Host.Outcome.next ?_
  rw [State.raised_rest s]
  cases hep : s.store.episode <;> rfl

end

end Sys2Proof.Machine
end

