-- ==== Sys2Proof/Proofs/Operands.lean ====
section
/-! PROOF. Argument fields read back: what each parser of chapter 11 makes of the bytes that the same field is written
as, and O49. -/

namespace Sys2Proof.Machine

/-! ## Single bytes -/

@[simp] theorem arg_cons_zero (x : Byte) (args : List Byte) : arg (x :: args) 0 = x := rfl

@[simp] theorem arg_cons_succ (x : Byte) (args : List Byte) (k : Nat) : arg (x :: args) (k + 1) = arg args k := rfl

theorem arg_append_left {xs : List Byte} {k : Nat} (h : k < xs.length) (ys : List Byte) :
    arg (xs ++ ys) k = arg xs k := by
  simp [arg, h, List.getElem?_append_left]

theorem arg_append_length (xs ys : List Byte) (k : Nat) : arg (xs ++ ys) (xs.length + k) = arg ys k := by
  simp [arg, List.getElem?_append_right]

theorem toNat_numByte {k : Nat} (h : k < 256) : (BitVec.ofNat 8 k).toNat = k := by
  rw [BitVec.toNat_ofNat, Nat.mod_eq_of_lt h]

/-- A number below its bound is read back from its byte. -/
theorem below_ofNat {n k : Nat} (h : k < n) (hn : n ≤ 256) : below n (BitVec.ofNat 8 k) = some ⟨k, h⟩ := by
  have hk := toNat_numByte (Nat.lt_of_lt_of_le h hn)
  simp only [below, hk, h, dif_pos]

theorem below_val {n : Nat} (i : Fin n) (hn : n ≤ 256) : below n (BitVec.ofNat 8 i.val) = some i := below_ofNat i.isLt hn

/-- A number at its bound or above names nothing. -/
theorem below_none {n k : Nat} (h : n ≤ k) (hk : k < 256) : below n (BitVec.ofNat 8 k) = none := by
  rw [below, dif_neg]
  rw [toNat_numByte hk]
  omega

/-! ## Bytes with a mark in bit 7 (R186) -/

theorem marked_msb (x : Byte) : (0x80#8 ||| x).msb = true := by
  rw [BitVec.msb_or]
  rfl

theorem marked_low {k : Nat} (h : k < 128) : (0x80#8 ||| BitVec.ofNat 8 k) &&& 0x7F = BitVec.ofNat 8 k := by
  have hall : ∀ x : BitVec 7, (0x80#8 ||| x.setWidth 8) &&& 0x7F = x.setWidth 8 := by decide
  have hx : (BitVec.ofNat 7 k).setWidth 8 = BitVec.ofNat 8 k := by
    apply BitVec.eq_of_toNat_eq
    rw [BitVec.toNat_setWidth, BitVec.toNat_ofNat, BitVec.toNat_ofNat, Nat.mod_eq_of_lt h]
  rw [← hx]
  exact hall _

/-- A number below 128 is read back under its mark. -/
theorem below_marked {n : Nat} (i : Fin n) (hn : n ≤ 128) :
    below n ((0x80#8 ||| BitVec.ofNat 8 i.val) &&& 0x7F) = some i := by
  rw [marked_low (Nat.lt_of_lt_of_le i.isLt hn)]
  exact below_val i (Nat.le_trans hn (by omega))

theorem parsePart_partByte {n : Nat} (x : Option (Fin n)) (hn : n ≤ 128) : parsePart n (partByte x) = some x := by
  cases x with
  | none => exact if_neg (by decide : ¬ (0 : Byte).msb = true)
  | some i =>
    rw [parsePart, partByte, numByte, if_pos (marked_msb _), below_marked i hn]
    rfl

theorem parseClassPolicy_byte (x : ClassPolicy) : parseClassPolicy x.byte = some x := by
  cases x with
  | keep => rfl
  | set c =>
    rw [parseClassPolicy, ClassPolicy.byte, numByte, if_pos (marked_msb _), below_marked c (by omega)]
    rfl

theorem parseAgePolicy_byte (x : AgePolicy) : parseAgePolicy x.byte = some x := by
  cases x with
  | decrement => rfl
  | keep => rfl
  | set a =>
    have hall : ∀ a : BitVec 4, parseAgePolicy (AgePolicy.set a).byte = some (.set a) := by decide
    exact hall a

/-- A dispatch part the table may hold is read back from its two bytes (R61, R186). -/
theorem parseDispatch_dispatchBytes {x : Option DispatchPart} (h : x.all DispatchPart.wf = true) :
    parseDispatch (arg (dispatchBytes x) 0) (arg (dispatchBytes x) 1) = some x := by
  cases x with
  | none => rfl
  | some d =>
    have hmask : ∀ m : BitVec 4, m ≠ 0 → (1 ≤ (m.setWidth 8 : Byte).toNat ∧ (m.setWidth 8 : Byte).toNat ≤ 15) ∧
        (m.setWidth 8 : Byte).extractLsb' 0 4 = m := by decide
    have hd : d.mask ≠ 0 := by simpa [DispatchPart.wf] using h
    obtain ⟨hrange, hlow⟩ := hmask d.mask hd
    have hoffset : below 64 ((0x80#8 ||| BitVec.ofNat 8 d.offset.val) &&& 0x7F) = some d.offset :=
      below_marked _ (by omega)
    simp only [dispatchBytes, arg_cons_zero, arg_cons_succ, parseDispatch, numByte, marked_msb, if_true, hoffset,
      if_pos hrange, hlow]

/-! ## Records (R40, R61) -/

theorem portSetByte_low (m : PortSet) : (portSetByte m).extractLsb' 0 4 = m := by
  have hall : ∀ m : BitVec 4, (m.setWidth 8 : Byte).extractLsb' 0 4 = m := by decide
  exact hall m

theorem boolByte_bit (b : Bool) : (boolByte b).getLsbD 0 = b := by cases b <;> rfl

/-- An entry whose valid byte says no is the cleared one, whatever its other bytes (R40; log entry 17). -/
theorem parseRouteEntry_invalid {args : List Byte} {k : Nat} (h : (arg args k).getLsbD 0 = false) :
    parseRouteEntry args k = some .cleared := by
  rw [parseRouteEntry, if_pos h]

/-- A valid entry the table may hold is read back from its ten bytes (R40, R186). -/
theorem parseRouteEntry_bytes {e : RouteEntry} (h : e.wf = true) : parseRouteEntry e.bytes 0 = some e := by
  cases hv : e.valid with
  | false =>
    have hcleared : e = .cleared := by simpa [RouteEntry.wf, hv] using h
    rw [parseRouteEntry_invalid (by simp [RouteEntry.bytes, hv, boolByte]), hcleared]
  | true =>
    have haccepted : e.accepted = true := by
      have hne : e ≠ .cleared := by rintro rfl; cases hv
      simpa [RouteEntry.wf, hv, hne] using h
    have hclass : below 4 (numByte e.minClass.val) = some e.minClass := below_val _ (by omega)
    have haction : below 128 (numByte e.action.val) = some e.action := below_val _ (by omega)
    simp only [parseRouteEntry, RouteEntry.bytes, bytes16, List.cons_append, List.nil_append, arg16, arg_cons_zero,
      arg_cons_succ, boolByte_bit, hv, hclass, haction, portSetByte_low, word16_extractLsb', Nat.zero_add,
      Bool.true_eq_false, if_false]
    have he : { e with valid := true } = e := by rw [← hv]
    rw [he, if_pos haccepted]

theorem ActionRecord.byte0_bits (r : ActionRecord) :
    r.byte0.getLsbD 0 = decide (r.disposition = .forward) ∧ r.byte0.getLsbD 1 = r.labelRewrite.isSome := by
  have hall : ∀ x y : Bool, (boolByte x ||| (boolByte y <<< 1)).getLsbD 0 = x ∧
      (boolByte x ||| (boolByte y <<< 1)).getLsbD 1 = y := by decide
  exact hall _ _

/-- An action record the table may hold is read back from its ten bytes (R61, R186). -/
theorem parseActionRecord_bytes {r : ActionRecord} (h : r.wf = true) : parseActionRecord r.bytes 0 = some r := by
  obtain ⟨hbit0, hbit1⟩ := r.byte0_bits
  have hdisposition : (if r.byte0.getLsbD 0 then Disposition.forward else .drop) = r.disposition := by
    rw [hbit0]; cases r.disposition <;> rfl
  have hlabel : (if r.byte0.getLsbD 1 then some (r.labelRewrite.getD 0) else none) = r.labelRewrite := by
    rw [hbit1]; cases r.labelRewrite <;> rfl
  simp only [parseActionRecord, ActionRecord.bytes, bytes16, List.cons_append, List.nil_append, arg16, arg_cons_zero,
    arg_cons_succ, Nat.zero_add, word16_extractLsb', parseClassPolicy_byte, parseAgePolicy_byte,
    parsePart_partByte _ (by omega : 32 ≤ 128), parseDispatch_dispatchBytes (x := r.dispatch) h, portSetByte_low, hlabel,
    Option.bind_eq_bind, Option.bind_some]
  exact congrArg (fun d => some { r with disposition := d }) hdisposition

/-- Settles O49: each field of a record is read back from the bytes it is written as. -/
theorem recordsReadBackAsWritten : Obligations.RecordsReadBackAsWritten := by
  unfold Obligations.RecordsReadBackAsWritten
  exact ⟨fun _ => parseRouteEntry_bytes, fun _ => parseActionRecord_bytes⟩

end Sys2Proof.Machine
end

