-- ==== Sys2Proof/Proofs/Reads.lean ====
section
/-! PROOF. The unsessioned reads (R144, R153, R155, R158, R161, R164): what the body of each answers, and O34 and O35. -/

namespace Sys2Proof.Machine

/-! ## The row of an unsessioned read (R134, R144) -/

section
variable {s : State} {v : RequestView} {rest : List Request} {c : Command} {body : Body} {r : Reply}

/-- A ready request served by a body that only reads: the answer, and no session field touched. -/
theorem State.serveRead_answered (hr : s.Ready v rest) {mine : RequestView → Bool} (hm : mine v = true)
    (hl : v.args.length = c.argBytes)
    (hb : body v.args (s.beginRequest v.req rest) = (s.beginRequest v.req rest, r)) (hlen : r.results.length ≤ 60) :
    ∃ t, (.next (s.takeRequest mine (State.serveRead c body)).finish : Answer State) = .next t ∧
      State.Answered (s.unexecuted rest) t v (v.response r.status r.results) := by
  have hanswered := State.answer_unexecuted hr r.status r.results hlen
  have hserve : s.takeRequest mine (State.serveRead c body) =
      (s.beginRequest v.req rest).answer v r.status r.results := by
    rw [State.takeRequest_ready hr _ _ hm, State.serveRead, Body.checked, if_pos hl, hb]
  refine ⟨_, ?_, hanswered⟩
  rw [hserve, State.finish_of_settled _ (hanswered.settled.trans hr.settled)]

/-- The row of an unsessioned read, by its opcode. -/
theorem State.readRow_answered (hr : s.Ready v rest) {op : Byte} (ho : v.opcode = op) (hc : commandOf op = some c)
    (hl : v.args.length = c.argBytes)
    (hb : body v.args (s.beginRequest v.req rest) = (s.beginRequest v.req rest, r)) (hlen : r.results.length ≤ 60) :
    ∃ t, s.readRow c body = .next t ∧ State.Answered (s.unexecuted rest) t v (v.response r.status r.results) :=
  State.serveRead_answered hr (mine := (·.names c)) (RequestView.names_of_opcode ho hc) hl hb hlen

end

/-! ## The bodies -/

theorem length_flatMap_eq {α : Type} {f : α → List Byte} {n : Nat} (h : ∀ x, (f x).length = n) (l : List α) :
    (l.flatMap f).length = l.length * n := by
  simp [List.length_flatMap, h]

theorem RouteEntry.length_bytes (e : RouteEntry) : e.bytes.length = 10 := rfl

theorem ActionRecord.length_bytes (r : ActionRecord) : r.bytes.length = 10 := by
  cases hd : r.dispatch <;> simp [ActionRecord.bytes, hd, dispatchBytes, bytes16]

theorem Slot.length_bytes (x : Slot) : x.bytes.length = 26 := by
  cases hh : x.held <;> simp [Slot.bytes, hh, heldBytes, bytes16, bytes32, length_deadlineBytes]

theorem PortState.length_bytes (P : PortState) : P.bytes.length = 19 := by
  simp [PortState.bytes, bytes16, length_flatMap_eq (f := bytes16) length_bytes16]

section
variable {s : State} {args : List Byte}

theorem readRouteBody_busy (hrole : parseRole (arg args 0) = some .staging) (hs : s.route.staging = .copying) :
    readRouteBody args s = (s, .refuse .busy) := by
  simp only [readRouteBody, hrole]
  exact if_pos ⟨trivial, hs⟩

theorem readRouteBody_entries {role : BankRole} {first count : Nat} (hrole : parseRole (arg args 0) = some role)
    (hs : role = .active ∨ s.route.staging ≠ .copying) (hfirst : (arg args 1).toNat = first)
    (hcount : (arg args 2).toNat = count) (h1 : 1 ≤ count) (h6 : count ≤ 6) (hend : first + count ≤ 64) :
    readRouteBody args s =
      (s, .ok ((((s.route.byRole role).toList.drop first).take count).flatMap RouteEntry.bytes)) := by
  have hbusy : ¬ (role = .staging ∧ s.route.staging = .copying) := by
    rintro ⟨rfl, hcopying⟩
    cases hs with
    | inl h => cases h
    | inr h => exact h hcopying
  have hrange : ¬ (63 < first ∨ count = 0 ∨ 6 < count ∨ 64 < first + count) := by omega
  simp only [readRouteBody, hrole, if_neg hbusy, hfirst, hcount, if_neg hrange]

theorem readActionBody_entries {first count : Nat} (hfirst : (arg args 0).toNat = first)
    (hcount : (arg args 1).toNat = count) (h1 : 1 ≤ count) (h4 : count ≤ 4) (hend : first + count ≤ 128) :
    readActionBody args s =
      (s, .ok ((((List.finRange 128).drop first).take count).flatMap s.action.entryBytes)) := by
  have hrange : ¬ (127 < first ∨ count = 0 ∨ 4 < count ∨ 128 < first + count) := by omega
  simp only [readActionBody, hfirst, hcount, if_neg hrange]

end

theorem parseRole_byte (role : BankRole) :
    parseRole (match role with | .active => 0 | .staging => 1) = some role := by
  cases role <;> rfl

/-- Settles O34: each read's body answers what stands, and its row touches nothing else. -/
theorem tableReadsAnswerWhatStands : Obligations.TableReadsAnswerWhatStands := by
  unfold Obligations.TableReadsAnswerWhatStands
  intro s v rest hr
  refine ⟨fun hop hargs => ?identify, fun role first count hop hargs h1 h6 hend => ⟨fun hs => ?entries, fun hrole hs => ?busy⟩,
    fun first count hop hargs h1 h4 hend => ?records⟩
  case identify =>
    have hlen : s.identityBytes.length ≤ 60 := by
      simp [State.identityBytes, bytes16, bytes32, length_deadlineBytes]
    exact State.readRow_answered hr (c := .identify) (body := identifyBody) (r := .ok s.identityBytes) hop rfl
      (by rw [hargs]; rfl) rfl hlen
  case entries =>
    have hlen : ((((s.route.byRole role).toList.drop first).take count).flatMap RouteEntry.bytes).length ≤ 60 := by
      rw [length_flatMap_eq RouteEntry.length_bytes, List.length_take]
      omega
    exact State.readRow_answered hr (c := .readRoute) (body := readRouteBody) (r := .ok _) hop rfl (by rw [hargs]; rfl)
      (readRouteBody_entries (s := s.beginRequest v.req rest) (by rw [hargs]; exact parseRole_byte role) hs
        (by rw [hargs]; exact toNat_numByte (by omega)) (by rw [hargs]; exact toNat_numByte (by omega)) h1 h6 hend) hlen
  case busy =>
    exact State.readRow_answered hr (c := .readRoute) (body := readRouteBody) (r := .refuse .busy) hop rfl
      (by rw [hargs]; rfl)
      (readRouteBody_busy (s := s.beginRequest v.req rest) (by rw [hargs, hrole]; rfl) hs) (by simp [Reply.refuse])
  case records =>
    have hlen : ((((List.finRange 128).drop first).take count).flatMap s.action.entryBytes).length ≤ 60 := by
      have hentry : ∀ i, (s.action.entryBytes i).length = 14 := fun i => by
        simp [ActionTable.entryBytes, ActionRecord.length_bytes, bytes32]
      rw [length_flatMap_eq hentry, List.length_take]
      omega
    exact State.readRow_answered hr (c := .readAction) (body := readActionBody) (r := .ok _) hop rfl
      (by rw [hargs]; rfl)
      (readActionBody_entries (s := s.beginRequest v.req rest) (by rw [hargs]; exact toNat_numByte (by omega))
        (by rw [hargs]; exact toNat_numByte (by omega)) h1 h4 hend) hlen

/-! ## Reads by number (R88, R110, R118, R164) -/

/-- What a read by number answers: the record named, or RANGE without results. -/
def readReply {n : Nat} (bytes : Fin n → List Byte) (k : Nat) : Reply :=
  if h : k < n then .ok (bytes ⟨k, h⟩) else .refuse .range

/-- The byte of `k`, read as a number below `n`: a record where there is one of that number, and none otherwise. -/
theorem readReply_below {n : Nat} (bytes : Fin n → List Byte) {k : Nat} (hk : k < 256) (hn : n ≤ 256) :
    (∃ i, below n (BitVec.ofNat 8 k) = some i ∧ readReply bytes k = .ok (bytes i)) ∨
      below n (BitVec.ofNat 8 k) = none ∧ readReply bytes k = .refuse .range := by
  by_cases h : k < n
  · exact .inl ⟨⟨k, h⟩, below_ofNat h hn, dif_pos h⟩
  · exact .inr ⟨below_none (Nat.le_of_not_lt h) hk, dif_neg h⟩

theorem readReply_response {n : Nat} (bytes : Fin n → List Byte) (k : Nat) (v : RequestView) :
    v.response (readReply bytes k).status (readReply bytes k).results =
      if h : k < n then v.response .ok (bytes ⟨k, h⟩) else v.response .range [] := by
  unfold readReply
  split <;> rfl

theorem readReply_length {n : Nat} {bytes : Fin n → List Byte} (h : ∀ i, (bytes i).length ≤ 60) (k : Nat) :
    (readReply bytes k).results.length ≤ 60 := by
  unfold readReply
  split
  · exact h _
  · exact Nat.zero_le _

section
variable {s : State} {k : Nat}

theorem readBucketBody_number (hk : k < 256) :
    readBucketBody [BitVec.ofNat 8 k] s = (s, readReply (fun n : BucketNo => s.buckets[n].bytes) k) := by
  rcases readReply_below (fun n : BucketNo => s.buckets[n].bytes) hk (by omega) with ⟨i, hi, hreply⟩ | ⟨hi, hreply⟩
  · simp only [readBucketBody, arg_cons_zero, hi, hreply]
  · simp only [readBucketBody, arg_cons_zero, hi, hreply]

theorem readSlotBody_number (hk : k < 256) :
    readSlotBody [BitVec.ofNat 8 k] s = (s, readReply (fun n : SlotNo => s.slots[n].bytes) k) := by
  rcases readReply_below (fun n : SlotNo => s.slots[n].bytes) hk (by omega) with ⟨i, hi, hreply⟩ | ⟨hi, hreply⟩
  · simp only [readSlotBody, arg_cons_zero, hi, hreply]
  · simp only [readSlotBody, arg_cons_zero, hi, hreply]

theorem readPortBody_number (hk : k < 256) :
    readPortBody [BitVec.ofNat 8 k] s = (s, readReply (fun p : Port => s.ports[p].bytes) k) := by
  rcases readReply_below (fun p : Port => s.ports[p].bytes) hk (by omega) with ⟨i, hi, hreply⟩ | ⟨hi, hreply⟩
  · simp only [readPortBody, arg_cons_zero, hi, hreply]
  · simp only [readPortBody, arg_cons_zero, hi, hreply]

end

/-! ## Counter groups (R164) -/

/-- The kind byte and the number byte of a counter group. -/
def CounterGroup.name : CounterGroup → Byte × Byte
  | .port p => (0x00, BitVec.ofNat 8 p.val)
  | .device => (0x01, 0x00)
  | .bucket n => (0x02, BitVec.ofNat 8 n.val)
  | .slot n => (0x03, BitVec.ofNat 8 n.val)

theorem parseGroup_name (g : CounterGroup) : parseGroup g.name.1 g.name.2 = some g := by
  cases g with
  | port p => exact congrArg (Option.map CounterGroup.port) (below_val p (by omega))
  | device => rfl
  | bucket n => exact congrArg (Option.map CounterGroup.bucket) (below_val n (by omega))
  | slot n => exact congrArg (Option.map CounterGroup.slot) (below_val n (by omega))

/-- A kind that is none of the four, and a number its kind does not have, name no group. -/
theorem parseGroup_none {k number : Nat} (hk : k < 256) (hn : number < 256)
    (h : (k = 0 ∧ 3 < number) ∨ (k = 1 ∧ number ≠ 0) ∨ ((k = 2 ∨ k = 3) ∧ 31 < number) ∨ 3 < k) :
    parseGroup (BitVec.ofNat 8 k) (BitVec.ofNat 8 number) = none := by
  have hkind : ∀ j : Nat, j < 256 → (BitVec.ofNat 8 k = BitVec.ofNat 8 j ↔ k = j) := fun j hj =>
    ⟨fun he => by rw [← toNat_numByte hk, he, toNat_numByte hj], fun he => by rw [he]⟩
  rcases h with ⟨rfl, hnum⟩ | ⟨rfl, hnum⟩ | ⟨rfl | rfl, hnum⟩ | hbig
  · exact congrArg (Option.map CounterGroup.port) (below_none (by omega) hn)
  · have hne : ¬ BitVec.ofNat 8 number = 0 := fun he => hnum (by rw [← toNat_numByte hn, he]; rfl)
    exact if_neg hne
  · exact congrArg (Option.map CounterGroup.bucket) (below_none (by omega) hn)
  · exact congrArg (Option.map CounterGroup.slot) (below_none (by omega) hn)
  · have hne : ∀ j : Nat, j ≤ 3 → ¬ BitVec.ofNat 8 k = BitVec.ofNat 8 j := fun j hj he => by
      have := (hkind j (by omega)).1 he
      omega
    exact (if_neg (hne 0 (by omega))).trans ((if_neg (hne 1 (by omega))).trans
      ((if_neg (hne 2 (by omega))).trans (if_neg (hne 3 (by omega)))))

theorem readCountersBody_group {s : State} {args : List Byte} {g : CounterGroup}
    (h : parseGroup (arg args 0) (arg args 1) = some g) :
    readCountersBody args s = (s, .ok ((s.counters g).flatMap bytes32)) := by
  rw [readCountersBody, h]

theorem readCountersBody_range {s : State} {args : List Byte} (h : parseGroup (arg args 0) (arg args 1) = none) :
    readCountersBody args s = (s, .refuse .range) := by
  rw [readCountersBody, h]

/-- The row of READ COUNTERS takes a request of three argument bytes whose flag is 00h as a read (R185). -/
theorem State.readCounters_answered {s : State} {v : RequestView} {rest : List Request} {kind number : Byte} {r : Reply}
    (hr : s.Ready v rest) (ho : v.opcode = 0x38) (ha : v.args = [kind, number, 0x00])
    (hb : readCountersBody v.args (s.beginRequest v.req rest) = (s.beginRequest v.req rest, r))
    (hlen : r.results.length ≤ 60) :
    ∃ t, exec .readCounters s = .next t ∧
      State.Answered (s.unexecuted rest) t v (v.response r.status r.results) := by
  have hmine : (fun v : RequestView => v.names .readCounters && v.readsOnly) v = true := by
    have hn : v.names .readCounters = true := RequestView.names_of_opcode ho rfl
    have hf : v.readsOnly = true := by rw [RequestView.readsOnly, ha]; rfl
    simp only [hn, hf, Bool.and_self]
  exact State.serveRead_answered hr hmine (by rw [ha]; rfl) hb hlen

/-- Settles O35: a number in range names its record or group, and any other is refused with RANGE. -/
theorem recordReadsAnswerWhatStands : Obligations.RecordReadsAnswerWhatStands := by
  unfold Obligations.RecordReadsAnswerWhatStands
  intro s v rest k hr hk
  refine ⟨fun hargs => ⟨fun hop => ?bucket, fun hop => ?slot, fun hop => ?port⟩,
    fun number hop hargs hn h => ?range, fun g hop hargs => ?group⟩
  case bucket =>
    have hlen := readReply_length (bytes := fun n : BucketNo => s.buckets[n].bytes) (fun n => by
      simp [Bucket.bytes, bytes16]) k
    have hreply := readReply_response (fun n : BucketNo => s.buckets[n].bytes) k v
    simp only [Fin.getElem_fin] at hreply
    rw [← hreply]
    exact State.readRow_answered hr (c := .readBucket) hop rfl (by rw [hargs]; rfl)
      (by rw [hargs]; exact readBucketBody_number (s := s.beginRequest v.req rest) hk) hlen
  case slot =>
    have hlen := readReply_length (bytes := fun n : SlotNo => s.slots[n].bytes) (fun n => by
      rw [Slot.length_bytes]; omega) k
    have hreply := readReply_response (fun n : SlotNo => s.slots[n].bytes) k v
    simp only [Fin.getElem_fin] at hreply
    rw [← hreply]
    exact State.readRow_answered hr (c := .readSlot) hop rfl (by rw [hargs]; rfl)
      (by rw [hargs]; exact readSlotBody_number (s := s.beginRequest v.req rest) hk) hlen
  case port =>
    have hlen := readReply_length (bytes := fun p : Port => s.ports[p].bytes) (fun p => by
      rw [PortState.length_bytes]; omega) k
    have hreply := readReply_response (fun p : Port => s.ports[p].bytes) k v
    simp only [Fin.getElem_fin] at hreply
    rw [← hreply]
    exact State.readRow_answered hr (c := .readPort) hop rfl (by rw [hargs]; rfl)
      (by rw [hargs]; exact readPortBody_number (s := s.beginRequest v.req rest) hk) hlen
  case range =>
    exact State.readCounters_answered (r := .refuse .range) hr hop hargs
      (readCountersBody_range (s := s.beginRequest v.req rest) (by rw [hargs]; exact parseGroup_none hk hn h)) (by simp [Reply.refuse])
  case group =>
    have hname : v.args = [g.name.1, g.name.2, 0x00] := by rw [hargs]; cases g <;> rfl
    exact State.readCounters_answered (r := .ok _) hr hop hname
      (readCountersBody_group (s := s.beginRequest v.req rest) (by rw [hname]; exact parseGroup_name g))
      (State.counters_length s g)

end Sys2Proof.Machine
end

