-- ==== Sys2Proof/Proofs/Answers.lean ====
section
/-! SUPPORT. A response that finds room, whatever stands in the part beside the request (R136, R137): also where a reset is
pending on another response, or is being entered. -/

namespace Sys2Proof.Machine

/-- From `u` the response to `v` finds room, and its acceptance reports no response to the agent: a reset that is pending is
pending on this response, or on one that no expired entry of the port carries (R100, R148). -/
structure State.Answerable (u : State) (v : RequestView) : Prop where
  portUp  : u.isUp v.req.port = true
  room    : u.ports[v.req.port].queues[(3 : Class)].length < 16
  own     : u.store.count[v.req.buf] = 1
  unnamed : ∀ c : Class, ∀ e ∈ u.ports[v.req.port].queues[c], e.buf ≠ v.req.buf
  memory  : u.MemoryLaw
  settled : u.resetDue = false
  spared  : ∀ r, u.agent.resetPending = some r → r.buf = v.req.buf ∨ State.Spares v.req.port r.buf u

section
variable {s u w : State} {v : RequestView} {rest : List Request}

theorem State.Waiting.answerable (h : s.Waiting v rest)
    (hr : ∀ r, s.agent.resetPending = some r → r.buf = v.req.buf ∨ State.Spares v.req.port r.buf s) :
    s.Answerable v :=
  ⟨h.portUp, h.room, h.own, h.unnamed, h.memory, h.settled, hr⟩

theorem State.Ready.answerable (h : s.Ready v rest) : s.Answerable v :=
  h.toWaiting.answerable fun r hr => by rw [h.noReset] at hr; cases hr

/-- What a response needs stands in the ports, the Frame Store and the pending reset. -/
theorem State.Answerable.congr (h : u.Answerable v) (hports : w.ports = u.ports) (hstore : w.store = u.store)
    (hnow : w.now = u.now) (hdue : w.resetDue = u.resetDue)
    (hreset : ∀ r, w.agent.resetPending = some r → r.buf = v.req.buf ∨ u.agent.resetPending = some r) :
    w.Answerable v where
  portUp := by rw [State.isUp, hports]; exact h.portUp
  room := by rw [hports]; exact h.room
  own := by rw [hstore]; exact h.own
  unnamed := by rw [hports]; exact h.unnamed
  memory := by rw [State.MemoryLaw, hstore]; exact h.memory
  settled := hdue.trans h.settled
  spared r hr := by
    rw [State.Spares, hports, hnow]
    exact (hreset r hr).elim .inl (h.spared r)

/-- Without a pending reset a response needs its port's link and queues, its buffer's count and the stored bytes. -/
theorem State.Answerable.of_parts (h : u.Answerable v) (hlink : w.ports[v.req.port].link = u.ports[v.req.port].link)
    (hqueues : w.ports[v.req.port].queues = u.ports[v.req.port].queues)
    (hcount : w.store.count[v.req.buf] = u.store.count[v.req.buf]) (hmem : w.store.mem = u.store.mem)
    (hdue : w.resetDue = u.resetDue) (hreset : w.agent.resetPending = none) : w.Answerable v where
  portUp := by rw [State.isUp, hlink]; exact h.portUp
  room := by rw [hqueues]; exact h.room
  own := hcount.trans h.own
  unnamed := by rw [hqueues]; exact h.unnamed
  memory := by rw [State.MemoryLaw, hmem]; exact h.memory
  settled := hdue.trans h.settled
  spared r hr := by rw [hreset] at hr; cases hr

end

/-- An entry that joins a queue expires no entry that was not to expire before: it passes its own test (R95, R100). -/
theorem State.joined_spares_expired {s : State} {p : Port} {b c : BufNo} {h : Header} {o : Origin}
    (hs : State.Spares p c s) : State.Spares p c (s.joined p b h o) := by
  intro k e he hx
  have hnow : (s.joined p b h o).now = s.now := (State.joined_frame s p b h o).1.2.2.1
  rw [hnow] at hx
  rcases State.joined_mem he with hm | hm
  · refine hs k e hm ?_
    rw [State.joined_port] at hx
    exact hx
  · subst hm
    rw [PortState.fresh_not_expired] at hx
    cases hx

/-- Acceptance of the response reports nothing to the agent. -/
theorem State.Answerable.accept_due {u : State} {v : RequestView} (hu : u.Answerable v) (h : Header) (o : Origin) :
    (u.accept v.req.port v.req.buf h o).resetDue = u.resetDue := by
  have hj := State.joined_frame u v.req.port v.req.buf h o
  refine ((State.accept_frame u v.req.port v.req.buf h o).due fun r hr => ?_).trans hj.2.2
  have hpending : u.agent.resetPending = some r := by rw [← hj.1.agent]; exact hr
  rcases hu.spared r hpending with hb | hb
  · rw [hb]
    exact State.joined_spares hu.unnamed
  · exact State.joined_spares_expired hb

/-- An attempt that finds the port UP and its class queue below 16 is accepted (R94 to R96). -/
theorem State.enqueue_accepted {s : State} {p : Port} {b : BufNo} {h : Header} {o : Origin} (hup : s.isUp p = true)
    (hroom : s.ports[p].queues[h.cls].length < 16) : s.enqueue p b h o = (s.accept p b h o, .accepted) := by
  rcases State.enqueue_cases s p b h o with ⟨hdown, -⟩ | ⟨-, hfull, -⟩ | ⟨-, -, haccept⟩
  · rw [hup] at hdown; cases hdown
  · omega
  · exact haccept

section
variable {u a : State} {v : RequestView} {payload : List Byte}

theorem State.putPayload_header (u : State) (b : BufNo) (payload : List Byte) :
    (u.putPayload b payload).bytesAt b 0 4 = u.bytesAt b 0 4 := by
  simp only [State.putPayload, State.bytesAt, State.putBytes_store]
  rw [Memory.readMany_writeMany_outside _ _ _ _ _ (by left; simp [storeAddr]),
    Memory.readMany_writeMany_outside _ _ _ _ _ (by left; simp [storeAddr])]

/-- The request's end after its response was accepted: its reference is released, and nothing else of the entry is
touched. -/
theorem State.endRequest_answered (hp : u.Answerable v) (hlen : payload.length < 256)
    (ha : State.AcceptedThree (u.putPayload v.req.buf payload) a v.req.port v.req.buf)
    (hd : a.resetDue = u.resetDue)
    (ht : ∃ ahead, ahead <:+ u.ports[v.req.port].queues[(3 : Class)] ∧ a.ports[v.req.port].queues[(3 : Class)] =
      ahead ++ [{ buf := v.req.buf, hdr := u.relayHeader v.reply, enqueuedAt := u.now, origin := .response }]) :
    u.idled.Answered (a.endRequest v.req.buf) v payload := by
  have hcount : (a.endRequest v.req.buf).store.count = vset a.store.count v.req.buf 1 := by
    have hrelease := (State.release_store a v.req.buf).1
    rwa [ha.own] at hrelease
  have hend := State.release_frame a v.req.buf
  have hmem : (a.endRequest v.req.buf).store.mem = (u.putPayload v.req.buf payload).store.mem := hend.mem.trans ha.mem
  have hports : ∀ q : Port, (a.ports[q]).FlowOnly ((a.endRequest v.req.buf).ports[q]) := hend.ports
  have hqueues : ∀ c : Class, (a.endRequest v.req.buf).ports[v.req.port].queues[c] = a.ports[v.req.port].queues[c] := by
    intro c
    obtain ⟨more, hq⟩ := hports v.req.port
    rw [hq]
  have hbytes : ∀ k n, (a.endRequest v.req.buf).bytesAt v.req.buf k n =
      (u.putPayload v.req.buf payload).bytesAt v.req.buf k n := fun k n => by
    simp only [State.bytesAt, hmem]
  refine
    { written := ?_, header := ?_, bytes := fun x hx => ?_, entry := ?_, lower := fun c hc => ?_, port := ?_,
      others := fun q hq => ?_, count := ?_, counts := fun b hb hn => ?_, episodes := ?_, events := ?_, tables := ?_,
      settled := ?_ }
  · rw [← State.payloadAt_putPayload u v.req.buf payload hp.memory hlen]
    simp only [State.payloadAt, State.lengthAt, State.byteAt, State.bytesAt, hmem]
  · rw [hbytes, State.putPayload_header]
    rfl
  · rw [hmem]
    exact State.read_putPayload_outside u v.req.buf payload hx
  · rw [hqueues]
    exact ht
  · rw [hqueues]
    exact ha.lower c hc
  · exact ha.port.trans (hports v.req.port).service
  · exact (ha.others q hq).trans (hports q)
  · rw [hcount]
    exact vset_get_self _ _ _
  · rw [hcount, Fin.getElem_fin, vset_get_ne _ _ hb]
    exact ha.counts b hb hn
  · exact hend.episodes.trans ha.episodes
  · exact ha.events.trans hend.events
  · obtain ⟨h1, h2, h3, h4, h5, h6, h7, h8, h9⟩ := ha.tables.trans hend.tables
    exact ⟨h1, h2, h3, h4, h5, h6, h7, congrArg (fun x : Agent => { x with executing := none }) h8, h9⟩
  · exact hend.due.trans hd

/-- A response that finds room is queued, and the request's claim on the buffer passes to the entry (R136, R137). -/
theorem State.Answerable.send (hp : u.Answerable v) (hlen : payload.length < 256) :
    u.idled.Answered (u.sendResponse v payload) v payload := by
  have hput : (u.putPayload v.req.buf payload).Answerable v :=
    { portUp := hp.portUp, room := hp.room, own := hp.own, unnamed := hp.unnamed, settled := hp.settled,
      spared := hp.spared, memory := State.putPayload_wf _ _ _ hp.memory }
  have hsend : u.sendResponse v payload =
      ((u.putPayload v.req.buf payload).accept v.req.port v.req.buf (u.relayHeader v.reply) .response).endRequest
        v.req.buf := by
    rw [State.sendResponse, State.enqueue_accepted hput.portUp hput.room]
  rw [hsend]
  exact State.endRequest_answered hp hlen (State.accept_three _ _ _ _ _ rfl hput.own hput.unnamed)
    (hput.accept_due _ _) (State.accept_tail (u.putPayload v.req.buf payload) _ _ _ _ rfl)

/-- A request answered, its response finding room: the answer, and nothing at the end of the command. -/
theorem State.Answerable.answer (hp : u.Answerable v) (status : Status) {results : List Byte}
    (hlen : results.length ≤ 60) :
    u.idled.Answered (u.answer v status results) v (v.response status results) ∧
      (u.answer v status results).finish = u.answer v status results := by
  have hanswered : u.idled.Answered (u.answer v status results) v (v.response status results) := by
    refine hp.send ?_
    simp only [responseBytes, List.length_append, List.length_cons, List.length_nil]
    omega
  exact ⟨hanswered, State.finish_of_settled _ (hanswered.settled.trans hp.settled)⟩

end

end Sys2Proof.Machine
end

