-- ==== Sys2Proof/Proofs/Ladder.lean ====
section
/-! PROOF. What comes before a command's own checks (R134, R135, R141 to R143, R147, R151): the row a request belongs to, the
request dropped, refused or replayed, and O38, O39 and O40. -/

namespace Sys2Proof.Machine

/-! ## The table line by line (section 11.4) -/

/-- Row `i` takes the request `v`, and serves it by `serve`. -/
def RequestView.TakenBy (v : RequestView) (i : Instr) (serve : RequestView → State → State) : Prop :=
  ∃ mine : RequestView → Bool, mine v = true ∧ ∀ s, exec i s = .next (s.takeRequest mine serve).finish

/-- Row `i` takes `v`; off the list of unsessioned rows it serves `v` as a sessioned command of the number of argument bytes
the table has for the row. -/
def RequestView.Placed (v : RequestView) (i : Instr) : Prop :=
  ∃ serve, v.TakenBy i serve ∧
    (i ∉ unsessionedRows → ∃ (c : Command) (body : Body), serve = State.serveSessioned c body ∧
      c.argBytes = argumentCount i)

section
variable {v : RequestView} {op : Byte} {i j : Instr}

/-- The row of a command that shares its opcode with no other row. -/
theorem RequestView.takenBy_names {c : Command} {serve : RequestView → State → State} (hn : v.names c = true)
    (he : ∀ s, exec i s = .next (s.takeRequest (·.names c) serve).finish) : v.TakenBy i serve :=
  ⟨(·.names c), hn, he⟩

/-- READ COUNTERS is a read where its flag is present and 00h (R185). -/
theorem RequestView.takenBy_readCounters (hn : v.names .readCounters = true) (hf : v.args[2]? = some 0x00) :
    v.TakenBy .readCounters (State.serveRead .readCounters readCountersBody) := by
  refine ⟨fun v => v.names .readCounters && v.readsOnly, ?_, fun _ => rfl⟩
  obtain ⟨hlen, hzero⟩ := List.getElem?_eq_some_iff.1 hf
  have hflag : v.readsOnly = true := by
    rw [RequestView.readsOnly, Bool.and_eq_true, decide_eq_true_eq, decide_eq_true_eq, arg,
      List.getD_eq_getElem _ _ hlen]
    exact ⟨hlen, hzero⟩
  simp only [hn, hflag, Bool.and_self]

theorem RequestView.takenBy_readCountersClear (hn : v.names .readCounters = true) (hf : v.args[2]? ≠ some 0x00) :
    v.TakenBy .readCountersClear (State.serveSessioned .readCounters readCountersClearBody) := by
  have hflag : v.readsOnly = false := by
    rw [RequestView.readsOnly, Bool.and_eq_false_imp]
    simp only [decide_eq_true_eq, arg]
    refine fun hlen => decide_eq_false fun hz => hf ?_
    rw [List.getD_eq_getElem _ _ hlen] at hz
    exact (List.getElem?_eq_getElem hlen).trans (congrArg some hz)
  exact ⟨fun v => v.names .readCounters && !v.readsOnly, by simp [hn, hflag], fun _ => rfl⟩

theorem RequestView.takenBy_resetFull (hn : v.names .reset = true) (ha : v.args ≠ [0x00]) :
    v.TakenBy .resetFull (State.serveSessioned .reset resetBody) := by
  have hscope : v.resetsTo .forwarding = false := Bool.eq_false_iff.2 (mt RequestView.resetsTo_forwarding ha)
  exact ⟨fun v => v.names .reset && !v.resetsTo .forwarding, by simp [hn, hscope], fun _ => rfl⟩

theorem RequestView.takenBy_resetForwarding (hn : v.names .reset = true) (ha : v.args = [0x00]) :
    v.TakenBy .resetForwarding (State.serveSessioned .reset resetBody) := by
  have hscope : v.resetsTo .full = false := by rw [RequestView.resetsTo, ha]; rfl
  exact ⟨fun v => v.names .reset && !v.resetsTo .full, by simp [hn, hscope], fun _ => rfl⟩

theorem RequestView.takenBy_badOpcode (hn : commandOf v.opcode = none) :
    v.TakenBy .badOpcode (fun v t => t.answer v .badOpcode []) :=
  ⟨fun v => decide (commandOf v.opcode = none), decide_eq_true hn, fun _ => rfl⟩

theorem RequestView.TakenBy.unsessioned {serve : RequestView → State → State} (h : v.TakenBy i serve)
    (hi : i ∈ unsessionedRows) : v.Placed i :=
  ⟨serve, h, fun k => absurd hi k⟩

theorem RequestView.TakenBy.sessioned {c : Command} {body : Body} (h : v.TakenBy i (State.serveSessioned c body))
    (hc : c.argBytes = argumentCount i) : v.Placed i :=
  ⟨_, h, fun _ => ⟨c, body, rfl, hc⟩⟩

end

/-- The command whose requests a management row takes; BAD_OPCODE's requests name none. -/
def rowCommand : Instr → Option Command
  | .identify => some .identify
  | .openSession => some .openSession
  | .closeSession => some .closeSession
  | .keepalive => some .keepalive
  | .readRoute => some .readRoute
  | .writeRoute => some .writeRoute
  | .clearRoutes => some .clearRoutes
  | .commit => some .commit
  | .readAction => some .readAction
  | .writeAction => some .writeAction
  | .readBucket => some .readBucket
  | .writeBucket => some .writeBucket
  | .readSlot => some .readSlot
  | .writeSlot => some .writeSlot
  | .arm => some .arm
  | .disarm => some .disarm
  | .readPort => some .readPort
  | .setPort => some .setPort
  | .readCounters => some .readCounters
  | .readCountersClear => some .readCounters
  | .setEvents => some .setEvents
  | .ackEvents => some .ackEvents
  | .resetFull => some .reset
  | .resetForwarding => some .reset
  | _ => none

/-- A stretch of the table, `i` its row for `v` and `x` its command: the row takes `v`, and its command is that one. -/
def RequestView.Line (v : RequestView) (i : Instr) (x : Option Command) : Prop :=
  commandOf v.opcode = x → v.Placed i ∧ rowCommand i = x

section
variable {v : RequestView} {op : Byte} {i j : Instr} {c : Command} {x : Option Command}

/-- One line of the table, before the lines after it. -/
theorem RequestView.line_cons (here : v.names c = true → v.Placed i) (hi : rowCommand i = some c) (after : v.Line j x) :
    v.Line (if v.opcode = op then i else j) (if v.opcode = op then some c else x) := by
  intro h
  split at h
  · next ho => rw [if_pos ho, if_pos ho]; exact ⟨here (decide_eq_true h), hi⟩
  · next ho => rw [if_neg ho, if_neg ho]; exact after h

theorem RequestView.line_unsessioned {serve : RequestView → State → State}
    (he : ∀ s, exec i s = .next (s.takeRequest (·.names c) serve).finish) (hi : i ∈ unsessionedRows)
    (hc : rowCommand i = some c) (after : v.Line j x) :
    v.Line (if v.opcode = op then i else j) (if v.opcode = op then some c else x) :=
  RequestView.line_cons (fun hn => (RequestView.takenBy_names hn he).unsessioned hi) hc after

theorem RequestView.line_sessioned {body : Body} (he : ∀ s, exec i s = s.sessionedRow c body)
    (hb : c.argBytes = argumentCount i) (hc : rowCommand i = some c) (after : v.Line j x) :
    v.Line (if v.opcode = op then i else j) (if v.opcode = op then some c else x) :=
  RequestView.line_cons (fun hn => (RequestView.takenBy_names hn he).sessioned hb) hc after

end

/-- The table of section 11.4, row beside command. -/
theorem RequestView.line_row (v : RequestView) : v.Line v.row (commandOf v.opcode) := by
  unfold RequestView.row commandOf
  refine RequestView.line_unsessioned (serve := State.serveRead .identify identifyBody) (fun _ => rfl) (by decide) rfl ?_
  refine RequestView.line_unsessioned (serve := State.serveOpen) (fun _ => rfl) (by decide) rfl ?_
  refine RequestView.line_sessioned (body := closeBody) (fun _ => rfl) rfl rfl ?_
  refine RequestView.line_sessioned (body := keepaliveBody) (fun _ => rfl) rfl rfl ?_
  refine RequestView.line_unsessioned (serve := State.serveRead .readRoute readRouteBody) (fun _ => rfl) (by decide) rfl ?_
  refine RequestView.line_sessioned (body := writeRouteBody) (fun _ => rfl) rfl rfl ?_
  refine RequestView.line_sessioned (body := clearRoutesBody) (fun _ => rfl) rfl rfl ?_
  refine RequestView.line_sessioned (body := commitBody) (fun _ => rfl) rfl rfl ?_
  refine RequestView.line_unsessioned (serve := State.serveRead .readAction readActionBody) (fun _ => rfl) (by decide) rfl ?_
  refine RequestView.line_sessioned (body := writeActionBody) (fun _ => rfl) rfl rfl ?_
  refine RequestView.line_unsessioned (serve := State.serveRead .readBucket readBucketBody) (fun _ => rfl) (by decide) rfl ?_
  refine RequestView.line_sessioned (body := writeBucketBody) (fun _ => rfl) rfl rfl ?_
  refine RequestView.line_unsessioned (serve := State.serveRead .readSlot readSlotBody) (fun _ => rfl) (by decide) rfl ?_
  refine RequestView.line_sessioned (body := writeSlotBody) (fun _ => rfl) rfl rfl ?_
  refine RequestView.line_sessioned (body := armBody) (fun _ => rfl) rfl rfl ?_
  refine RequestView.line_sessioned (body := disarmBody) (fun _ => rfl) rfl rfl ?_
  refine RequestView.line_unsessioned (serve := State.serveRead .readPort readPortBody) (fun _ => rfl) (by decide) rfl ?_
  refine RequestView.line_sessioned (body := setPortBody) (fun _ => rfl) rfl rfl ?_
  refine RequestView.line_cons (fun hn => ?counters) (by split <;> rfl) ?_
  case counters =>
    split
    · next hf => exact (RequestView.takenBy_readCounters hn hf).unsessioned (by decide)
    · next hf => exact (RequestView.takenBy_readCountersClear hn hf).sessioned rfl
  refine RequestView.line_sessioned (body := setEventsBody) (fun _ => rfl) rfl rfl ?_
  refine RequestView.line_sessioned (body := ackEventsBody) (fun _ => rfl) rfl rfl ?_
  refine RequestView.line_cons (fun hn => ?reset) (by split <;> rfl) ?_
  case reset =>
    split
    · next ha => exact (RequestView.takenBy_resetForwarding hn ha).sessioned rfl
    · next ha => exact (RequestView.takenBy_resetFull hn ha).sessioned rfl
  exact fun hn => ⟨(RequestView.takenBy_badOpcode hn).unsessioned (by decide), rfl⟩

/-- Every request has its row, and that row takes it. -/
theorem RequestView.placed_row (v : RequestView) : v.Placed v.row := (v.line_row rfl).1

/-- A request's row is one of its command's; a request that names no command has the row BAD_OPCODE (R185). -/
theorem RequestView.rowCommand_row (v : RequestView) : rowCommand v.row = commandOf v.opcode := (v.line_row rfl).2

/-! ## A request that is not executed (R135, R141, R143, R147) -/

section
variable {s : State} {v : RequestView} {rest : List Request}

/-- A row that answers a ready request as it was taken, by its serving function. -/
theorem State.exec_unexecuted {i : Instr} {serve : RequestView → State → State} (hr : s.Ready v rest)
    (ht : v.TakenBy i serve) {status : Status} {results : List Byte}
    (hs : serve v (s.beginRequest v.req rest) = (s.beginRequest v.req rest).answer v status results)
    (hlen : results.length ≤ 60) :
    ∃ t, exec i s = .next t ∧ State.Answered (s.unexecuted rest) t v (v.response status results) := by
  obtain ⟨mine, hmine, hexec⟩ := ht
  have hanswered := State.answer_unexecuted hr status results hlen
  refine ⟨_, ?_, hanswered⟩
  rw [hexec, State.takeRequest_ready hr _ _ hmine, hs,
    State.finish_of_settled _ (hanswered.settled.trans hr.settled)]

theorem Session.judge_replayed {x : Session} {c : CachedResponse} {token seq : Byte} (ho : x.isOpen = true)
    (ht : token = x.token) (hne : seq ≠ x.expected) (hs : seq = x.expected - 1) (hc : x.cache = some c) :
    x.judge token seq = .replayed c := by
  have hopen : ¬ (x.isOpen = false ∨ token ≠ x.token) := by simp [ho, ht]
  rw [Session.judge, if_neg hopen, if_neg hne, if_pos hs, hc]

theorem Session.judge_sequence {x : Session} {token seq : Byte} (ho : x.isOpen = true) (ht : token = x.token)
    (hne : seq ≠ x.expected) (h : seq ≠ x.expected - 1 ∨ x.cache = none) : x.judge token seq = .sequence := by
  have hopen : ¬ (x.isOpen = false ∨ token ≠ x.token) := by simp [ho, ht]
  rw [Session.judge, if_neg hopen, if_neg hne]
  by_cases hs : seq = x.expected - 1
  · rw [if_pos hs, h.resolve_left (fun hn => hn hs)]
  · rw [if_neg hs]

/-- A cached response sent again (R143). -/
theorem State.replay_answered (hr : s.Ready v rest) (c : CachedResponse) (hlen : c.results.length ≤ 60) :
    State.Answered
        { s with agent := s.agent.served rest { s.agent.session with
            leaseDeadline := some (s.now + BitVec.ofNat 32 (100 * s.agent.session.leaseLength.toNat))
            eventPort := v.req.port } }
        ((s.beginRequest v.req rest).replay v c) v ([c.opcode, v.token, c.sequence, 1#1 ++ c.status.code] ++ c.results) := by
  have hp : (State.Answerable
      { s.beginRequest v.req rest with agent := { (s.beginRequest v.req rest).agent with
        session := { s.agent.session with
          leaseDeadline := some (s.now + ticksOf10Ms s.agent.session.leaseLength.toNat), eventPort := v.req.port } } } v) :=
    hr.answerable.congr rfl rfl rfl rfl fun _ h => .inr h
  refine hp.send (payload := responseBytes c.opcode v.token c.sequence true c.status c.results) ?_
  simp only [responseBytes, List.length_append, List.length_cons, List.length_nil]
  omega

end

/-- Settles O38: the session judges the request a replay or out of sequence before anything is executed. -/
theorem unexpectedSequenceReplaysOrIsRefused : Obligations.UnexpectedSequenceReplaysOrIsRefused := by
  unfold Obligations.UnexpectedSequenceReplaysOrIsRefused
  intro s v rest hr hrow hopen htoken hne
  obtain ⟨serve, htaken, hsessioned⟩ := v.placed_row
  obtain ⟨k, body, rfl, -⟩ := hsessioned hrow
  refine ⟨fun c hs hc hlen => ?replayed, fun h => ?refused⟩
  case replayed =>
    have hjudge : (s.beginRequest v.req rest).agent.session.judge v.token v.seq = .replayed c :=
      Session.judge_replayed hopen htoken hne hs hc
    obtain ⟨mine, hmine, hexec⟩ := htaken
    have hanswered := State.replay_answered hr c hlen
    refine ⟨_, ?_, hanswered⟩
    rw [hexec, State.takeRequest_ready hr _ _ hmine, State.serveSessioned, hjudge]
    exact congrArg Host.Outcome.next (State.finish_of_settled _ (hanswered.settled.trans hr.settled))
  case refused =>
    have hjudge : (s.beginRequest v.req rest).agent.session.judge v.token v.seq = .sequence :=
      Session.judge_sequence hopen htoken hne h
    refine State.exec_unexecuted hr htaken ?_ (by simp)
    rw [State.serveSessioned, hjudge]
    rfl

/-- The oldest request is `v`, well formed, and nothing answers it before its row serves it (R134, R135, R147). -/
structure State.Takes (s : State) (v : RequestView) (rest : List Request) : Prop where
  oldest  : s.agent.queue = v.req :: rest
  long    : 5 ≤ s.lengthAt v.req.buf
  bytes   : s.viewRequest v.req = v
  noReset : s.agent.resetPending = none

theorem State.Ready.takes {s : State} {v : RequestView} {rest : List Request} (h : s.Ready v rest) : s.Takes v rest :=
  ⟨h.oldest, h.long, h.bytes, h.noReset⟩

theorem State.takeRequest_takes {s : State} {v : RequestView} {rest : List Request} (h : s.Takes v rest)
    {mine : RequestView → Bool} (hm : mine v = true) (serve : RequestView → State → State) :
    s.takeRequest mine serve = serve v (s.beginRequest v.req rest) := by
  have hlen : ¬ s.lengthAt v.req.buf < 5 := Nat.not_lt.2 h.long
  have hmine : ¬ mine v = false := by rw [hm]; decide
  simp only [State.takeRequest, h.oldest, if_neg hlen, h.bytes, if_neg hmine, h.noReset]
  rfl

/-- An admitted request taken and executed by its command, up to its answer (R142, R151). -/
theorem State.exec_admitted {s w : State} {v : RequestView} {rest : List Request} {i : Instr} {c : Command} {body : Body}
    {r : Reply} (ha : s.Admits v) (ht : v.TakenBy i (State.serveSessioned c body)) (hr : s.Takes v rest)
    (hb : body.checked c v.args (s.admitted v rest) = (w, r)) : exec i s = .next (w.answerExecuted v r).finish := by
  obtain ⟨mine, hmine, hexec⟩ := ht
  have hjudge : (s.beginRequest v.req rest).agent.session.judge v.token v.seq = .admitted :=
    Session.judge_admitted ha.isOpen ha.token ha.sequence
  have hbody : body.checked c v.args ((s.beginRequest v.req rest).admitRequest v) = (w, r) := hb
  rw [hexec, State.takeRequest_takes hr hmine, State.serveSessioned, hjudge]
  simp only [hbody]

/-- An admitted request executed by its command: what the command leaves, with the response cached and the request ended, and
the answer besides (R142, R151). -/
theorem State.exec_executed {s w : State} {v : RequestView} {rest : List Request} {i : Instr} {c : Command} {body : Body}
    {r : Reply} (ha : s.Admits v) (ht : v.TakenBy i (State.serveSessioned c body)) (hr : s.Ready v rest)
    (hb : body.checked c v.args (s.admitted v rest) = (w, r)) (hf : r.follow = .nothing) (hw : w.Answerable v)
    (hlen : r.results.length ≤ 60) :
    ∃ t, exec i s = .next t ∧
      State.Answered (w.cacheResponse v r).idled t v (v.response r.status r.results) := by
  have hcached : (w.cacheResponse v r).Answerable v := hw.congr rfl rfl rfl rfl fun _ h => .inr h
  obtain ⟨hanswered, hfinish⟩ := hcached.answer r.status hlen
  refine ⟨(w.cacheResponse v r).answer v r.status r.results, ?_, hanswered⟩
  rw [State.exec_admitted ha ht hr.takes hb, State.answerExecuted, hf]
  exact congrArg Host.Outcome.next hfinish

/-- Settles O39: an admitted request of the wrong length is executed as a refusal, and cached. -/
theorem wrongLengthIsAnExecution : Obligations.WrongLengthIsAnExecution := by
  unfold Obligations.WrongLengthIsAnExecution
  intro s v rest hr hrow ha hlen
  obtain ⟨serve, ⟨mine, hmine, hexec⟩, hsessioned⟩ := v.placed_row
  obtain ⟨k, body, rfl, hk⟩ := hsessioned hrow
  have hbody : body.checked k v.args (s.admitted v rest) = (s.admitted v rest, .refuse .length) :=
    if_neg (by rw [hk]; exact hlen)
  have hanswered := State.exec_executed ha ⟨mine, hmine, hexec⟩ hr hbody rfl
    (hr.answerable.congr rfl rfl rfl rfl fun _ h => .inr h) (by simp [Reply.refuse])
  rwa [State.cacheResponse_idled ha (State.KeepsRequest.refl _)] at hanswered

/-! ## What comes before any session check (R135, R147) -/

/-- Every management row takes a request, whichever the request is. -/
theorem exec_managementRow {i : Instr} (h : i ∈ managementRows) :
    ∃ mine serve, ∀ s, exec i s = .next (s.takeRequest mine serve).finish := by
  simp only [managementRows, List.mem_cons, List.not_mem_nil, or_false] at h
  rcases h with rfl | rfl | rfl | rfl | rfl | rfl | rfl | rfl | rfl | rfl | rfl | rfl | rfl | rfl | rfl | rfl | rfl |
    rfl | rfl | rfl | rfl | rfl | rfl | rfl | rfl
  all_goals exact ⟨_, _, fun _ => rfl⟩

section
variable {s : State} {v : RequestView} {rest : List Request}

/-- A malformed request taken: counted, and its buffer given back (R135). -/
theorem State.dropMalformed_pushed {r : Request} (hidle : s.agent.executing = none) (hown : s.store.count[r.buf] = 1) :
    (s.beginRequest r rest).dropMalformed r = ({ s with agent := { s.agent with
      queue := rest, mgmtMalformed := bump s.agent.mgmtMalformed } } : State).pushed r.buf := by
  have hagent : ({ s with agent := { s.agent with
      queue := rest, executing := none, mgmtMalformed := bump s.agent.mgmtMalformed } } : State) =
      { s with agent := { s.agent with queue := rest, mgmtMalformed := bump s.agent.mgmtMalformed } } := by
    rw [← hidle]
  rw [State.dropMalformed, ← State.idled_release, ← hagent]
  exact State.release_last hown

/-- A request taken while a reset is pending is answered BUSY before its row serves it (R147). -/
theorem State.takeRequest_busy {p : PendingReset} (h : s.Waiting v rest) (hp : s.agent.resetPending = some p)
    {mine : RequestView → Bool} (hm : mine v = true) (serve : RequestView → State → State) :
    s.takeRequest mine serve = (s.beginRequest v.req rest).answer v .busy [] := by
  have hlen : ¬ s.lengthAt v.req.buf < 5 := Nat.not_lt.2 h.long
  have hmine : ¬ mine v = false := by rw [hm]; decide
  have hpending : s.agent.resetPending.isSome = true := by rw [hp]; rfl
  simp only [State.takeRequest, h.oldest, if_neg hlen, h.bytes, if_neg hmine, if_pos hpending]

end

/-- Settles O40: each clause is one of the tests a row makes before it serves the request it takes. -/
theorem requestsAnsweredBeforeAnyCheck : Obligations.RequestsAnsweredBeforeAnyCheck := by
  unfold Obligations.RequestsAnsweredBeforeAnyCheck
  refine ⟨fun i s r rest hi hq hidle hshort hown hdue => ?malformed, fun s v rest p hw hp hbuf hspared => ?busy,
    fun s v rest hr hrow => ?badOpcode⟩
  case malformed =>
    obtain ⟨mine, serve, hexec⟩ := exec_managementRow hi
    have htake : s.takeRequest mine serve = (s.beginRequest r rest).dropMalformed r := by
      simp only [State.takeRequest, hq, if_pos hshort]
    rw [hexec, htake, State.dropMalformed_pushed hidle hown]
    exact congrArg Host.Outcome.next (State.finish_of_settled _ (by rw [State.pushed_resetDue]; exact hdue))
  case busy =>
    obtain ⟨serve, ⟨mine, hmine, hexec⟩, -⟩ := v.placed_row
    have hready : (s.beginRequest v.req rest).Answerable v :=
      (hw.answerable fun r hr => .inr (by
        rw [hp] at hr
        cases hr
        exact hspared)).congr rfl rfl rfl rfl fun _ h => .inr h
    obtain ⟨hanswered, hfinish⟩ := hready.answer .busy (results := []) (by simp)
    exact ⟨_, by rw [hexec, State.takeRequest_busy hw hp hmine, hfinish], hanswered⟩
  case badOpcode =>
    refine State.exec_unexecuted hr (serve := fun v t => t.answer v .badOpcode []) ?_ rfl (by simp)
    exact RequestView.takenBy_badOpcode (by rw [← v.rowCommand_row, hrow]; rfl)

end Sys2Proof.Machine
end

