-- ==== Sys2Proof/Proofs/Sessioned.lean ====
section
/-! PROOF. The sessioned commands on the tables (sections 9.2 to 9.4, 9.6): what the body of each comes to, and O41, O42,
O44, O45 and O47. -/

namespace Sys2Proof.Machine

/-! ## Executed requests that leave the ports, the Frame Store and the agent (R142) -/

section
variable {s : State} {v : RequestView} {rest : List Request} {c : Command} {body : Body} {results : List Byte}

/-- The row of a sessioned command, by its opcode. -/
theorem State.commandRow_answered {w : State} {r : Reply} (hr : s.Ready v rest) (ha : s.Admits v) {op : Byte}
    (ho : v.opcode = op) (hc : commandOf op = some c) (hl : v.args.length = c.argBytes)
    (hb : body v.args (s.admitted v rest) = (w, r)) (hk : (s.admitted v rest).KeepsRequest w) (hf : r.follow = .nothing)
    (hlen : r.results.length ≤ 60) :
    ∃ t, s.sessionedRow c body = .next t ∧
      State.Answered
        { w with agent :=
            s.agent.served rest (s.agent.session.executed s.now v.req.port v.opcode r.status r.results) }
        t v (v.response r.status r.results) :=
  State.sessionedRow_answered hr ha (ho ▸ hc) hl hb hk hf hlen

/-- A command that answers and changes nothing. -/
theorem State.commandRow_refused {status : Status} (hr : s.Ready v rest) (ha : s.Admits v) {op : Byte}
    (ho : v.opcode = op) (hc : commandOf op = some c) (hl : v.args.length = c.argBytes)
    (hb : body v.args (s.admitted v rest) = (s.admitted v rest, .refuse status)) :
    ∃ t, s.sessionedRow c body = .next t ∧ State.Answered (s.executed v rest status []) t v (v.response status []) :=
  State.commandRow_answered hr ha ho hc hl hb (.refl _) rfl (Nat.zero_le _)

/-- A command that changes the Route Table alone. -/
theorem State.commandRow_route {f : RouteTable → RouteTable} (hr : s.Ready v rest) (ha : s.Admits v) {op : Byte}
    (ho : v.opcode = op) (hc : commandOf op = some c) (hl : v.args.length = c.argBytes)
    (hb : body v.args (s.admitted v rest) = ((s.admitted v rest).onRoute f, .ok [])) :
    ∃ t, s.sessionedRow c body = .next t ∧
      State.Answered { s.executed v rest .ok [] with route := f s.route } t v (v.response .ok []) :=
  State.commandRow_answered hr ha ho hc hl hb (State.onRoute_keepsRequest _ f) rfl (Nat.zero_le _)

/-- A command that changes one slot alone. -/
theorem State.commandRow_slot {n : SlotNo} {f : Slot → Slot} (hr : s.Ready v rest) (ha : s.Admits v) {op : Byte}
    (ho : v.opcode = op) (hc : commandOf op = some c) (hl : v.args.length = c.argBytes)
    (hb : body v.args (s.admitted v rest) = ((s.admitted v rest).onSlot n f, .ok results)) (hlen : results.length ≤ 60) :
    ∃ t, s.sessionedRow c body = .next t ∧
      State.Answered { s.executed v rest .ok results with slots := vset s.slots n (f s.slots[n]) } t v
        (v.response .ok results) :=
  State.commandRow_answered hr ha ho hc hl hb ⟨rfl, rfl, rfl, rfl⟩ rfl hlen

end

/-- With its response cached and the request ended, the agent is the one `Session.executed` describes: whatever a command
changed besides, as long as it left the agent (R142). -/
theorem State.cacheResponse_served {s w : State} {v : RequestView} {rest : List Request} {r : Reply} (ha : s.Admits v)
    (hagent : w.agent = (s.admitted v rest).agent) :
    (w.cacheResponse v r).idled =
      { w with agent :=
          s.agent.served rest (s.agent.session.executed s.now v.req.port v.opcode r.status r.results) } := by
  simp only [State.idled, State.cacheResponse, hagent, ha.sequence]
  rfl

/-! ## KEEPALIVE, CLOSE and RESET (R146, R147, R154) -/

theorem resetBody_scope {s : State} {args : List Byte} {scope : ResetScope} (h : parseScope (arg args 0) = some scope) :
    resetBody args s = (s, { status := .ok, results := [], follow := .reset scope }) := by
  rw [resetBody, h]

section
variable {s : State} {v : RequestView} {rest : List Request}

/-- RESET of either scope: the request's row, and its scope byte. -/
theorem RequestView.takenBy_reset {i : Instr} {scope : ResetScope} (hop : v.opcode = 0x48)
    (h : (i = .resetFull ∧ scope = .full ∧ v.args = [0x01]) ∨
      (i = .resetForwarding ∧ scope = .forwarding ∧ v.args = [0x00])) :
    v.TakenBy i (State.serveSessioned .reset resetBody) ∧ v.args.length = 1 ∧
      parseScope (arg v.args 0) = some scope := by
  have hn : v.names .reset = true := RequestView.names_of_opcode hop rfl
  rcases h with ⟨rfl, rfl, hargs⟩ | ⟨rfl, rfl, hargs⟩
  · exact ⟨RequestView.takenBy_resetFull hn (by rw [hargs]; decide), by rw [hargs]; rfl, by rw [hargs]; rfl⟩
  · exact ⟨RequestView.takenBy_resetForwarding hn hargs, by rw [hargs]; rfl, by rw [hargs]; rfl⟩

/-- The part once RESET has been executed and the reset is pending on its response, the response apart (R147). -/
theorem State.enterReset_idled (ha : s.Admits v) (scope : ResetScope) {r : Reply} :
    ((((s.admitted v rest).cacheResponse v r).enterReset v scope).idled) =
      { s with agent := { s.agent.served rest (s.agent.session.executed s.now v.req.port v.opcode r.status r.results) with
          resetPending := some { scope := scope, buf := v.req.buf, limit := s.now + 500 } } } := by
  simp only [State.idled, State.enterReset, State.cacheResponse, ha.sequence]
  rfl

/-- RESET taken: its response cached, the reset pending on it, and the response sent (R147). -/
theorem State.exec_reset {i : Instr} {scope : ResetScope} (hr : s.Takes v rest) (ha : s.Admits v) (hop : v.opcode = 0x48)
    (h : (i = .resetFull ∧ scope = .full ∧ v.args = [0x01]) ∨
      (i = .resetForwarding ∧ scope = .forwarding ∧ v.args = [0x00])) :
    exec i s = .next ((((s.admitted v rest).cacheResponse v
      { status := .ok, results := [], follow := .reset scope }).enterReset v scope).answer v .ok []).finish := by
  obtain ⟨htaken, hlen, hscope⟩ := RequestView.takenBy_reset hop h
  exact State.exec_admitted ha htaken hr ((if_pos hlen).trans (resetBody_scope hscope))

/-- The end of CLOSE's command adds nothing where its answer's would not (R146). -/
theorem State.finish_closeSession {t : State} (h : t.resetDue = false) : t.closeSession.finish = t.closeSession :=
  State.finish_of_settled _ h

/-- The closing after an answer, which touches neither routes nor events (R56, R146, R180). -/
theorem State.closeSession_answered {u t : State} {payload : List Byte} (h : u.Answered t v payload) :
    t.closeSession = { t with
      agent := { t.agent with session := .closed }
      route := (match u.route.staging with
        | .modified => { u.route with staging := .copying, copier := some { next := 0, begun := u.now } }
        | .clean => u.route
        | .copying => u.route)
      events := { u.events with outstanding := false, timer := none } } := by
  obtain ⟨-, -, hnow, hroute, -⟩ := h.tables
  rw [State.closeSession, h.events.1, hroute, hnow, RouteTable.revert]
  cases u.route.staging <;> rfl

end

/-- Settles O41: each command's body answers at once; CLOSE closes after its answer, and RESET is pending on it. -/
theorem keepaliveCloseAndResetAnswer : Obligations.KeepaliveCloseAndResetAnswer := by
  unfold Obligations.KeepaliveCloseAndResetAnswer
  intro s v rest hr ha
  refine ⟨fun hop hargs results hresults => ?keepalive, fun hop hargs => ?close, fun i scope hop h => ?reset⟩
  case keepalive =>
    subst hresults
    exact State.commandRow_answered hr ha (c := .keepalive) (body := keepaliveBody) (w := s.admitted v rest) (r := .ok _)
      hop rfl (by rw [hargs]; rfl) rfl (.refl _) rfl (by simp [Reply.ok, bytes16, bytes32])
  case close =>
    have hcached : ((s.admitted v rest).cacheResponse v
        { status := .ok, results := [], follow := .close }).Answerable v :=
      hr.answerable.congr rfl rfl rfl rfl fun _ h => .inr h
    obtain ⟨hanswered, -⟩ := hcached.answer .ok (results := []) (by simp)
    have hexec := State.exec_admitted (i := .closeSession) ha
      (RequestView.takenBy_names (RequestView.names_of_opcode hop rfl) fun _ => rfl) hr.takes
      (body := closeBody) (if_pos (by rw [hargs]; rfl))
    rw [State.cacheResponse_idled ha (State.KeepsRequest.refl _)] at hanswered
    have hexecuted : (s.executed v rest .ok []).Answered _ v (v.response .ok []) := hanswered
    refine ⟨_, hexecuted, hexec.trans (congrArg Host.Outcome.next ?_)⟩
    exact (State.finish_closeSession (hexecuted.settled.trans hr.settled)).trans 
      (State.closeSession_answered (u := s.executed v rest .ok []) hexecuted)
  case reset =>
    have hp : (((s.admitted v rest).cacheResponse v { status := .ok, results := [], follow := .reset scope }).enterReset v
        scope).Answerable v :=
      hr.answerable.congr rfl rfl rfl rfl fun r h => .inl (by cases h; rfl)
    obtain ⟨hanswered, hfinish⟩ := hp.answer .ok (results := []) (by simp)
    refine ⟨_, (State.exec_reset hr.takes ha hop h).trans (congrArg Host.Outcome.next hfinish), ?_⟩
    rw [State.enterReset_idled ha scope, hop] at hanswered
    exact hanswered

end Sys2Proof.Machine
end

