-- ==== Sys2Proof/Proofs/TableWrites.lean ====
section
/-! PROOF. The commands that write the tables (sections 9.3, 9.4): what the body of each comes to where it accepts and where
it refuses, and O42, O44 and O45. -/

namespace Sys2Proof.Machine

/-! ## WRITE ROUTE and CLEAR ROUTES (R40, R52, R156) -/

section
variable {s : State} {args : List Byte}

theorem writeRouteBody_busy (h : s.route.staging = .copying) : writeRouteBody args s = (s, .refuse .busy) :=
  if_pos h

theorem clearRoutesBody_busy (h : s.route.staging = .copying) : clearRoutesBody args s = (s, .refuse .busy) :=
  if_pos h

theorem writeRouteBody_entry {i : RouteIdx} {e : RouteEntry} (h : s.route.staging ≠ .copying)
    (hi : below 64 (arg args 0) = some i) (he : parseRouteEntry args 1 = some e) :
    writeRouteBody args s = (s.onRoute (·.writeStaging i e), .ok []) := by
  rw [writeRouteBody, if_neg h, hi, he]

theorem clearRoutesBody_range {first count : Nat} (h : s.route.staging ≠ .copying) (hfirst : (arg args 0).toNat = first)
    (hcount : (arg args 1).toNat = count) (h1 : 1 ≤ count) (hend : first + count ≤ 64) :
    clearRoutesBody args s = (s.onRoute (·.clearStaging first count), .ok []) := by
  have hrange : ¬ (63 < first ∨ count = 0 ∨ 64 < count ∨ 64 < first + count) := by omega
  simp only [clearRoutesBody, if_neg h, hfirst, hcount, if_neg hrange]

end

theorem parseRouteEntry_cons (x : Byte) (args : List Byte) : parseRouteEntry (x :: args) 1 = parseRouteEntry args 0 := rfl

/-- The bytes of a staging write name the entry it stores: an entry the table may hold, or the cleared one. -/
theorem parseRouteEntry_named {e : RouteEntry} {bytes : List Byte}
    (h : (e.valid = true ∧ e.wf = true ∧ bytes = e.bytes) ∨
      (e = .cleared ∧ bytes.length = 10 ∧ (bytes.headD 0).getLsbD 0 = false)) :
    bytes.length = 10 ∧ parseRouteEntry bytes 0 = some e := by
  rcases h with ⟨-, hwf, rfl⟩ | ⟨rfl, hlen, hbit⟩
  · exact ⟨e.length_bytes, parseRouteEntry_bytes hwf⟩
  · refine ⟨hlen, parseRouteEntry_invalid ?_⟩
    cases bytes with
    | nil => cases hlen
    | cons x xs => exact hbit

section
variable (t : RouteTable) (first count : Nat)

/-- A range cleared leaves the active bank, and of the staging bank every entry outside the range (R52). -/
theorem RouteTable.clearStaging_banks :
    t.clearStaging first count = { t with
        bankA := (t.clearStaging first count).bankA, bankB := (t.clearStaging first count).bankB, staging := .modified } ∧
      (t.clearStaging first count).bank t.active = t.bank t.active ∧
      (t.clearStaging first count).bank t.active.other = clearRange t.stagingBank first count := by
  unfold RouteTable.clearStaging RouteTable.stagingBank
  generalize clearRange (t.bank t.active.other) first count = cleared
  obtain ⟨bankA, bankB, active, epoch, staging, copier, missFlooded, missDropped, ageDropped⟩ := t
  cases active <;> exact ⟨rfl, rfl, rfl⟩

end

theorem clearRange_get (x : Vector RouteEntry 64) (first count : Nat) (i : RouteIdx) :
    (clearRange x first count)[i] = if first ≤ i.val ∧ i.val < first + count then .cleared else x[i] := by
  simp [clearRange]

/-- A request of row `i` names the row's command. -/
theorem RequestView.names_of_row {v : RequestView} {i : Instr} {c : Command} (h : v.row = i)
    (hc : rowCommand i = some c) : commandOf v.opcode = some c := by
  rw [← v.rowCommand_row, h, hc]

/-- Settles O42: an accepted staging write changes the staging bank alone, and neither command is taken in COPYING. -/
theorem stagingWritesReachTheStagingBank : Obligations.StagingWritesReachTheStagingBank := by
  unfold Obligations.StagingWritesReachTheStagingBank
  intro s v rest hr ha
  refine ⟨fun hs => ⟨fun i e bytes hop hbytes hargs => ?write, fun first count hop hargs h1 hend => ?clear⟩,
    fun hs hrow hlen => ?busy⟩
  case write =>
    obtain ⟨hlen, hparse⟩ := parseRouteEntry_named hbytes
    have hbody : writeRouteBody v.args (s.admitted v rest) =
        ((s.admitted v rest).onRoute (·.writeStaging i e), .ok []) :=
      writeRouteBody_entry hs (by rw [hargs]; exact below_val i (by omega))
        (by rw [hargs, parseRouteEntry_cons]; exact hparse)
    have hanswered := State.commandRow_route hr ha (c := .writeRoute) hop rfl
      (by rw [hargs, List.length_cons, hlen]; rfl) hbody
    unfold RouteTable.writeStaging RouteTable.stagingBank at hanswered
    cases hactive : s.route.active <;> rw [hactive] at hanswered <;> exact hanswered
  case clear =>
    obtain ⟨hfields, hactive, hstaging⟩ := s.route.clearStaging_banks first count
    have hbody : clearRoutesBody v.args (s.admitted v rest) =
        ((s.admitted v rest).onRoute (·.clearStaging first count), .ok []) :=
      clearRoutesBody_range hs (by rw [hargs]; exact toNat_numByte (by omega))
        (by rw [hargs]; exact toNat_numByte (by omega)) h1 hend
    obtain ⟨t, hexec, hanswered⟩ := State.commandRow_route hr ha (c := .clearRoutes) hop rfl (by rw [hargs]; rfl) hbody
    refine ⟨t, _, hexec, hanswered, hfields, hactive, fun i => ?_⟩
    rw [hstaging, clearRange_get]
    rfl
  case busy =>
    rcases hrow with hrow | hrow <;> rw [hrow] at hlen ⊢
    · exact State.commandRow_refused hr ha rfl (RequestView.names_of_row hrow rfl) hlen
        (writeRouteBody_busy (s := s.admitted v rest) hs)
    · exact State.commandRow_refused hr ha rfl (RequestView.names_of_row hrow rfl) hlen
        (clearRoutesBody_busy (s := s.admitted v rest) hs)

/-! ## WRITE ACTION and WRITE BUCKET (R61, R87) -/

section
variable {s : State} {args : List Byte}

theorem writeActionBody_record {i : RecordIdx} {r : ActionRecord} {clear : Bool} (hi : below 128 (arg args 0) = some i)
    (hr : parseActionRecord args 1 = some r) (hc : yesNo (arg args 11) = some clear) :
    writeActionBody args s = (s.onAction (·.write i r clear), .ok []) := by
  rw [writeActionBody, hi, hr, hc]

theorem writeBucketBody_record {n : BucketNo} {on : Bool} {rate depth : Nat} {exceed : ExceedAction}
    (hn : below 32 (arg args 0) = some n) (hon : yesNo (arg args 1) = some on) (hrate : (arg16 args 2).toNat = rate)
    (hdepth : (arg16 args 4).toNat = depth) (he : parseExceed (arg args 6) = some exceed) (h1 : 1 ≤ rate)
    (h4095 : rate ≤ 4095) (h69 : 69 ≤ depth) :
    writeBucketBody args s = (s.setBucket n (s.buckets[n].write on rate depth exceed), .ok []) := by
  have hrange : ¬ (rate = 0 ∨ 4095 < rate ∨ depth < 69) := by omega
  simp only [writeBucketBody, hn, hon, he, hrate, hdepth, if_neg hrange]

end

/-- Ten bytes from place 1 on are the record they are alone. -/
theorem parseActionRecord_within {x : Byte} {bytes more : List Byte} (h : bytes.length = 10) :
    parseActionRecord (x :: (bytes ++ more)) 1 = parseActionRecord bytes 0 := by
  have hbyte : ∀ k, k < 10 → arg (x :: (bytes ++ more)) (k + 1) = arg bytes k := fun k hk =>
    arg_append_left (by omega) more
  simp only [parseActionRecord, arg16, hbyte 0 (by omega), hbyte 1 (by omega), hbyte 2 (by omega), hbyte 3 (by omega),
    hbyte 4 (by omega), hbyte 5 (by omega), hbyte 6 (by omega), hbyte 7 (by omega), hbyte 8 (by omega),
    hbyte 9 (by omega), Nat.zero_add, Nat.reduceAdd]

theorem parseExceed_byte (x : ExceedAction) : parseExceed (boolByte (decide (x = .demote))) = some x := by
  cases x <;> rfl

/-- Settles O44: each write's bytes are read back as the record, and the record is stored whole. -/
theorem actionAndBucketWritesTakeEffect : Obligations.ActionAndBucketWritesTakeEffect := by
  unfold Obligations.ActionAndBucketWritesTakeEffect
  intro s v rest hr ha
  refine ⟨fun i r clear hop hwf hargs => ?action, fun n on rate depth exceed hop h1 h4095 h69 hargs => ?bucket⟩
  case action =>
    have hten := r.length_bytes
    have hargs' : v.args = BitVec.ofNat 8 i.val :: (r.bytes ++ [boolByte clear]) := hargs
    have hlast : arg v.args 11 = boolByte clear := by
      rw [hargs', arg_cons_succ]
      have := arg_append_length r.bytes [boolByte clear] 0
      rwa [hten] at this
    have hbody : writeActionBody v.args (s.admitted v rest) =
        ((s.admitted v rest).onAction (·.write i r clear), .ok []) := by
      refine writeActionBody_record (by rw [hargs']; exact below_val i (by omega)) ?_ (by rw [hlast]; exact yesNo_boolByte _)
      rw [hargs', parseActionRecord_within hten]
      exact parseActionRecord_bytes hwf
    exact State.commandRow_answered hr ha (c := .writeAction) hop rfl
      (by rw [hargs', List.length_cons, List.length_append, hten]; rfl) hbody ⟨rfl, rfl, rfl, rfl⟩ rfl (Nat.zero_le _)
  case bucket =>
    simp only [bytes16, List.cons_append, List.nil_append] at hargs
    have hbody : writeBucketBody v.args (s.admitted v rest) =
        ((s.admitted v rest).setBucket n (s.buckets[n].write on rate.toNat depth.toNat exceed), .ok []) := by
      rw [hargs]
      exact writeBucketBody_record (below_val n (by omega)) (yesNo_boolByte on)
        (congrArg BitVec.toNat (word16_extractLsb' rate)) (congrArg BitVec.toNat (word16_extractLsb' depth))
        (parseExceed_byte exceed) h1 h4095 h69
    exact State.commandRow_answered hr ha (c := .writeBucket) hop rfl (by rw [hargs]; rfl) hbody ⟨rfl, rfl, rfl, rfl⟩ rfl
      (Nat.zero_le _)

/-! ## WRITE SLOT, ARM and DISARM (R115 to R117) -/

section
variable {s : State} {args : List Byte} {n : SlotNo}

theorem writeSlotBody_armed (hn : below 32 (arg args 0) = some n) (h : s.slots[n].state ≠ .off) :
    writeSlotBody args s = (s, .refuse .state) := by
  simp only [writeSlotBody, hn]
  exact if_pos h

theorem writeSlotBody_config {c : SlotConfig} (hn : below 32 (arg args 0) = some n) (h : s.slots[n].state = .off)
    (hc : parseSlotConfig args 1 = some c) :
    writeSlotBody args s = (s.onSlot n fun x => { x with cfg := c }, .ok []) := by
  simp only [writeSlotBody, hn, hc]
  exact if_neg (not_not_intro h)

theorem armBody_refused (hn : below 32 (arg args 0) = some n)
    (h : s.slots[n].state ≠ .off ∨ s.slots[n].cfg.period = 0) : armBody args s = (s, .refuse .state) := by
  simp only [armBody, hn]
  exact if_pos h

theorem armBody_armed (hn : below 32 (arg args 0) = some n) (hs : s.slots[n].state = .off)
    (hp : s.slots[n].cfg.period ≠ 0) :
    armBody args s = (s.onSlot n (·.armed s.now), .ok (deadlineBytes (s.slots[n].cfg.armDeadline s.now))) := by
  simp only [armBody, hn]
  refine if_neg ?_
  rintro (h | h)
  · exact h hs
  · exact hp h

theorem disarmBody_slot (hn : below 32 (arg args 0) = some n) :
    disarmBody args s = ((s.onSlot n Slot.disarmed).releaseHeld s.slots[n].held, .ok []) := by
  simp only [disarmBody, hn]

end

/-- The hold and substitute flags are read back from their byte (R115). -/
theorem slotFlags_bits (hold substitute : Bool) :
    (BitVec.ofNat 8 ((if hold then 1 else 0) + (if substitute then 2 else 0))).getLsbD 0 = hold ∧
      (BitVec.ofNat 8 ((if hold then 1 else 0) + (if substitute then 2 else 0))).getLsbD 1 = substitute := by
  cases hold <;> cases substitute <;> decide

/-- A configuration a slot may take is read back from its eight bytes (R115). -/
theorem parseSlotConfig_bytes {c : SlotConfig} (x : Byte) (hperiod : c.period ≠ 0) (h1 : 1 ≤ c.lossCount)
    (h15 : c.lossCount ≤ 15) (hsubstitute : c.substitute = true → c.hold = true) :
    parseSlotConfig ([x] ++ bytes16 c.period ++ bytes16 c.grace ++ [BitVec.ofNat 8 c.lossCount] ++
      bytes16 c.startWindow ++ [BitVec.ofNat 8 ((if c.hold then 1 else 0) + (if c.substitute then 2 else 0))]) 1 =
      some c := by
  obtain ⟨hhold, hsub⟩ := slotFlags_bits c.hold c.substitute
  have haccepted : ¬ (c.period = 0 ∨ c.lossCount = 0 ∨ 15 < c.lossCount ∨ (c.substitute = true ∧ c.hold = false)) := by
    rintro (h | h | h | ⟨h, hn⟩)
    · exact hperiod h
    · omega
    · omega
    · rw [hsubstitute h] at hn; cases hn
  simp only [parseSlotConfig, bytes16, List.cons_append, List.nil_append, arg16, arg_cons_succ, arg_cons_zero,
    word16_extractLsb', toNat_numByte (by omega : c.lossCount < 256), hhold, hsub, Nat.reduceAdd]
  exact if_neg haccepted

/-- A release touches nothing of the Management Agent, and so may come before or after a change of its own (R25). -/
theorem State.release_withAgent (s : State) (b : BufNo) (a : Agent) :
    ({ s with agent := a } : State).release b = { s.release b with agent := a } := by
  unfold State.release
  show (match s.store.count[b] with | 0 => _ | 1 => _ | n + 2 => _) = _
  split <;> rename_i h <;> simp only [h]
  · unfold State.endEpisode
    dsimp only
    split <;> rfl

theorem State.releaseHeld_withAgent (s : State) (x : Option Held) (a : Agent) :
    ({ s with agent := a } : State).releaseHeld x = { s.releaseHeld x with agent := a } := by
  cases x with
  | none => rfl
  | some h => exact State.release_withAgent s h.buf a

theorem State.releaseHeld_agent (s : State) (x : Option Held) : (s.releaseHeld x).agent = s.agent := by
  cases x with
  | none => rfl
  | some h => exact (State.release_frame s h.buf).tables.agent

/-- The end of another buffer's reference leaves what a response needs (R25, R136). -/
theorem State.Answerable.releaseHeld {u : State} {v : RequestView} {x : Option Held} (h : u.Answerable v)
    (hx : ∀ y, x = some y → y.buf ≠ v.req.buf) (hr : u.agent.resetPending = none) : (u.releaseHeld x).Answerable v := by
  cases x with
  | none => exact h
  | some y =>
    have hframe := State.release_frame u y.buf
    have hcount := (State.release_store u y.buf).1
    obtain ⟨more, hport⟩ := hframe.ports v.req.port
    refine h.of_parts (w := u.release y.buf) (by rw [hport]) (by rw [hport]) ?_ hframe.mem hframe.due
      (by rw [hframe.tables.agent]; exact hr)
    rw [Fin.getElem_fin, hcount, vset_get_ne _ _ (hx y rfl).symm]
    rfl

/-- Settles O45: each command's body by the slot's state; DISARM releases what the slot held before it answers. -/
theorem slotCommandsTakeEffect : Obligations.SlotCommandsTakeEffect := by
  unfold Obligations.SlotCommandsTakeEffect
  intro s v rest n x hr ha hx
  subst hx
  refine ⟨fun c hop hperiod h1 h15 hsub hargs => ⟨fun hs => ?config, fun hs => ?armed⟩,
    fun hop hargs => ⟨fun hs hp deadline hd => ?arm, fun h => ?refused⟩, fun hop hargs hheld => ?disarm⟩
  case config =>
    have hbody : writeSlotBody v.args (s.admitted v rest) =
        ((s.admitted v rest).onSlot n fun x => { x with cfg := c }, .ok []) :=
      writeSlotBody_config (by rw [hargs]; exact below_val n (by omega)) hs
        (by rw [hargs]; exact parseSlotConfig_bytes _ hperiod h1 h15 hsub)
    exact State.commandRow_slot hr ha (c := .writeSlot) hop rfl (by rw [hargs]; rfl) hbody (Nat.zero_le _)
  case armed =>
    exact State.commandRow_refused hr ha (c := .writeSlot) hop rfl (by rw [hargs]; rfl)
      (writeSlotBody_armed (s := s.admitted v rest) (by rw [hargs]; exact below_val n (by omega)) hs)
  case arm =>
    subst hd
    exact State.commandRow_slot hr ha (c := .arm) hop rfl (by rw [hargs]; rfl)
      (armBody_armed (s := s.admitted v rest) (by rw [hargs]; exact below_val n (by omega)) hs hp)
      (by rw [length_deadlineBytes]; omega)
  case refused =>
    exact State.commandRow_refused hr ha (c := .arm) hop rfl (by rw [hargs]; rfl)
      (armBody_refused (s := s.admitted v rest) (by rw [hargs]; exact below_val n (by omega)) h)
  case disarm =>
    have hready : ((s.admitted v rest).onSlot n Slot.disarmed).Answerable v :=
      hr.answerable.congr rfl rfl rfl rfl fun _ h => .inr h
    have hbody : disarmBody.checked .disarm v.args (s.admitted v rest) =
        (((s.admitted v rest).onSlot n Slot.disarmed).releaseHeld s.slots[n].held, .ok []) :=
      (if_pos (by rw [hargs]; rfl)).trans
        (disarmBody_slot (s := s.admitted v rest) (by rw [hargs]; exact below_val n (by omega)))
    have hanswered := State.exec_executed (i := .disarm) ha
      (RequestView.takenBy_names (RequestView.names_of_opcode hop rfl) fun _ => rfl) hr hbody rfl
      (hready.releaseHeld hheld hr.noReset) (Nat.zero_le _)
    have hagent : (((s.admitted v rest).onSlot n Slot.disarmed).releaseHeld s.slots[n].held).agent =
        (s.admitted v rest).agent := State.releaseHeld_agent _ _
    rw [State.cacheResponse_served ha hagent, ← State.releaseHeld_withAgent, hop] at hanswered
    unfold State.executed
    rw [hop]
    exact hanswered

end Sys2Proof.Machine
end

