-- ==== Sys2Proof/Proofs/PortCommands.lean ====
section
/-! PROOF. SET PORT and the clearing READ COUNTERS (sections 9.5, 9.6): what the body of each comes to, and O46 and O47. -/

namespace Sys2Proof.Machine

/-! ## A port that is not UP is left alone by what other ports send (R31, R33, R99) -/

section
variable {s t u : State} {p q : Port}

/-- `t` is `s` after port `p` has sent or served: nothing of a port outside UP is touched but `p`'s own, and no event. -/
structure State.SentAt (p : Port) (s t : State) : Prop where
  tables : s.SameTables t
  events : s.SameEvents t
  due    : s.agent.resetPending = none → t.resetDue = s.resetDue
  closed : ∀ q : Port, q ≠ p → s.ports[q].link ≠ .up → t.ports[q] = s.ports[q]

theorem State.SentAt.refl (p : Port) (s : State) : State.SentAt p s s :=
  ⟨.refl s, .refl s, fun _ => rfl, fun _ _ _ => rfl⟩

theorem State.SentAt.trans (h : State.SentAt p s t) (k : State.SentAt p t u) : State.SentAt p s u where
  tables := h.tables.trans k.tables
  events := h.events.trans k.events
  due hr := (k.due (by rw [h.tables.agent]; exact hr)).trans (h.due hr)
  closed q hq hl := (k.closed q hq (by rw [h.closed q hq hl]; exact hl)).trans (h.closed q hq hl)

theorem State.SentAt.onPort (s : State) (p : Port) (f : PortState → PortState) : State.SentAt p s (s.onPort p f) :=
  ⟨⟨rfl, rfl, rfl, rfl, rfl, rfl, rfl, rfl, rfl, rfl, rfl⟩, ⟨rfl, rfl⟩, fun _ => rfl, fun _ hq _ => State.onPort_get_ne s f hq⟩

/-- A release asks symbols of UP ports alone (R33). -/
theorem State.release_closed (s : State) (b : BufNo) {q : Port} (h : s.ports[q].link ≠ .up) :
    (s.release b).ports[q] = s.ports[q] :=
  (State.release_asked s b q).resolve_right fun ⟨hup, _⟩ => h hup

theorem State.release_sentAt (s : State) (p : Port) (b : BufNo) : State.SentAt p s (s.release b) := by
  have hframe := State.release_frame s b
  exact ⟨hframe.tables, hframe.events, fun _ => hframe.due, fun _ _ h => State.release_closed s b h⟩

theorem State.reportEntry_sentAt (s : State) (p : Port) (e : Entry) : State.SentAt p s (s.reportEntry e) := by
  refine ⟨?_, ?_, fun hr => by rw [State.reportEntry_none s e hr], fun _ _ _ => by rw [State.reportEntry_ports]⟩
  · rw [State.reportEntry_eq]; exact .refl s
  · rw [State.reportEntry_eq]; exact .refl s

theorem State.expireHead_sentAt (s : State) (p : Port) (e : Entry) : State.SentAt p s (s.expireHead p e) :=
  ((State.SentAt.onPort s p _).trans (State.release_sentAt _ p e.buf)).trans (State.reportEntry_sentAt _ p e)

theorem State.choose_sentAt : ∀ (fuel : Nat) (p : Port) (s : State), State.SentAt p s (State.choose fuel p s)
  | 0, p, s => .refl p s
  | fuel + 1, p, s => by
    simp only [State.choose]
    split
    · exact .refl p s
    · next e _ =>
      split
      · split
        · exact State.expireHead_sentAt s p e
        · exact (State.expireHead_sentAt s p e).trans (State.choose_sentAt fuel p _)
      · exact State.SentAt.onPort s p _

theorem State.askNext_sentAt (s : State) (p : Port) : State.SentAt p s (s.askNext p) := by
  unfold State.askNext
  split
  · exact State.choose_sentAt _ p s
  · exact .refl p s

theorem State.enqueue_sentAt (s : State) (p : Port) (b : BufNo) (h : Header) (o : Origin) :
    State.SentAt p s (s.enqueue p b h o).1 := by
  rcases State.enqueue_cases s p b h o with ⟨-, he⟩ | ⟨-, -, he⟩ | ⟨-, -, he⟩ <;> rw [he]
  · exact .refl p s
  · exact State.SentAt.onPort s p (·.tally .qFull)
  · have hjoined := State.joined_frame s p b h o
    exact State.SentAt.trans ⟨hjoined.1, hjoined.2.1, fun _ => hjoined.2.2, fun _ hq _ => State.joined_port_ne s b h o hq⟩
      (State.askNext_sentAt _ p)

/-! ## A response that is queued or lost, no reset pending (R137) -/

variable {v : RequestView} {payload : List Byte}

/-- What an answer leaves of `w` at `t`, its frame and buffer apart: the agent with its request ended and `lost` responses
counted, the events, the tables, and port `q`. -/
structure State.AnswerLeft (w t : State) (lost : Counter) (q : Port) : Prop where
  agent  : t.agent = { w.agent with executing := none, respLost := lost }
  events : w.SameEvents t
  tables : t.route = w.route ∧ t.action = w.action ∧ t.buckets = w.buckets ∧ t.slots = w.slots ∧ t.now = w.now
  due    : t.resetDue = w.resetDue
  port   : t.ports[q] = w.ports[q]

/-- The request's end touches nothing of what is left (R137). -/
theorem State.AnswerLeft.endRequest {w a : State} {lost : Counter} (hagent : a.agent = { w.agent with respLost := lost })
    (hevents : w.SameEvents a)
    (htables : a.route = w.route ∧ a.action = w.action ∧ a.buckets = w.buckets ∧ a.slots = w.slots ∧ a.now = w.now)
    (hdue : a.resetDue = w.resetDue) (hport : a.ports[q] = w.ports[q]) (hq : w.ports[q].link ≠ .up) (b : BufNo) :
    w.AnswerLeft (a.endRequest b) lost q := by
  have hframe := State.release_frame a b
  obtain ⟨-, -, hnow, hroute, haction, hbuckets, hslots, hag, -, -, -⟩ := hframe.tables
  obtain ⟨kroute, kaction, kbuckets, kslots, know⟩ := htables
  refine ⟨?_, hevents.trans hframe.events,
    ⟨hroute.trans kroute, haction.trans kaction, hbuckets.trans kbuckets, hslots.trans kslots, hnow.trans know⟩,
    hframe.due.trans hdue, ?_⟩
  · exact (congrArg (fun x : Agent => { x with executing := none }) (hag.trans hagent) :)
  · exact (State.release_closed a b (by rw [hport]; exact hq)).trans hport

/-- A response whose port is not UP is lost, and counted (R137). -/
theorem State.sendResponse_lost {w : State} (hr : w.agent.resetPending = none) (hup : w.isUp v.req.port = false)
    (hq : w.ports[q].link ≠ .up) : w.AnswerLeft (w.sendResponse v payload) (bump w.agent.respLost) q := by
  have hdown : (w.putPayload v.req.buf payload).enqueue v.req.port v.req.buf (w.relayHeader v.reply) .response =
      (w.putPayload v.req.buf payload, .down) := by
    rcases State.enqueue_cases (w.putPayload v.req.buf payload) v.req.port v.req.buf (w.relayHeader v.reply) .response
      with ⟨-, h⟩ | ⟨h, -⟩ | ⟨h, -⟩
    · exact h
    · exact absurd (hup.symm.trans h) (by decide)
    · exact absurd (hup.symm.trans h) (by decide)
  have hlost : (w.putPayload v.req.buf payload).responseLost v.req.buf =
      { w.putPayload v.req.buf payload with agent := { w.agent with respLost := bump w.agent.respLost } } := by
    unfold State.responseLost State.report
    simp only [hr, show (w.putPayload v.req.buf payload).agent = w.agent from rfl]
  rw [State.sendResponse, hdown]
  simp only [hlost]
  exact State.AnswerLeft.endRequest
    (a := { w.putPayload v.req.buf payload with agent := { w.agent with respLost := bump w.agent.respLost } })
    rfl ⟨rfl, rfl⟩ ⟨rfl, rfl, rfl, rfl, rfl⟩ rfl rfl hq _

/-- A response that finds room is queued, and no port outside UP is touched (R136). -/
theorem State.sendResponse_queued {w : State} (hr : w.agent.resetPending = none) (hup : w.isUp v.req.port = true)
    (hroom : w.ports[v.req.port].queues[(3 : Class)].length < 16) (hq : w.ports[q].link ≠ .up) (hne : q ≠ v.req.port) :
    w.AnswerLeft (w.sendResponse v payload) w.agent.respLost q := by
  have hsent := State.enqueue_sentAt (w.putPayload v.req.buf payload) v.req.port v.req.buf (w.relayHeader v.reply) .response
  have haccept := State.enqueue_accepted (s := w.putPayload v.req.buf payload) (b := v.req.buf) (h := w.relayHeader v.reply)
    (o := .response) hup hroom
  rw [haccept] at hsent
  rw [State.sendResponse, haccept]
  obtain ⟨-, -, hnow, hroute, haction, hbuckets, hslots, hagent, -, -, -⟩ := hsent.tables
  exact State.AnswerLeft.endRequest hagent hsent.events ⟨hroute, haction, hbuckets, hslots, hnow⟩ (hsent.due hr)
    (hsent.closed q hne hq) hq _

/-! ## A port in UP that is disabled (R7) -/

/-- Reception and transmission are given up each on its own side of the port. -/
theorem PortState.cutTx_abandonedRx (P : PortState) (abort : Bool) :
    (P.cutTx abort).abandonedRx = P.abandonedRx.cutTx abort := by
  cases htx : P.tx <;> cases hrx : P.rx
  case idle.ignoring cause | sending.ignoring e cause =>
    cases cause <;> simp [PortState.cutTx, PortState.abandonedRx, htx, hrx] <;> rfl
  all_goals simp [PortState.cutTx, PortState.abandonedRx, htx, hrx] <;> rfl

theorem State.disableUp_turns (s : State) (p : Port) :
    ∃ u, State.Turns p (·.givenUp true) s u ∧
      s.disableUp p = (u.onPort p PortState.clearFlow).onPort p (·.restartLink .disabled) := by
  refine ⟨((s.abandonTx p true).abandonRx p).flush p, ?_, rfl⟩
  have h := ((State.abandonTx_turns s p true).trans (State.abandonRx_turns _ p) PortState.abandonedRx_respects).trans
    (State.flush_turns _ p) PortState.flushed_respects
  exact h.congr (congrArg PortState.flushed (PortState.cutTx_abandonedRx _ true))

end

/-! ## SET PORT (R7, R162) -/

/-- The miss action's byte (section 11.3). -/
theorem parseMissAction_byte (x : MissAction) :
    parseMissAction (match x with | .flood => 0x00 | .drop => 0x01) = some x := by
  cases x <;> rfl

/-- A hold limit stands in the low byte of its field (R162). -/
theorem holdLimit_inRange (x : BitVec 8) : ¬ 255 < (word16 0x00 x).toNat := by
  have h := x.isLt
  rw [word16, BitVec.toNat_append]
  simp
  omega

theorem residence_eq (x : Vector (BitVec 16) 4) : #v[x[0], x[1], x[2], x[3]] = x := by
  apply Vector.ext
  intro i hi
  match i, hi with
  | 0, _ | 1, _ | 2, _ | 3, _ => rfl

/-- The five items of SET PORT are read back from their thirteen bytes (R162). -/
theorem parsePortConfig_bytes (x : Byte) (c : PortConfig) :
    parsePortConfig ([x, boolByte c.enable, (match c.missAction with | .flood => 0x00 | .drop => 0x01),
        boolByte c.admitMgmt, 0x00, c.holdLimit] ++ bytes16 c.residence[0] ++ bytes16 c.residence[1] ++
      bytes16 c.residence[2] ++ bytes16 c.residence[3]) 1 = some c := by
  simp only [parsePortConfig, bytes16, List.cons_append, List.nil_append, arg16, arg_cons_succ, arg_cons_zero,
    word16_extractLsb', yesNo_boolByte, parseMissAction_byte, Nat.reduceAdd, Option.bind_eq_bind, Option.bind_some,
    if_neg (holdLimit_inRange _), residence_eq]

theorem setPortBody_config {s : State} {args : List Byte} {p : Port} {c : PortConfig}
    (hp : below 4 (arg args 0) = some p) (hc : parsePortConfig args 1 = some c) :
    setPortBody args s = ((s.onPort p fun P => { P with cfg := c }).applyEnable p c.enable, .ok []) := by
  rw [setPortBody, hp, hc]

section
variable {s : State} {v : RequestView} {rest : List Request} {p : Port} {c : PortConfig}

/-- SET PORT that takes no port out of UP: the port's change, in one step (R7). -/
theorem State.applyEnable_onPort {u : PortState → PortState}
    (h : (c.enable = true ∧ s.ports[p].link ≠ .disabled ∧ u = fun P => { P with cfg := c }) ∨
      (c.enable = true ∧ s.ports[p].link = .disabled ∧ u = fun P =>
        { P with cfg := c, link := .down, trainingDeadline := none, validRun := 0, invalidRun := 0 }) ∨
      (c.enable = false ∧ s.ports[p].link = .disabled ∧ u = fun P => { P with cfg := c }) ∨
      (c.enable = false ∧ (s.ports[p].link = .down ∨ s.ports[p].link = .training) ∧ u = fun P =>
        { P with cfg := c, link := .disabled, trainingDeadline := none, validRun := 0, invalidRun := 0 })) :
    (s.onPort p fun P => { P with cfg := c }).applyEnable p c.enable = s.onPort p u := by
  have hlink : (s.onPort p fun P => { P with cfg := c }).ports[p].link = s.ports[p].link := by rw [State.onPort_get]
  rcases h with ⟨he, hl, rfl⟩ | ⟨he, hl, rfl⟩ | ⟨he, hl, rfl⟩ | ⟨he, hl | hl, rfl⟩
  · cases hkept : s.ports[p].link
    case disabled => exact absurd hkept hl
    all_goals simp only [State.applyEnable, hlink, he, hkept]
  · simp only [State.applyEnable, hlink, he, hl]
    exact State.onPort_onPort _ _ _ _
  · simp only [State.applyEnable, hlink, he, hl]
  · simp only [State.applyEnable, hlink, he, hl]
    exact State.onPort_onPort _ _ _ _
  · simp only [State.applyEnable, hlink, he, hl]
    exact State.onPort_onPort _ _ _ _

/-- The port of a request is UP, so a change that keeps the link of every UP port leaves what the response needs. -/
theorem State.Answerable.onPort {u : State} {f : PortState → PortState} (h : u.Answerable v)
    (hlink : u.ports[p].link = .up → (f u.ports[p]).link = .up) (hqueues : (f u.ports[p]).queues = u.ports[p].queues)
    (hr : u.agent.resetPending = none) : (u.onPort p f).Answerable v := by
  have hup : u.ports[v.req.port].link = .up := (isUp_iff _ _).1 h.portUp
  by_cases hp : v.req.port = p
  · subst hp
    have hget : (u.onPort v.req.port f).ports[v.req.port] = f u.ports[v.req.port] := State.onPort_get u _ f
    exact h.of_parts (by rw [hget, hlink hup, hup]) (by rw [hget, hqueues]) rfl rfl rfl hr
  · have hget := State.onPort_get_ne u f hp
    exact h.of_parts (by rw [hget]) (by rw [hget]) rfl rfl rfl hr

/-- SET PORT with enable = no takes an UP port to DISABLED: what it held is given up, with ABORT for a frame being sent, and no
other port's own part is touched (R7). -/
structure State.Disabled (p : Port) (c : PortConfig) (s w : State) : Prop where
  port   : w.ports[p] = ((({ s.ports[p] with cfg := c } : PortState).givenUp true).clearFlow).restartLink .disabled
  others : ∀ q : Port, q ≠ p → (s.ports[q]).FlowOnly (w.ports[q])
  events : s.SameEvents w
  tables : s.SameTables w
  due    : s.agent.resetPending = none → w.resetDue = s.resetDue

theorem State.applyEnable_disabled (hup : s.ports[p].link = .up) (he : c.enable = false) :
    State.Disabled p c s ((s.onPort p fun P => { P with cfg := c }).applyEnable p c.enable) := by
  have hlink : (s.onPort p fun P => { P with cfg := c }).ports[p].link = .up := by rw [State.onPort_get]; exact hup
  have hcfg := State.Turns.onPort s p fun P => { P with cfg := c }
  obtain ⟨u, hturn, hdisable⟩ := (s.onPort p fun P => { P with cfg := c }).disableUp_turns p
  have hport := hturn.port
  rw [State.onPort_get] at hport
  simp only [State.applyEnable, hlink, he, hdisable]
  refine ⟨?_, fun q hq => ?_, hcfg.events.trans hturn.events, hcfg.tables.trans hturn.tables, fun hr => ?_⟩
  · rw [State.onPort_get, State.onPort_get, PortState.clearFlow_flowOnly hport]
  · rw [State.onPort_get_ne _ _ hq, State.onPort_get_ne _ _ hq]
    exact (hcfg.others q hq).trans (hturn.others q hq)
  · exact (hturn.due (hcfg.settled hr)).trans (hcfg.due hr)

end

section
variable {s w : State} {v : RequestView} {rest : List Request} {p : Port} {c : PortConfig}

theorem PortState.Emptied.disabled {P Q : PortState} (h : P.Emptied Q true) :
    (Q.clearFlow.restartLink .disabled).link = .disabled ∧ (Q.clearFlow.restartLink .disabled).Quiescent ∧
      (Q.clearFlow.restartLink .disabled).trainingDeadline = none ∧ (Q.clearFlow.restartLink .disabled).validRun = 0 ∧
      (Q.clearFlow.restartLink .disabled).invalidRun = 0 :=
  ⟨rfl, ⟨h.rx, h.tx, h.queues, rfl, rfl, rfl⟩, rfl, rfl, rfl⟩

/-- The answer to a SET PORT that disabled port `p` is lost where it was to leave on that port, and queued otherwise (R163). -/
theorem State.Disabled.answerLeft (h : State.Disabled p c (s.admitted v rest) w) (hr : s.Ready v rest) (r : Reply) :
    (w.cacheResponse v r).AnswerLeft ((w.cacheResponse v r).answer v r.status r.results)
      (if p = v.req.port then bump s.agent.respLost else s.agent.respLost) p := by
  have hagent : w.agent = (s.admitted v rest).agent := h.tables.agent
  have hreset : (w.cacheResponse v r).agent.resetPending = none := by
    rw [State.cacheResponse_agent, hagent]; exact hr.noReset
  have hlost : (w.cacheResponse v r).agent.respLost = s.agent.respLost := by
    rw [State.cacheResponse_agent, hagent]; rfl
  have hport : (w.cacheResponse v r).ports = w.ports := rfl
  have hclosed : (w.cacheResponse v r).ports[p].link ≠ .up := by
    rw [hport, h.port, PortState.restartLink]
    exact fun k => by cases k
  rw [← hlost]
  split
  · next hp =>
    subst hp
    exact State.sendResponse_lost hreset (decide_eq_false hclosed) hclosed
  · next hp =>
    obtain ⟨more, hflow⟩ := h.others v.req.port fun k => hp k.symm
    have hkept : (w.cacheResponse v r).ports[v.req.port] = { s.ports[v.req.port] with
        asked := s.ports[v.req.port].asked ++ more } := hflow
    exact State.sendResponse_queued hreset (by rw [State.isUp, hkept]; exact hr.portUp) (by rw [hkept]; exact hr.room)
      hclosed hp

end

/-- Settles O46: the five items are stored, and `enable` acts on the link as R7 has it. -/
theorem setPortWritesAllItems : Obligations.SetPortWritesAllItems := by
  unfold Obligations.SetPortWritesAllItems
  intro s v rest p c hr ha hop hargs
  have htaken : v.TakenBy .setPort (State.serveSessioned .setPort setPortBody) :=
    RequestView.takenBy_names (RequestView.names_of_opcode hop rfl) fun _ => rfl
  have hbody : setPortBody.checked .setPort v.args (s.admitted v rest) =
      (((s.admitted v rest).onPort p fun P => { P with cfg := c }).applyEnable p c.enable, .ok []) := by
    refine (if_pos (by rw [hargs]; rfl)).trans (setPortBody_config (by rw [hargs]; exact below_val p (by omega)) ?_)
    rw [hargs]
    exact parsePortConfig_bytes _ c
  refine ⟨fun u hu => ?stays, fun he hup => ?leaves⟩
  case stays =>
    rw [State.applyEnable_onPort (s := s.admitted v rest) hu] at hbody
    have hready : (s.admitted v rest).Answerable v := hr.answerable.congr rfl rfl rfl rfl fun _ h => .inr h
    have hlink : s.ports[p].link = .up → (u s.ports[p]).link = .up := by
      intro hup
      rcases hu with ⟨-, -, rfl⟩ | ⟨-, hl, -⟩ | ⟨-, -, rfl⟩ | ⟨-, hl | hl, -⟩
      · exact hup
      · rw [hup] at hl; cases hl
      · exact hup
      · rw [hup] at hl; cases hl
      · rw [hup] at hl; cases hl
    have hqueues : (u s.ports[p]).queues = s.ports[p].queues := by
      rcases hu with ⟨-, -, rfl⟩ | ⟨-, -, rfl⟩ | ⟨-, -, rfl⟩ | ⟨-, -, rfl⟩ <;> rfl
    have hanswered := State.exec_executed (i := .setPort) ha htaken hr hbody rfl
      (hready.onPort hlink hqueues hr.noReset) (Nat.zero_le _)
    have hagent : ((s.admitted v rest).onPort p u).agent = (s.admitted v rest).agent := rfl
    rw [State.cacheResponse_served ha hagent, hop] at hanswered
    unfold State.executed
    rw [hop]
    exact hanswered
  case leaves =>
    have hd := State.applyEnable_disabled (s := s.admitted v rest) (c := c) hup he
    have hexec := State.exec_admitted (i := .setPort) ha htaken hr.takes hbody
    have hleft := hd.answerLeft hr (.ok [])
    have hempty := PortState.givenUp_emptied { s.ports[p] with cfg := c } true
    have hserved := State.cacheResponse_served (r := .ok []) ha hd.tables.agent
    generalize (((s.admitted v rest).onPort p fun P => { P with cfg := c }).applyEnable p c.enable) = w
      at hd hexec hleft hserved
    obtain ⟨hagent, hevents, ⟨hroute, haction, hbuckets, hslots, hnow⟩, hdue, hport⟩ := hleft
    obtain ⟨-, -, know, kroute, kaction, kbuckets, kslots, -⟩ := hd.tables
    obtain ⟨hlink, hquiet, htraining, hvalid, hinvalid⟩ := hempty.disabled
    have hfinish : ((w.cacheResponse v (.ok [])).answer v .ok []).finish = (w.cacheResponse v (.ok [])).answer v .ok [] :=
      State.finish_of_settled _ (hdue.trans ((hd.due hr.noReset).trans hr.settled))
    have hget : ((w.cacheResponse v (.ok [])).answer v .ok []).ports[p] =
        ((({ s.ports[p] with cfg := c } : PortState).givenUp true).clearFlow).restartLink .disabled := hport.trans hd.port
    refine ⟨(w.cacheResponse v (.ok [])).answer v .ok [], hexec.trans (congrArg Host.Outcome.next hfinish), ?_⟩
    rw [hget]
    obtain ⟨-, -, -, -, -, hcfg⟩ := hempty.rest
    refine ⟨hlink, hquiet, hcfg, htraining, hvalid, hinvalid, hempty.flushed, fun hidle => (hempty.unsent hidle).2,
      fun e hsending => ⟨(hempty.sending e hsending).2, (hempty.sending e hsending).1⟩, ?_,
      hd.events.trans hevents, hroute.trans kroute, haction.trans kaction, hbuckets.trans kbuckets, hslots.trans kslots,
      hnow.trans know⟩
    have hidled : { (w.cacheResponse v (.ok [])).agent with executing := none } =
        s.agent.served rest (s.agent.session.executed s.now v.req.port v.opcode .ok []) :=
      congrArg State.agent hserved
    rw [← hop, ← hidled]
    exact hagent

/-! ## READ COUNTERS with clear (R164 to R166) -/

theorem readCountersClearBody_group {s : State} {args : List Byte} {g : CounterGroup}
    (hg : parseGroup (arg args 0) (arg args 1) = some g) (hf : arg args 2 = 1) :
    readCountersClearBody args s = (s.clearCounters g, .ok ((s.counters g).flatMap bytes32)) := by
  simp only [readCountersClearBody, hg]
  exact if_neg (not_not_intro hf)

/-- The counters of the group cleared are 0 (R166). -/
theorem State.clearCounters_same (s : State) (g : CounterGroup) :
    (s.clearCounters g).counters g = (s.counters g).map fun _ => 0 := by
  cases g with
  | port p => simp only [State.clearCounters, State.counters, State.onPort_get]; rfl
  | device => rfl
  | bucket n =>
    have hget : (s.clearCounters (.bucket n)).buckets[n] = { s.buckets[n] with conform := 0, exceeds := 0 } :=
      vset_get_self _ _ _
    simp only [State.counters, hget, List.map]
  | slot n =>
    have hget : (s.clearCounters (.slot n)).slots[n] =
        { s.slots[n] with arrivals := 0, misses := 0, substitutes := 0, recoveries := 0 } := vset_get_self _ _ _
    simp only [State.counters, hget, List.map]

/-- Every other counter stands (R166). -/
theorem State.clearCounters_other (s : State) {g k : CounterGroup} (h : k ≠ g) :
    (s.clearCounters g).counters k = s.counters k := by
  cases g with
  | port p =>
    cases k with
    | port q =>
      have hq : q ≠ p := fun e => h (by rw [e])
      simp only [State.clearCounters, State.counters, State.onPort_get_ne _ _ hq]
    | device | bucket n | slot n => rfl
  | device =>
    cases k with
    | device => exact absurd rfl h
    | port p | bucket n | slot n => rfl
  | bucket n =>
    cases k with
    | bucket m =>
      have hget : (s.clearCounters (.bucket n)).buckets[m] = s.buckets[m] :=
        vset_get_ne _ _ fun e => h (by rw [e])
      simp only [State.counters, hget]
    | port p | device | slot m => rfl
  | slot n =>
    cases k with
    | slot m =>
      have hget : (s.clearCounters (.slot n)).slots[m] = s.slots[m] := vset_get_ne _ _ fun e => h (by rw [e])
      simp only [State.counters, hget]
    | port p | device | bucket m => rfl

section
variable {s : State} {v : RequestView} {rest : List Request} {g : CounterGroup}

/-- Clearing counters leaves what a response needs. -/
theorem State.Answerable.clearCounters {u : State} (h : u.Answerable v) (hr : u.agent.resetPending = none)
    (g : CounterGroup) : (u.clearCounters g).Answerable v := by
  cases g with
  | port p => exact h.onPort (f := fun P => { P with ctr := .zero }) (fun hup => hup) rfl hr
  | device | bucket n | slot n => exact h.of_parts rfl rfl rfl rfl rfl hr

/-- The counters are cleared of the part as its agent stands after the execution (R142, R166). -/
theorem State.clearCounters_served (ha : s.Admits v) (results : List Byte) :
    (((s.admitted v rest).clearCounters g).cacheResponse v (.ok results)).idled =
      (s.executed v rest .ok results).clearCounters g := by
  have hcommutes : (((s.admitted v rest).clearCounters g).cacheResponse v (.ok results)).idled =
      (((s.admitted v rest).cacheResponse v (.ok results)).idled).clearCounters g := by
    cases g <;> rfl
  rw [hcommutes, State.cacheResponse_served ha rfl]
  rfl

end

/-- Settles O47: the group is answered as it stood and cleared, and no other counter is touched. -/
theorem clearingReadZeroesItsGroup : Obligations.ClearingReadZeroesItsGroup := by
  unfold Obligations.ClearingReadZeroesItsGroup
  intro s u w v rest g hr ha hop hargs hu hw
  have hname : v.args = [g.name.1, g.name.2, 0x01] := by rw [hargs]; cases g <;> rfl
  have hclear : w = u.clearCounters g := by rw [hw]; cases g <;> rfl
  have hcounters : ∀ k, u.counters k = s.counters k := fun k => by rw [← hu]; cases k <;> rfl
  refine ⟨?answered, fun k => ?counters⟩
  case answered =>
    have hready : (s.admitted v rest).Answerable v := hr.answerable.congr rfl rfl rfl rfl fun _ h => .inr h
    have hbody : readCountersClearBody.checked .readCounters v.args (s.admitted v rest) =
        ((s.admitted v rest).clearCounters g, .ok ((s.counters g).flatMap bytes32)) := by
      have hsame : (s.admitted v rest).counters g = s.counters g := by cases g <;> rfl
      rw [← hsame]
      exact (if_pos (by rw [hname]; rfl)).trans
        (readCountersClearBody_group (by rw [hname]; exact parseGroup_name g) (by rw [hname]; rfl))
    have hanswered := State.exec_executed (i := .readCountersClear) ha
      (RequestView.takenBy_readCountersClear (RequestView.names_of_opcode hop rfl) (by rw [hname]; exact fun h => by cases h)) hr hbody rfl
      (hready.clearCounters hr.noReset g) (State.counters_length s g)
    rw [State.clearCounters_served ha, hu, ← hclear] at hanswered
    exact hanswered
  case counters =>
    rw [hclear]
    split
    · next hk => rw [hk, State.clearCounters_same, hcounters]
    · next hk => rw [State.clearCounters_other u hk, hcounters]

end Sys2Proof.Machine
end

