-- ==== Sys2Proof/Proofs/Delivery.lean ====
section
/-! PROOF. Delivery attempts (R176 to R178): what an attempt reads of the Management Agent, what it leaves of a request under
execution, and O32, O36 and O48. -/

namespace Sys2Proof.Machine

/-! ## What an attempt reads of the agent (R148, R176, R177) -/

/-- `a` is `b` in what a delivery attempt reads of the Management Agent. -/
structure Agent.DeliversAs (a b : Agent) : Prop where
  reset   : a.resetPending = b.resetPending
  isOpen  : a.session.isOpen = b.session.isOpen
  enabled : a.session.eventsEnabled = b.session.eventsEnabled
  port    : a.session.eventPort = b.session.eventPort
  label   : a.session.replyLabel = b.session.replyLabel

section
variable {s : State} {a : Agent}

theorem State.reportEntry_withAgent (h : a.resetPending = s.agent.resetPending) (e : Entry) :
    ({ s with agent := a } : State).reportEntry e = { s.reportEntry e with agent := a } := by
  unfold State.reportEntry State.report
  simp only [h]
  split
  · split
    · split <;> rfl
    · rfl
  · rfl

theorem State.expireHead_withAgent (h : a.resetPending = s.agent.resetPending) (p : Port) (e : Entry) :
    ({ s with agent := a } : State).expireHead p e = { s.expireHead p e with agent := a } := by
  have hrelease := State.release_withAgent (s.onPort p fun P => (P.dropHead e.hdr.cls).tally .qExpired) e.buf a
  have hagent : ((s.onPort p fun P => (P.dropHead e.hdr.cls).tally .qExpired).release e.buf).agent = s.agent :=
    (State.release_frame _ e.buf).tables.agent
  calc ({ s with agent := a } : State).expireHead p e
      = (({ s.onPort p fun P => (P.dropHead e.hdr.cls).tally .qExpired with agent := a } : State).release
          e.buf).reportEntry e := rfl
    _ = _ := by
        rw [hrelease]
        exact State.reportEntry_withAgent (by rw [hagent]; exact h) e

theorem State.expireHead_agent (s : State) (p : Port) (e : Entry) : (s.expireHead p e).agent = s.agent :=
  (State.expireHead_sentAt s p e).tables.agent

theorem State.choose_withAgent : ∀ (fuel : Nat) (p : Port) (s : State), a.resetPending = s.agent.resetPending →
    State.choose fuel p { s with agent := a } = { State.choose fuel p s with agent := a }
  | 0, _, _, _ => rfl
  | fuel + 1, p, s, h => by
    simp only [State.choose]
    split
    · rfl
    · next e _ =>
      rw [State.expireHead_withAgent h p e]
      split
      · split
        · rfl
        · exact State.choose_withAgent fuel p (s.expireHead p e) (by rw [State.expireHead_agent]; exact h)
      · rfl

theorem State.askNext_withAgent (h : a.resetPending = s.agent.resetPending) (p : Port) :
    ({ s with agent := a } : State).askNext p = { s.askNext p with agent := a } := by
  unfold State.askNext
  show (if s.eligible p then _ else _) = _
  split
  · exact State.choose_withAgent _ p s h
  · rfl

theorem State.joined_withAgent (p : Port) (b : BufNo) (hd : Header) (o : Origin) :
    ({ s with agent := a } : State).joined p b hd o = { s.joined p b hd o with agent := a } := by
  unfold State.joined State.addRef
  show (match s.store.count[b] with | 0 => _ | n + 1 => _) = _
  cases hc : s.store.count[b] <;> simp only [State.onPort_store, hc] <;> rfl

theorem State.enqueue_withAgent (h : a.resetPending = s.agent.resetPending) (p : Port) (b : BufNo) (hd : Header)
    (o : Origin) :
    (({ s with agent := a } : State).enqueue p b hd o).1 = { (s.enqueue p b hd o).1 with agent := a } := by
  have hjoined : (s.joined p b hd o).agent = s.agent := (State.joined_frame s p b hd o).1.agent
  unfold State.enqueue
  show (if s.isUp p = false then _ else if 16 ≤ s.ports[p].queues[hd.cls].length then _ else _ : State × EnqueueOutcome).1 = _
  split
  · rfl
  · split
    · rfl
    · show (({ s with agent := a } : State).joined p b hd o).askNext p = _
      rw [State.joined_withAgent]
      exact State.askNext_withAgent (by rw [hjoined]; exact h) p

theorem State.sendEventFrame_withAgent (h : a.DeliversAs s.agent) (b : BufNo) :
    ({ s with agent := a } : State).sendEventFrame b = { s.sendEventFrame b with agent := a } := by
  have hsend := State.enqueue_withAgent (s := s.putPayload b (eventPayload s.events.carried)) h.reset
    s.agent.session.eventPort b (s.relayHeader s.agent.session.replyLabel) .event
  have hread : ({ s with agent := a } : State).sendEventFrame b =
      ((({ s.putPayload b (eventPayload s.events.carried) with agent := a } : State).enqueue s.agent.session.eventPort b
        (s.relayHeader s.agent.session.replyLabel) .event).1).release b := by
    rw [← h.port, ← h.label]
    rfl
  rw [hread, hsend]
  exact State.release_withAgent _ b a

theorem State.popQuietly_withAgent :
    ({ s with agent := a } : State).popQuietly = s.popQuietly.map fun x => (x.1, { x.2 with agent := a }) := by
  have htop : ({ s with agent := a } : State).takeTop = s.takeTop.map fun x => (x.1, { x.2 with agent := a }) := by
    unfold State.takeTop
    show (match s.store.free with | [] => _ | b :: rest => _) = _
    cases s.store.free <;> rfl
  have hmarks : ∀ u : State, ({ u with agent := a } : State).episodeAfterPop (fun k d u => u.note k 0 d) =
      { u.episodeAfterPop fun k d u => u.note k 0 d with agent := a } := by
    intro u
    unfold State.episodeAfterPop
    dsimp only
    split
    · rfl
    · split <;> rfl
  unfold State.popQuietly
  rw [htop, Option.map_map, Option.map_map]
  congr 1
  funext x
  exact congrArg (Prod.mk x.1) (hmarks x.2)

/-- An attempt leaves the agent, and reads of it what `Agent.DeliversAs` lists. -/
theorem State.tryDeliver_withAgent (h : a.DeliversAs s.agent) :
    ({ s with agent := a } : State).tryDeliver = { s.tryDeliver with agent := a } := by
  have hcan : ({ s with agent := a } : State).canDeliver = s.canDeliver := by
    unfold State.canDeliver
    rw [h.isOpen, h.enabled]
  unfold State.tryDeliver
  rw [hcan]
  split
  · unfold State.deliver
    rw [State.popQuietly_withAgent]
    cases hpop : s.popQuietly with
    | none => rfl
    | some x =>
      have hagent : x.2.agent = s.agent := (State.popQuietly_sends (b := x.1) hpop).tables.agent
      simp only [Option.map_some]
      rw [State.sendEventFrame_withAgent (by rw [hagent]; exact h)]
      rfl
  · rfl

end

/-! ## The event frame (R177, R187) -/

theorem eventPayload_eq (ns : List Notice) :
    eventPayload (ns.take 4) = [0x80#8, BitVec.ofNat 8 (min 4 ns.length)] ++
      (ns.take 4).flatMap (fun x => bytes16 x.sequence ++ [x.kind.code, x.subject] ++ bytes32 x.tick ++ bytes32 x.detail) := by
  rw [eventPayload, List.length_take]
  rfl

theorem eventPayload_length (ns : List Notice) : (eventPayload (ns.take 4)).length < 256 := by
  have hnotice : ∀ n, (noticeBytes n).length = 12 := fun n => by simp [noticeBytes, bytes16, bytes32]
  rw [eventPayload, List.length_append, length_flatMap_eq hnotice, List.length_take]
  simp
  omega

section
variable {s t u : State} {b : BufNo}

/-- What the sending of an event frame from buffer `b`, of which the attempt has the only claim, leaves where it finds room
(R177). -/
structure State.SentFrame (s t : State) (b : BufNo) : Prop where
  payload : t.payloadAt b = eventPayload s.events.carried
  took    : (s.ports[s.agent.session.eventPort]).Took (t.ports[s.agent.session.eventPort]) b
              (s.relayHeader s.agent.session.replyLabel) s.now .event
  count   : t.store.count[b] = 1
  others  : ∀ q : Port, q ≠ s.agent.session.eventPort → (s.ports[q]).FlowOnly (t.ports[q])
  events  : s.SameEvents t
  tables  : s.SameTables t
  due     : t.resetDue = s.resetDue

theorem State.sendEventFrame_sent (hup : s.isUp s.agent.session.eventPort = true)
    (hroom : s.ports[s.agent.session.eventPort].queues[(3 : Class)].length < 16) (hr : s.agent.resetPending = none)
    (hmem : s.MemoryLaw) (hown : s.store.count[b] = 1)
    (hun : ∀ c : Class, ∀ e ∈ s.ports[s.agent.session.eventPort].queues[c], e.buf ≠ b) :
    State.SentFrame s (s.sendEventFrame b) b := by
  have hpay := State.payloadAt_putPayload s b (eventPayload s.events.carried) hmem (eventPayload_length _)
  have henqueue := State.enqueue_accepted (s := s.putPayload b (eventPayload s.events.carried)) (b := b)
    (h := s.relayHeader s.agent.session.replyLabel) (o := .event) hup hroom
  have haccept := State.accept_three (s.putPayload b (eventPayload s.events.carried)) s.agent.session.eventPort b
    (s.relayHeader s.agent.session.replyLabel) .event rfl hown hun
  have htail := State.accept_tail (s.putPayload b (eventPayload s.events.carried)) s.agent.session.eventPort b
    (s.relayHeader s.agent.session.replyLabel) .event rfl
  have hsend : s.sendEventFrame b = ((s.putPayload b (eventPayload s.events.carried)).accept s.agent.session.eventPort b
      (s.relayHeader s.agent.session.replyLabel) .event).release b := by
    rw [State.sendEventFrame, henqueue]
  rw [hsend]
  generalize (s.putPayload b (eventPayload s.events.carried)).accept s.agent.session.eventPort b
    (s.relayHeader s.agent.session.replyLabel) .event = x at haccept htail ⊢
  have hframe := State.release_frame x b
  have hcount := (State.release_store x b).1
  rw [haccept.own] at hcount
  have hm : (x.release b).store.mem = (s.putPayload b (eventPayload s.events.carried)).store.mem :=
    hframe.mem.trans haccept.mem
  obtain ⟨more, hport⟩ := hframe.ports s.agent.session.eventPort
  refine
    { payload := ?_, took := ⟨?_, fun c hc => ?_, ?_⟩, count := ?_, others := fun q hq => ?_,
      events := haccept.events.trans hframe.events, tables := haccept.tables.trans hframe.tables,
      due := hframe.due.trans (haccept.due fun r h => nomatch hr.symm.trans h) }
  · rw [← hpay]
    simp only [State.payloadAt, State.lengthAt, State.byteAt, State.bytesAt, hm]
  · rw [hport]; exact htail
  · rw [hport]; exact haccept.lower c hc
  · exact haccept.port.trans (hframe.ports s.agent.session.eventPort).service
  · rw [hcount]; exact vset_get_self _ _ _
  · exact (haccept.others q hq).trans (hframe.ports q)

/-! ## The retransmit expiry (R178) -/

/-- The part once the retransmit timer has stopped and its flag is clear (R178). -/
def State.stopTimer (s : State) : State := { s with events := { s.events with outstanding := false, timer := none } }

theorem exec_retransmitExpiry {d : Tick} (ht : s.events.timer = some d) (hd : reached s.now d = true) :
    exec .retransmitExpiry s = .next s.stopTimer.tryDeliver.finish := by
  have hdue : due s.now s.events.timer = true := by rw [ht]; exact hd
  show Host.Outcome.next s.takeRetransmit = _
  rw [State.takeRetransmit, if_pos hdue]
  rfl

theorem State.tryDeliver_off (h : s.canDeliver = false) : s.tryDeliver = s := by
  rw [State.tryDeliver, h]
  rfl

theorem State.tryDeliver_on (h : s.canDeliver = true) : s.tryDeliver = s.deliver := if_pos h

theorem State.deliver_empty (h : s.store.free = []) : s.deliver = s.armRetransmit := by
  have hpop : s.popQuietly = none := by simp only [State.popQuietly, State.takeTop, h, Option.map_none]
  rw [State.deliver, hpop]

theorem State.deliver_top {rest : List BufNo} (h : s.store.free = b :: rest)
    (h8 : ¬(rest.length = 8 ∧ s.store.episode = .none)) (h0 : ¬(rest.length = 0 ∧ s.store.episode = .low false)) :
    s.deliver = ((s.tookTop b rest).sendEventFrame b).armRetransmit := by
  have hpop : s.popQuietly = some (b, s.tookTop b rest) := by
    rw [State.popQuietly, State.takeTop_top h]
    exact congrArg (fun t => some (b, t)) (State.episodeAfterPop_quiet (s := s.tookTop b rest) h8 h0)
  rw [State.deliver, hpop]

end

/-- Settles O32: the timer stops, and the attempt is made afresh where its conditions hold. -/
theorem retransmitExpirySendsOldestNotices : Obligations.RetransmitExpirySendsOldestNotices := by
  unfold Obligations.RetransmitExpirySendsOldestNotices
  intro s d htimer hreached hdue
  have hon : s.agent.session.isOpen = true → s.agent.session.eventsEnabled = true → s.events.notices ≠ [] →
      s.stopTimer.canDeliver = true := by
    intro hopen henabled hne
    simp [State.canDeliver, State.stopTimer, hopen, henabled, hne, hdue]
  refine ⟨fun h => ?off, fun hopen henabled hne hfree => ?empty,
    fun b rest hopen henabled hne hfree h8 h0 hup hroom hr hmem hun => ?sent⟩
  case off =>
    have hoff : s.stopTimer.canDeliver = false := by
      rcases h with h | h | h <;> simp [State.canDeliver, State.stopTimer, h]
    rw [exec_retransmitExpiry htimer hreached, State.tryDeliver_off hoff]
    exact congrArg Host.Outcome.next (State.finish_of_settled s.stopTimer hdue)
  case empty =>
    rw [exec_retransmitExpiry htimer hreached, State.tryDeliver_on (hon hopen henabled hne),
      State.deliver_empty (s := s.stopTimer) hfree]
    exact congrArg Host.Outcome.next (State.finish_of_settled s.stopTimer.armRetransmit hdue)
  case sent =>
    have hown : (s.stopTimer.tookTop b rest).store.count[b] = 1 := vset_get_self _ _ _
    have hsent := State.sendEventFrame_sent (s := s.stopTimer.tookTop b rest) hup hroom hr hmem hown hun
    rw [exec_retransmitExpiry htimer hreached, State.tryDeliver_on (hon hopen henabled hne),
      State.deliver_top (s := s.stopTimer) hfree h8 h0]
    generalize (s.stopTimer.tookTop b rest).sendEventFrame b = t at hsent
    have hfinish : t.armRetransmit.finish = t.armRetransmit :=
      State.finish_of_settled _ (hsent.due.trans hdue)
    obtain ⟨hevents, htransit⟩ := hsent.events
    obtain ⟨hnode, hinit, hnow, hroute, haction, hbuckets, hslots, hagent, hpending, hdisposing, hwait⟩ := hsent.tables
    refine ⟨t.armRetransmit, congrArg Host.Outcome.next hfinish, ?_, hsent.took, hsent.count, ?_, hsent.others,
      ⟨hnode, hinit, hnow, hroute, haction, hbuckets, hslots, hagent, hpending, hdisposing, hwait⟩, htransit⟩
    · exact hsent.payload.trans (eventPayload_eq s.events.notices)
    · show { t.events with
          outstanding := true, timer := some (t.now + ticksOf10Ms t.events.interval.toNat) } = _
      rw [hevents, hnow]
      rfl

/-! ## An attempt beside a request under execution (R136, R176) -/

section
variable {u t : State} {v : RequestView} {b : BufNo}

/-- What a quiet pop leaves of the buffers in use: the one taken was free (R25, R26). -/
theorem State.popQuietly_store (h : u.popQuietly = some (b, t)) (hs : u.StoreLaw) {x : BufNo}
    (hx : u.store.count[x] ≠ 0) :
    x ≠ b ∧ t.store.count[x] = u.store.count[x] ∧ t.store.count[b] = 1 ∧ t.store.mem = u.store.mem ∧
      t.resetDue = u.resetDue ∧ ∀ q : Port, (u.ports[q]).Asked (t.ports[q]) := by
  obtain ⟨⟨b', w⟩, htop, hmap⟩ := Option.map_eq_some_iff.mp h
  obtain ⟨rfl, rfl⟩ : b' = b ∧ w.episodeAfterPop (fun k d u => u.note k 0 d) = t := Prod.mk.inj hmap
  obtain ⟨hfree, hcount, hports⟩ := State.takeTop_store htop
  have hne : x ≠ b' := by
    rintro rfl
    exact hx ((hs.2 x).1 (by rw [hfree]; exact List.mem_cons_self))
  have hblocks := State.pop_blocks htop
  have hmarked : (w.episodeAfterPop fun k d u => u.note k 0 d).store = w.popMarked.store ∧
      (w.episodeAfterPop fun k d u => u.note k 0 d).resetDue = w.popMarked.resetDue ∧
      (w.episodeAfterPop fun k d u => u.note k 0 d).ports = w.popMarked.ports := by
    obtain hm | ⟨kind, detail, -, hm⟩ := w.episodeAfterPop_cases fun k d u => u.note k 0 d <;> rw [hm] <;>
      exact ⟨rfl, rfl, rfl⟩
  obtain ⟨hstore, hdue, hmports⟩ := hmarked
  have hmc : w.popMarked.store.count = vset u.store.count b' 1 := w.popMarked_store.1.trans hcount
  rw [hstore, hdue, hmports, hmc]
  refine ⟨hne, vset_get_ne _ _ hne, vset_get_self _ _ _, hblocks.mem, hblocks.due, fun q => ?_⟩
  have hasked := w.popMarked_asked q
  rwa [hports] at hasked

theorem PortState.Asked.queues {P Q : PortState} (h : P.Asked Q) : Q.queues = P.queues := by
  obtain rfl | ⟨-, f, rfl⟩ := h <;> rfl

/-- An event frame sent on the request's own port leaves what the response needs: the request's buffer is another one, and
class 3 had room for both (R136, R177). -/
theorem State.Answerable.sendEventFrame (h : t.Answerable v) (hport : t.agent.session.eventPort = v.req.port)
    (hroom : t.ports[v.req.port].queues[(3 : Class)].length < 15) (hb : v.req.buf ≠ b) (hown : t.store.count[b] = 1)
    (hr : t.agent.resetPending = none) : (t.sendEventFrame b).Answerable v := by
  have henqueue := State.enqueue_accepted (s := t.putPayload b (eventPayload t.events.carried)) (b := b)
    (h := t.relayHeader t.agent.session.replyLabel) (o := .event) (p := v.req.port) h.portUp
    (Nat.lt_succ_of_lt hroom)
  have hframe := State.accept_frame (t.putPayload b (eventPayload t.events.carried)) v.req.port b
    (t.relayHeader t.agent.session.replyLabel) .event
  have hjoined := State.joined_frame (t.putPayload b (eventPayload t.events.carried)) v.req.port b
    (t.relayHeader t.agent.session.replyLabel) .event
  have hqueues := State.joined_port (t.putPayload b (eventPayload t.events.carried)) v.req.port b
    (t.relayHeader t.agent.session.replyLabel) .event
  have hstore := State.joined_store (t.putPayload b (eventPayload t.events.carried)) v.req.port b
    (t.relayHeader t.agent.session.replyLabel) .event hown
  have hspares : State.Spares v.req.port v.req.buf _ :=
    State.joined_spares (s := t.putPayload b (eventPayload t.events.carried)) (p := v.req.port) (b := b)
      (h := t.relayHeader t.agent.session.replyLabel) (o := .event) h.unnamed
  have hmembers : ∀ c : Class, ∀ e ∈ ((t.putPayload b (eventPayload t.events.carried)).joined v.req.port b
      (t.relayHeader t.agent.session.replyLabel) .event).ports[v.req.port].queues[c], e.buf ≠ v.req.buf := by
    intro c e he
    rcases State.joined_mem he with hm | rfl
    · exact h.unnamed c e hm
    · exact hb.symm
  have hsend : t.sendEventFrame b = ((t.putPayload b (eventPayload t.events.carried)).accept v.req.port b
      (t.relayHeader t.agent.session.replyLabel) .event).release b := by
    rw [State.sendEventFrame, hport, henqueue]
  have hlast : ((t.putPayload b (eventPayload t.events.carried)).joined v.req.port b
      (t.relayHeader t.agent.session.replyLabel) .event).ports[v.req.port].queues[(3 : Class)].length < 16 := by
    rw [hqueues]
    have hset := vset_get_self t.ports[v.req.port].queues (3 : Class) (t.ports[v.req.port].queues[(3 : Class)] ++
      [{ buf := b, hdr := t.relayHeader t.agent.session.replyLabel, enqueuedAt := t.now, origin := .event }])
    refine (congrArg List.length hset).trans_lt ?_
    rw [List.length_append, List.length_singleton]
    omega
  have hlink : ((t.putPayload b (eventPayload t.events.carried)).joined v.req.port b
      (t.relayHeader t.agent.session.replyLabel) .event).ports[v.req.port].link = t.ports[v.req.port].link := by
    rw [hqueues]
    rfl
  rw [hsend]
  generalize (t.putPayload b (eventPayload t.events.carried)).joined v.req.port b
    (t.relayHeader t.agent.session.replyLabel) .event = j at hframe hjoined hstore hspares hmembers hlast hlink
  generalize (t.putPayload b (eventPayload t.events.carried)).accept v.req.port b
    (t.relayHeader t.agent.session.replyLabel) .event = x at hframe
  have hrelease := State.release_frame x b
  have hcount := (State.release_store x b).1
  obtain ⟨more, hflow⟩ := hrelease.ports v.req.port
  obtain ⟨asked, tx, queues, expired, hserved⟩ := hframe.port
  have hpending : j.agent.resetPending = none := by rw [hjoined.1.agent]; exact hr
  have hsuffix : ∀ c : Class, (x.release b).ports[v.req.port].queues[c] <:+ j.ports[v.req.port].queues[c] := fun c => by
    rw [hflow]; exact hframe.queues c
  have hlinks : (x.release b).ports[v.req.port].link = t.ports[v.req.port].link := by
    rw [hflow, hserved]
    exact hlink
  have hmem : (x.release b).store.mem = (t.putPayload b (eventPayload t.events.carried)).store.mem := by
    rw [hrelease.mem, hframe.mem, hstore]
  refine
    { portUp := by rw [State.isUp, hlinks]; exact h.portUp
      room := (hsuffix 3).length_le.trans_lt hlast
      own := ?_
      unnamed := fun c e he => hmembers c e ((hsuffix c).subset he)
      memory := by rw [State.MemoryLaw, hmem]; exact State.putPayload_wf _ _ _ h.memory
      settled := hrelease.due.trans ((hframe.due fun r hp => nomatch hpending.symm.trans hp).trans
        (hjoined.2.2.trans h.settled))
      spared := fun r hp => ?_ }
  · rw [Fin.getElem_fin, hcount, vset_get_ne _ _ hb]
    refine (hframe.counts v.req.buf hspares).trans ?_
    rw [hstore]
    exact (vset_get_ne _ _ hb).trans h.own
  · have hnone : (x.release b).agent.resetPending = none := by
      rw [hrelease.tables.agent, hframe.tables.agent]; exact hpending
    rw [hnone] at hp
    cases hp

/-- A delivery attempt on the request's own port leaves what the response needs. -/
theorem State.Answerable.tryDeliver (h : u.Answerable v) (hs : u.StoreLaw) (hport : u.agent.session.eventPort = v.req.port)
    (hroom : u.ports[v.req.port].queues[(3 : Class)].length < 15) (hr : u.agent.resetPending = none) :
    u.tryDeliver.Answerable v := by
  unfold State.tryDeliver
  split
  · unfold State.deliver
    split
    · exact h.of_parts rfl rfl rfl rfl rfl hr
    · next b t hpop =>
      obtain ⟨hb, hcount, hown, hmem, hdue, hasked⟩ :=
        State.popQuietly_store (x := v.req.buf) hpop hs (by rw [h.own]; decide)
      have hagent : t.agent = u.agent := (State.popQuietly_sends hpop).tables.agent
      have hqueues := (hasked v.req.port).queues
      have ht : t.Answerable v :=
        h.of_parts (hasked v.req.port).link hqueues hcount hmem hdue (by rw [hagent]; exact hr)
      have hsent := ht.sendEventFrame (by rw [hagent]; exact hport) (by rw [hqueues]; exact hroom) hb hown
        (by rw [hagent]; exact hr)
      have hsentAgent : (t.sendEventFrame b).agent = u.agent := (State.sendEventFrame_sends t b).tables.agent.trans hagent
      exact hsent.of_parts rfl rfl rfl rfl rfl (by
        show (t.sendEventFrame b).agent.resetPending = none
        rw [hsentAgent]; exact hr)
  · exact h

end

/-! ## OPEN (R139, R140, R176) -/

theorem State.tryDeliver_idled (u : State) : u.tryDeliver.idled = u.idled.tryDeliver := by
  have hagent : u.tryDeliver.agent = u.agent := u.tryDeliver_sends.tables.agent
  have hcommutes := State.tryDeliver_withAgent (s := u) (a := { u.agent with executing := none })
    ⟨rfl, rfl, rfl, rfl, rfl⟩
  unfold State.idled
  rw [hagent]
  exact hcommutes.symm

section
variable {s : State} {v : RequestView} {args : List Byte} {lease : BitVec 16} {events : Bool}

theorem openBody_held (he : yesNo (arg args 2) = some events) (h0 : arg16 args 0 ≠ 0) (h6000 : (arg16 args 0).toNat ≤ 6000)
    (ho : s.agent.session.isOpen = true) (hs : v.source ≠ s.agent.session.holder) :
    openBody v args s = (s, { status := .held, results := [s.agent.session.holder], follow := .nothing }) := by
  have hrange : ¬ (arg16 args 0 = 0 ∨ 6000 < (arg16 args 0).toNat) := by
    rintro (h | h)
    · exact h0 h
    · omega
  simp only [openBody, he, if_neg hrange]
  exact if_pos ⟨ho, hs⟩

theorem openBody_grant (he : yesNo (arg args 2) = some events) (hl : arg16 args 0 = lease) (h0 : lease ≠ 0)
    (h6000 : lease.toNat ≤ 6000) (hs : s.agent.session.isOpen = false ∨ v.source = s.agent.session.holder) :
    openBody v args s =
      ((s.grantSession v lease events).tryDeliver, .ok (s.agent.tokenCounter :: bytes16 lease)) := by
  have hrange : ¬ (lease = 0 ∨ 6000 < lease.toNat) := by
    rintro (h | h)
    · exact h0 h
    · omega
  have hheld : ¬ (s.agent.session.isOpen = true ∧ v.source ≠ s.agent.session.holder) := by
    rintro ⟨hopen, hne⟩
    cases hs with
    | inl h => rw [h] at hopen; cases hopen
    | inr h => exact hne h
  simp only [openBody, he, hl, if_neg hrange]
  exact if_neg hheld

end

section
variable {s : State} {v : RequestView} {rest : List Request}

/-- OPEN taken: its body on the part with the request under execution, and the answer (R139). -/
theorem State.exec_open {w : State} {r : Reply} (hr : s.Ready v rest) (hop : v.opcode = 0x02) (hl : v.args.length = 3)
    (hb : openBody v v.args (s.beginRequest v.req rest) = (w, r)) :
    exec .openSession s = .next (w.answer v r.status r.results).finish := by
  have hn : v.names .openSession = true := RequestView.names_of_opcode hop rfl
  show Host.Outcome.next (s.takeRequest (·.names .openSession) State.serveOpen).finish = _
  have hbody : (openBody v).checked .openSession v.args (s.beginRequest v.req rest) = (w, r) := (if_pos hl).trans hb
  rw [State.takeRequest_ready hr _ _ hn, State.serveOpen, hbody]

end

/-- Settles O36: a granted OPEN starts its session and tries a delivery, and then answers. -/
theorem openStartsOrRenewsTheSession : Obligations.OpenStartsOrRenewsTheSession := by
  unfold Obligations.OpenStartsOrRenewsTheSession
  intro s v rest lease events hr hop hargs h1 h6000
  have hlen : v.args.length = 3 := by rw [hargs]; rfl
  have hlease : arg16 v.args 0 = lease := by rw [hargs]; exact word16_extractLsb' lease
  have hevents : yesNo (arg v.args 2) = some events := by rw [hargs]; exact yesNo_boolByte events
  have hne : lease ≠ 0 := by rintro rfl; exact absurd h1 (by decide)
  refine ⟨fun hs hstore hroom => ?granted, fun hopen hs => ?held⟩
  case granted =>
    have hready : ((s.beginRequest v.req rest).grantSession v lease events).Answerable v :=
      hr.answerable.congr rfl rfl rfl rfl fun _ h => .inr h
    obtain ⟨hanswered, hfinish⟩ := (hready.tryDeliver hstore rfl hroom hr.noReset).answer .ok
      (results := s.agent.tokenCounter :: bytes16 lease) (by simp [bytes16])
    rw [State.tryDeliver_idled] at hanswered
    have hexec := State.exec_open hr hop hlen
      (openBody_grant (s := s.beginRequest v.req rest) hevents hlease hne h6000 hs)
    exact ⟨_, hexec.trans (congrArg Host.Outcome.next hfinish), hanswered⟩
  case held =>
    have hready : (s.beginRequest v.req rest).Answerable v := hr.answerable.congr rfl rfl rfl rfl fun _ h => .inr h
    obtain ⟨hanswered, hfinish⟩ := hready.answer .held (results := [s.agent.session.holder]) (by simp)
    have hexec := State.exec_open hr hop hlen
      (openBody_held (s := s.beginRequest v.req rest) hevents (by rw [hlease]; exact hne) (by rw [hlease]; exact h6000)
        hopen hs)
    exact ⟨_, hexec.trans (congrArg Host.Outcome.next hfinish), hanswered⟩

/-! ## SET EVENTS and ACK EVENTS (R167, R168, R176) -/

theorem State.tryDeliver_cached (u : State) (v : RequestView) (r : Reply) :
    (u.tryDeliver.cacheResponse v r).idled = ((u.cacheResponse v r).idled).tryDeliver := by
  have hagent : u.tryDeliver.agent = u.agent := u.tryDeliver_sends.tables.agent
  have hcommutes := State.tryDeliver_withAgent (s := u) (a := (u.cacheResponse v r).idled.agent)
    ⟨rfl, rfl, rfl, rfl, rfl⟩
  unfold State.cacheResponse State.idled
  rw [hagent]
  exact hcommutes.symm

theorem setEventsBody_config {s : State} {args : List Byte} {on : Bool} {interval : Byte}
    (hon : yesNo (arg args 0) = some on) (hi : arg args 1 = interval) (h0 : interval ≠ 0) :
    setEventsBody args s = ((s.configureEvents on interval).tryDeliver, .ok []) := by
  simp only [setEventsBody, hon, hi]
  exact if_neg h0

section
variable {q : EventQueue} {o : Notice} {more : List Notice} {k : BitVec 16}

/-- The notice a sequence names, by its distance from the oldest (R168). -/
theorem EventQueue.acknowledged_some (h : q.notices = o :: more) (hk : (k - o.sequence).toNat ≤ more.length) :
    q.acknowledged k = some ((k - o.sequence).toNat + 1) := by
  have hlt : (k - o.sequence).toNat < q.notices.length := by rw [h, List.length_cons]; omega
  rw [h, List.length_cons] at hlt
  simp only [EventQueue.acknowledged, h, List.length_cons]
  exact if_pos hlt

theorem EventQueue.acknowledged_none
    (h : q.notices = [] ∨ ∃ o more, q.notices = o :: more ∧ more.length < (k - o.sequence).toNat) :
    q.acknowledged k = none := by
  obtain h | ⟨o, more, h, hk⟩ := h
  · simp only [EventQueue.acknowledged, h]
  · simp only [EventQueue.acknowledged, h, List.length_cons]
    exact if_neg (by omega)

end

theorem ackEventsBody_range {s : State} {args : List Byte} (h : s.events.acknowledged (arg16 args 0) = none) :
    ackEventsBody args s = (s, .refuse .range) := by
  rw [ackEventsBody, h]

theorem ackEventsBody_removed {s : State} {args : List Byte} {n : Nat}
    (h : s.events.acknowledged (arg16 args 0) = some n) :
    ackEventsBody args s =
      ({ s with events := s.events.drop n }.tryDeliver, .ok [numByte n, numByte (s.events.notices.length - n)]) := by
  rw [ackEventsBody, h]

section
variable {s x : State} {v : RequestView} {rest : List Request} {c : Command} {body : Body} {i : Instr} {op : Byte}
  {results : List Byte}

/-- An admitted command whose effect ends in a delivery attempt on the request's own port: the attempt comes before the
answer (R176; log entry 18). -/
theorem State.exec_delivering (hr : s.Ready v rest) (ha : s.Admits v) (ho : v.opcode = op) (hc : commandOf op = some c)
    (he : ∀ s, exec i s = s.sessionedRow c body) (hl : v.args.length = c.argBytes)
    (hb : body v.args (s.admitted v rest) = (x.tryDeliver, .ok results)) (hx : x.Answerable v) (hs : x.StoreLaw)
    (hport : x.agent.session.eventPort = v.req.port)
    (hroom : x.ports[v.req.port].queues[(3 : Class)].length < 15) (hn : x.agent.resetPending = none)
    (hlen : results.length ≤ 60) :
    ∃ t, exec i s = .next t ∧
      State.Answered ((x.cacheResponse v (.ok results)).idled).tryDeliver t v (v.response .ok results) := by
  have hanswered := State.exec_executed (i := i) ha
    (RequestView.takenBy_names (RequestView.names_of_opcode ho hc) he) hr ((if_pos hl).trans hb) rfl
    (hx.tryDeliver hs hport hroom hn) hlen
  rwa [State.tryDeliver_cached] at hanswered

end

/-- Settles O48: each command's effect on the Event Queue, then the attempt, then the answer. -/
theorem eventCommandsTakeEffect : Obligations.EventCommandsTakeEffect := by
  unfold Obligations.EventCommandsTakeEffect
  intro s v rest hr ha hstore hroom
  refine ⟨fun on interval hop hargs h0 => ?config, fun k hop hargs =>
    ⟨fun o more i hnotices hi hle hlen results hresults => ?removed, fun h => ?range⟩⟩
  case config =>
    have hbody : setEventsBody v.args (s.admitted v rest) =
        (((s.admitted v rest).configureEvents on interval).tryDeliver, .ok []) :=
      setEventsBody_config (by rw [hargs]; exact yesNo_boolByte on) (by rw [hargs]; rfl) h0
    have hanswered := State.exec_delivering (i := .setEvents) hr ha hop rfl (fun _ => rfl) (by rw [hargs]; rfl) hbody
      (hr.answerable.congr rfl rfl rfl rfl fun _ h => .inr h) hstore rfl hroom hr.noReset (Nat.zero_le _)
    have hserved : (((s.admitted v rest).configureEvents on interval).cacheResponse v (.ok [])).idled =
        { s with
          agent := s.agent.served rest
            { s.agent.session.executed s.now v.req.port 0x40 .ok [] with eventsEnabled := on }
          events := { s.events with interval := interval } } := by
      simp only [State.idled, State.cacheResponse, ha.sequence, hop]
      rfl
    rwa [hserved] at hanswered
  case removed =>
    have hk : arg16 v.args 0 = k := by rw [hargs]; exact word16_extractLsb' k
    have hack : (s.admitted v rest).events.acknowledged (arg16 v.args 0) = some (i + 1) := by
      rw [hk, hi]
      exact EventQueue.acknowledged_some hnotices (by rw [← hi]; exact hle)
    have hleft : s.events.notices.length - (i + 1) = more.length - i := by
      rw [hnotices, List.length_cons]; omega
    have hbody : ackEventsBody v.args (s.admitted v rest) =
        ({ s.admitted v rest with events := s.events.drop (i + 1) }.tryDeliver, .ok results) := by
      rw [ackEventsBody_removed hack, hresults, ← hleft]
      rfl
    have hanswered := State.exec_delivering (i := .ackEvents) hr ha hop rfl (fun _ => rfl) (by rw [hargs]; rfl) hbody
      (hr.answerable.congr rfl rfl rfl rfl fun _ h => .inr h) hstore rfl hroom hr.noReset (by simp [hresults])
    have hserved : ({ s.admitted v rest with events := s.events.drop (i + 1) }.cacheResponse v (.ok results)).idled =
        { s.executed v rest .ok results with
          events := { s.events with notices := more.drop i, outstanding := false, timer := none } } := by
      have hdrop : s.events.notices.drop (i + 1) = more.drop i := by rw [hnotices]; rfl
      simp only [State.idled, State.cacheResponse, ha.sequence, EventQueue.drop, hdrop]
      rfl
    rwa [hserved] at hanswered
  case range =>
    have hk : arg16 v.args 0 = k := by rw [hargs]; exact word16_extractLsb' k
    have hack : (s.admitted v rest).events.acknowledged (arg16 v.args 0) = none := by
      rw [hk]
      exact EventQueue.acknowledged_none h
    exact State.commandRow_refused hr ha (c := .ackEvents) hop rfl (by rw [hargs]; rfl) (ackEventsBody_range hack)

end Sys2Proof.Machine
end

