-- ==== Sys2Proof/Proofs/ResetLimits.lean ====
section
/-! PROOF. The lease deadline and the reset limit (sections 8.5, 8.6, 9.8): O28, O29 and O30. -/

namespace Sys2Proof.Machine

section
variable {s : State}

/-- Settles O28: the closing leaves no event to deliver, so the raise is taken or waits. -/
theorem leaseExpiryClosesTheSession : Obligations.LeaseExpiryClosesTheSession := by
  unfold Obligations.LeaseExpiryClosesTheSession
  intro s d hopen hlease hreached hdue hroom
  have htaken : s.takeLeaseDeadline =
      (s.closeSession.raise .leaseExpired 0 (s.agent.session.holder.setWidth 32)).finish := by
    rw [State.takeLeaseDeadline]
    exact if_pos ⟨hopen, by rw [hlease]; exact hreached⟩
  have hraise : s.closeSession.raise .leaseExpired 0 (s.agent.session.holder.setWidth 32) =
      s.closeSession.raised .leaseExpired 0 (s.agent.session.holder.setWidth 32) :=
    State.raise_room _ _ _ _ (.inl rfl) hroom
  have hfinish : (s.closeSession.raised .leaseExpired 0 (s.agent.session.holder.setWidth 32)).finish =
      s.closeSession.raised .leaseExpired 0 (s.agent.session.holder.setWidth 32) :=
    State.finish_of_settled _ (by rw [State.raised_resetDue]; exact hdue)
  show Host.Outcome.next s.takeLeaseDeadline = _
  rw [htaken, hraise, hfinish]
  unfold State.raised State.closeSession RouteTable.revert
  dsimp only
  cases s.route.staging <;> split <;> rfl

/-! ## The reset limit (R148) -/

theorem exec_resetLimitExpiry {r : PendingReset} (hr : s.agent.resetPending = some r) (hd : reached s.now r.limit = true) :
    exec .resetLimitExpiry s = .next (State.resetEffect { s with resetDue := true } r.scope) := by
  show Host.Outcome.next s.takeResetLimit = _
  rw [State.takeResetLimit]
  simp only [hr, hd, if_true, State.finish]

/-- Settles O29: each block's reset values, read off the reset. -/
theorem resetFullTakesEffectAtItsLimit : Obligations.ResetFullTakesEffectAtItsLimit := by
  unfold Obligations.ResetFullTakesEffectAtItsLimit
  intro s r hr hscope hreached
  have hport : ∀ p : Port, (State.fullReset { s with resetDue := true }).ports[p] = (s.ports[p]).resetFull :=
    fun p => vmap_get _ _ _ _
  refine ⟨State.fullReset { s with resetDue := true }, ?_, rfl, rfl, rfl, rfl, rfl, fun p => ?_, rfl, rfl, rfl, rfl, rfl,
    rfl, rfl, rfl, rfl, fun p => ?_⟩
  · rw [exec_resetLimitExpiry hr hreached, hscope]
    rfl
  · simp [State.fullReset]
  · rw [hport]
    refine ⟨rfl, ⟨rfl, rfl, PortState.reset_quiescent.2.2.1, rfl, rfl, rfl⟩, rfl, rfl, rfl, rfl, rfl, fun hidle => ?_,
      fun e hsending => ?_⟩
    · simp only [PortState.resetFull, PortState.abortSent, hidle]
    · simp only [PortState.resetFull, PortState.abortSent, hsending]

/-! ### RESET FORWARDING (R8, R37, R106, R171) -/

theorem PortState.abandonedTx_eq (P : PortState) : P.abandonedTx = P.cutTx true := by
  cases htx : P.tx <;> simp only [PortState.abandonedTx, PortState.cutTx, htx, if_true]

/-- A port at RESET FORWARDING gives up what it holds, as one that is disabled does, and keeps its link. -/
theorem PortState.resetForwarding_eq_givenUp (P : PortState) : P.resetForwarding = P.givenUp true := by
  rw [PortState.resetForwarding, PortState.givenUp, PortState.abandonedTx_eq]

/-- The counters of a port that has given up what it holds. -/
theorem PortState.resetForwarding_counters (P : PortState) : P.resetForwarding.ctr = { P.ctr with
    rxAborted := match P.rx with
      | .receiving _ _ => bump P.ctr.rxAborted
      | .idle => P.ctr.rxAborted
      | .ignoring _ => P.ctr.rxAborted
    rxLength := if P.rx = .ignoring .cutOff then bump P.ctr.rxLength else P.ctr.rxLength
    txAborted := match P.tx with
      | .idle => P.ctr.txAborted
      | .sending _ => bump P.ctr.txAborted
    qFlushed := bumpBy P.allWaiting.length P.ctr.qFlushed } := by
  obtain ⟨ctr, hrx, -⟩ := P.abandonedRx_fields
  have hall : (P.abandonedRx.cutTx true).allWaiting.length = P.allWaiting.length := by
    rw [PortState.cutTx_allWaiting, hrx]
    rfl
  rw [PortState.resetForwarding_eq_givenUp, PortState.givenUp, PortState.flushed_ctr, hall]
  cases hr : P.rx with
  | idle | receiving b n => cases ht : P.tx <;> simp [PortState.abandonedRx, PortState.cutTx, hr, ht] <;> rfl
  | ignoring cause =>
    cases cause <;> cases ht : P.tx <;> simp [PortState.abandonedRx, PortState.cutTx, hr, ht] <;> rfl

/-- A port at RESET FORWARDING (R8, R106). -/
theorem PortState.resetForwarding_eq (P : PortState) : P.resetForwarding = { P with
    rx := .idle, tx := .idle, queues := Vector.replicate 4 []
    sent := match P.tx with
      | .idle => P.sent
      | .sending _ => P.sent ++ [.abort]
    ctr := P.resetForwarding.ctr } := by
  obtain ⟨queues, ctr, sent, hP, hempty⟩ := P.resetForwarding_port
  have hqueues : queues = Vector.replicate 4 [] := by
    apply Vector.ext
    intro i hi
    rw [Vector.getElem_replicate]
    exact hempty ⟨i, hi⟩
  have hlost := P.givenUp_emptied true
  rw [← PortState.resetForwarding_eq_givenUp, hP] at hlost
  have hsent : sent = match P.tx with | .idle => P.sent | .sending _ => P.sent ++ [.abort] := by
    cases htx : P.tx with
    | idle => exact (hlost.unsent htx).2
    | sending e => exact (hlost.sending e htx).2
  rw [hP, hqueues, hsent]

/-- Every port at RESET FORWARDING; GO is asked of an UP port where an episode was on (R37). -/
theorem State.forwardingCore_ports (s : State) (p : Port) : s.forwardingCore.ports[p] = { (s.ports[p]).resetForwarding with
    asked := s.ports[p].asked ++ (if s.store.episode ≠ .none ∧ s.ports[p].link = .up then [.go] else []) } := by
  have hget : (vmap PortState.resetForwarding s.ports)[p] = (s.ports[p]).resetForwarding := vmap_get _ _ _ _
  have hasked : (s.ports[p]).resetForwarding.asked = s.ports[p].asked := by rw [PortState.resetForwarding_eq]
  have hlink : (s.ports[p]).resetForwarding.link = s.ports[p].link := by rw [PortState.resetForwarding_eq]
  by_cases h : s.store.episode = .none
  · have hcore : s.forwardingCore.ports[p] = (s.ports[p]).resetForwarding := by
      rw [State.forwardingCore, if_pos h]
      exact hget
    have hquiet : ¬ (s.store.episode ≠ .none ∧ s.ports[p].link = .up) := fun k => k.1 h
    simp only [if_neg hquiet, List.append_nil, ← hasked]
    exact hcore
  · have hcore : s.forwardingCore.ports[p] = if (s.ports[p]).resetForwarding.link = .up then
        { (s.ports[p]).resetForwarding with asked := (s.ports[p]).resetForwarding.asked ++ [.go] }
        else (s.ports[p]).resetForwarding := by
      rw [← hget, State.forwardingCore, if_neg h]
      exact vmap_get _ _ _ _
    rw [hcore, hlink]
    by_cases hup : s.ports[p].link = .up
    · simp only [if_pos hup, if_pos (And.intro h hup), hasked]
    · have hquiet : ¬ (s.store.episode ≠ .none ∧ s.ports[p].link = .up) := fun k => hup k.2
      simp only [if_neg hup, if_neg hquiet, List.append_nil, ← hasked]

end

/-- The blocks beside the ports at RESET FORWARDING (R37, R90, R132, R149, R171). -/
theorem State.forwardingCore_rest (s : State) : s.forwardingCore = { s with
    ports := s.forwardingCore.ports
    store := s.store.rebuilt
    disposing := Vector.replicate 4 none
    buckets := vmap Bucket.refillWhole s.buckets
    slots := vmap (·.restarted s.now) s.slots
    agent := s.agent.resetForwarding
    events := { s.events with outstanding := false, timer := none }
    resetDue := false } := by
  unfold State.forwardingCore
  dsimp only
  split <;> rfl

/-- The notice of RESET FORWARDING where the list has room (R174, R182). -/
theorem State.forwardingReset_noted {s : State} (h : s.NoticeRoom) : s.forwardingCore.note .resetDone 0 2 =
    { s.forwardingCore with
      events := { s.events.plus .resetDone 0 s.now 2 with outstanding := false, timer := none } } := by
  have hcore := s.forwardingCore_rest
  have hevents : s.forwardingCore.events = { s.events with outstanding := false, timer := none } := by rw [hcore]
  have hnow : s.forwardingCore.now = s.now := by rw [hcore]
  have htake : s.forwardingCore.events.take .resetDone 0 s.now 2 =
      { s.events.plus .resetDone 0 s.now 2 with outstanding := false, timer := none } := by
    rw [hevents]
    exact EventQueue.take_room (q := { s.events with outstanding := false, timer := none }) h.1 h.2 _ _ _ _
  rw [← hnow] at htake
  exact congrArg (fun q => { s.forwardingCore with events := q }) (htake.trans (by rw [hnow]))

/-- A bucket and a slot at RESET FORWARDING (R90, R132). -/
theorem Slot.restarted_cases (x : Slot) (now : Tick) : (x.state = .off → x.restarted now = x) ∧
    (x.state ≠ .off → x.restarted now = { x with
      state := .waiting, miss := 0, held := none
      deadline := if x.cfg.startWindow = 0 then none else some (now + x.cfg.startWindow.setWidth 32) }) :=
  ⟨fun h => if_pos h, fun h => if_neg h⟩

/-- Settles O30: what is under way ends, what is configured stands, and the notice comes last. -/
theorem resetForwardingTakesEffectAtItsLimit : Obligations.ResetForwardingTakesEffectAtItsLimit := by
  unfold Obligations.ResetForwardingTakesEffectAtItsLimit
  intro s r hr hscope hreached hroom
  have hexec : exec .resetLimitExpiry s =
      .next ((State.forwardingCore { s with resetDue := true }).note .resetDone 0 2).tryDeliver := by
    rw [exec_resetLimitExpiry hr hreached, hscope]
    rfl
  have hnoted := State.forwardingReset_noted (s := { s with resetDue := true }) hroom
  have hcore := State.forwardingCore_rest { s with resetDue := true }
  have hports := fun p : Port => State.forwardingCore_ports { s with resetDue := true } p
  generalize State.forwardingCore { s with resetDue := true } = core at hexec hnoted hcore hports
  refine ⟨core.note .resetDone 0 2, hexec, ?_⟩
  rw [hnoted]
  have hbucket : ∀ n : BucketNo, (vmap Bucket.refillWhole s.buckets)[n] = (s.buckets[n]).refillWhole :=
    fun n => vmap_get _ _ _ _
  have hslot : ∀ n : SlotNo, (vmap (·.restarted s.now) s.slots)[n] = (s.slots[n]).restarted s.now :=
    fun n => vmap_get _ _ _ _
  refine ⟨?_, ?_, ?_, ?_, ?_, fun p => ?_, ?_, ?_, ?_, ?_, fun n => ?_, fun n => ?_, ?_, rfl, ?_, fun p => ?_⟩
  case refine_15 =>
    refine (hports p).trans ?_
    rw [PortState.resetForwarding_eq, PortState.resetForwarding_counters] <;> rfl
  all_goals rw [hcore]
  case refine_6 => simp
  case refine_11 => exact hbucket n
  case refine_12 =>
    rw [show (vmap (·.restarted s.now) s.slots)[n] = _ from hslot n]
    exact (s.slots[n]).restarted_cases s.now
  all_goals rfl

end Sys2Proof.Machine
end

