-- ==== Sys2Proof/Proofs/Refills.lean ====
section
/-! PROOF. TICK and the refill of the Rate Buckets (sections 5.1 and 5.2): O24. TICK takes the tick happenings one after
another, each as its own command takes it, so one that is left is taken before the counter goes on. -/

namespace Sys2Proof.Machine

section
variable {c : Option Instr} {ok : Prop} {s t : State}

/-! ## Nothing is left from before the last advance (R45, R55, R174) -/

/-- No disposition and no copy began, and no waiting raise was made, before the last advance. -/
structure State.UpToDate (s : State) : Prop where
  disposals : ∀ (p : Port) (d : Disposal), s.disposing[p] = some d → d.begun = s.now
  copy      : ∀ k, s.route.copier = some k → k.begun = s.now
  raises    : ∀ r ∈ s.transit, r.tick = s.now

theorem State.UpToDate.of_same (h : s.UpToDate) (hn : t.now = s.now) (hd : t.disposing = s.disposing)
    (hc : t.route.copier = s.route.copier) (ht : t.transit = s.transit) : t.UpToDate :=
  ⟨fun p d hp => (h.disposals p d (hd ▸ hp)).trans hn.symm, fun k hk => (h.copy k (hc ▸ hk)).trans hn.symm,
    fun r hr => (h.raises r (ht ▸ hr)).trans hn.symm⟩

theorem State.SameBlocks.upToDate (b : s.SameBlocks t) (h : s.UpToDate) : t.UpToDate := by
  obtain ⟨-, -, hnow, hroute, -, -, -, -, -, hdisposing, -⟩ := b.tables
  exact h.of_same hnow hdisposing (by rw [hroute]) b.events.2

theorem State.UpToDate.onRoute {f : RouteTable → RouteTable} (h : s.UpToDate)
    (hf : ∀ k, (f s.route).copier = some k → k.begun = s.now) : (s.onRoute f).UpToDate :=
  ⟨h.disposals, hf, h.raises⟩

theorem State.UpToDate.withDisposal {p : Port} {d : Option Disposal} (h : s.UpToDate)
    (hd : ∀ d', d = some d' → d'.begun = s.now) : (s.withDisposal p d).UpToDate := by
  refine ⟨fun q e he => ?_, h.copy, h.raises⟩
  change (vset s.disposing p d)[q] = some e at he
  rw [vset_fin] at he
  split at he
  · exact hd e he
  · exact h.disposals q e he

theorem RouteTable.copyDone_copier (x : RouteTable) : x.copyDone.copier = none := by
  unfold RouteTable.copyDone
  split
  · next h => exact h
  · rfl

/-- What a primitive change begins, it begins at the counter's present value. -/
theorem Move.upToDate {x y : Hand × State} (m : Move c ok x y) (h : x.2.UpToDate) : y.2.UpToDate := by
  cases m
  case alike hs => exact h.of_same hs.now hs.disposing hs.copier hs.transit
  case join => exact (State.joined_blocks _ _ _ _ _).upToDate h
  case release => exact (State.release_frame _ _).blocks.upToDate h
  case addRef => exact (State.addRef_frame _ _).blocks.upToDate h
  case pop hu => exact (State.pop_blocks hu).upToDate h
  case stage H s v _ _ =>
    refine h.onRoute (s := s) (f := fun x => { x.setBank x.active.other v with staging := .modified })
      fun k hk => h.copy k ?_
    exact (s.route.setBank_copier _ v).symm.trans hk
  case commit H s _ _ => exact h.onRoute (s := s) (f := (·.commit s.now)) fun k hk => (by cases hk; rfl)
  case startCopy H s _ => exact h.onRoute (s := s) (f := (·.startCopy s.now)) fun k hk => (by cases hk; rfl)
  case copyNext H s _ =>
    refine h.onRoute (s := s) fun k hk => ?_
    obtain ⟨k0, h0, hb⟩ := RouteTable.copyNext_begun hk
    exact hb.trans (h.copy k0 h0)
  case copyDone H s _ =>
    exact h.onRoute (s := s) fun k hk => (by rw [s.route.copyDone_copier] at hk; cases hk)
  case wait r _ hn =>
    refine ⟨h.disposals, h.copy, fun q hq => ?_⟩
    rcases List.mem_append.1 hq with hq | hq
    · exact h.raises q hq
    · cases List.mem_singleton.1 hq; exact hn
  case unwait => exact ⟨h.disposals, h.copy, fun q hq => h.raises q (List.mem_of_mem_eraseIdx hq)⟩
  case dispose => exact h.withDisposal fun d hd => by cases hd; rfl
  case goOn p d d' _ hd hb hr hg hl => exact h.withDisposal fun e he => by cases he; exact hg.trans (h.disposals p d hd)
  case close => exact h.withDisposal fun d hd => by cases hd
  case full s _ _ _ =>
    exact ⟨fun p d hd => (by rw [s.fullReset_disposing p] at hd; cases hd), fun k hk => (by cases hk), fun r hr => (by cases hr)⟩
  case forwarding s _ _ _ =>
    rw [s.forwardingCore_rest]
    exact ⟨fun p d hd => (by simp at hd), h.copy, h.raises⟩
  all_goals exact h.of_same rfl rfl rfl rfl

/-- A tick happening begins nothing before the counter's present value. -/
theorem exec_upToDate {i : Instr} (hi : plainRow i = true) (h : exec i s = .next t) (hs : s.UpToDate) : t.UpToDate :=
  (exec_run hi h).keeps (P := fun x => x.2.UpToDate) Move.upToDate hs

/-! ## TICK takes one tick happening after another (R79) -/

/-- The part after command `i`; as it was where `i` is refused. -/
def State.after (s : State) (i : Instr) : State :=
  match exec i s with
  | .next t => t
  | _ => s

theorem State.after_next {i : Instr} (h : exec i s = .next t) : s.after i = t := by
  rw [State.after, h]

/-- The tick happenings in the order in which TICK takes them. -/
def tickOrder : List Instr :=
  [.portInitEnd] ++ (Port.all.flatMap fun p => [.trainingDeadline p, .holdDeadline p]) ++
    ((List.finRange 32).flatMap fun n : SlotNo => [.slotStartWindowExpiry n, .slotDeadline n]) ++
    [.leaseExpiry, .resetLimitExpiry, .retransmitExpiry]

theorem mem_tickOrder {i : Instr} : i ∈ tickOrder ↔ i ∈ tickHappenings := by
  simp only [tickOrder, tickHappenings, List.mem_append, List.mem_cons, List.not_mem_nil, or_false]
  tauto

theorem plainRow_tickHappenings {i : Instr} (h : i ∈ tickHappenings) : plainRow i = true := by
  simp only [tickHappenings, List.mem_append, List.mem_flatMap, List.mem_cons, List.not_mem_nil, or_false] at h
  rcases h with ((rfl | rfl | rfl | rfl) | ⟨p, -, rfl | rfl⟩) | ⟨n, -, rfl | rfl⟩ <;> rfl

/-- Where nothing is left from before the last advance, TICK takes the tick happenings alone. -/
theorem State.takeDue_upToDate (h : s.UpToDate) : s.takeDue = tickOrder.foldl State.after s := by
  rw [State.takeDue_fresh h.disposals h.raises, State.endStaleCopy_fresh h.copy]
  have hinit : ∀ u : State, [Instr.portInitEnd].foldl State.after u = u.takeInitEnd := fun _ => rfl
  have hport : ∀ (u : State) (p : Port), [.trainingDeadline p, .holdDeadline p].foldl State.after u = u.takePortTick p :=
    fun _ _ => rfl
  have hslot : ∀ (u : State) (n : SlotNo),
      [.slotStartWindowExpiry n, .slotDeadline n].foldl State.after u = u.takeSlotTick n := fun _ _ => rfl
  have hagent : ∀ u : State, [.leaseExpiry, .resetLimitExpiry, .retransmitExpiry].foldl State.after u =
      u.takeAgentTick.takeRetransmit := fun _ => rfl
  simp only [tickOrder, List.foldl_append, List.foldl_flatMap, hinit, hport, hslot, hagent]

/-- One step of `list` after another, where every command but `i` leaves `s` as it is, and every command leaves what `i` makes
of it. -/
theorem State.after_all {i : Instr} (hother : ∀ j ∈ tickHappenings, j ≠ i → s.after j = s) (hi : s.after i = t)
    (hleft : ∀ j ∈ tickHappenings, t.after j = t) (list : List Instr) (hsub : ∀ j ∈ list, j ∈ tickHappenings) :
    list.foldl State.after t = t ∧ list.foldl State.after s = if i ∈ list then t else s := by
  induction list with
  | nil => exact ⟨rfl, rfl⟩
  | cons j list ih =>
    have hj := hsub j List.mem_cons_self
    obtain ⟨iht, ihs⟩ := ih fun k hk => hsub k (List.mem_cons_of_mem j hk)
    refine ⟨by rw [List.foldl_cons, hleft j hj, iht], ?_⟩
    rw [List.foldl_cons]
    by_cases hji : j = i
    · rw [hji, hi, iht, if_pos List.mem_cons_self]
    · rw [hother j hj hji, ihs]
      simp only [List.mem_cons, Ne.symm hji, false_or]

/-! ## The refill (R77, R85) -/

/-- With all that the counter's present value brings taken, nothing is due. -/
theorem State.DeadlinesTaken.takeDue (h : s.DeadlinesTaken) : s.takeDue = s := by
  obtain ⟨hinit, ⟨hdisposals, hcopy⟩, hports, hslots, hlease, hlimit, htimer, hraises⟩ := h
  have hport : Port.all.foldl State.takePortTick s = s :=
    List.foldl_fixed' (fun p => State.takePortTick_taken (hports p).1 (hports p).2) _
  have hslot : (List.finRange 32).foldl State.takeSlotTick s = s :=
    List.foldl_fixed' (fun n => State.takeSlotTick_taken (hslots n)) _
  rw [State.takeDue_fresh hdisposals hraises, State.endStaleCopy_fresh hcopy, State.takeInitEnd_taken hinit, hport, hslot,
    State.takeAgentTick_taken hlease hlimit, State.takeRetransmit_taken htimer]

theorem exec_tick_taken (h : s.DeadlinesTaken) : exec .tick s = .next s.advance.drawPace := by
  rw [exec_tick, h.takeDue]

theorem State.advance_bucket (s : State) (n : BucketNo) : s.advance.drawPace.buckets[n] = (s.buckets[n]).refill :=
  vmap_get _ _ _ _

theorem Bucket.refill_enabled {x : Bucket} (h : x.enabled = true) :
    x.refill = { x with credit := min x.depth (x.credit + x.rate) } := if_pos h

theorem Bucket.refill_disabled {x : Bucket} (h : x.enabled = false) : x.refill = x := if_neg (by rw [h]; simp)

/-- The refills of `k` ticks come to the lesser of the depth and the credit plus `k` times the rate (R85). -/
theorem Bucket.refills {x : Bucket} (h : x.enabled = true) (hc : x.credit ≤ x.depth) (k : Nat) :
    Bucket.refill^[k] x = { x with credit := min x.depth (x.credit + k * x.rate) } := by
  induction k with
  | zero => simp [Nat.min_eq_right hc]
  | succ k ih =>
    rw [Function.iterate_succ_apply', ih, Bucket.refill_enabled (by exact h)]
    simp only [Bucket.mk.injEq, true_and, and_true]
    rw [Nat.succ_mul]
    omega

end

/-- Settles O24: TICK takes the tick happenings one after another, and then each ENABLED bucket is refilled. -/
theorem refillsRaiseCreditToDepth : Obligations.RefillsRaiseCreditToDepth := by
  unfold Obligations.RefillsRaiseCreditToDepth
  refine ⟨fun s h => ?refill, fun k f hf n he hc => ?ticks, fun c s t hc hstale hraises hother hnext hleft => ?left⟩
  case refill =>
    refine ⟨_, exec_tick_taken h, rfl, fun n => ?_⟩
    rw [s.advance_bucket]
    exact ⟨Bucket.refill_disabled, Bucket.refill_enabled⟩
  case ticks =>
    have hiterate : ∀ j, j ≤ k → (f j).buckets[n] = Bucket.refill^[j] (f 0).buckets[n] := by
      intro j
      induction j with
      | zero => exact fun _ => rfl
      | succ j ih =>
        intro hj
        obtain ⟨htaken, htick⟩ := hf j hj
        rw [exec_tick_taken htaken] at htick
        rw [← Host.Outcome.next.inj htick, State.advance_bucket, ih (Nat.le_of_succ_le hj), Function.iterate_succ_apply']
    rw [hiterate k le_rfl, Bucket.refills he hc]
  case left =>
    have hs : s.UpToDate := ⟨hstale.1, hstale.2, hraises⟩
    have ht : t.UpToDate := exec_upToDate (plainRow_tickHappenings hc) hnext hs
    obtain ⟨hfixed, htaken⟩ := State.after_all (fun j hj hne => State.after_next (hother j hj hne)) (State.after_next hnext)
      (fun j hj => State.after_next (hleft j hj)) tickOrder fun _ => mem_tickOrder.1
    rw [exec_tick, exec_tick, State.takeDue_upToDate hs, State.takeDue_upToDate ht, hfixed, htaken, if_pos (mem_tickOrder.2 hc)]

end Sys2Proof.Machine
end

