-- ==== Sys2Proof/Proofs/Copier.lean ====
section
/-! PROOF. The bank copier (section 3.6): what it copies entry by entry while no command waits, what copy done leaves, and O25. -/

namespace Sys2Proof.Machine

section
variable {r : RouteTable} {k : BankCopy} {s t : State}

/-! ## Both banks with the active bank's entries (R55) -/

/-- The table with the active bank's entries in both banks. -/
def RouteTable.levelled (r : RouteTable) : RouteTable := { r with bankA := r.activeBank, bankB := r.activeBank }

theorem RouteTable.setBank_active (r : RouteTable) : r.setBank r.active.other r.activeBank = r.levelled := by
  rcases r with ⟨bankA, bankB, active⟩
  cases active <;> rfl

theorem RouteTable.setBank_levelled (r : RouteTable) (v : Vector RouteEntry 64) (k : Option BankCopy) :
    { ({ r.setBank r.active.other v with copier := k } : RouteTable).levelled with copier := r.copier } = r.levelled := by
  rcases r with ⟨bankA, bankB, active⟩
  cases active <;> rfl

/-! ## The copier's steps (R55) -/

/-- The copier's next entry reaches its place in the other bank, and nothing else changes but the place to copy next. -/
theorem RouteTable.copyNext_entry {i : RouteIdx} (h : r.copier = some k) (hi : k.next = i.val) :
    r.copyNext = { r with bankA := r.copyNext.bankA, bankB := r.copyNext.bankB, copier := some { k with next := k.next + 1 } } ∧
      ∀ j : RouteIdx, (r.copyNext.bank r.active.other)[j] =
        if j = i then (r.bank r.active)[i] else (r.bank r.active.other)[j] := by
  rw [RouteTable.copyNext_running h (by omega)]
  have hplace : (⟨k.next, by omega⟩ : RouteIdx) = i := Fin.ext hi
  rw [hplace]
  simp only [hi]
  unfold RouteTable.stagingBank RouteTable.activeBank
  rcases r with ⟨bankA, bankB, active⟩
  cases active <;> exact ⟨rfl, fun j => vset_fin _ _ _ _⟩

/-- When the copier has taken every entry left to copy, both banks hold the active bank's entries. -/
theorem RouteTable.copyNext_all (m : Nat) (h : r.Law) (hk : r.copier = some k) (hm : k.next + m = 64) :
    RouteTable.copyNext^[m] r = { r.levelled with copier := some { k with next := 64 } } := by
  induction m generalizing r k with
  | zero =>
    have hcopied : r.stagingBank = r.activeBank :=
      Vector.ext fun i hi => (h.copied k hk).2 ⟨i, hi⟩ (by simp only; omega)
    have hnext : k = { k with next := 64 } := by rw [show (64 : Nat) = k.next by omega]
    rw [← r.setBank_active, ← hcopied, r.setBank_same, ← hnext, ← hk]
    rfl
  | succ m ih =>
    have hnext := RouteTable.copyNext_running hk (by omega : k.next < 64)
    rw [Function.iterate_succ_apply,
      ih (k := { k with next := k.next + 1 }) h.copyNext (by rw [hnext]) (by simp only; omega), hnext]
    have hlevel := r.setBank_levelled (vset r.stagingBank ⟨k.next, by omega⟩ r.activeBank[k.next])
      (some { k with next := k.next + 1 })
    exact congrArg (fun x : RouteTable => { x with copier := some { k with next := 64 } }) hlevel

/-- Copy done of a copy in progress leaves both banks with the active bank's entries, the copier idle and the state CLEAN. -/
theorem RouteTable.Law.copyDone_levelled (h : r.Law) (hk : r.copier = some k) :
    r.copyDone = { r.levelled with copier := none, staging := .clean } := by
  rw [RouteTable.copyDone, hk]
  show { r.setBank r.active.other (copyFrom r.activeBank r.stagingBank k.next) with copier := none, staging := .clean } = _
  rw [h.copyFrom_active hk, r.setBank_active]

/-! ## While no command waits -/

theorem step_copyEntry (hp : s.pending = []) (hd : ∀ p : Port, s.disposing[p] = none) (ht : s.transit = []) :
    step s = .next s.copyEntry := by
  rw [step, hp]
  exact congrArg Host.Outcome.next (State.idle_quiet hd ht)

/-- With no disposition in progress and no raise waiting, steps on an empty queue copy entry after entry. -/
theorem State.idling_copies (hp : s.pending = []) (hd : ∀ p : Port, s.disposing[p] = none) (ht : s.transit = []) (m : Nat) :
    s.idling m = { s with route := RouteTable.copyNext^[m] s.route } := by
  induction m generalizing s with
  | zero => rfl
  | succ m ih =>
    have hs : { s with pending := [] } = s := by rw [← hp]
    rw [State.idling, hs, step_copyEntry hp hd ht, Function.iterate_succ_apply]
    exact ih hp hd ht

/-- Of all that is left from before the last advance, a copy alone: TICK ends it first (R55). -/
theorem State.takeDue_staleCopy (hd : ∀ (p : Port) (d : Disposal), s.disposing[p] = some d → d.begun = s.now)
    (hr : ∀ x ∈ s.transit, x.tick = s.now) (hk : s.route.copier = some k) (hb : k.begun ≠ s.now) :
    s.takeDue = ({ s with route := s.route.copyDone } : State).takeDue := by
  have hs : s.endStaleCopy = { s with route := s.route.copyDone } := by
    rw [State.endStaleCopy, hk]
    exact if_neg hb
  have hdone : ({ s with route := s.route.copyDone } : State).endStaleCopy = { s with route := s.route.copyDone } :=
    State.endStaleCopy_fresh fun x hx => by
      rw [show ({ s with route := s.route.copyDone } : State).route.copier = none from s.route.copyDone_copier] at hx
      cases hx
  rw [State.takeDue_fresh hd hr, State.takeDue_fresh (s := { s with route := s.route.copyDone }) hd hr, hs, hdone]

end

/-- Settles O25: the copier's steps and copy done, each by what it makes of the two banks. -/
theorem copyMakesBanksEqual : Obligations.CopyMakesBanksEqual := by
  unfold Obligations.CopyMakesBanksEqual
  refine ⟨fun s c i hp ht hd hc hi => ?entry, fun s c ht hp hd hc hlaw => ?all, fun s c hc hlaw => ?done,
    fun s t c hc hb hd hr hdone => ?stale, fun s hc => ?idle⟩
  case entry =>
    obtain ⟨hroute, hentries⟩ := RouteTable.copyNext_entry hc hi
    exact ⟨_, step_copyEntry hp hd ht, congrArg (fun r => { s with route := r }) hroute, s.route.copyNext_bank.1, hentries⟩
  case all =>
    have hroute := s.bankLaw_iff.1 hlaw
    have hnext := (hroute.copied c hc).1
    rw [State.idling_copies hp hd ht, RouteTable.copyNext_all _ hroute hc (by omega)]
    rfl
  case done =>
    exact congrArg (fun r => Host.Outcome.next { s with route := r }) ((s.bankLaw_iff.1 hlaw).copyDone_levelled hc)
  case stale =>
    cases hdone
    rw [exec_tick, exec_tick, State.takeDue_staleCopy hd hr hc hb]
  case idle =>
    have hroute : s.route.copyDone = s.route := by rw [RouteTable.copyDone, hc]
    exact congrArg (fun r => Host.Outcome.next { s with route := r }) hroute

end Sys2Proof.Machine
end

