-- ==== Sys2Proof/Proofs/Misses.lean ====
section
/-! PROOF. The deadlines of the Supervision Slots (section 7.5): the start window, the miss and the loss, and O26. -/

namespace Sys2Proof.Machine

section
variable {s t u : State} {n : SlotNo} {x : Slot} {d : Tick}

/-! ## A raise where no event frame may be built (R174 to R176) -/

/-- Without a delivery to start a raise waits, or the list takes it. -/
theorem State.raise_undelivered (h : s.Undelivered) {kind : NoticeKind} (hk : kind ≠ .portUp) (subject : Byte)
    (detail : BitVec 32) : s.raise kind subject detail =
      if s.raisesWait then s.sendRaise { kind := kind, subject := subject, tick := s.now, detail := detail }
      else { s with events := s.events.take kind subject s.now detail } := by
  unfold State.raise
  rw [State.takeRaise_undelivered s _ h, decide_eq_false hk, Bool.false_and, Bool.or_false]

theorem State.SameRaising.raised (h : s.SameRaising u) (kind : NoticeKind) (subject : Byte) (detail : BitVec 32) :
    (s.raised kind subject detail).SameEvents (u.raised kind subject detail) := by
  rw [State.raised_eq h]
  exact ⟨rfl, rfl⟩

/-- A slot changed and a notice raised, where the list has room. -/
theorem State.raise_setSlot (y : Slot) (hu : s.Undelivered) (hr : s.NoticeRoom) (kind : NoticeKind) (subject : Byte)
    (detail : BitVec 32) : (s.setSlot n y).raise kind subject detail =
      { s.raised kind subject detail with slots := vset s.slots n y } := by
  rw [State.raise_room (s.setSlot n y) _ _ _ hu hr, State.raised_eq (s := s) (u := s.setSlot n y) ⟨rfl, rfl, rfl, rfl⟩]
  conv_rhs => rw [State.raised_rest s]
  rfl

/-- The raise that finds fifteen notices leaves NOTICES-LOST in the sixteenth place (R175). -/
theorem EventQueue.take_sixteenth {q : EventQueue} (h : q.notices.length = 15)
    (hn : ∀ x ∈ q.notices, x.kind ≠ .noticesLost) (kind : NoticeKind) (subject : Byte) (tick : Tick)
    (detail : BitVec 32) : q.take kind subject tick detail = q.plus .noticesLost 0 tick 1 := by
  simp [EventQueue.take, EventQueue.overflowed_false hn, h, EventQueue.append, EventQueue.plus]

theorem Notice.countLoss_other {x : Notice} (h : x.kind ≠ .noticesLost) : x.countLoss = x := if_neg h

/-- A raise that finds NOTICES-LOST is counted on it (R175). -/
theorem EventQueue.take_lost {q : EventQueue} {older : List Notice} {x : Notice} (h : q.notices = older ++ [x])
    (ho : ∀ y ∈ older, y.kind ≠ .noticesLost) (hx : x.kind = .noticesLost) (kind : NoticeKind) (subject : Byte)
    (tick : Tick) (detail : BitVec 32) : q.take kind subject tick detail = { q with notices := older ++
      [{ x with detail := if x.detail.toNat < 65535 then x.detail + 1 else x.detail }] } := by
  have hover : q.overflowed = true := by simp [EventQueue.overflowed, h, hx]
  have holder : older.map Notice.countLoss = older :=
    (List.map_congr_left fun y hy => Notice.countLoss_other (ho y hy)).trans (List.map_id older)
  have hlost : x.countLoss = { x with detail := if x.detail.toNat < 65535 then x.detail + 1 else x.detail } :=
    if_pos hx
  rw [EventQueue.take, if_pos hover, h, List.map_append, holder, List.map_singleton, hlost]

/-! ## The start window's end (R123) -/

/-- The slot's deadline has no more to do with it. -/
def Slot.neverSeen (x : Slot) : Slot := { x with state := .lost, deadline := none }

theorem exec_slotStartWindowExpiry_due (hs : s.slots[n].state = .waiting) (hd : s.slots[n].deadline = some d)
    (hr : reached s.now d = true) : exec (.slotStartWindowExpiry n) s =
      .next ((s.setSlot n (s.slots[n]).neverSeen).raise .slotNeverSeen (BitVec.ofNat 8 n.val)
        (s.slots[n].cfg.startWindow.setWidth 32)).finish :=
  congrArg Host.Outcome.next (if_pos ((s.windowExpired_iff n).2 ⟨hs, by rw [hd]; exact hr⟩))

/-! ## A miss (R124, R125) -/

theorem exec_slotDeadline_due (hs : s.slots[n].state = .fresh ∨ s.slots[n].state = .late)
    (hd : s.slots[n].deadline = some d) (hr : reached s.now d = true) :
    exec (.slotDeadline n) s = .next (s.slotMiss n).finish :=
  congrArg Host.Outcome.next (if_pos ((s.slotDue_iff n).2 ⟨hs, by rw [hd]; exact hr⟩))

/-- The part with the slot LATE, and the notice of its first miss. -/
def State.lateNoticed (s : State) (n : SlotNo) : State :=
  if s.slots[n].state = .fresh then
    (s.setSlot n (s.slots[n]).late).raise .slotLate (BitVec.ofNat 8 n.val) s.slots[n].lastArrival
  else s.setSlot n (s.slots[n]).late

theorem State.slotMiss_late (h : s.slots[n].miss + 1 < s.slots[n].cfg.lossCount) : s.slotMiss n =
    match s.slots[n].held with
    | some h => if s.slots[n].cfg.substitute then (s.lateNoticed n).emitSubstitute n h else s.lateNoticed n
    | none => s.lateNoticed n :=
  if_pos h

theorem State.slotMiss_lost (h : s.slots[n].miss + 1 = s.slots[n].cfg.lossCount) : s.slotMiss n =
    ((s.setSlot n (s.slots[n]).lost).releaseHeld s.slots[n].held).raise .slotLost (BitVec.ofNat 8 n.val)
      s.slots[n].lastArrival :=
  if_neg (by omega)

/-- What the miss that leaves the slot LATE comes to, its substitute apart. -/
theorem State.lateNoticed_eq (hraise : s.slots[n].state = .fresh → s.Undelivered ∧ s.NoticeRoom)
    (hd : s.slots[n].deadline = some d) :
    s.lateNoticed n = {
      (if s.slots[n].state = .fresh then s.raised .slotLate (BitVec.ofNat 8 n.val) s.slots[n].lastArrival else s) with
      slots := vset s.slots n { s.slots[n] with
        state := .late, miss := s.slots[n].miss + 1, misses := bump s.slots[n].misses
        deadline := some (d + s.slots[n].cfg.period.setWidth 32) } } := by
  have hlate : (s.slots[n]).late = { s.slots[n] with
      state := .late, miss := s.slots[n].miss + 1, misses := bump s.slots[n].misses
      deadline := some (d + s.slots[n].cfg.period.setWidth 32) } := by
    rw [Slot.late, hd]; rfl
  rw [State.lateNoticed, hlate]
  split
  · next hfresh => exact State.raise_setSlot _ (hraise hfresh).1 (hraise hfresh).2 _ _ _
  · rfl

/-- The end of a hold's reference, where there is one (R28). -/
theorem State.releaseHeld_frame (s : State) (h : Option Held) : s.FlowFrame (s.releaseHeld h) := by
  cases h with
  | none => exact .refl s
  | some x => exact s.release_frame x.buf

end

/-- Settles O26: each deadline is one branch of R123 to R125, and its notice is taken as the list stands. -/
theorem slotDeadlinesMakeLateOrLost : Obligations.SlotDeadlinesMakeLateOrLost := by
  unfold Obligations.SlotDeadlinesMakeLateOrLost
  refine ⟨fun n s d hs hd hr hdue hu => ?window, fun n s d x hx hs hd hr hdue hu hroom => ?miss⟩
  case window =>
    have hexec := exec_slotStartWindowExpiry_due hs hd hr
    have hraise := State.raise_undelivered (s := s.setSlot n (s.slots[n]).neverSeen) hu (kind := .slotNeverSeen) (by decide)
      (BitVec.ofNat 8 n.val) (s.slots[n].cfg.startWindow.setWidth 32)
    have hfinish : ∀ u : State, u.resetDue = s.resetDue → u.finish = u := fun u h => State.finish_of_settled u (h.trans hdue)
    refine ⟨_, hexec, ?_, fun hroom => ?_, fun hw hl hn => ?_, fun older y hw hlist ho hy => ?_⟩
    · rw [hraise]
      split <;> rw [hfinish _ (by rfl)] <;> rfl
    · rw [State.raise_setSlot _ hu hroom, State.finish_of_settled _ (by exact (State.raised_resetDue s _ _ _).trans hdue)]
      exact ⟨rfl, rfl⟩
    · rw [hraise, if_neg (by simp [State.setSlot, hw]), hfinish _ (by rfl)]
      exact ⟨EventQueue.take_sixteenth hl hn _ _ _ _, rfl⟩
    · rw [hraise, if_neg (by simp [State.setSlot, hw]), hfinish _ (by rfl)]
      exact ⟨EventQueue.take_lost hlist ho hy _ _ _ _, rfl⟩
  case miss =>
    subst hx
    refine ⟨fun hm hsub => ?late, fun hm => ?lost⟩
    case late =>
      have hmiss : s.slotMiss n = s.lateNoticed n := by
        rw [State.slotMiss_late hm]
        rcases hsub with h | h <;> rw [h]
        cases s.slots[n].held <;> rfl
      rw [exec_slotDeadline_due hs hd hr, hmiss, State.lateNoticed_eq (fun _ => ⟨hu, hroom⟩) hd, State.finish_of_settled]
      split
      · exact (State.raised_resetDue _ _ _ _).trans hdue
      · exact hdue
    case lost =>
      have hframe := (s.setSlot n (s.slots[n]).lost).releaseHeld_frame s.slots[n].held
      have hcounts : ∀ h, s.slots[n].held = some h → ((s.setSlot n (s.slots[n]).lost).releaseHeld s.slots[n].held).store.count =
          vset s.store.count h.buf (s.store.count[h.buf] - 1) ∧
          ((s.setSlot n (s.slots[n]).lost).releaseHeld s.slots[n].held).store.free =
            if s.store.count[h.buf] = 1 then h.buf :: s.store.free else s.store.free := fun h hh => by
        rw [hh]; exact State.release_store _ h.buf
      have hnone : s.slots[n].held = none →
          (s.setSlot n (s.slots[n]).lost).releaseHeld s.slots[n].held = s.setSlot n (s.slots[n]).lost := fun hh => by
        rw [hh]; rfl
      have hexec := exec_slotDeadline_due hs hd hr
      rw [State.slotMiss_lost hm] at hexec
      generalize (s.setSlot n (s.slots[n]).lost).releaseHeld s.slots[n].held = v at hframe hcounts hnone hexec
      have hsame : ({ s with slots := v.slots } : State).SameTables v := by
        obtain ⟨h1, h2, h3, h4, h5, h6, -, h8, h9, h10, h11⟩ := hframe.tables
        exact ⟨h1, h2, h3, h4, h5, h6, rfl, h8, h9, h10, h11⟩
      obtain ⟨hraise, hevents⟩ := State.raise_after (s := { s with slots := v.slots }) hsame hframe.events hu hroom
        .slotLost (BitVec.ofNat 8 n.val) s.slots[n].lastArrival
      obtain ⟨-, -, -, -, -, -, hslots, -⟩ := hframe.tables
      refine ⟨v.raised .slotLost (BitVec.ofNat 8 n.val) s.slots[n].lastArrival, ?_, ?_, ?_, fun hh => ?_, fun h hh => ?_, ?_, ?_⟩
      · rw [hexec, hraise, State.finish_of_settled _ ((State.raised_resetDue _ _ _ _).trans (hframe.due.trans hdue))]
      · rw [State.raised_slots, hslots]; rfl
      · exact (State.SameRaising.raised (s := s) (u := { s with slots := v.slots }) ⟨rfl, rfl, rfl, rfl⟩ _ _ _).trans hevents
      · rw [State.raised_store, State.raised_ports, hnone hh]; exact ⟨rfl, rfl⟩
      · rw [State.raised_store]
        exact ⟨(hcounts h hh).1, (hcounts h hh).2, fun p => by rw [State.raised_ports]; exact hframe.ports p⟩
      · rw [State.raised_store]; exact hframe.mem
      · rw [State.raised_slots]; exact hsame.trans (State.raised_sameTables _ _ _ _)

end Sys2Proof.Machine
end

