-- ==== Sys2Proof/Proofs/Waiting.lean ====
section
/-! PROOF. Raises that wait (sections 10.1 and 10.4): which is taken and what it comes to, and O33. -/

namespace Sys2Proof.Machine

section
variable {s : State} {r a b : Raise}

/-! ## A raise taken as the list stands (R174 to R176) -/

theorem State.takeRaise_room (h : s.NoticeRoom) : s.takeRaise r =
    State.tryDeliver { s with events := s.events.plus r.kind r.subject r.tick r.detail } := by
  have happends : s.events.appends = true := by
    simp only [EventQueue.appends, EventQueue.overflowed_false h.2, Bool.not_false, Bool.true_and, decide_eq_true_eq]
    exact Nat.le_succ_of_le h.1
  rw [State.takeRaise, if_pos happends, EventQueue.take_room h.1 h.2]

theorem State.takeRaise_sixteenth (h : s.events.notices.length = 15) (hn : ∀ x ∈ s.events.notices, x.kind ≠ .noticesLost) :
    s.takeRaise r = State.tryDeliver { s with events := s.events.plus .noticesLost 0 r.tick 1 } := by
  have happends : s.events.appends = true := by simp [EventQueue.appends, EventQueue.overflowed_false hn, h]
  rw [State.takeRaise, if_pos happends, EventQueue.take_sixteenth h hn]

theorem State.takeRaise_lost {older : List Notice} {x : Notice} (h : s.events.notices = older ++ [x])
    (ho : ∀ y ∈ older, y.kind ≠ .noticesLost) (hx : x.kind = .noticesLost) :
    s.takeRaise r = { s with events := { s.events with notices := older ++
      [{ x with detail := if x.detail.toNat < 65535 then x.detail + 1 else x.detail }] } } := by
  have happends : s.events.appends = false := by simp [EventQueue.appends, EventQueue.overflowed, h, hx]
  rw [State.takeRaise, happends, EventQueue.take_lost h ho hx]
  rfl

theorem State.tryDeliver_noReset (h : s.NoReset) : s.tryDeliver.NoReset :=
  (State.tryDeliver_leads (c := none) (ok := True) s Hand.empty).keeps (P := fun x => x.2.NoReset) Move.noReset h

theorem State.tryDeliver_undelivered (h : s.Undelivered) : s.tryDeliver = s := by
  refine State.tryDeliver_off ?_
  rcases h with h | h | h <;> simp [State.canDeliver, h]

/-! ## Which raise is taken (R174, R181) -/

theorem inTurn_single (r : Raise) : inTurn [r] 0 = 0 :=
  Nat.lt_one_iff.1 (inTurn_lt (rs := [r]) Nat.zero_lt_one)

/-- No PORT-UP stands before a PORT-UP that is taken. -/
theorem inTurn_oldest {rs : List Raise} {k : Nat} (hk : k < rs.length) (hup : ∀ q, rs[inTurn rs k]? = some q → q.kind = .portUp)
    {j : Nat} {x : Raise} (hj : j < inTurn rs k) (hx : rs[j]? = some x) : x.kind ≠ .portUp := by
  have hget := List.getElem?_eq_getElem hk
  by_cases hp : rs[k].kind = .portUp
  · obtain ⟨q, -, -, hbefore⟩ := inTurn_portUp hget hp
    exact hbefore j x hj hx
  · refine absurd (hup rs[k] ?_) hp
    rw [inTurn_other hget hp]
    exact hget

theorem State.takeWaiting_single (h : s.transit = [r]) :
    s.takeWaiting 0 = (State.takeRaise { s with transit := [] } r).finish := by
  have hget : s.transit[inTurn s.transit 0]? = some r := by rw [h, inTurn_single]; rfl
  rw [State.takeWaiting_eq hget, h, inTurn_single]
  rfl

/-- Of two raises that wait either is taken, but of two PORT-UPs the older. -/
theorem State.takeWaiting_pair (h : s.transit = [a, b]) {k : Nat} (hk : k < 2) :
    s.takeWaiting k = (State.takeRaise { s with transit := [b] } a).finish ∨
      (¬(a.kind = .portUp ∧ b.kind = .portUp) ∧ s.takeWaiting k = (State.takeRaise { s with transit := [a] } b).finish) := by
  have hlt : inTurn [a, b] k < 2 := inTurn_lt (rs := [a, b]) hk
  rcases (by omega : inTurn [a, b] k = 0 ∨ inTurn [a, b] k = 1) with hturn | hturn
  · left
    have hget : s.transit[inTurn s.transit k]? = some a := by rw [h, hturn]; rfl
    rw [State.takeWaiting_eq hget, h, hturn]
    rfl
  · right
    have hget : s.transit[inTurn s.transit k]? = some b := by rw [h, hturn]; rfl
    refine ⟨fun hup => ?_, ?_⟩
    · have htaken : ∀ q, [a, b][inTurn [a, b] k]? = some q → q.kind = .portUp := fun q hq => by
        rw [hturn] at hq; cases hq; exact hup.2
      exact inTurn_oldest (rs := [a, b]) hk htaken (j := 0) (by omega) rfl hup.1
    · rw [State.takeWaiting_eq hget, h, hturn]
      rfl

theorem step_takeWaiting (hp : s.pending = []) (hd : ∀ p : Port, s.disposing[p] = none) (ht : s.transit ≠ []) :
    ∃ k, k < s.transit.length ∧ step s = .next (s.takeWaiting k) := by
  obtain ⟨k, hk, hidle⟩ := State.idle_raise hd ht
  refine ⟨k, hk, ?_⟩
  rw [step, hp]
  exact congrArg Host.Outcome.next hidle

theorem step_takeRaise (hp : s.pending = []) (hd : ∀ p : Port, s.disposing[p] = none) (ht : s.transit = [r]) :
    step s = .next (State.takeRaise { s with transit := [] } r).finish := by
  obtain ⟨k, hk, hstep⟩ := step_takeWaiting hp hd (by rw [ht]; exact List.cons_ne_nil r [])
  rw [ht, List.length_singleton, Nat.lt_one_iff] at hk
  rw [hstep, hk, State.takeWaiting_single ht]

/-- A single raise made before the last advance is taken first by TICK (R174). -/
theorem State.takeDue_staleRaise (ht : s.transit = [r]) (hr : r.tick ≠ s.now) (hd : s.NoneStale)
    (htaken : s.takeWaiting 0 = { s with transit := [], events := s.events.plus r.kind r.subject r.tick r.detail }) :
    s.takeDue = ({ s with transit := [], events := s.events.plus r.kind r.subject r.tick r.detail } : State).takeDue := by
  have hsettled : ∀ u : State, u.disposing = s.disposing → u.now = s.now → Port.all.foldl State.settleStale u = u :=
    fun u hu hn => by
      have hfixed : ∀ p : Port, u.settleStale p = u := fun p =>
        State.settleStale_fresh fun d hp => (hd.1 p d (hu ▸ hp)).trans hn.symm
      exact List.foldl_fixed' hfixed _
  have hstale : s.staleRaises = [0] := by simp [State.staleRaises, ht, hr]
  have htold : State.takeStaleRaises s.transit.length s = s.takeWaiting 0 := by
    rw [ht, List.length_singleton, State.takeStaleRaises, hstale]
    rfl
  unfold State.takeDue
  rw [hsettled s rfl rfl, hsettled _ (by rfl) (by rfl)]
  dsimp only
  rw [htold, htaken]
  rfl

end

/-- Settles O33: a raise that waits is taken as the list stands, and the oldest PORT-UP before the others. -/
theorem raisesAreTakenInEitherOrder : Obligations.RaisesAreTakenInEitherOrder := by
  unfold Obligations.RaisesAreTakenInEitherOrder
  refine ⟨fun s r hp ht hd hdue hpending => ?one, fun s a b hp ht hd hdue hu hroom => ?two,
    fun s r ht hr hstale hdue hu hroom => ?stale⟩
  case one =>
    have hfinish : ∀ u : State, u.agent = s.agent → u.resetDue = s.resetDue → u.tryDeliver.finish = u.tryDeliver :=
      fun u ha hu => State.finish_of_settled _ (State.tryDeliver_noReset ⟨by rw [ha, hpending], hu.trans hdue⟩).2
    rw [step_takeRaise hp hd ht]
    refine ⟨fun hroom => ?_, fun hl hn => ?_, fun older x hlist ho hx => ?_⟩
    · rw [State.takeRaise_room (by exact hroom), hfinish _ (by rfl) (by rfl)]
    · rw [State.takeRaise_sixteenth (by exact hl) (by exact hn), hfinish _ (by rfl) (by rfl)]
    · rw [State.takeRaise_lost (by exact hlist) ho hx, State.finish_of_settled _ (by exact hdue)]
  case two =>
    have htaken : ∀ (rest : List Raise) (r : Raise), (State.takeRaise { s with transit := rest } r).finish =
        { s with transit := rest, events := s.events.plus r.kind r.subject r.tick r.detail } := fun rest r => by
      rw [State.takeRaise_room (by exact hroom), State.tryDeliver_undelivered (by exact hu),
        State.finish_of_settled _ (by exact hdue)]
    obtain ⟨k, hk, hstep⟩ := step_takeWaiting hp hd (by rw [ht]; exact List.cons_ne_nil _ _)
    rw [hstep]
    rcases State.takeWaiting_pair ht (by rw [ht] at hk; exact hk) with h | ⟨hups, h⟩
    · exact .inl (by rw [h, htaken])
    · exact .inr ⟨hups, by rw [h, htaken]⟩
  case stale =>
    have htaken : s.takeWaiting 0 = { s with transit := [], events := s.events.plus r.kind r.subject r.tick r.detail } := by
      rw [State.takeWaiting_single ht, State.takeRaise_room (by exact hroom), State.tryDeliver_undelivered (by exact hu),
        State.finish_of_settled _ (by exact hdue)]
    rw [exec_tick, exec_tick, State.takeDue_staleRaise ht hr hstale htaken]

end Sys2Proof.Machine
end

