-- ==== Sys2Proof/Proofs/ResetReports.lean ====
section
/-! PROOF. The reset that takes effect with the report of its response (section 8.6): what a reset reads of the part it
resets, the happenings that report a response, and O31. -/

namespace Sys2Proof.Machine

section
variable {s t u : State} {p : Port} {e : Entry} {r : PendingReset} {b : BufNo} {v : RequestView} {rest : List Request}

/-! ## What a reset reads (R148, R170, R171) -/

/-- `t` is `s` as far as a reset of either scope reads it. -/
structure State.ResetsAs (s t : State) : Prop where
  clock    : t.node = s.node ∧ t.initializing = s.initializing ∧ t.now = s.now
  ports    : t.ports = s.ports
  mem      : t.store.mem = s.store.mem
  episodes : t.store.lowEpisodes = s.store.lowEpisodes
  episode  : t.store.episode = s.store.episode
  tables   : t.route = s.route ∧ t.action = s.action ∧ t.buckets = s.buckets ∧ t.slots = s.slots
  agent    : t.agent.resetForwarding = s.agent.resetForwarding
  events   : s.SameEvents t
  queue    : t.raisesWait = s.raisesWait ∧ t.pending = s.pending

theorem State.ResetsAs.forwarding (h : s.ResetsAs t) : t.forwardingCore = s.forwardingCore := by
  obtain ⟨hnode, hinit, hnow⟩ := h.clock
  obtain ⟨hroute, haction, hbuckets, hslots⟩ := h.tables
  obtain ⟨hevents, htransit⟩ := h.events
  obtain ⟨hwait, hpending⟩ := h.queue
  unfold State.forwardingCore Store.rebuilt
  simp only [hnode, hinit, hnow, h.ports, h.mem, h.episodes, h.episode, hroute, haction, hbuckets, hslots, h.agent, hevents,
    htransit, hwait, hpending]

/-- What RESET FULL keeps of a part decides what it leaves (R8, R23, R77, R138). -/
theorem State.fullReset_eq (hclock : t.node = s.node ∧ t.initializing = s.initializing ∧ t.now = s.now)
    (hports : ∀ q : Port, t.ports[q].quiet = s.ports[q].quiet ∧ t.ports[q].abortSent = s.ports[q].abortSent)
    (hmem : t.store.mem = s.store.mem) (htoken : t.agent.tokenCounter = s.agent.tokenCounter)
    (hqueue : t.raisesWait = s.raisesWait ∧ t.pending = s.pending) : t.fullReset = s.fullReset := by
  obtain ⟨hnode, hinit, hnow⟩ := hclock
  obtain ⟨hwait, hpending⟩ := hqueue
  have hreset : vmap PortState.resetFull t.ports = vmap PortState.resetFull s.ports := by
    apply Vector.ext
    intro i hi
    obtain ⟨hquiet, habort⟩ := hports ⟨i, hi⟩
    rw [vmap_get, vmap_get]
    exact congrArg₂ (fun quiet sent => ({ PortState.reset with quiet := quiet, sent := sent } : PortState)) hquiet habort
  unfold State.fullReset
  simp only [hnode, hinit, hnow, hreset, hmem, htoken, hwait, hpending]

theorem State.ResetsAs.effect (h : s.ResetsAs t) (scope : ResetScope) : t.resetEffect scope = s.resetEffect scope := by
  cases scope with
  | full =>
    have htoken := congrArg Agent.tokenCounter h.agent
    exact State.fullReset_eq h.clock (fun q => by rw [h.ports]; exact ⟨rfl, rfl⟩) h.mem htoken h.queue
  | forwarding => exact congrArg (fun x : State => (x.note .resetDone 0 2).tryDeliver) h.forwarding

/-- A command that ends with its reset due ends as the reset's limit does (R148). -/
theorem State.finish_pending (hr : t.agent.resetPending = some r) (hd : t.resetDue = true) :
    t.finish = t.resetEffect r.scope := by
  rw [State.finish, if_pos hd, hr]

theorem reached_now (now : Tick) : reached now now = true := by simp [reached]

/-- The limit reached now. -/
theorem exec_resetLimitExpiry_now (hr : s.agent.resetPending = some r) (hl : r.limit = s.now) :
    exec .resetLimitExpiry s = .next (State.resetEffect { s with resetDue := true } r.scope) :=
  exec_resetLimitExpiry hr (by rw [hl]; exact reached_now s.now)

/-- A command's last state with its reset due, and the part the reset is stated of. -/
theorem State.ResetsAs.finish {r' : PendingReset} (h : s.ResetsAs t) (hs : s.agent.resetPending = some r')
    (hl : r'.limit = s.now) (ht : t.agent.resetPending = some r) (hd : t.resetDue = true) (hscope : r.scope = r'.scope) :
    Host.Outcome.next t.finish = exec .resetLimitExpiry s := by
  have hdue : s.ResetsAs { s with resetDue := true } :=
    ⟨⟨rfl, rfl, rfl⟩, rfl, rfl, rfl, rfl, ⟨rfl, rfl, rfl, rfl⟩, rfl, ⟨rfl, rfl⟩, ⟨rfl, rfl⟩⟩
  rw [exec_resetLimitExpiry_now hs hl, State.finish_pending ht hd, hscope, h.effect, hdue.effect]

/-! ## Reports (R148) -/

/-- Entry `e` carries the response on which a reset is pending. -/
structure State.Awaits (s : State) (e : Entry) (r : PendingReset) : Prop where
  response : e.origin = .response
  pending  : s.agent.resetPending = some r
  buf      : r.buf = e.buf

theorem State.Awaits.report (h : s.Awaits e r) : s.reportEntry e = { s with resetDue := true } := by
  rw [State.reportEntry, if_pos h.response, State.report, h.pending]
  exact if_pos h.buf

theorem State.reportEntry_keeps (h : s.resetDue = true) (e : Entry) : (s.reportEntry e).resetDue = true := by
  unfold State.reportEntry State.report
  split
  · split
    · split
      · rfl
      · exact h
    · exact h
  · exact h

theorem State.release_agent (s : State) (b : BufNo) : (s.release b).agent = s.agent := by
  obtain ⟨-, -, -, -, -, -, -, hagent, -⟩ := (s.release_frame b).tables
  exact hagent

/-- A reset that is due stays due while entries are released, and becomes due with the one it waits for. -/
theorem State.releaseEntries_due (es : List Entry) (hr : s.agent.resetPending = some r)
    (h : s.resetDue = true ∨ ∃ e ∈ es, e.origin = .response ∧ r.buf = e.buf) : (s.releaseEntries es).resetDue = true := by
  induction es generalizing s with
  | nil => exact h.resolve_right fun ⟨e, he, _⟩ => nomatch he
  | cons e es ih =>
    have hagent : ((s.release e.buf).reportEntry e).agent = s.agent := by
      rw [State.reportEntry_eq]; exact s.release_agent e.buf
    refine ih (s := (s.release e.buf).reportEntry e) (by rw [hagent]; exact hr) ?_
    rcases h with hd | ⟨x, hx, ho, hb⟩
    · exact .inl (State.reportEntry_keeps ((s.release_frame e.buf).due.trans hd) e)
    · rcases List.mem_cons.1 hx with rfl | hx
      · refine .inl ?_
        rw [State.Awaits.report ⟨ho, by rw [s.release_agent]; exact hr, hb⟩]
      · exact .inr ⟨x, hx, ho, hb⟩

/-! ## References that end outside an episode (R25, R28) -/

/-- `t` is `s` but for counts, the free stack and a reset that may be due. -/
def State.Drained (s t : State) : Prop :=
  ∃ count free due, t = { s with store := { s.store with count := count, free := free }, resetDue := due }

theorem State.Drained.trans (h : s.Drained t) (k : t.Drained u) : s.Drained u := by
  obtain ⟨_, _, _, rfl⟩ := h
  obtain ⟨c, f, d, rfl⟩ := k
  exact ⟨c, f, d, rfl⟩

theorem State.release_drained (h : s.store.episode = .none) (b : BufNo) : s.Drained (s.release b) := by
  unfold State.release
  split
  · exact ⟨_, _, _, rfl⟩
  · rw [State.endEpisode_quiet (by exact fun k => k.2 h)]
    exact ⟨_, _, _, rfl⟩
  · exact ⟨_, _, _, rfl⟩

theorem State.reportEntry_drained (s : State) (e : Entry) : s.Drained (s.reportEntry e) :=
  ⟨s.store.count, s.store.free, (s.reportEntry e).resetDue, s.reportEntry_eq e⟩

theorem State.releaseEntries_drained (es : List Entry) (h : s.store.episode = .none) : s.Drained (s.releaseEntries es) := by
  induction es generalizing s with
  | nil => exact ⟨_, _, _, rfl⟩
  | cons e es ih =>
    have hone := (State.release_drained h e.buf).trans ((s.release e.buf).reportEntry_drained e)
    refine hone.trans (ih ?_)
    obtain ⟨count, free, due, heq⟩ := hone
    rw [heq]
    exact h

/-! ## A push keeps what the agent and the reports are (R25) -/

theorem State.pushed_with (s : State) (b : BufNo) (a : Agent) (due : Bool) :
    ({ s with agent := a, resetDue := due } : State).pushed b = { s.pushed b with agent := a, resetDue := due } := by
  unfold State.pushed
  dsimp only
  split <;> rfl

/-- A push changes the stock, and may ask GO (R25, R33). -/
theorem State.pushed_rest (s : State) (b : BufNo) :
    s.pushed b = { s with store := (s.pushed b).store, ports := (s.pushed b).ports } := by
  unfold State.pushed
  dsimp only
  split <;> rfl

@[simp] theorem State.pushed_agent (s : State) (b : BufNo) : (s.pushed b).agent = s.agent := by rw [State.pushed_rest]

@[simp] theorem State.pushed_now (s : State) (b : BufNo) : (s.pushed b).now = s.now := by rw [State.pushed_rest]

/-! ## The END of the response (R16) -/

/-- The frame of the response sent, with the reset due and no entry asked for (R100). -/
theorem State.frameSent_awaited (h : s.Awaits e r) (hown : s.store.count[e.buf] = 1) :
    (s.frameSent p e).askNext p =
      { ((s.pushed e.buf).onPort p (·.frameDone e (s.frameBytes e))) with resetDue := true } := by
  have hown' : (s.onPort p (·.frameDone e (s.frameBytes e))).store.count[e.buf] = 1 := hown
  have hreport : s.frameSent p e = { (s.onPort p (·.frameDone e (s.frameBytes e))).release e.buf with resetDue := true } :=
    State.Awaits.report ⟨h.response, (congrArg Agent.resetPending (State.release_agent _ _)).trans h.pending, h.buf⟩
  have hpush : (s.onPort p (·.frameDone e (s.frameBytes e))).release e.buf =
      (s.pushed e.buf).onPort p (·.frameDone e (s.frameBytes e)) := by
    rw [State.release_last hown']
    exact State.pushed_onPort s p e.buf _ (fun _ => rfl) fun _ _ => rfl
  have hineligible : (s.frameSent p e).eligible p = false := by simp [State.eligible, hreport]
  rw [State.askNext, hineligible, hreport, hpush]
  rfl

/-! ## The response refused at its enqueue (R137, R147) -/

/-- A request ended with its response lost and the reset that waited for it due. -/
theorem State.endRequest_lost (hown : s.store.count[b] = 1) (hr : s.agent.resetPending = some r) (hb : r.buf = b) :
    (s.responseLost b).endRequest b = { s.pushed b with
      agent := { s.agent with respLost := bump s.agent.respLost, executing := none }, resetDue := true } := by
  have hlost : s.responseLost b = { s with
      agent := { s.agent with respLost := bump s.agent.respLost }, resetDue := true } := by
    unfold State.responseLost State.report
    simp only [hr, hb, if_true]
  have hidled : (s.responseLost b).idled = { s with
      agent := { s.agent with respLost := bump s.agent.respLost, executing := none }, resetDue := true } := by
    rw [hlost]; rfl
  rw [← State.idled_release, hidled, ← State.pushed_with]
  exact State.release_last (s := { s with
    agent := { s.agent with respLost := bump s.agent.respLost, executing := none }, resetDue := true }) hown

theorem State.sendResponse_down (payload : List Byte) (hup : s.isUp v.req.port = false) :
    s.sendResponse v payload = ((s.putPayload v.req.buf payload).responseLost v.req.buf).endRequest v.req.buf := by
  have hdown : (s.putPayload v.req.buf payload).enqueue v.req.port v.req.buf (s.relayHeader v.reply) .response =
      (s.putPayload v.req.buf payload, .down) := if_pos hup
  rw [State.sendResponse, hdown]

theorem State.sendResponse_full (payload : List Byte) (hup : s.isUp v.req.port = true)
    (hfull : 16 ≤ s.ports[v.req.port].queues[(3 : Class)].length) :
    s.sendResponse v payload =
      (((s.putPayload v.req.buf payload).tally v.req.port .qFull).responseLost v.req.buf).endRequest v.req.buf := by
  have hup' : ¬ (s.putPayload v.req.buf payload).isUp v.req.port = false := fun h => nomatch hup.symm.trans h
  have hrefused : (s.putPayload v.req.buf payload).enqueue v.req.port v.req.buf (s.relayHeader v.reply) .response =
      ((s.putPayload v.req.buf payload).tally v.req.port .qFull, .full) := (if_neg hup').trans (if_pos hfull)
  rw [State.sendResponse, hrefused]

/-! ## Flushes and links lost (R20, R105, R107) -/

/-- Away from a delivery a raise appends its notice, or waits: no attempt is started while a reset is due (R176). -/
theorem State.raise_due (hd : s.resetDue = true) (hr : s.NoticeRoom) (kind : NoticeKind) (subject : Byte) (detail : BitVec 32) :
    s.raise kind subject detail = s.raised kind subject detail := by
  have htaken : ∀ x : Raise, s.takeRaise x = { s with events := s.events.plus x.kind x.subject x.tick x.detail } := fun x => by
    rw [State.takeRaise_room hr]
    exact State.tryDeliver_off (by simp [State.canDeliver, hd])
  unfold State.raise State.raised
  by_cases h : s.raisesWait = true ∨ (kind = .portUp ∧ ∃ r ∈ s.transit, r.kind = .portUp)
  · rw [if_pos (s.waits_iff kind |>.2 h), if_pos h]; rfl
  · rw [if_neg (mt (s.waits_iff kind).1 h), if_neg h, htaken]

/-- A flush outside an episode that reports the awaited response. -/
theorem State.flush_awaited (hr : s.agent.resetPending = some r) (hep : s.store.episode = .none)
    (he : ∃ e ∈ s.ports[p].allWaiting, e.origin = .response ∧ r.buf = e.buf) :
    ∃ count free, s.flush p = { s.onPort p PortState.flushed with
      store := { s.store with count := count, free := free }, resetDue := true } := by
  obtain ⟨count, free, due, heq⟩ := State.releaseEntries_drained (s := s.onPort p PortState.flushed) s.ports[p].allWaiting hep
  have hdue := State.releaseEntries_due (s := s.onPort p PortState.flushed) s.ports[p].allWaiting hr (.inr he)
  rw [heq] at hdue
  exact ⟨count, free, heq.trans (by rw [show due = true from hdue]; rfl)⟩

theorem PortState.flushed_stuck (P : PortState) : P.flushed.stuck = { P with
    queues := #v[P.unflushed 0, P.unflushed 1, P.unflushed 2, P.unflushed 3], holdDeadline := none
    ctr := { P.ctr with
      qFlushed := bumpBy P.allWaiting.length P.ctr.qFlushed, holdStuck := bump P.ctr.holdStuck } } := rfl

/-- The hold deadline's effects outside an episode, the awaited response among what the flush gives up (R20). -/
theorem State.holdStuck_awaited (hr : s.agent.resetPending = some r) (hep : s.store.episode = .none) (hroom : s.NoticeRoom)
    (he : ∃ e ∈ s.ports[p].allWaiting, e.origin = .response ∧ r.buf = e.buf) :
    ∃ count free, s.holdStuck p = { (s.raised .holdStuck (BitVec.ofNat 8 p.val) 0).onPort p fun P => P.flushed.stuck with
      store := { s.store with count := count, free := free }, resetDue := true } := by
  obtain ⟨count, free, hflush⟩ := State.flush_awaited hr hep he
  have hstuck : (s.flush p).onPort p PortState.stuck = { s.onPort p fun P => P.flushed.stuck with
      store := { s.store with count := count, free := free }, resetDue := true } := by
    rw [hflush, ← State.onPort_onPort s p PortState.flushed PortState.stuck]
    rfl
  refine ⟨count, free, ?_⟩
  rw [State.holdStuck_eq, hstuck, State.raise_due (by rfl) (by exact hroom),
    State.raised_eq (s := s) (by exact ⟨rfl, rfl, rfl, rfl⟩), State.raised_rest s]
  rfl

theorem State.flush_due (hr : s.agent.resetPending = some r) (hd : s.resetDue = true) : (s.flush p).resetDue = true :=
  State.releaseEntries_due (s := s.onPort p PortState.flushed) _ hr (.inl hd)

theorem State.abandonTx_due (htx : s.ports[p].tx = .sending e) (h : s.Awaits e r) (abort : Bool) :
    (s.abandonTx p abort).resetDue = true := by
  simp only [State.abandonTx, htx]
  refine congrArg State.resetDue (State.Awaits.report (r := r) ⟨h.response, ?_, h.buf⟩)
  rw [State.release_agent]
  exact h.pending

/-- The loss of a link that takes the awaited response with it, while it is being sent (R6, R17). -/
theorem State.dropLink_due (htx : s.ports[p].tx = .sending e) (h : s.Awaits e r) : (s.dropLink p).resetDue = true := by
  have hrx := State.abandonRx_turns s p
  obtain ⟨-, -, -, -, -, -, -, hagent, -⟩ := hrx.tables
  have htx' : (s.abandonRx p).ports[p].tx = .sending e := by
    obtain ⟨more, hport⟩ := hrx.port
    obtain ⟨ctr, habandoned, -⟩ := s.ports[p].abandonedRx_fields
    rw [hport, habandoned]
    exact htx
  have hcut := State.abandonTx_due htx' ⟨h.response, (congrArg Agent.resetPending hagent).trans h.pending, h.buf⟩ false
  obtain ⟨-, -, -, -, -, -, -, hagent', -⟩ := (State.abandonTx_turns (s.abandonRx p) p false).tables
  show ((((s.abandonRx p).abandonTx p false).flush p).onPort p PortState.clearFlow).resetDue = true
  rw [State.onPort_resetDue]
  exact State.flush_due ((congrArg Agent.resetPending (hagent'.trans hagent)).trans h.pending) hcut

/-- The port whose awaited response was being sent when its link was lost (R5, R6). -/
theorem State.linkLoss_awaited (htx : s.ports[p].tx = .sending e) (h : s.Awaits e r) (hu : s.Undelivered) (cause : BitVec 32) :
    (s.linkLoss p cause).resetDue = true ∧ (s.linkLoss p cause).store.mem = s.store.mem ∧ s.SameTables (s.linkLoss p cause) ∧
      ∀ q : Port, (s.linkLoss p cause).ports[q].quiet = s.ports[q].quiet ∧
        (s.linkLoss p cause).ports[q].abortSent = if q = p then s.ports[p].sent else s.ports[q].abortSent := by
  have hraise := State.raise_undelivered (s := s.onPort p (·.restartLink .down)) hu (kind := .portDown) (by decide)
    (BitVec.ofNat 8 p.val) cause
  have hraised : ∃ events transit, (s.onPort p (·.restartLink .down)).raise .portDown (BitVec.ofNat 8 p.val) cause =
      { s.onPort p (·.restartLink .down) with events := events, transit := transit } := by
    rw [hraise]
    split <;> exact ⟨_, _, rfl⟩
  obtain ⟨events, transit, heq⟩ := hraised
  have hloss : s.linkLoss p cause =
      State.dropLink { s.onPort p (·.restartLink .down) with events := events, transit := transit } p := by
    rw [State.linkLoss, heq]
  have hself : (s.onPort p (·.restartLink .down)).ports[p] = s.ports[p].restartLink .down := State.onPort_get _ _ _
  generalize hy : ({ s.onPort p (·.restartLink .down) with events := events, transit := transit } : State) = y at hloss
  have hyp : y.ports[p] = s.ports[p].restartLink .down := by rw [← hy]; exact hself
  have hyq : ∀ q : Port, q ≠ p → y.ports[q] = s.ports[q] := fun q hq => by
    rw [← hy]; exact State.onPort_get_ne s (·.restartLink .down) hq
  have hydue := State.dropLink_due (s := y) (p := p) (e := e) (r := r) (by rw [hyp]; exact htx)
    ⟨h.response, by rw [← hy]; exact h.pending, h.buf⟩
  obtain ⟨u, hturn, hdrop⟩ := y.dropLink_turns p
  have hclear := State.Turns.onPort u p PortState.clearFlow
  have hempty := (y.ports[p]).givenUp_emptied false
  rw [hloss]
  refine ⟨hydue, ?_, ?_, fun q => ?_⟩
  · rw [hdrop, hclear.mem, hturn.mem, ← hy]; rfl
  · rw [hdrop]
    have hfirst : s.SameTables y := by rw [← hy]; exact ⟨rfl, rfl, rfl, rfl, rfl, rfl, rfl, rfl, rfl, rfl, rfl⟩
    exact hfirst.trans (hturn.tables.trans hclear.tables)
  · rw [hdrop]
    by_cases hq : q = p
    · subst hq
      obtain ⟨more, hport⟩ := hturn.port
      obtain ⟨-, -, -, -, hquiet, -⟩ := hempty.rest
      obtain ⟨-, hsent⟩ := hempty.sending e (by rw [hyp]; exact htx)
      rw [State.onPort_get, hport, if_pos rfl]
      refine ⟨hquiet.trans (by rw [hyp]; rfl), ?_⟩
      have hidle : ({ (y.ports[q]).givenUp false with asked := ((y.ports[q]).givenUp false).asked ++ more } : PortState).clearFlow.tx = .idle :=
        hempty.tx
      rw [PortState.abortSent, hidle]
      exact hsent.trans (by rw [hyp]; rfl)
    · obtain ⟨more, hport⟩ := hturn.others q hq
      rw [State.onPort_get_ne u _ hq, hport, hyq q hq, if_neg hq]
      exact ⟨rfl, rfl⟩

/-! ## The happenings that report a response (R16, R20, R100, R107, R137) -/

theorem exec_txEnd_awaited (htx : s.ports[p].tx = .sending e) (h : s.Awaits e r) (hown : s.store.count[e.buf] = 1) :
    exec (.txEnd p) s = exec .resetLimitExpiry (({ s.pushed e.buf with
      agent := { s.agent with resetPending := some { r with limit := s.now } } } : State).onPort p fun P =>
        { P.dropHead e.hdr.cls with
          tx := .idle, sent := P.sent ++ [.frame (s.frameBytes e)]
          ctr := { P.ctr with txFrames := bump P.ctr.txFrames } }) := by
  rw [exec_txEnd_sending htx, State.frameSent_awaited h hown]
  refine State.ResetsAs.finish (r := r) (r' := { r with limit := s.now }) ?_ rfl ?_ ?_ rfl rfl
  · refine ⟨⟨rfl, rfl, rfl⟩, rfl, rfl, rfl, rfl, ⟨rfl, rfl, rfl, rfl⟩, ?_, ⟨rfl, rfl⟩, ⟨rfl, rfl⟩⟩
    show (s.pushed e.buf).agent.resetForwarding = _
    rw [State.pushed_agent]
    rfl
  · exact (s.pushed_now e.buf).symm
  · exact (congrArg Agent.resetPending (s.pushed_agent e.buf)).trans h.pending

theorem exec_reset_lost {i : Instr} {scope : ResetScope} (ha : s.Admits v) (hq : s.agent.queue = v.req :: rest)
    (hlen : 5 ≤ s.lengthAt v.req.buf) (hview : s.viewRequest v.req = v) (hnone : s.agent.resetPending = none)
    (hown : s.store.count[v.req.buf] = 1) (hop : v.opcode = 0x48)
    (hcase : (i = .resetFull ∧ scope = .full ∧ v.args = [0x01]) ∨
      (i = .resetForwarding ∧ scope = .forwarding ∧ v.args = [0x00]))
    (hu : u = { s with
      agent := { s.agent.served rest (s.agent.session.executed s.now v.req.port 0x48 .ok []) with
        respLost := bump s.agent.respLost
        resetPending := some { scope := scope, buf := v.req.buf, limit := s.now } } }) :
    (s.isUp v.req.port = false →
      exec i s = exec .resetLimitExpiry ((u.putPayload v.req.buf (v.response .ok [])).pushed v.req.buf)) ∧
    (s.isUp v.req.port = true → 16 ≤ s.ports[v.req.port].queues[(3 : Class)].length →
      exec i s = exec .resetLimitExpiry
        (((u.putPayload v.req.buf (v.response .ok [])).pushed v.req.buf).onPort v.req.port fun P =>
          { P with ctr := { P.ctr with qFull := bump P.ctr.qFull } })) := by
  have hexec := State.exec_reset ⟨hq, hlen, hview, hnone⟩ ha hop hcase
  generalize hw : ((s.admitted v rest).cacheResponse v { status := .ok, results := [], follow := .reset scope }).enterReset v
    scope = w at hexec
  have hsession : w.agent.session = s.agent.session.executed s.now v.req.port 0x48 .ok [] := by
    rw [← hw, ← hop]
    simp only [State.enterReset, State.cacheResponse, ha.sequence]
    rfl
  have hstate : w = { s with agent := w.agent, resetDue := s.resetDue } := by rw [← hw]; rfl
  have hagent : ({ w.agent with respLost := bump w.agent.respLost, executing := none } : Agent).resetForwarding =
      u.agent.resetForwarding := by
    rw [hu]
    simp only [Agent.resetForwarding, hsession]
    rw [← hw]
    rfl
  have hpending : w.agent.resetPending = some { scope := scope, buf := v.req.buf, limit := s.now + 500 } := by rw [← hw]; rfl
  have hpushed : ∀ (a : Agent) (payload : List Byte),
      (State.putPayload { s with agent := a, resetDue := s.resetDue } v.req.buf payload).pushed v.req.buf =
        { (s.putPayload v.req.buf payload).pushed v.req.buf with agent := a, resetDue := s.resetDue } :=
    fun a payload => State.pushed_with (s.putPayload v.req.buf payload) v.req.buf a s.resetDue
  have hfields : w.isUp = s.isUp ∧ w.ports = s.ports ∧ w.store = s.store := by rw [hstate]; exact ⟨rfl, rfl, rfl⟩
  obtain ⟨hisUp, hports, hstore⟩ := hfields
  have hcount : w.store.count = s.store.count := congrArg Store.count hstore
  have hlost := fun z (hz : z.store.count = s.store.count) (hza : z.agent = w.agent) =>
    State.endRequest_lost (s := z) (b := v.req.buf) (by rw [hz]; exact hown) (by rw [hza]; exact hpending) rfl
  have hwp := hpushed w.agent (v.response .ok [])
  rw [← hstate] at hwp
  have hup' := hpushed u.agent (v.response .ok [])
  rw [show ({ s with agent := u.agent, resetDue := s.resetDue } : State) = u by rw [hu]] at hup'
  have hnow := State.pushed_now (s.putPayload v.req.buf (v.response .ok [])) v.req.buf
  have hanswer : w.answer v .ok [] = w.sendResponse v (v.response .ok []) := rfl
  have hu' : u.agent.resetPending = some { scope := scope, buf := v.req.buf, limit := s.now } := by rw [hu]
  rw [hexec, hanswer]
  refine ⟨fun hup => ?down, fun hup hfull => ?full⟩
  case down =>
    rw [State.sendResponse_down _ (by rw [hisUp]; exact hup), hlost (w.putPayload v.req.buf (v.response .ok []))
      hcount rfl, hwp, hup']
    refine State.ResetsAs.finish (r := { scope := scope, buf := v.req.buf, limit := s.now + 500 }) ?_ hu' ?_ hpending rfl rfl
    · exact ⟨⟨rfl, rfl, rfl⟩, rfl, rfl, rfl, rfl, ⟨rfl, rfl, rfl, rfl⟩, hagent, ⟨rfl, rfl⟩, ⟨rfl, rfl⟩⟩
    · exact hnow.symm
  case full =>
    rw [State.sendResponse_full _ (by rw [hisUp]; exact hup) (by rw [hports]; exact hfull),
      hlost ((w.putPayload v.req.buf (v.response .ok [])).tally v.req.port .qFull) hcount rfl,
      State.tally, State.pushed_onPort _ _ _ (PortState.tally · .qFull) (fun _ => rfl) (fun _ _ => rfl), hwp, hup']
    refine State.ResetsAs.finish (r := { scope := scope, buf := v.req.buf, limit := s.now + 500 }) ?_ hu' ?_ hpending rfl rfl
    · exact ⟨⟨rfl, rfl, rfl⟩, rfl, rfl, rfl, rfl, ⟨rfl, rfl, rfl, rfl⟩, hagent, ⟨rfl, rfl⟩, ⟨rfl, rfl⟩⟩
    · exact hnow.symm

theorem exec_holdDeadline_awaited {d : Tick} {c : Class} (he : e ∈ s.ports[p].waiting c) (h : s.Awaits e r)
    (hflag : s.ports[p].partnerHold = true) (hd : s.ports[p].holdDeadline = some d) (hreached : reached s.now d = true)
    (hep : s.store.episode = .none) (hroom : s.NoticeRoom) :
    exec (.holdDeadline p) s = exec .resetLimitExpiry (({ s.raised .holdStuck (BitVec.ofNat 8 p.val) 0 with
      agent := { s.agent with resetPending := some { r with limit := s.now } } } : State).onPort p fun P =>
        { P with
          queues := #v[P.unflushed 0, P.unflushed 1, P.unflushed 2, P.unflushed 3], holdDeadline := none
          ctr := { P.ctr with
            qFlushed := bumpBy P.allWaiting.length P.ctr.qFlushed, holdStuck := bump P.ctr.holdStuck } }) := by
  obtain ⟨count, free, hstuck⟩ := State.holdStuck_awaited (p := p) h.pending hep hroom
    ⟨e, (s.ports[p].mem_allWaiting e).2 ⟨c, he⟩, h.response, h.buf⟩
  have hexec : exec (.holdDeadline p) s = .next (s.holdStuck p).finish :=
    congrArg Host.Outcome.next (if_pos ⟨hflag, by rw [hd]; exact hreached⟩)
  have hrest := State.raised_rest s .holdStuck (BitVec.ofNat 8 p.val) 0
  generalize s.raised .holdStuck (BitVec.ofNat 8 p.val) 0 = w at hrest hstuck
  rw [hexec, hstuck, hrest, funext PortState.flushed_stuck]
  refine State.ResetsAs.finish (r := r) (r' := { r with limit := s.now }) ?_ rfl rfl h.pending rfl rfl
  exact ⟨⟨rfl, rfl, rfl⟩, rfl, rfl, rfl, rfl, ⟨rfl, rfl, rfl, rfl⟩, rfl, ⟨rfl, rfl⟩, ⟨rfl, rfl⟩⟩

theorem exec_signalTimeout_awaited (hl : s.Listens p) (htx : s.ports[p].tx = .sending e) (h : s.Awaits e r)
    (hscope : r.scope = .full) (hu : s.Undelivered) :
    exec (.signalTimeout p) s = exec .resetLimitExpiry (({ s with
      agent := { s.agent with resetPending := some { r with limit := s.now } } } : State).onPort p fun P =>
        { P with tx := .idle, quiet := true }) := by
  have hexec : exec (.signalTimeout p) s = .next ((s.onPort p fun P => { P with quiet := true }).linkLoss p 2).finish := by
    show execSignalTimeout p s = _
    simp only [execSignalTimeout, hl.started, hl.up]
    rfl
  have hself : (s.onPort p fun P => { P with quiet := true }).ports[p] = { s.ports[p] with quiet := true } :=
    State.onPort_get _ _ _
  obtain ⟨hlossDue, hmem, htables, hports⟩ := State.linkLoss_awaited (s := s.onPort p fun P => { P with quiet := true }) (p := p)
    (e := e) (r := r) (by rw [hself]; exact htx) ⟨h.response, h.pending, h.buf⟩ hu 2
  obtain ⟨hnode, hinit, hnow, -, -, -, -, hagent, hpending, -, hwait⟩ := htables
  have htoken := congrArg Agent.tokenCounter hagent
  rw [hexec, State.finish_pending ((congrArg Agent.resetPending hagent).trans h.pending) hlossDue, hscope]
  refine Eq.trans ?_ (exec_resetLimitExpiry_now (r := { scope := .full, buf := r.buf, limit := s.now }) (by rfl) (by rfl)).symm
  refine congrArg Host.Outcome.next (State.fullReset_eq ⟨hnode, hinit, hnow⟩ (fun q => ?_) hmem
    htoken ⟨hwait, hpending⟩)
  obtain ⟨hquiet, habort⟩ := hports q
  rw [hquiet, habort]
  by_cases hq : q = p
  · subst hq
    rw [if_pos rfl, hself, State.onPort_get]
    exact ⟨rfl, rfl⟩
  · rw [if_neg hq, State.onPort_get_ne s _ hq, State.onPort_get_ne _ _ hq]
    exact ⟨rfl, rfl⟩

end

/-- Settles O31: the happening ends as the reset's limit would have ended it, since what it did besides is nothing a reset
reads. -/
theorem pendingResetTakesEffect : Obligations.PendingResetTakesEffect := by
  unfold Obligations.PendingResetTakesEffect
  exact ⟨fun p s e r htx ho hr hb hown _ => exec_txEnd_awaited htx ⟨ho, hr, hb⟩ hown,
    fun i scope s v rest ha hq _ hlen hview _ hnone hown hop hcase u hu =>
      exec_reset_lost ha hq hlen hview hnone hown hop hcase hu,
    fun p s d c e r he ho hr hb hflag hd hreached _ hep hroom =>
      exec_holdDeadline_awaited he ⟨ho, hr, hb⟩ hflag hd hreached hep hroom,
    fun p s e r hl htx ho hr hb hscope hu => exec_signalTimeout_awaited hl htx ⟨ho, hr, hb⟩ hscope hu⟩

end Sys2Proof.Machine
end

