-- ==== Sys2Proof/Proofs/Attempts.lean ====
section
/-! SUPPORT. Enqueue attempts of one frame on several ports (sections 6.2, 7.5): what each port comes to, and O27. -/

namespace Sys2Proof.Machine

section
variable {s t u : State} {P Q R : PortState} {p q : Port} {b : BufNo} {h : Header} {o : Origin} {now : Tick}
  {list : List Port}

/-! ## The entry just accepted stays (R95, R99, R100) -/

/-- An entry at the tail of its class queue that passes its residence test stays there through a choice. -/
theorem State.choose_keeps_last (c : Class) : ∀ (fuel : Nat) (p : Port) (s : State) (ahead : List Entry) (x : Entry),
    s.ports[p].Sorted → s.ports[p].queues[c] = ahead ++ [x] → s.ports[p].expired s.now x = false →
    ∃ rest, rest <:+ ahead ∧ (State.choose fuel p s).ports[p].queues[c] = rest ++ [x]
  | 0, _, _, ahead, _, _, h, _ => ⟨ahead, List.suffix_refl _, h⟩
  | fuel + 1, p, s, ahead, x, hs, h, hx => by
    cases htop : s.ports[p].topHead with
    | none => exact ⟨ahead, List.suffix_refl _, by rw [State.choose_empty fuel htop]; exact h⟩
    | some e =>
      cases hexp : s.ports[p].expired s.now e with
      | false => exact ⟨ahead, List.suffix_refl _, by rw [State.choose_offered fuel htop hexp, State.onPort_get]; exact h⟩
      | true =>
        obtain ⟨q, hq, -⟩ := PortState.topHead_some hs htop
        have hnext : ∃ rest, rest <:+ ahead ∧ (s.expireHead p e).ports[p].queues[c] = rest ++ [x] := by
          rw [State.expireHead_queues, vset_fin]
          split
          · next hc =>
            subst hc
            cases ahead with
            | nil =>
              rw [hq] at h
              cases (List.cons.inj h).1
              rw [hexp] at hx; cases hx
            | cons y ys => exact ⟨ys, List.suffix_cons y ys, by rw [h]; rfl⟩
          · exact ⟨ahead, List.suffix_refl _, h⟩
        obtain ⟨rest, hsuffix, hrest⟩ := hnext
        simp only [State.choose, htop, hexp, if_true]
        split
        · exact ⟨rest, hsuffix, hrest⟩
        · obtain ⟨more, hmore, hm⟩ := State.choose_keeps_last c fuel p (s.expireHead p e) rest x (State.expireHead_sorted hs e)
            hrest (by rw [State.expireHead_cfg]; exact hx)
          exact ⟨more, hmore.trans hsuffix, hm⟩

theorem State.joined_sorted (hs : s.ports[p].Sorted) : (s.joined p b h o).ports[p].Sorted := by
  intro c e he
  rw [State.joined_port] at he
  change e ∈ (vset s.ports[p].queues h.cls _)[c] at he
  rw [vset_fin] at he
  split at he
  · next hc =>
    rcases List.mem_append.1 he with he | he
    · rw [hc]; exact hs _ e he
    · rw [List.mem_singleton.1 he, hc]
  · exact hs c e he

/-- An attempt that is accepted (R92, R95). -/
theorem State.accept_took (hs : s.ports[p].Sorted) : (s.ports[p]).Took ((s.accept p b h o).ports[p]) b h s.now o := by
  have hframe := State.accept_frame s p b h o
  have hport := State.joined_port s p b h o
  have hqueue : ∀ c : Class, (s.joined p b h o).ports[p].queues[c] = if c = h.cls then
      s.ports[p].queues[h.cls] ++ [{ buf := b, hdr := h, enqueuedAt := s.now, origin := o }] else s.ports[p].queues[c] :=
    fun c => by rw [hport]; exact vset_fin _ _ _ _
  refine ⟨?_, fun c hc => ?_, ?_⟩
  · have hlast := (hqueue h.cls).trans (if_pos rfl)
    have hx : (s.joined p b h o).ports[p].expired (s.joined p b h o).now
        { buf := b, hdr := h, enqueuedAt := s.now, origin := o } = false := by
      rw [(State.joined_frame s p b h o).1.2.2.1]; exact PortState.fresh_not_expired _ _ _ _ _
    show ∃ ahead, _ ∧ ((s.joined p b h o).askNext p).ports[p].queues[h.cls] = _
    unfold State.askNext
    split
    · exact State.choose_keeps_last _ _ _ _ _ _ (State.joined_sorted hs) hlast hx
    · exact ⟨_, List.suffix_refl _, hlast⟩
  · have := hframe.queues c
    rwa [hqueue c, if_neg hc] at this
  · refine PortState.ServiceOnly.trans ?_ hframe.port
    rw [hport]
    exact ⟨[], s.ports[p].tx, _, s.ports[p].ctr.qExpired, by simp; rfl⟩

/-! ## What a port comes to (R94 to R96) -/

/-- `Q` is port `P` once an entry for buffer `b` with header `h` has been attempted on it. -/
structure PortState.Tried (P Q : PortState) (b : BufNo) (h : Header) (now : Tick) (o : Origin) : Prop where
  took : P.link = .up → P.queues[h.cls].length < 16 → P.Took Q b h now o
  full : P.link = .up → 16 ≤ P.queues[h.cls].length → (P.tally .qFull).FlowOnly Q
  down : P.link ≠ .up → (P.tally .egressDown).FlowOnly Q

theorem PortState.Took.flow (h' : P.FlowOnly Q) (k : Q.Took R b h now o) : P.Took R b h now o := by
  obtain ⟨more, rfl⟩ := h'
  obtain ⟨hown, hother, hport⟩ := k
  exact ⟨hown, hother, PortState.ServiceOnly.trans (PortState.FlowOnly.service ⟨more, rfl⟩) hport⟩

theorem PortState.Took.after (k : P.Took Q b h now o) (h' : Q.FlowOnly R) : P.Took R b h now o := by
  obtain ⟨hown, hother, hport⟩ := k
  have hqueues : R.queues = Q.queues := by obtain ⟨more, rfl⟩ := h'; rfl
  exact ⟨by rw [hqueues]; exact hown, by rw [hqueues]; exact hother, hport.trans h'.service⟩

theorem PortState.FlowOnly.tally (h' : P.FlowOnly Q) (k : PortCounter) : (P.tally k).FlowOnly (Q.tally k) := by
  obtain ⟨more, rfl⟩ := h'
  exact ⟨more, rfl⟩

theorem PortState.Tried.flow (h' : P.FlowOnly Q) (k : Q.Tried R b h now o) : P.Tried R b h now o := by
  have hlink : Q.link = P.link ∧ Q.queues = P.queues := by obtain ⟨more, rfl⟩ := h'; exact ⟨rfl, rfl⟩
  refine ⟨fun hup hroom => ?_, fun hup hfull => ?_, fun hup => ?_⟩
  · exact (k.took (by rw [hlink.1]; exact hup) (by rw [hlink.2]; exact hroom)).flow h'
  · exact (h'.tally _).trans (k.full (by rw [hlink.1]; exact hup) (by rw [hlink.2]; exact hfull))
  · exact (h'.tally _).trans (k.down (by rw [hlink.1]; exact hup))

theorem PortState.Tried.after (k : P.Tried Q b h now o) (h' : Q.FlowOnly R) : P.Tried R b h now o :=
  ⟨fun hup hroom => (k.took hup hroom).after h', fun hup hfull => (k.full hup hfull).trans h', fun hup => (k.down hup).trans h'⟩

/-! ## Attempts on several ports (R97, R126) -/

/-- The port takes an entry of this class: it is UP and has room (R94, R95). -/
def PortState.takes (P : PortState) (c : Class) : Bool := decide (P.link = .up) && decide (P.queues[c].length < 16)

theorem PortState.takes_flow (h' : P.FlowOnly Q) (c : Class) : Q.takes c = P.takes c := by
  obtain ⟨more, rfl⟩ := h'
  rfl

/-- What the attempts of one frame need: no reset due or pending, and ports whose entries stand in their own class. -/
structure State.Sendable (list : List Port) (s : State) : Prop where
  settled : s.resetDue = false
  noReset : s.agent.resetPending = none
  sorted  : ∀ q ∈ list, (s.ports[q]).Sorted

/-- `t` is `s` once the frame in buffer `b` has been attempted with header `h` on each of these ports. -/
structure State.Sent (list : List Port) (b : BufNo) (h : Header) (o : Origin) (s t : State) : Prop where
  tried  : ∀ q ∈ list, (s.ports[q]).Tried (t.ports[q]) b h s.now o
  others : ∀ q, q ∉ list → (s.ports[q]).FlowOnly (t.ports[q])
  count  : s.store.count[b] ≠ 0 → (∀ q ∈ list, ∀ c : Class, ∀ e ∈ s.ports[q].queues[c], e.buf ≠ b) →
             t.store.count[b] = s.store.count[b] + list.countP fun q => (s.ports[q]).takes h.cls
  mem    : t.store.mem = s.store.mem
  events : s.SameEvents t
  tables : s.SameTables t
  due    : t.resetDue = s.resetDue

theorem State.Sent.refl (s : State) (b : BufNo) (h : Header) (o : Origin) : State.Sent [] b h o s s :=
  ⟨fun _ hq => (nomatch hq), fun _ _ => .refl _, fun _ _ => rfl, rfl, .refl s, .refl s, rfl⟩

/-- A refused attempt is counted on its port (R94, R96). -/
theorem State.tally_sent (k : PortCounter) (hk : (s.ports[q]).Tried ((s.ports[q]).tally k) b h s.now o)
    (hfull : (s.ports[q]).takes h.cls = false) : State.Sent [q] b h o s (s.tally q k) := by
  refine ⟨fun x hx => ?_, fun x hx => ?_, fun _ _ => ?_, rfl, ⟨rfl, rfl⟩,
    ⟨rfl, rfl, rfl, rfl, rfl, rfl, rfl, rfl, rfl, rfl, rfl⟩, rfl⟩
  · rw [List.mem_singleton.1 hx, State.tally, State.onPort_get]
    exact hk
  · rw [State.tally, State.onPort_get_ne s _ fun hxq => hx (List.mem_singleton.2 hxq)]
    exact .refl _
  · rw [List.countP_singleton, hfull]
    rfl

/-- An accepted attempt (R95). -/
theorem State.accept_sent (hs : State.Sendable [q] s) (hup : s.ports[q].link = .up)
    (hroom : s.ports[q].queues[h.cls].length < 16) : State.Sent [q] b h o s (s.accept q b h o) := by
  have hframe := State.accept_frame s q b h o
  obtain ⟨htables, hevents, hdue⟩ := State.joined_frame s q b h o
  have htakes : (s.ports[q]).takes h.cls = true := by
    rw [PortState.takes, decide_eq_true hup, decide_eq_true hroom]; rfl
  have hpending : (s.joined q b h o).agent.resetPending = none := by
    obtain ⟨-, -, -, -, -, -, -, hagent, -⟩ := htables
    rw [hagent]; exact hs.noReset
  refine ⟨fun x hx => ?_, fun x hx => ?_, fun hcount hunnamed => ?_, ?_, hevents.trans hframe.events, htables.trans hframe.tables,
    (hframe.settled hpending).trans hdue⟩
  · rw [List.mem_singleton.1 hx]
    refine ⟨fun _ _ => State.accept_took (hs.sorted q (List.mem_singleton_self q)), fun _ hfull => ?_, fun hdown => absurd hup hdown⟩
    omega
  · have hne : x ≠ q := fun hxq => hx (List.mem_singleton.2 hxq)
    have := hframe.others x hne
    rwa [State.joined_port_ne s b h o hne] at this
  · rw [hframe.counts b (State.joined_spares (hunnamed q (List.mem_singleton_self q))), List.countP_singleton, if_pos htakes]
    have hstore : (s.joined q b h o).store = _ := State.addRef_store _ b (by exact hcount)
    rw [hstore]
    exact vset_get_self _ _ _
  · exact hframe.mem.trans (State.joined_blocks s q b h o).mem

theorem State.attempt_sent (hs : State.Sendable [q] s) : State.Sent [q] b h o s (s.attempt q b h o) := by
  rcases State.attempt_cases s q b h o with ⟨hup, hx⟩ | ⟨hup, hfull, hx⟩ | ⟨hup, hroom, hx⟩ <;> rw [hx]
  · have hlink : s.ports[q].link ≠ .up := of_decide_eq_false hup
    exact State.tally_sent _ ⟨fun k _ => absurd k hlink, fun k _ => absurd k hlink, fun _ => .refl _⟩
      (by rw [PortState.takes, decide_eq_false hlink]; rfl)
  · have hlink : s.ports[q].link = .up := of_decide_eq_true hup
    exact State.tally_sent _ ⟨fun _ k => absurd hfull (Nat.not_le.2 k), fun _ _ => .refl _, fun k => absurd hlink k⟩
      (by rw [PortState.takes, decide_eq_false (Nat.not_lt.2 hfull), Bool.and_false])
  · exact State.accept_sent hs (of_decide_eq_true hup) hroom

/-- Attempts on one port after another, each port once. -/
theorem State.Sent.cons (hone : State.Sent [q] b h o s t) (hrest : State.Sent list b h o t u) (hq : q ∉ list) :
    State.Sent (q :: list) b h o s u := by
  have hnow : t.now = s.now := by obtain ⟨-, -, hnow, -⟩ := hone.tables; exact hnow
  have hflow : ∀ x ∈ list, (s.ports[x]).FlowOnly (t.ports[x]) := fun x hx =>
    hone.others x fun k => hq (List.mem_singleton.1 k ▸ hx)
  refine ⟨fun x hx => ?_, fun x hx => ?_, fun hcount hunnamed => ?_, hrest.mem.trans hone.mem, hone.events.trans hrest.events,
    hone.tables.trans hrest.tables, hrest.due.trans hone.due⟩
  · rcases List.mem_cons.1 hx with rfl | hx
    · exact (hone.tried x (List.mem_singleton_self x)).after (hrest.others x hq)
    · have := hrest.tried x hx
      rw [hnow] at this
      exact this.flow (hflow x hx)
  · obtain ⟨hxq, hxl⟩ := not_or.1 (mt List.mem_cons.2 hx)
    exact (hone.others x fun k => hxq (List.mem_singleton.1 k)).trans (hrest.others x hxl)
  · have hfirst := hone.count hcount fun x hx => hunnamed x (List.mem_cons.2 (.inl (List.mem_singleton.1 hx)))
    have hkept : list.countP (fun x => (t.ports[x]).takes h.cls) = list.countP fun x => (s.ports[x]).takes h.cls :=
      List.countP_congr fun x hx => by rw [PortState.takes_flow (hflow x hx)]
    have hunnamed' : ∀ x ∈ list, ∀ c : Class, ∀ e ∈ t.ports[x].queues[c], e.buf ≠ b := fun x hx c e he => by
      obtain ⟨more, hport⟩ := hflow x hx
      rw [hport] at he
      exact hunnamed x (List.mem_cons_of_mem q hx) c e he
    rw [hrest.count (by omega) hunnamed', hfirst, hkept, List.countP_cons, List.countP_cons, List.countP_nil]
    omega

theorem State.Sendable.tail (hs : State.Sendable (q :: list) s) (hone : State.Sent [q] b h o s t) (hq : q ∉ list) :
    State.Sendable list t := by
  obtain ⟨-, -, -, -, -, -, -, hagent, -⟩ := hone.tables
  refine ⟨hone.due.trans hs.settled, by rw [hagent]; exact hs.noReset, fun x hx => ?_⟩
  obtain ⟨more, hport⟩ := hone.others x fun k => hq (List.mem_singleton.1 k ▸ hx)
  rw [hport]
  exact hs.sorted x (List.mem_cons_of_mem q hx)

theorem State.Sendable.head (hs : State.Sendable (q :: list) s) : State.Sendable [q] s :=
  ⟨hs.settled, hs.noReset, fun x hx => hs.sorted x (List.mem_cons.2 (.inl (List.mem_singleton.1 hx)))⟩

theorem State.attemptAll_sent (hnodup : list.Nodup) (hs : State.Sendable list s) :
    State.Sent list b h o s (s.attemptAll list b h o) := by
  induction list generalizing s with
  | nil => exact .refl s b h o
  | cons q list ih =>
    obtain ⟨hq, hrest⟩ := List.nodup_cons.1 hnodup
    have hone := State.attempt_sent (b := b) (h := h) (o := o) hs.head
    have hstep : s.attemptAll (q :: list) b h o = (s.attempt q b h o).attemptAll list b h o := by
      show (if s.resetDue then s else s.attempt q b h o).attemptAll list b h o = _
      rw [hs.settled]; rfl
    rw [hstep]
    exact hone.cons (ih hrest (hs.tail hone hq)) hq

theorem PortSet.ports_nodup (m : PortSet) : (PortSet.ports m).Nodup := List.Nodup.filter _ (by decide)

/-! ## Substitutes (R126) -/

variable {n : SlotNo} {d : Tick} {x : Slot}

/-- The slot once a miss short of the loss count has left it LATE and its substitute is counted (R124, R126). -/
def Slot.substituted (x : Slot) (d : Tick) : Slot :=
  { x with
    state := .late, miss := x.miss + 1, misses := bump x.misses, substitutes := bump x.substitutes
    deadline := some (d + x.cfg.period.setWidth 32) }

/-- The part with the slot LATE, its notice raised and its substitute counted, before the first attempt. -/
def State.substituting (s : State) (n : SlotNo) (d : Tick) : State :=
  { (if s.slots[n].state = .fresh then s.raised .slotLate (BitVec.ofNat 8 n.val) s.slots[n].lastArrival else s) with
    slots := vset s.slots n (s.slots[n].substituted d) }

theorem State.substituting_rest (s : State) (n : SlotNo) (d : Tick) : s.substituting n d =
    { s with
      slots := vset s.slots n (s.slots[n].substituted d)
      events := (s.substituting n d).events, transit := (s.substituting n d).transit } := by
  unfold State.substituting
  split
  · conv_lhs => rw [State.raised_rest s]
  · rfl

theorem State.onSlot_vset (s : State) (n : SlotNo) (v : Vector Slot 32) (y : Slot) (f : Slot → Slot) :
    State.onSlot { s with slots := vset v n y } n f = { s with slots := vset v n (f y) } := by
  unfold State.onSlot State.setSlot
  rw [vset_vset]
  exact congrArg (fun z => { s with slots := vset v n (f z) }) (vset_get_self v n y)

theorem State.slotMiss_substitute (hm : s.slots[n].miss + 1 < s.slots[n].cfg.lossCount) {k : Held}
    (hheld : s.slots[n].held = some k) (hsub : s.slots[n].cfg.substitute = true) (hd : s.slots[n].deadline = some d)
    (hraise : s.slots[n].state = .fresh → s.Undelivered ∧ s.NoticeRoom) :
    s.slotMiss n = (s.substituting n d).attemptAll (PortSet.ports k.egress) k.buf k.header .substitute := by
  have hbump : (s.lateNoticed n).onSlot n (fun x => { x with substitutes := bump x.substitutes }) = s.substituting n d := by
    rw [State.lateNoticed_eq hraise hd, State.onSlot_vset]
    rfl
  rw [State.slotMiss_late hm, hheld]
  show (if s.slots[n].cfg.substitute then (s.lateNoticed n).emitSubstitute n k else s.lateNoticed n) = _
  rw [hsub, ← hbump]
  rfl

end

/-- Settles O27: the ports of the stored egress set are attempted one after another, each with the stored header. -/
theorem substitutesCarryStoredHeaderAndStale : Obligations.SubstitutesCarryStoredHeaderAndStale := by
  unfold Obligations.SubstitutesCarryStoredHeaderAndStale
  rintro n s d x k rfl hstate hd hr hm hsub hheld hlaw hdue hpending -
  have hraise : s.slots[n].state = .fresh → s.Undelivered ∧ s.NoticeRoom := fun hfresh =>
    (hstate.resolve_left fun hlate => by rw [hfresh] at hlate; cases hlate).2
  have hrest := s.substituting_rest n d
  have hports : (s.substituting n d).ports = s.ports := by rw [hrest]
  have hnow : (s.substituting n d).now = s.now := by rw [hrest]
  have hsend : State.Sendable (PortSet.ports k.egress) (s.substituting n d) :=
    ⟨by rw [hrest]; exact hdue, by rw [hrest]; exact hpending, fun q _ => by rw [hports]; exact (hlaw q).1.sorted⟩
  have hexec := exec_slotDeadline_due (hstate.symm.imp_left And.left) hd hr
  rw [State.slotMiss_substitute hm hheld hsub hd hraise] at hexec
  have hsent := State.attemptAll_sent (b := k.buf) (h := k.header) (o := .substitute) (PortSet.ports_nodup k.egress) hsend
  generalize (s.substituting n d).attemptAll _ _ _ _ = t at hexec hsent
  have htried : ∀ q : Port, PortSet.has k.egress q = true → (s.ports[q]).Tried (t.ports[q]) k.buf k.header s.now .substitute :=
    fun q hq => by rw [← hports, ← hnow]; exact hsent.tried q (PortSet.mem_ports.2 hq)
  refine ⟨t, hexec.trans (congrArg Host.Outcome.next (State.finish_of_settled _ (hsent.due.trans hsend.settled))),
    fun q hq hup hroom => (htried q hq).took (of_decide_eq_true hup) hroom,
    fun q hq hup hfull => (htried q hq).full (of_decide_eq_true hup) hfull,
    fun q hq hdown => (htried q hq).down (of_decide_eq_false hdown),
    fun q hq => ?_, hsent.mem.trans (by rw [hrest]), ?_, ?_⟩
  · rw [← hports]
    exact hsent.others q fun k => by rw [PortSet.mem_ports.1 k] at hq; cases hq
  · have hevents := hsent.events
    unfold State.substituting at hevents
    exact hevents
  · have htables := hsent.tables
    rw [hrest] at htables
    exact htables

end Sys2Proof.Machine
end

