-- ==== Sys2Proof/Proofs/Disposals.lean ====
section
/-! SUPPORT. The stages of a disposition one by one (R42): what each comes to for a frame that misses, and for one that has
resolved to a record. -/

namespace Sys2Proof.Machine

section
variable {s t w : State} {p q : Port} {b : BufNo} {d d' : Disposal} {h x : Header} {base f : RecordIdx} {r : ActionRecord}
  {stage : Stage}

/-! ## The part beside the disposition -/

theorem State.goOn_get (s : State) (p : Port) (d : Disposal) : (s.goOn p d).disposing[p] = some d :=
  vset_get_self s.disposing p (some d)

theorem State.goOn_goOn (s : State) (p : Port) (d d' : Disposal) : (s.goOn p d).goOn p d' = s.goOn p d' := by
  unfold State.goOn
  rw [vset_vset]

/-- What changes while a disposition is in progress changes beside it. -/
theorem State.goOn_over (hw : w.disposing = (s.goOn p d).disposing) :
    w.goOn p d' = State.goOn { w with disposing := s.disposing } p d' := by
  unfold State.goOn at hw ⊢
  rw [hw, vset_vset]

/-- A port without a disposition has none again when one has ended (R29, R42). -/
theorem State.goOn_endDisposal (h : s.disposing[p] = none) (d d' : Disposal) :
    (s.goOn p d).endDisposal p d' = s.release d'.buf := by
  unfold State.goOn State.endDisposal
  rw [vset_vset, ← h]
  show State.release { s with disposing := vset s.disposing p s.disposing[p.val] } _ = _
  rw [vset_get_same]

theorem State.takeStages_step (hdue : s.resetDue = false) (hstage : (s.goOn p d).takeStage p d = t) (k : Nat) :
    State.takeStages (k + 1) p (s.goOn p d) = State.takeStages k p t := by
  rw [State.takeStages_next (s.goOn_get p d) hdue, hstage]

theorem State.takeStages_released (hw : w.disposing[p] = none) (b : BufNo) (k : Nat) :
    State.takeStages k p (w.release b) = w.release b := by
  refine State.takeStages_ended ?_ k
  rw [(w.release_frame b).sends.abides.disposing]
  exact hw

/-- A stage that ends the disposition is its last. -/
theorem State.takeStages_last (hdue : s.resetDue = false) (hstage : (s.goOn p d).takeStage p d = w.release b)
    (hw : w.disposing[p] = none) (k : Nat) : State.takeStages (k + 1) p (s.goOn p d) = w.release b := by
  rw [State.takeStages_step hdue hstage, State.takeStages_released hw]

/-! ## Stage 1 (R46, R48, R49) -/

theorem State.takeStage_lookup (hs : d.stage = .lookup) : s.takeStage p d = s.stageLookup p d := by
  unfold State.takeStage
  rw [hs]

theorem State.takeStage_hit (hs : d.stage = .lookup) (hl : s.route.lookup p d.received = some base) :
    (s.goOn p d).takeStage p d = s.goOn p ({ d with base := some base }.next .resolve) := by
  have hl' : (s.goOn p d).route.lookup p d.received = some base := hl
  rw [State.takeStage_lookup hs, State.stageLookup, hl']
  exact s.goOn_goOn p _ _

theorem State.takeStage_missDrop (h0 : s.disposing[p] = none) (hs : d.stage = .lookup)
    (hl : s.route.lookup p d.received = none) (hm : s.ports[p].cfg.missAction = .drop) :
    (s.goOn p d).takeStage p d =
      (s.onRoute fun t => { t with missDropped := bump t.missDropped }).release d.buf := by
  have hl' : (s.goOn p d).route.lookup p d.received = none := hl
  have hm' : (s.goOn p d).ports[p].cfg.missAction = .drop := hm
  rw [State.takeStage_lookup hs, State.stageLookup, hl']
  dsimp only
  rw [hm']
  exact State.goOn_endDisposal (s := s.onRoute fun t => { t with missDropped := bump t.missDropped }) h0 d d

theorem State.takeStage_missFlood (hs : d.stage = .lookup) (hl : s.route.lookup p d.received = none)
    (hm : s.ports[p].cfg.missAction = .flood) : (s.goOn p d).takeStage p d =
      (s.onRoute fun t => { t with missFlooded := bump t.missFlooded }).goOn p (d.next .ageCheck) := by
  have hl' : (s.goOn p d).route.lookup p d.received = none := hl
  have hm' : (s.goOn p d).ports[p].cfg.missAction = .flood := hm
  rw [State.takeStage_lookup hs, State.stageLookup, hl']
  dsimp only
  rw [hm']
  exact State.goOn_goOn (s.onRoute fun t => { t with missFlooded := bump t.missFlooded }) p d _

/-! ## Stage 2 (R63 to R68) -/

theorem dispatchTarget_val (base : RecordIdx) (v : Byte) (mask : BitVec 4) :
    (dispatchTarget base (v.extractLsb' 0 4 &&& mask)).val =
      base.val - base.val % 16 + (base.val % 16 + (v &&& mask.setWidth 8).toNat) % 16 := by
  have hmask : (v &&& mask.setWidth 8).toNat = (v.extractLsb' 0 4 &&& mask).toNat := by
    have hlt : v.toNat &&& mask.toNat = (v.toNat &&& mask.toNat) % 16 :=
      (Nat.mod_eq_of_lt (Nat.and_lt_two_pow _ mask.isLt)).symm
    rw [BitVec.toNat_and, BitVec.toNat_and, BitVec.extractLsb'_toNat, BitVec.toNat_setWidth,
      Nat.mod_eq_of_lt (by omega : mask.toNat < 2 ^ 8), Nat.shiftRight_zero, hlt]
    rw [Nat.and_mod_two_pow (n := 4), Nat.mod_eq_of_lt mask.isLt]
  rw [hmask]
  show base.val / 16 * 16 + _ = _
  omega

/-- A frame that resolves chooses its final record, and counts as `State.counted` has it (R64, R65, R67). -/
theorem State.Resolves.resolve (hr : s.Resolves base f b) :
    (s.resolve base b (s.lengthAt b) = .final f ∨ s.resolve base b (s.lengthAt b) = .short f) ∧
      s.action.countResolve (s.resolve base b (s.lengthAt b)) = s.counted base f b := by
  unfold State.Resolves at hr
  unfold State.resolve State.counted
  cases hd : s.action.records[base].dispatch with
  | none =>
    rw [hd] at hr
    subst hr
    exact ⟨.inl rfl, rfl⟩
  | some part =>
    simp only [hd] at hr
    dsimp only
    by_cases hlen : s.lengthAt b ≤ part.offset.val
    · rw [if_pos hlen] at hr
      subst hr
      simp only [if_pos hlen]
      exact ⟨.inr trivial, rfl⟩
    · rw [if_neg hlen] at hr
      obtain ⟨hval, hnone⟩ := hr
      have hf : dispatchTarget base (s.selector b part) = f := Fin.ext ((dispatchTarget_val _ _ _).trans hval.symm)
      simp only [if_neg hlen, hf, hnone]
      exact ⟨.inl rfl, rfl⟩

theorem State.resolve_nested {part : DispatchPart} (hd : s.action.records[base].dispatch = some part)
    (hlen : part.offset.val < s.lengthAt b)
    (hf : f.val = base.val - base.val % 16 +
      (base.val % 16 + (s.byteAt b (5 + part.offset.val) &&& part.mask.setWidth 8).toNat) % 16)
    (hnest : s.action.records[f].dispatch ≠ none) : s.resolve base b (s.lengthAt b) = .nested := by
  have htarget : dispatchTarget base (s.selector b part) = f := Fin.ext ((dispatchTarget_val _ _ _).trans hf.symm)
  subst htarget
  unfold State.resolve
  rw [hd]
  dsimp only
  rw [if_neg (Nat.not_le.2 hlen), if_pos (Option.isSome_iff_ne_none.2 hnest)]

theorem State.takeStage_resolve (hs : d.stage = .resolve) (hb : d.base = some base) :
    s.takeStage p d = s.stageResolve p d base := by
  unfold State.takeStage
  rw [hs, hb]

theorem State.takeStage_resolved (hs : d.stage = .resolve) (hb : d.base = some base) (hbuf : d.buf = b)
    (hlen : d.len = s.lengthAt b) (hr : s.Resolves base f b) : (s.goOn p d).takeStage p d =
      (State.countDown { s with action := s.counted base f b } (d.resolveTo s p s.action.records[f]).directed).goOn p
        ((d.resolveTo s p s.action.records[f]).next .ageCheck) := by
  obtain ⟨hres, hcount⟩ := hr.resolve
  subst hbuf
  have hres' : (s.goOn p d).resolve base d.buf d.len = s.resolve base d.buf (s.lengthAt d.buf) := by rw [hlen]; rfl
  rw [State.takeStage_resolve hs hb]
  unfold State.stageResolve
  dsimp only
  rw [hres']
  have hcount' : (s.goOn p d).onAction (·.countResolve (s.resolve base d.buf (s.lengthAt d.buf))) =
      State.goOn { s with action := s.counted base f d.buf } p d :=
    congrArg (fun a => State.goOn { s with action := a } p d) hcount
  rw [hcount']
  rcases hres with hres | hres <;> rw [hres] <;> exact State.goOn_goOn (State.countDown _ _) p d _

theorem State.takeStage_nested (h0 : s.disposing[p] = none) (hs : d.stage = .resolve) (hb : d.base = some base)
    (hn : s.resolve base d.buf d.len = .nested) : (s.goOn p d).takeStage p d =
      (s.onAction fun a => { a with dispatchNest := bump a.dispatchNest }).release d.buf := by
  have hn' : (s.goOn p d).resolve base d.buf d.len = .nested := hn
  rw [State.takeStage_resolve hs hb]
  unfold State.stageResolve
  dsimp only
  rw [hn']
  exact State.goOn_endDisposal (s := s.onAction fun a => { a with dispatchNest := bump a.dispatchNest }) h0 d d

/-! ## Stage 3 (R48, R70, R74) -/

theorem State.takeStage_age (hs : d.stage = .ageCheck) : s.takeStage p d = s.stageAge p d := by
  unfold State.takeStage
  rw [hs]

theorem State.takeStage_missAged (hs : d.stage = .ageCheck) (hf : d.final = none) (ha : d.received.age = 0) :
    (s.goOn p d).takeStage p d = s.countAgeDropped.goOn p (d.next .release) := by
  rw [State.takeStage_age hs, State.stageAge, hf]
  dsimp only
  rw [if_pos ha]
  exact State.goOn_goOn s.countAgeDropped p d _

theorem State.takeStage_flooded (hs : d.stage = .ageCheck) (hf : d.final = none) (ha : d.received.age ≠ 0) :
    (s.goOn p d).takeStage p d = s.goOn p ((d.flood s p).next .enqueue) := by
  rw [State.takeStage_age hs, State.stageAge, hf]
  dsimp only
  rw [if_neg ha]
  exact s.goOn_goOn p d _

theorem State.takeStage_aged (hs : d.stage = .ageCheck) (hf : d.final = some r) (hr : r.disposition = .forward)
    (ha : d.received.age = 0) : (s.goOn p d).takeStage p d = s.countAgeDropped.goOn p (d.next .release) := by
  rw [State.takeStage_age hs, State.stageAge, hf]
  dsimp only
  rw [if_pos hr, if_pos ha]
  exact State.goOn_goOn s.countAgeDropped p d _

theorem State.takeStage_forwarded (hs : d.stage = .ageCheck) (hf : d.final = some r) (hr : r.disposition = .forward)
    (ha : d.received.age ≠ 0) : (s.goOn p d).takeStage p d =
      s.goOn p ({ d with applied := { d.applied with age := r.agePolicy.apply d.received.age } }.next .bucket) := by
  rw [State.takeStage_age hs, State.stageAge, hf]
  dsimp only
  rw [if_pos hr, if_neg ha]
  exact s.goOn_goOn p d _

theorem State.takeStage_unaged (hs : d.stage = .ageCheck) (hf : d.final = some r) (hr : r.disposition = .drop) :
    (s.goOn p d).takeStage p d = s.goOn p (d.next .bucket) := by
  rw [State.takeStage_age hs, State.stageAge, hf]
  dsimp only
  rw [if_neg (by rw [hr]; decide)]
  exact s.goOn_goOn p d _

/-! ## Stage 4 (R83, R84) -/

theorem State.takeStage_bucket (hs : d.stage = .bucket) (hf : d.final = some r) :
    s.takeStage p d = s.stageBucket p d r := by
  unfold State.takeStage
  rw [hs, hf]

theorem State.takeStage_unmetered (hs : d.stage = .bucket) (hf : d.final = some r) (hb : r.bucket = none) :
    (s.goOn p d).takeStage p d = s.goOn p (d.next .arrival) := by
  rw [State.takeStage_bucket hs hf, State.stageBucket, hb]
  exact s.goOn_goOn p d _

/-- What stage 4 comes to for each verdict of the bucket (R83, R84). -/
theorem State.takeStage_metered {n : BucketNo} (h0 : s.disposing[p] = none) (hs : d.stage = .bucket)
    (hf : d.final = some r) (hb : r.bucket = some n) : (s.goOn p d).takeStage p d =
      match (s.buckets[n].charge (5 + d.len)).2 with
      | .drop => (s.setBucket n (s.buckets[n].charge (5 + d.len)).1).release d.buf
      | .pass => (s.setBucket n (s.buckets[n].charge (5 + d.len)).1).goOn p (d.next .arrival)
      | .demote => (s.setBucket n (s.buckets[n].charge (5 + d.len)).1).goOn p
          ({ d with applied := { d.applied with cls := 0 } }.next .arrival) := by
  have hcharge : (s.goOn p d).chargeBucket n (frameCost d.len) =
      ((s.setBucket n (s.buckets[n].charge (5 + d.len)).1).goOn p d, (s.buckets[n].charge (5 + d.len)).2) := rfl
  rw [State.takeStage_bucket hs hf, State.stageBucket, hb]
  dsimp only
  rw [hcharge]
  cases (s.buckets[n].charge (5 + d.len)).2 with
  | drop => exact State.goOn_endDisposal (s := s.setBucket n _) h0 d d
  | pass => exact State.goOn_goOn (s.setBucket n _) p d _
  | demote => exact State.goOn_goOn (s.setBucket n _) p d _

/-! ## Stage 5 (R119) -/

theorem State.takeStage_arrival (hs : d.stage = .arrival) (hf : d.final = some r) :
    s.takeStage p d = s.stageArrival p d r := by
  unfold State.takeStage
  rw [hs, hf]

/-- The stage that follows stage 5 (R70, R119). -/
def ActionRecord.afterArrival (r : ActionRecord) : Stage := if r.disposition = .forward then .enqueue else .release

theorem State.takeStage_unsupervised (hs : d.stage = .arrival) (hf : d.final = some r) (hslot : r.slot = none) :
    (s.goOn p d).takeStage p d = s.goOn p (d.next r.afterArrival) := by
  rw [State.takeStage_arrival hs hf, State.stageArrival, hslot, ActionRecord.afterArrival]
  split <;> exact s.goOn_goOn p d _

theorem State.takeStage_arrived {n : SlotNo} (hs : d.stage = .arrival) (hf : d.final = some r) (hslot : r.slot = some n) :
    (s.goOn p d).takeStage p d =
      ((s.goOn p d).arrive n (if r.disposition = .forward then some d.hold else none)).goOn p (d.next r.afterArrival) := by
  rw [State.takeStage_arrival hs hf, State.stageArrival, hslot, ActionRecord.afterArrival]
  split <;> rfl

/-! ## Stages 6 and 7 (R29, R97) -/

/-- The release, and a stage without the record it works from, ends the disposition (R29, R42). -/
theorem State.takeStage_ends (hs : d.stage = .release ∨ d.stage = .resolve ∧ d.base = none ∨
    (d.stage = .bucket ∨ d.stage = .arrival) ∧ d.final = none) : s.takeStage p d = s.endDisposal p d := by
  unfold State.takeStage
  rcases hs with hs | ⟨hs, hn⟩ | ⟨hs | hs, hn⟩
  · rw [hs]
  · rw [hs, hn]
  · rw [hs, hn]
  · rw [hs, hn]

theorem State.takeStage_release (h0 : s.disposing[p] = none) (hs : d.stage = .release) :
    (s.goOn p d).takeStage p d = s.release d.buf :=
  (State.takeStage_ends (.inl hs)).trans (State.goOn_endDisposal h0 d d)

theorem State.takeStage_enqueue (hs : d.stage = .enqueue) : s.takeStage p d = s.stageEnqueue p d := by
  unfold State.takeStage
  rw [hs]

/-! ## Attempts beside the disposition (R97) -/

theorem State.Sent.beside {list : List Port} {o : Origin} (k : State.Sent list b h o (s.goOn p d) w) :
    State.Sent list b h o s { w with disposing := s.disposing } := by
  obtain ⟨hnode, hinit, hnow, hroute, haction, hbuckets, hslots, hagent, hpending, -, hwait⟩ := k.tables
  exact ⟨k.tried, k.others, k.count, k.mem, k.events,
    ⟨hnode, hinit, hnow, hroute, haction, hbuckets, hslots, hagent, hpending, rfl, hwait⟩, k.due⟩

/-- The stage after an attempt that leaves these ports to try (R97). -/
def stageFor : List Port → Stage
  | [] => .release
  | _ :: _ => .enqueue

theorem State.takeStage_attempt {qs : List Port} (hs : d.stage = .enqueue) (hports : PortSet.ports d.egress = q :: qs)
    (hsend : State.Sendable (q :: qs) s) : ∃ v, State.Sent [q] d.buf d.applied .transit s v ∧
      (s.goOn p d).takeStage p d = v.goOn p ({ d with egress := PortSet.without d.egress q }.next (stageFor qs)) := by
  have hsent := State.attempt_sent (s := s.goOn p d) (b := d.buf) (h := d.applied) (o := .transit)
    ⟨hsend.settled, hsend.noReset, hsend.head.sorted⟩
  refine ⟨_, hsent.beside, ?_⟩
  have hdis : ((s.goOn p d).attempt q d.buf d.applied .transit).disposing = (s.goOn p d).disposing :=
    (State.attempt_sends _ _ _ _ _).abides.disposing
  rw [State.takeStage_enqueue hs, State.stageEnqueue, hports]
  cases qs <;> exact State.goOn_over hdis

/-- The attempts that are left, and the release (R29, R97). -/
theorem State.takeStages_enqueue : ∀ (list : List Port) (s : State) (d : Disposal), s.disposing[p] = none →
    State.Sendable list s → list.Nodup →
    (d.stage = .enqueue ∧ PortSet.ports d.egress = list ∨ d.stage = .release ∧ list = []) → ∀ k, list.length < k →
    ∃ v, State.Sent list d.buf d.applied .transit s v ∧ State.takeStages k p (s.goOn p d) = v.release d.buf
  | [], s, d, h0, hsend, _, hd, k + 1, _ => by
    refine ⟨s, .refl s _ _ _, State.takeStages_last hsend.settled ?_ h0 k⟩
    rcases hd with ⟨hs, hports⟩ | ⟨hs, -⟩
    · rw [State.takeStage_enqueue hs, State.stageEnqueue, hports]
      exact State.goOn_endDisposal h0 d d
    · exact State.takeStage_release h0 hs
  | q :: qs, s, d, h0, hsend, hnodup, hd, k + 1, hk => by
    obtain ⟨hs, hports⟩ := hd.resolve_right fun hd => List.cons_ne_nil _ _ hd.2
    obtain ⟨hq, hrest⟩ := List.nodup_cons.1 hnodup
    obtain ⟨v, hone, hstage⟩ := State.takeStage_attempt (p := p) hs hports hsend
    have hleft : PortSet.ports (PortSet.without d.egress q) = qs := by
      rw [PortSet.ports_without, hports, List.filter_cons_of_neg (by simp)]
      exact List.filter_eq_self.2 fun r hr => decide_eq_true fun hrq : r = q => hq (hrq ▸ hr)
    have h0' : v.disposing[p] = none := by
      obtain ⟨-, -, -, -, -, -, -, -, -, hdis, -⟩ := hone.tables
      rw [hdis]; exact h0
    obtain ⟨t, hsent, ht⟩ := State.takeStages_enqueue qs v
      ({ d with egress := PortSet.without d.egress q }.next (stageFor qs)) h0' (hsend.tail hone hq) hrest
      (by cases qs with
        | nil => exact .inr ⟨rfl, rfl⟩
        | cons => exact .inl ⟨rfl, hleft⟩) k (by simpa using hk)
    exact ⟨t, hone.cons hsent hq, (State.takeStages_step hsend.settled hstage k).trans ht⟩

/-- `t` is `s` once the frame in buffer `b` has been attempted with header `x` on every port of a set, and its reception
reference has ended (R29, R97). -/
structure State.SentOut (m : PortSet) (b : BufNo) (x : Header) (s t : State) : Prop where
  tried  : ∀ q, PortSet.has m q = true → (s.ports[q]).Tried (t.ports[q]) b x s.now .transit
  others : ∀ q, PortSet.has m q = false → (s.ports[q]).FlowOnly (t.ports[q])
  count  : s.store.count[b] = 1 → (∀ (q : Port) (c : Class), ∀ e ∈ s.ports[q].queues[c], e.buf ≠ b) →
             t.store.count[b] = Port.all.countP fun q => (s.ports[q]).takes x.cls && PortSet.has m q
  mem    : t.store.mem = s.store.mem
  events : s.SameEvents t
  tables : s.SameTables t

theorem State.Sent.released {m : PortSet} (k : State.Sent (PortSet.ports m) b x .transit s t) :
    State.SentOut m b x s (t.release b) := by
  have hframe := t.release_frame b
  refine ⟨fun q hq => (k.tried q (PortSet.mem_ports.2 hq)).after (hframe.ports q), fun q hq => ?_, fun hcount hunnamed => ?_,
    hframe.mem.trans k.mem, k.events.trans hframe.events, k.tables.trans hframe.tables⟩
  · exact (k.others q fun hmem => by rw [PortSet.mem_ports.1 hmem] at hq; cases hq).trans (hframe.ports q)
  · have hsent := k.count (by omega) fun q _ => hunnamed q
    rw [(t.release_store b).1]
    refine (vset_get_self _ _ _).trans ?_
    rw [hsent, hcount, Nat.add_sub_cancel_left, PortSet.ports, List.countP_filter]

/-- From stage 6 on a disposition sends the frame out and ends (R29, R97). -/
theorem State.takeStages_out (h0 : s.disposing[p] = none) (hdue : s.resetDue = false) (hreset : s.agent.resetPending = none)
    (hsorted : ∀ q : Port, (s.ports[q]).Sorted) (hs : d.stage = .enqueue) (k : Nat) :
    State.SentOut d.egress d.buf d.applied s (State.takeStages (k + 5) p (s.goOn p d)).finish := by
  obtain ⟨v, hsent, hv⟩ := State.takeStages_enqueue (p := p) (PortSet.ports d.egress) s d h0 ⟨hdue, hreset, fun q _ => hsorted q⟩
    (PortSet.ports_nodup _) (.inl ⟨hs, rfl⟩) (k + 5) (by have := PortSet.ports_length d.egress; omega)
  rw [hv, State.finish_of_settled _ ((v.release_frame d.buf).due.trans (hsent.due.trans hdue))]
  exact hsent.released

/-! ## A frame resolved to a record, up to stage 4 (R63 to R75) -/

/-- The ports a frame of this record received on port `p` is directed to (R69, R71). -/
def ActionRecord.directed (r : ActionRecord) (p : Port) : PortSet :=
  if r.disposition = .forward then r.directedSet p else 0

/-- The header a frame of this record bears from stage 3 on: a DROP record leaves the Age (R70, R72 to R74). -/
def ActionRecord.bearing (r : ActionRecord) (h : Header) : Header :=
  if r.disposition = .forward then r.applied h
  else { h with cls := r.classPolicy.apply h.cls, label := r.labelRewrite.getD h.label }

/-- The disposition of the frame in buffer `b` that has resolved to record `r`, at this stage with this applied header. -/
def State.flight (s : State) (p : Port) (b : BufNo) (base : RecordIdx) (r : ActionRecord) (x : Header) (stage : Stage)
    (taken : Nat) : Disposal :=
  { buf := b, received := s.headerAt b, len := s.lengthAt b, base := some base
    final := some { r with dispatch := none }, applied := x
    egress := if r.disposition = .forward then s.upOf (r.directedSet p) else 0
    directed := r.directed p, stage := stage, taken := taken, begun := s.now }

/-- The part once the frame in buffer `b` has resolved to record `f` (R65, R67, R71). -/
def State.resolvedTo (s : State) (p : Port) (b : BufNo) (base f : RecordIdx) : State :=
  State.countDown { s with action := s.counted base f b } ((s.action.records[f]).directed p)

theorem ActionRecord.applied_eq (r : ActionRecord) (h : Header) : r.applied h =
    { h with
      cls := r.classPolicy.apply h.cls, label := r.labelRewrite.getD h.label, age := r.agePolicy.apply h.age } := by
  unfold ActionRecord.applied
  cases r.labelRewrite <;> cases r.classPolicy <;> cases r.agePolicy <;> rfl

variable {i : RouteIdx} {n : Nat}

theorem State.takeStages_resolved (hdue : s.resetDue = false) (hw : s.Wins p (s.headerAt b) i)
    (hbase : ((s.route.bank s.route.active)[i]).action = base) (hr : s.Resolves base f b) (k : Nat) :
    State.takeStages (k + 2) p (s.goOn p (s.openDisposal b)) =
      State.takeStages k p ((s.resolvedTo p b base f).goOn p (s.flight p b base s.action.records[f]
        { s.headerAt b with
          cls := s.action.records[f].classPolicy.apply (s.headerAt b).cls
          label := s.action.records[f].labelRewrite.getD (s.headerAt b).label } .ageCheck 2)) := by
  have hlookup : s.route.lookup p (s.openDisposal b).received = some base := hbase ▸ RouteTable.lookup_win hw
  rw [State.takeStages_step hdue (State.takeStage_hit rfl hlookup),
    State.takeStages_step hdue (State.takeStage_resolved rfl rfl rfl rfl hr)]
  rfl

/-- The first three stages of a frame that resolves to a record and is not dropped for its Age. -/
theorem State.takeStages_toBucket (hdue : s.resetDue = false) (hw : s.Wins p (s.headerAt b) i)
    (hbase : ((s.route.bank s.route.active)[i]).action = base) (hr : s.Resolves base f b)
    (hage : s.action.records[f].disposition = .drop ∨ (s.headerAt b).age ≠ 0) (k : Nat) :
    State.takeStages (k + 3) p (s.goOn p (s.openDisposal b)) =
      State.takeStages k p ((s.resolvedTo p b base f).goOn p (s.flight p b base s.action.records[f]
        (s.action.records[f].bearing (s.headerAt b)) .bucket 3)) := by
  rw [State.takeStages_resolved hdue hw hbase hr (k + 1), ActionRecord.bearing]
  cases hd : s.action.records[f].disposition with
  | drop =>
    rw [State.takeStages_step (s := s.resolvedTo p b base f) hdue
      (State.takeStage_unaged (r := { s.action.records[f] with dispatch := none }) rfl rfl hd), if_neg (by decide)]
    rfl
  | forward =>
    have hage' := hage.resolve_left fun hdrop => by rw [hdrop] at hd; cases hd
    rw [State.takeStages_step (s := s.resolvedTo p b base f) hdue
      (State.takeStage_forwarded (r := { s.action.records[f] with dispatch := none }) rfl rfl hd hage'),
      if_pos rfl, ActionRecord.applied_eq]
    rfl

/-- Stages 4 and 5 of a frame of a record without bucket and slot. -/
theorem State.takeStages_unmetered {u : State} (hdue : u.resetDue = false) (hb : r.bucket = none) (k : Nat) :
    State.takeStages (k + 1) p (u.goOn p (s.flight p b base r x .bucket n)) =
      State.takeStages k p (u.goOn p (s.flight p b base r x .arrival (n + 1))) := by
  rw [State.takeStages_step hdue (State.takeStage_unmetered (r := { r with dispatch := none }) rfl rfl hb)]
  rfl

theorem State.takeStages_unsupervised {u : State} (hdue : u.resetDue = false) (hslot : r.slot = none) (k : Nat) :
    State.takeStages (k + 1) p (u.goOn p (s.flight p b base r x .arrival n)) =
      State.takeStages k p (u.goOn p (s.flight p b base r x r.afterArrival (n + 1))) := by
  rw [State.takeStages_step hdue (State.takeStage_unsupervised (r := { r with dispatch := none }) rfl rfl hslot)]
  rfl

/-- Stage 7 of a disposition (R29, R42). -/
theorem State.takeStages_release (h0 : s.disposing[p] = none) (hdue : s.resetDue = false) (hs : d.stage = .release)
    (k : Nat) : State.takeStages (k + 1) p (s.goOn p d) = s.release d.buf :=
  State.takeStages_last hdue (State.takeStage_release h0 hs) h0 k

end

end Sys2Proof.Machine
end

