-- ==== Sys2Proof/Proofs/Forwarding.lean ====
section
/-! PROOF. Frames flooded, forwarded and dropped (chapters 3, 4; R48 to R50, R63 to R75, R94 to R97): O17, O18 and O19. -/

namespace Sys2Proof.Machine

section
variable {s : State} {p q : Port} {b : BufNo} {n : Nat} {base f : RecordIdx} {r : ActionRecord} {i : RouteIdx}

/-! ## END of a transit frame whose stages follow at once (R13, R42) -/

theorem exec_rxEnd_whole (h : s.TransitFrame p b n) : exec (.rxEnd { port := p, pace := .whole }) s =
    .next (State.takeStages 10 p ((s.onPort p PortState.tookGood).goOn p
      ((s.onPort p PortState.tookGood).openDisposal b))).finish :=
  State.exec_rxEnd_transit h

/-- The end of a frame whose disposition comes to nothing but the release of its buffer. -/
theorem exec_rxEnd_dropped {t : State} (h : s.TransitFrame p b n) (hdue : t.resetDue = false) (hown : t.store.count[b] = 1)
    (hstages : State.takeStages 10 p ((s.onPort p PortState.tookGood).goOn p
      ((s.onPort p PortState.tookGood).openDisposal b)) = (t.onPort p PortState.tookGood).release b) :
    exec (.rxEnd { port := p, pace := .whole }) s = .next ((t.pushed b).onPort p PortState.tookGood) := by
  rw [exec_rxEnd_whole h, hstages]
  exact congrArg Host.Outcome.next (State.finish_release_onPort hdue hown p _ (fun _ => rfl) fun _ _ => rfl)

/-! ## The ports of a directed set (R69, R71) -/

theorem State.tookGood_get_ne (hq : q ≠ p) : (s.onPort p PortState.tookGood).ports[q] = s.ports[q] :=
  State.onPort_get_ne s _ hq

theorem State.tookGood_isUp (hq : q ≠ p) : (s.onPort p PortState.tookGood).isUp q = s.isUp q := by
  unfold State.isUp
  rw [State.tookGood_get_ne hq]

theorem ActionRecord.has_directed (hr : r.disposition = .forward) (p q : Port) :
    PortSet.has (r.directed p) q = (PortSet.has r.egress q && decide (q ≠ p)) := by
  rw [ActionRecord.directed, if_pos hr]
  exact PortSet.has_without _ _ _

theorem State.countDown_none (s : State) : s.countDown 0 = s := by
  have hports : (s.countDown 0).ports = s.ports := by
    refine Vector.ext fun j hj => ?_
    exact (State.countDown_get s 0 ⟨j, hj⟩).trans (if_neg (by simp [PortSet.has]))
  show { s with ports := (s.countDown 0).ports } = s
  rw [hports]

theorem State.resolvedTo_drop (hr : s.action.records[f].disposition = .drop) :
    s.resolvedTo p b base f = { s with action := s.counted base f b } := by
  rw [State.resolvedTo, ActionRecord.directed, if_neg (by rw [hr]; decide)]
  exact State.countDown_none _

/-- Port `q` once a frame of FORWARD record `r` received on port `p` has resolved: EGRESS-DOWN counted where the port is in
the directed set and not UP (R71). -/
def State.directedTo (s : State) (p : Port) (r : ActionRecord) (q : Port) : PortState :=
  if q ≠ p ∧ PortSet.has r.egress q = true ∧ s.isUp q = false then s.ports[q].tally .egressDown else s.ports[q]

theorem State.resolvedTo_get (hr : s.action.records[f].disposition = .forward) (q : Port) :
    (s.resolvedTo p b base f).ports[q] = s.directedTo p s.action.records[f] q := by
  refine (State.countDown_get _ _ q).trans ?_
  show (if PortSet.has ((s.action.records[f]).directed p) q && !s.isUp q then s.ports[q].tally .egressDown else s.ports[q]) = _
  rw [ActionRecord.has_directed hr, State.directedTo]
  refine if_congr ?_ rfl rfl
  simp only [Bool.and_eq_true, decide_eq_true_eq, Bool.not_eq_true']
  tauto

theorem State.directedTo_tookGood (hq : q ≠ p) :
    (s.onPort p PortState.tookGood).directedTo p r q = s.directedTo p r q := by
  rw [State.directedTo, State.directedTo, State.tookGood_get_ne hq, State.tookGood_isUp hq]

theorem State.directedTo_self (s : State) (p : Port) (r : ActionRecord) : s.directedTo p r p = s.ports[p] :=
  if_neg fun k => k.1 rfl

/-- A resolve counts on other ports than the one whose frame has ended (R13, R71). -/
theorem State.resolvedTo_tookGood (hr : s.action.records[f].disposition = .forward) :
    (s.onPort p PortState.tookGood).resolvedTo p b base f =
      State.onPort { s with
        action := s.counted base f b
        ports := Vector.ofFn (s.directedTo p s.action.records[f]) } p PortState.tookGood := by
  have hself : (Vector.ofFn (s.directedTo p s.action.records[f]))[p] = s.ports[p] :=
    (Vector.getElem_ofFn p.isLt).trans (s.directedTo_self p _)
  have hports : ((s.onPort p PortState.tookGood).resolvedTo p b base f).ports =
      vset (Vector.ofFn (s.directedTo p s.action.records[f])) p s.ports[p].tookGood := by
    refine Vector.ext fun j hj => ?_
    refine (State.resolvedTo_get (s := s.onPort p PortState.tookGood) hr ⟨j, hj⟩).trans ?_
    refine Eq.trans ?_ (vset_fin _ p ⟨j, hj⟩ _).symm
    by_cases hq : (⟨j, hj⟩ : Port) = p
    · rw [if_pos hq, hq, State.directedTo_self]
      exact State.onPort_get s p _
    · rw [if_neg hq, State.directedTo_tookGood hq]
      exact (Vector.getElem_ofFn (f := s.directedTo p s.action.records[f]) hj).symm
  show { s with
    action := s.counted base f b
    ports := ((s.onPort p PortState.tookGood).resolvedTo p b base f).ports } = _
  rw [hports, ← hself]
  rfl

/-! ## A frame received with Age 0, and a frame no record forwards (R48, R49, R64, R70) -/

theorem State.takeStages_missDropped (h0 : s.disposing[p] = none) (hdue : s.resetDue = false)
    (hm : s.Misses p (s.headerAt b)) (hcfg : s.ports[p].cfg.missAction = .drop) (k : Nat) :
    State.takeStages (k + 1) p (s.goOn p (s.openDisposal b)) =
      (s.onRoute fun t => { t with missDropped := bump t.missDropped }).release b :=
  State.takeStages_last hdue (State.takeStage_missDrop h0 rfl (RouteTable.lookup_miss hm) hcfg) h0 k

theorem State.takeStages_missAged (h0 : s.disposing[p] = none) (hdue : s.resetDue = false)
    (hm : s.Misses p (s.headerAt b)) (hcfg : s.ports[p].cfg.missAction = .flood) (hage : (s.headerAt b).age = 0) (k : Nat) :
    State.takeStages (k + 3) p (s.goOn p (s.openDisposal b)) =
      (s.onRoute fun t => { t with missFlooded := bump t.missFlooded, ageDropped := bump t.ageDropped }).release b := by
  rw [State.takeStages_step hdue (State.takeStage_missFlood rfl (RouteTable.lookup_miss hm) hcfg),
    State.takeStages_step (s := s.onRoute _) hdue (State.takeStage_missAged rfl rfl hage)]
  exact State.takeStages_release (s := State.countAgeDropped (s.onRoute _)) h0 hdue rfl k

theorem State.takeStages_nested {part : DispatchPart} (h0 : s.disposing[p] = none) (hdue : s.resetDue = false)
    (hw : s.Wins p (s.headerAt b) i) (hbase : ((s.route.bank s.route.active)[i]).action = base)
    (hd : s.action.records[base].dispatch = some part) (hlen : part.offset.val < s.lengthAt b)
    (hf : f.val = base.val - base.val % 16 +
      (base.val % 16 + (s.byteAt b (5 + part.offset.val) &&& part.mask.setWidth 8).toNat) % 16)
    (hnest : s.action.records[f].dispatch ≠ none) (k : Nat) :
    State.takeStages (k + 2) p (s.goOn p (s.openDisposal b)) =
      (s.onAction fun a => { a with dispatchNest := bump a.dispatchNest }).release b := by
  have hlookup : s.route.lookup p (s.openDisposal b).received = some base := hbase ▸ RouteTable.lookup_win hw
  rw [State.takeStages_step hdue (State.takeStage_hit rfl hlookup)]
  exact State.takeStages_last hdue (State.takeStage_nested h0 rfl rfl (State.resolve_nested hd hlen hf hnest)) h0 k

/-- A frame of a DROP record without bucket and slot. -/
theorem State.takeStages_dropRecord (h0 : s.disposing[p] = none) (hdue : s.resetDue = false)
    (hw : s.Wins p (s.headerAt b) i) (hbase : ((s.route.bank s.route.active)[i]).action = base)
    (hres : s.Resolves base f b) (hr : s.action.records[f].disposition = .drop)
    (hbucket : s.action.records[f].bucket = none) (hslot : s.action.records[f].slot = none) (k : Nat) :
    State.takeStages (k + 6) p (s.goOn p (s.openDisposal b)) =
      State.release { s with action := s.counted base f b } b := by
  rw [State.takeStages_toBucket hdue hw hbase hres (.inl hr) (k + 3), State.resolvedTo_drop hr,
    State.takeStages_unmetered (u := { s with action := s.counted base f b }) hdue hbucket,
    State.takeStages_unsupervised (u := { s with action := s.counted base f b }) hdue hslot]
  exact State.takeStages_release (s := { s with action := s.counted base f b }) h0 hdue (if_neg (by rw [hr]; decide)) k

theorem State.takeStages_aged (h0 : s.disposing[p] = none) (hdue : s.resetDue = false)
    (hw : s.Wins p (s.headerAt b) i) (hbase : ((s.route.bank s.route.active)[i]).action = base)
    (hres : s.Resolves base f b) (hr : s.action.records[f].disposition = .forward) (hage : (s.headerAt b).age = 0)
    (k : Nat) : State.takeStages (k + 4) p (s.goOn p (s.openDisposal b)) =
      (s.resolvedTo p b base f).countAgeDropped.release b := by
  rw [State.takeStages_resolved hdue hw hbase hres (k + 2), State.takeStages_step (s := s.resolvedTo p b base f) hdue
    (State.takeStage_aged (r := { s.action.records[f] with dispatch := none }) rfl rfl hr hage)]
  exact State.takeStages_release (s := State.countAgeDropped (s.resolvedTo p b base f)) h0 hdue rfl k

/-! ## A frame sent out (R48, R69 to R75, R94 to R97) -/

theorem State.Transit.sorted (h : s.Transit p b n) (q : Port) : ((s.onPort p PortState.tookGood).ports[q]).Sorted := by
  intro c e he
  refine (h.laws q).1.sorted c e ?_
  by_cases hq : q = p
  · subst hq
    rw [State.onPort_get] at he
    exact he
  · rwa [State.tookGood_get_ne hq] at he

theorem State.Transit.unnamed_tookGood (h : s.Transit p b n) (q : Port) (c : Class) :
    ∀ e ∈ (s.onPort p PortState.tookGood).ports[q].queues[c], e.buf ≠ b := by
  intro e he
  refine h.unnamed q c e ?_
  by_cases hq : q = p
  · subst hq
    rw [State.onPort_get] at he
    exact he
  · rwa [State.tookGood_get_ne hq] at he

/-- What a frame flooded from port `p` comes to (R48). -/
theorem State.takeStages_flooded (h0 : s.disposing[p] = none) (hdue : s.resetDue = false)
    (hreset : s.agent.resetPending = none) (hsorted : ∀ q : Port, (s.ports[q]).Sorted)
    (hm : s.Misses p (s.headerAt b)) (hcfg : s.ports[p].cfg.missAction = .flood) (hage : (s.headerAt b).age ≠ 0) (k : Nat) :
    State.SentOut (PortSet.ofPred fun q => decide (q ≠ p) && s.isUp q) b
      { s.headerAt b with age := (s.headerAt b).age - 1 }
      (s.onRoute fun t => { t with missFlooded := bump t.missFlooded })
      (State.takeStages (k + 7) p (s.goOn p (s.openDisposal b))).finish := by
  rw [State.takeStages_step hdue (State.takeStage_missFlood rfl (RouteTable.lookup_miss hm) hcfg),
    State.takeStages_step (s := s.onRoute _) hdue (State.takeStage_flooded rfl rfl hage)]
  exact State.takeStages_out (s := s.onRoute _) (d := (((s.openDisposal b).next .ageCheck).flood s p).next .enqueue)
    h0 hdue hreset hsorted rfl k

/-- What a frame of a FORWARD record comes to from stage 6 on, where other parts of the model have been left as at its
resolve or changed by its bucket and slot (R71, R97). -/
theorem State.takeStages_directed {u : State} {x : Header} {taken : Nat} (h0 : u.disposing[p] = none)
    (hdue : u.resetDue = false) (hreset : u.agent.resetPending = none) (hsorted : ∀ q : Port, (u.ports[q]).Sorted)
    (hr : r.disposition = .forward) (k : Nat) :
    State.SentOut (s.upOf (r.directedSet p)) b x u
      (State.takeStages (k + 5) p (u.goOn p (s.flight p b base r x r.afterArrival taken))).finish := by
  have hout := State.takeStages_out (d := s.flight p b base r x r.afterArrival taken) h0 hdue hreset hsorted (if_pos hr) k
  have hegress : (s.flight p b base r x r.afterArrival taken).egress = s.upOf (r.directedSet p) := if_pos hr
  rwa [hegress] at hout

/-- What a frame of a FORWARD record without bucket and slot comes to, received with an Age above 0. -/
theorem State.takeStages_sent (h0 : s.disposing[p] = none) (hdue : s.resetDue = false)
    (hreset : s.agent.resetPending = none) (hsorted : ∀ q : Port, ((s.resolvedTo p b base f).ports[q]).Sorted)
    (hw : s.Wins p (s.headerAt b) i) (hbase : ((s.route.bank s.route.active)[i]).action = base)
    (hres : s.Resolves base f b) (hr : s.action.records[f].disposition = .forward) (hage : (s.headerAt b).age ≠ 0)
    (hbucket : s.action.records[f].bucket = none) (hslot : s.action.records[f].slot = none) (k : Nat) :
    State.SentOut (s.upOf ((s.action.records[f]).directedSet p)) b (s.action.records[f].applied (s.headerAt b))
      (s.resolvedTo p b base f) (State.takeStages (k + 10) p (s.goOn p (s.openDisposal b))).finish := by
  rw [State.takeStages_toBucket hdue hw hbase hres (.inr hage) (k + 7), ActionRecord.bearing, if_pos hr,
    State.takeStages_unmetered (u := s.resolvedTo p b base f) hdue hbucket,
    State.takeStages_unsupervised (u := s.resolvedTo p b base f) hdue hslot]
  exact State.takeStages_directed (u := s.resolvedTo p b base f) h0 hdue hreset hsorted hr k

theorem State.has_upOf (s : State) (r : ActionRecord) (p q : Port) :
    PortSet.has (s.upOf (r.directedSet p)) q = true ↔ q ≠ p ∧ PortSet.has r.egress q = true ∧ s.isUp q = true := by
  rw [State.upOf, PortSet.has_ofPred, ActionRecord.directedSet, PortSet.has_without]
  simp only [Bool.and_eq_true, decide_eq_true_eq]
  tauto

theorem State.has_flood (s : State) (p q : Port) :
    PortSet.has (PortSet.ofPred fun q => decide (q ≠ p) && s.isUp q) q = true ↔ q ≠ p ∧ s.isUp q = true := by
  rw [PortSet.has_ofPred]
  simp only [Bool.and_eq_true, decide_eq_true_eq]

/-- The ports of a set that take an entry are those with room, where every port of the set is UP (R94, R95). -/
theorem State.takes_iff {u : State} {m : PortSet} {A : Prop} {c : Class} (hset : PortSet.has m q = true ↔ A)
    (hup : A → s.isUp q = true) (hport : A → (u.ports[q]) = s.ports[q]) :
    ((u.ports[q]).takes c && PortSet.has m q) = true ↔ A ∧ s.ports[q].queues[c].length < 16 := by
  rw [Bool.and_eq_true, hset, and_comm]
  refine and_congr_right fun hA => ?_
  have hlink : s.ports[q].link = .up := of_decide_eq_true (hup hA)
  rw [hport hA, PortState.takes, Bool.and_eq_true, decide_eq_true_eq, decide_eq_true_eq]
  exact and_iff_right hlink

theorem State.has_reached (s : State) (r : ActionRecord) (p q : Port) :
    PortSet.has ((s.onPort p PortState.tookGood).upOf (r.directedSet p)) q = true ↔
      q ≠ p ∧ PortSet.has r.egress q = true ∧ s.isUp q = true := by
  rw [State.has_upOf]
  exact and_congr_right fun hq => by rw [State.tookGood_isUp hq]

theorem State.resolvedTo_queues (s : State) (p : Port) (b : BufNo) (base f : RecordIdx) (q : Port) :
    (s.resolvedTo p b base f).ports[q].queues = s.ports[q].queues := by
  have hport := State.countDown_get { s with action := s.counted base f b } ((s.action.records[f]).directed p) q
  have hqueues := congrArg PortState.queues hport
  refine hqueues.trans ?_
  split <;> rfl

/-- The ports but the ingress port once the frame has ended and resolved (R13, R71). -/
theorem State.resolvedTo_other (hr : s.action.records[f].disposition = .forward) (hq : q ≠ p) :
    ((s.onPort p PortState.tookGood).resolvedTo p b base f).ports[q] = s.directedTo p s.action.records[f] q :=
  (State.resolvedTo_get (s := s.onPort p PortState.tookGood) hr q).trans (State.directedTo_tookGood hq)

theorem State.directedTo_up (hup : s.isUp q = true) : s.directedTo p r q = s.ports[q] :=
  if_neg fun k => by rw [k.2.2] at hup; cases hup

theorem State.resolvedTo_self (hr : s.action.records[f].disposition = .forward) :
    ((s.onPort p PortState.tookGood).resolvedTo p b base f).ports[p] = s.ports[p].tookGood :=
  (State.resolvedTo_get (s := s.onPort p PortState.tookGood) hr p).trans
    ((State.directedTo_self _ _ _).trans (s.onPort_get p _))

theorem State.Transit.sorted_resolved (h : s.Transit p b n) (q : Port) :
    (((s.onPort p PortState.tookGood).resolvedTo p b base f).ports[q]).Sorted := by
  intro c e he
  rw [State.resolvedTo_queues] at he
  exact h.sorted q c e he

end

/-- Settles O19: each of the three ways ends in the release of the buffer. -/
theorem droppedFramesReachNoQueue : Obligations.DroppedFramesReachNoQueue := by
  unfold Obligations.DroppedFramesReachNoQueue
  refine ⟨fun p s b n h hm hcfg => ?missed, fun p s b n i base f d h hw hbase hd hlen hf hnest => ?nested,
    fun p s b n i f h hw hres hr hbucket hslot => ?dropped⟩
  case missed =>
    refine exec_rxEnd_dropped (t := { s with route := { s.route with missDropped := bump s.route.missDropped } })
      h h.settled h.own ?_
    refine State.takeStages_missDropped (s := s.onPort p PortState.tookGood) h.disposed h.settled hm ?_ 9
    rw [State.onPort_get]
    exact hcfg
  case nested =>
    refine exec_rxEnd_dropped (t := { s with action := { s.action with dispatchNest := bump s.action.dispatchNest } })
      h h.settled h.own ?_
    exact State.takeStages_nested (s := s.onPort p PortState.tookGood) h.disposed h.settled hw hbase hd hlen hf hnest 8
  case dropped =>
    refine exec_rxEnd_dropped (t := { s with action := s.counted ((s.route.bank s.route.active)[i]).action f b })
      h h.settled h.own ?_
    exact State.takeStages_dropRecord (s := s.onPort p PortState.tookGood) h.disposed h.settled hw rfl hres hr hbucket hslot 4

/-- Settles O17: with Age 0 the frame's buffer is given back, with a greater Age the frame is attempted on every other port
that is UP. -/
theorem floodReachesEveryOtherUpPort : Obligations.FloodReachesEveryOtherUpPort := by
  unfold Obligations.FloodReachesEveryOtherUpPort
  rintro p s b n h ht rfl hm hcfg
  have hcfg' : (s.onPort p PortState.tookGood).ports[p].cfg.missAction = .flood := by rw [State.onPort_get]; exact hcfg
  refine ⟨fun hage => ?aged, fun hage => ?flooded⟩
  case aged =>
    refine exec_rxEnd_dropped (t := { s with route := { s.route with
      missFlooded := bump s.route.missFlooded, ageDropped := bump s.route.ageDropped } }) ht.toTransitFrame ht.settled ht.own ?_
    exact State.takeStages_missAged (s := s.onPort p PortState.tookGood) ht.disposed ht.settled hm hcfg' hage 7
  case flooded =>
    have hout := State.takeStages_flooded (s := s.onPort p PortState.tookGood) ht.disposed ht.settled ht.noReset ht.sorted hm
      hcfg' hage 3
    have hset : ∀ q : Port, PortSet.has (PortSet.ofPred fun q => decide (q ≠ p) && (s.onPort p PortState.tookGood).isUp q) q =
        true ↔ q ≠ p ∧ s.isUp q = true := fun q => by
      rw [State.has_flood]
      exact and_congr_right fun hq => by rw [State.tookGood_isUp hq]
    have hports : ∀ q : Port, q ≠ p → ((s.onPort p PortState.tookGood).ports[q]) = s.ports[q] := fun q =>
      State.tookGood_get_ne
    refine ⟨_, exec_rxEnd_whole ht.toTransitFrame, fun q hq hup hroom => ?_, fun q hq hup hfull => ?_, fun q hq hdown => ?_,
      ?_, ?_, hout.mem, hout.events, hout.tables⟩
    · have htried := hout.tried q ((hset q).2 ⟨hq, hup⟩)
      exact hports q hq ▸ htried.took ((hports q hq).symm ▸ of_decide_eq_true hup) ((hports q hq).symm ▸ hroom)
    · have htried := hout.tried q ((hset q).2 ⟨hq, hup⟩)
      exact hports q hq ▸ htried.full ((hports q hq).symm ▸ of_decide_eq_true hup) ((hports q hq).symm ▸ hfull)
    · have := hout.others q (Bool.eq_false_iff.2 fun k => by rw [((hset q).1 k).2] at hdown; cases hdown)
      exact hports q hq ▸ this
    · have := hout.others p (Bool.eq_false_iff.2 fun k => ((hset p).1 k).1 rfl)
      exact s.onPort_get p PortState.tookGood ▸ this
    · rw [hout.count ht.own ht.unnamed_tookGood]
      refine List.countP_congr fun q _ => ?_
      refine (State.takes_iff (s := s) (hset q) And.right fun hq => hports q hq.1).trans ?_
      rw [decide_eq_true_eq]
      exact and_assoc

/-- Settles O18: with Age 0 nothing is left but the counts of the resolve, with a greater Age the frame is attempted on every
port of the directed set that was UP. -/
theorem forwardRecordSendsAppliedHeader : Obligations.ForwardRecordSendsAppliedHeader := by
  unfold Obligations.ForwardRecordSendsAppliedHeader
  rintro p s b n h i f r ht rfl hw hres rfl hr
  generalize hbase : ((s.route.bank s.route.active)[i]).action = base at hres ⊢
  refine ⟨fun hage => ?aged, fun hage hbucket hslot => ?sent⟩
  case aged =>
    refine exec_rxEnd_dropped (t := { s with
      action := s.counted base f b
      route := { s.route with ageDropped := bump s.route.ageDropped }
      ports := Vector.ofFn (s.directedTo p s.action.records[f]) }) ht.toTransitFrame ht.settled ht.own ?_
    refine (State.takeStages_aged (s := s.onPort p PortState.tookGood) ht.disposed ht.settled hw hbase hres hr hage 6).trans ?_
    rw [State.resolvedTo_tookGood hr]
    rfl
  case sent =>
    have hout : State.SentOut ((s.onPort p PortState.tookGood).upOf ((s.action.records[f]).directedSet p)) b
        (s.action.records[f].applied (s.headerAt b)) ((s.onPort p PortState.tookGood).resolvedTo p b base f) _ :=
      State.takeStages_sent (s := s.onPort p PortState.tookGood) ht.disposed ht.settled ht.noReset
        (fun q => ht.sorted_resolved q) hw hbase hres hr hage hbucket hslot 0
    have hset := s.has_reached s.action.records[f] p
    have hports : ∀ q : Port, q ≠ p → ((s.onPort p PortState.tookGood).resolvedTo p b base f).ports[q] =
        s.directedTo p s.action.records[f] q := fun q hq => State.resolvedTo_other hr hq
    have hup : ∀ q : Port, q ≠ p → s.isUp q = true →
        ((s.onPort p PortState.tookGood).resolvedTo p b base f).ports[q] = s.ports[q] := fun q hq hup =>
      (hports q hq).trans (State.directedTo_up hup)
    refine ⟨_, exec_rxEnd_whole ht.toTransitFrame, fun q hq hhas hq' hroom => ?_, fun q hq hhas hq' hfull => ?_,
      fun q hq hhas hdown => ?_, fun q hq hhas => ?_, ?_, ?_, hout.mem, hout.events, hout.tables⟩
    · have htried := hout.tried q ((hset q).2 ⟨hq, hhas, hq'⟩)
      rw [hup q hq hq'] at htried
      exact htried.took (of_decide_eq_true hq') hroom
    · have htried := hout.tried q ((hset q).2 ⟨hq, hhas, hq'⟩)
      rw [hup q hq hq'] at htried
      exact htried.full (of_decide_eq_true hq') hfull
    · have hother := hout.others q (Bool.eq_false_iff.2 fun k => by rw [((hset q).1 k).2.2] at hdown; cases hdown)
      rw [hports q hq, State.directedTo, if_pos ⟨hq, hhas, hdown⟩] at hother
      exact hother
    · have hother := hout.others q (Bool.eq_false_iff.2 fun k => by rw [((hset q).1 k).2.1] at hhas; cases hhas)
      rw [hports q hq, State.directedTo, if_neg fun k => by rw [k.2.1] at hhas; cases hhas] at hother
      exact hother
    · have hother := hout.others p (Bool.eq_false_iff.2 fun k => ((hset p).1 k).1 rfl)
      rw [State.resolvedTo_self hr] at hother
      exact hother
    · rw [hout.count ht.own fun q c e he => ht.unnamed_tookGood q c e (by rwa [State.resolvedTo_queues] at he)]
      refine List.countP_congr fun q _ => ?_
      refine (State.takes_iff (s := s) (hset q) (fun hA => hA.2.2) fun hA => hup q hA.1 hA.2.2).trans ?_
      rw [decide_eq_true_eq]
      tauto

end Sys2Proof.Machine
end

