-- ==== Sys2Proof/Proofs/Metering.lean ====
section
/-! PROOF. A frame at its Rate Bucket and its Supervision Slot (R70, R82 to R84, R119 to R121): O20 and O21. -/

namespace Sys2Proof.Machine

section
variable {s t u w : State} {p q : Port} {b : BufNo} {n : Nat} {base f : RecordIdx} {r : ActionRecord} {i : RouteIdx}
  {d : Disposal} {h x : Header}

/-! ## What stages 5 to 7 leave unchanged -/

/-- `t` has the tables, the buckets, the counter and the agent of `s`. -/
structure State.TablesStand (s t : State) : Prop where
  route   : t.route = s.route
  action  : t.action = s.action
  buckets : t.buckets = s.buckets
  now     : t.now = s.now
  agent   : t.agent = s.agent

theorem State.TablesStand.refl (s : State) : s.TablesStand s := ⟨rfl, rfl, rfl, rfl, rfl⟩

theorem State.TablesStand.trans (h : s.TablesStand t) (k : t.TablesStand u) : s.TablesStand u :=
  ⟨k.route.trans h.route, k.action.trans h.action, k.buckets.trans h.buckets, k.now.trans h.now, k.agent.trans h.agent⟩

theorem State.SendFrame.stand (h : s.SendFrame t) : s.TablesStand t := by
  obtain ⟨-, -, hnow, hroute, haction, hbuckets, -, hagent, -⟩ := h.tables
  exact ⟨hroute, haction, hbuckets, hnow, hagent⟩

theorem State.onSlot_stand (s : State) (k : SlotNo) (f : Slot → Slot) : s.TablesStand (s.onSlot k f) := ⟨rfl, rfl, rfl, rfl, rfl⟩

theorem State.countArrival_stand (s : State) (k : SlotNo) : s.TablesStand (s.countArrival k) := by
  unfold State.countArrival
  split
  · exact (s.onSlot_stand k _).trans (State.raise_sends _ _ _ _).stand
  · exact s.onSlot_stand k _

theorem State.takeHold_stand (s : State) (k : SlotNo) (hold : Held) : s.TablesStand (s.takeHold k hold) :=
  ((s.addRef_frame hold.buf).sends.stand.trans (State.onSlot_stand _ k _)).trans
    (State.releaseHeld_frame _ _).sends.stand

theorem State.arrive_stand (s : State) (k : SlotNo) (hold : Option Held) : s.TablesStand (s.arrive k hold) := by
  have hfresh : s.TablesStand ((s.countArrival k).onSlot k (·.freshened s.now)) :=
    (s.countArrival_stand k).trans (State.onSlot_stand _ k _)
  unfold State.arrive
  split
  · exact .refl s
  · split
    · split
      · exact hfresh.trans (State.takeHold_stand _ k _)
      · exact hfresh
    · exact hfresh

/-- The stages that follow the charge of the bucket. -/
def Stage.late : Stage → Bool
  | .arrival | .enqueue | .release => true
  | _ => false

theorem State.endDisposal_stand (s : State) (p : Port) (d : Disposal) : s.TablesStand (s.endDisposal p d) :=
  State.TablesStand.trans (t := { s with disposing := vset s.disposing p none }) ⟨rfl, rfl, rfl, rfl, rfl⟩
    (State.release_frame _ d.buf).sends.stand

theorem State.goOn_stand (h : s.TablesStand t) (p : Port) (d : Disposal) : s.TablesStand (t.goOn p d) :=
  h.trans ⟨rfl, rfl, rfl, rfl, rfl⟩

theorem State.goOn_late {d' : Disposal} (hl : d.stage.late = true) (hd : (s.goOn p d).disposing[p] = some d') :
    d'.stage.late = true := by
  rw [State.goOn_get] at hd
  exact Option.some.inj hd ▸ hl

theorem State.endDisposal_late {d' : Disposal} (hd : (s.endDisposal p d).disposing[p] = some d') :
    d'.stage.late = true := by
  rw [State.endDisposal_disposing, Fin.getElem_fin, vset_get_self] at hd
  cases hd

theorem State.takeStage_late (hl : d.stage.late = true) : s.TablesStand (s.takeStage p d) ∧
    ∀ d', (s.takeStage p d).disposing[p] = some d' → d'.stage.late = true := by
  have hend : s.TablesStand (s.endDisposal p d) ∧
      ∀ d', (s.endDisposal p d).disposing[p] = some d' → d'.stage.late = true :=
    ⟨s.endDisposal_stand p d, fun _ => State.endDisposal_late⟩
  have hgo : ∀ (v : State) (e : Disposal), s.TablesStand v → e.stage.late = true →
      s.TablesStand (v.goOn p e) ∧ ∀ d', (v.goOn p e).disposing[p] = some d' → d'.stage.late = true :=
    fun v e hv he => ⟨State.goOn_stand hv p e, fun _ => State.goOn_late he⟩
  cases hs : d.stage with
  | lookup | resolve | ageCheck | bucket => rw [hs] at hl; cases hl
  | arrival =>
    cases hf : d.final with
    | none =>
      rw [State.takeStage_ends (.inr (.inr ⟨.inr hs, hf⟩))]
      exact hend
    | some r =>
      rw [State.takeStage_arrival hs hf]
      unfold State.stageArrival
      cases hslot : r.slot with
      | none => dsimp only; split <;> exact hgo _ _ (.refl s) rfl
      | some k => dsimp only; split <;> exact hgo _ _ (State.arrive_stand _ _ _) rfl
  | enqueue =>
    rw [State.takeStage_enqueue hs]
    unfold State.stageEnqueue
    split
    · exact hend
    · exact hgo _ _ (State.attempt_sends _ _ _ _ _).stand rfl
    · exact hgo _ _ (State.attempt_sends _ _ _ _ _).stand rfl
  | release =>
    rw [State.takeStage_ends (.inl hs)]
    exact hend

/-- From stage 5 on a disposition leaves the tables, the buckets and the agent as they are. -/
theorem State.takeStages_stand : ∀ (k : Nat) (s : State), (∀ d, s.disposing[p] = some d → d.stage.late = true) →
    s.TablesStand (State.takeStages k p s)
  | 0, s, _ => .refl s
  | k + 1, s, hlate => by
    unfold State.takeStages
    split
    · exact .refl s
    · split
      · exact .refl s
      · next d hd =>
        obtain ⟨hstand, hnext⟩ := State.takeStage_late (hlate d hd)
        exact hstand.trans (State.takeStages_stand k _ hnext)

/-- No reset falls due in a disposition while none is pending (R148). -/
theorem State.takeStages_settled (hdue : s.resetDue = false) (k : Nat)
    (hreset : (State.takeStages k p s).agent.resetPending = none) : (State.takeStages k p s).resetDue = false := by
  have hrun := State.takeStages_leads (c := none) (ok := True) (.inl rfl) k p s Hand.empty
  have hpending := hrun.keeps Move.duePending fun h => absurd h (by simp [hdue])
  exact Bool.eq_false_iff.2 fun hd => by
    have := hpending hd
    rw [show (Hand.empty, State.takeStages k p s).2 = State.takeStages k p s from rfl, hreset] at this
    cases this

/-- Stages 5 to 7 and the end of the command leave the tables, the buckets and the agent. -/
theorem State.takeStages_finish_stand (hdue : s.resetDue = false) (hreset : s.agent.resetPending = none)
    (hlate : d.stage.late = true) (k : Nat) : s.TablesStand (State.takeStages k p (s.goOn p d)).finish := by
  have hstand := (State.goOn_stand (.refl s) p d).trans
    (State.takeStages_stand (p := p) k (s.goOn p d) fun _ => State.goOn_late hlate)
  rw [State.finish_of_settled _ (State.takeStages_settled (s := s.goOn p d) hdue k (by rw [hstand.agent]; exact hreset))]
  exact hstand

/-! ## The end of a transit frame, apart from its bucket and slot -/

/-- A transit frame that resolves to record `f` and is not dropped for its Age (R46, R63 to R74). -/
structure State.TransitTo (s : State) (p : Port) (b : BufNo) (n : Nat) (base f : RecordIdx) : Prop
    extends State.Transit s p b n where
  wins  : ∃ i : RouteIdx, s.Wins p (s.headerAt b) i ∧ ((s.route.bank s.route.active)[i]).action = base
  final : s.Resolves base f b
  aged  : s.action.records[f].disposition = .drop ∨ (s.headerAt b).age ≠ 0

/-- The part once the frame has ended and resolved. -/
def State.resolved (s : State) (p : Port) (b : BufNo) (base f : RecordIdx) : State :=
  (s.onPort p PortState.tookGood).resolvedTo p b base f

/-- The frame's disposition at this stage, with this applied header. -/
def State.flown (s : State) (p : Port) (b : BufNo) (base f : RecordIdx) (x : Header) (stage : Stage) (taken : Nat) :
    Disposal :=
  (s.onPort p PortState.tookGood).flight p b base s.action.records[f] x stage taken

theorem exec_rxEnd_resolved (ht : s.TransitTo p b n base f) : exec (.rxEnd { port := p, pace := .whole }) s =
    .next (State.takeStages 7 p ((s.resolved p b base f).goOn p
      (s.flown p b base f (s.action.records[f].bearing (s.headerAt b)) .bucket 3))).finish := by
  obtain ⟨i, hw, hbase⟩ := ht.wins
  rw [exec_rxEnd_whole ht.toTransitFrame, State.takeStages_toBucket (s := s.onPort p PortState.tookGood)
    ht.settled hw hbase ht.final ht.aged 7]
  rfl

/-- `w` is the part after the resolve but for what stages 4 and 5 change: buckets, slots, notices, references and GO asked. -/
structure State.Beside (s : State) (p : Port) (b : BufNo) (base f : RecordIdx) (w : State) : Prop where
  disposed : w.disposing[p] = none
  settled  : w.resetDue = false
  noReset  : w.agent.resetPending = none
  now      : w.now = s.now
  ports    : ∀ q : Port, ((s.resolved p b base f).ports[q]).FlowOnly (w.ports[q])

theorem PortState.FlowOnly.queues_eq {P Q : PortState} (h : P.FlowOnly Q) : Q.queues = P.queues := by
  obtain ⟨more, rfl⟩ := h
  rfl

theorem State.tookGood_queues (s : State) (p q : Port) : (s.onPort p PortState.tookGood).ports[q].queues = s.ports[q].queues := by
  by_cases hq : q = p
  · rw [hq, State.onPort_get]
    rfl
  · rw [State.tookGood_get_ne hq]

theorem State.Beside.queues (k : s.Beside p b base f w) (q : Port) : w.ports[q].queues = s.ports[q].queues :=
  (k.ports q).queues_eq.trans ((State.resolvedTo_queues _ _ _ _ _ q).trans (s.tookGood_queues p q))

/-- From stage 6 on a FORWARD frame is sent out on the ports of its record that are UP (R71, R97). -/
theorem State.Beside.out (k : s.Beside p b base f w) (ht : s.TransitTo p b n base f)
    (hr : s.action.records[f].disposition = .forward) (x : Header) (taken : Nat) :
    State.SentOut ((s.onPort p PortState.tookGood).upOf ((s.action.records[f]).directedSet p)) b x w
      (State.takeStages 5 p (w.goOn p (s.flown p b base f x s.action.records[f].afterArrival taken))).finish :=
  State.takeStages_directed (s := s.onPort p PortState.tookGood) k.disposed k.settled k.noReset
    (fun q c e he => (ht.laws q).1.sorted c e (by rwa [k.queues] at he)) hr 0

theorem State.Beside.took (k : s.Beside p b base f w)
    (hout : State.SentOut ((s.onPort p PortState.tookGood).upOf ((s.action.records[f]).directedSet p)) b x w t)
    (hr : s.action.records[f].disposition = .forward) (hq : q ≠ p)
    (hhas : PortSet.has s.action.records[f].egress q = true) (hup : s.isUp q = true)
    (hroom : s.ports[q].queues[x.cls].length < 16) : (s.ports[q]).Took (t.ports[q]) b x s.now .transit := by
  have hport : (s.resolved p b base f).ports[q] = s.ports[q] :=
    (State.resolvedTo_other hr hq).trans (State.directedTo_up hup)
  have hflow : (s.ports[q]).FlowOnly (w.ports[q]) := hport ▸ k.ports q
  have htried := (hout.tried q ((s.has_reached _ p q).2 ⟨hq, hhas, hup⟩)).flow hflow
  rw [k.now] at htried
  exact htried.took (of_decide_eq_true hup) hroom

/-- A frame that reaches no queue gives its buffer back (R29, R70). -/
theorem State.Beside.released (k : s.Beside p b base f w) (hown : w.store.count[b] = 1) :
    (w.release b).store.count[b] = 0 ∧ ∀ (q : Port) (c : Class), (w.release b).ports[q].queues[c] = s.ports[q].queues[c] := by
  refine ⟨?_, fun q c => ?_⟩
  · rw [(w.release_store b).1]
    refine (vset_get_self _ _ _).trans ?_
    rw [hown]
  · rw [((w.release_frame b).ports q).queues_eq, k.queues]

/-! ## The bucket (R82 to R84) -/

variable {k : BucketNo}

/-- The frame's applied header once its bucket has passed it on (R84). -/
def Verdict.header : Verdict → Header → Header
  | .demote, x => { x with cls := 0 }
  | _, x => x

/-- The part once the bucket has taken its charge. -/
def State.metered (s : State) (p : Port) (b : BufNo) (base f : RecordIdx) (k : BucketNo) : State :=
  (s.resolved p b base f).setBucket k (s.buckets[k].charge (5 + s.lengthAt b)).1

theorem State.TransitTo.metered (ht : s.TransitTo p b n base f) (k : BucketNo) :
    s.Beside p b base f (s.metered p b base f k) :=
  ⟨ht.disposed, ht.settled, ht.noReset, rfl, fun _ => .refl _⟩

/-- END of a transit frame whose record has a bucket: the verdict says whether and with which header it goes on. -/
theorem exec_rxEnd_metered (ht : s.TransitTo p b n base f) (hbucket : s.action.records[f].bucket = some k) :
    exec (.rxEnd { port := p, pace := .whole }) s = .next (match (s.buckets[k].charge (5 + s.lengthAt b)).2 with
      | .drop => ((s.metered p b base f k).release b).finish
      | v => (State.takeStages 6 p ((s.metered p b base f k).goOn p (s.flown p b base f
          (v.header (s.action.records[f].bearing (s.headerAt b))) .arrival 4))).finish) := by
  rw [exec_rxEnd_resolved ht, State.takeStages_step (s := s.resolved p b base f) ht.settled
    (State.takeStage_metered (r := { s.action.records[f] with dispatch := none }) ht.disposed rfl rfl hbucket)]
  have hcharge : (s.resolved p b base f).buckets[k].charge (5 + (s.flown p b base f
      (s.action.records[f].bearing (s.headerAt b)) .bucket 3).len) = s.buckets[k].charge (5 + s.lengthAt b) := rfl
  rw [hcharge]
  cases (s.buckets[k].charge (5 + s.lengthAt b)).2 with
  | drop =>
    exact congrArg (fun t : State => Host.Outcome.next t.finish)
      (State.takeStages_released (w := s.metered p b base f k) ht.disposed b 6)
  | pass => rfl
  | demote => rfl

theorem Bucket.charge_disabled {y : Bucket} {cost : Nat} (he : y.enabled = false) : y.charge cost = (y, .pass) := if_pos he

theorem Bucket.charge_covered {y : Bucket} {cost : Nat} (he : y.enabled = true) (hc : cost ≤ y.credit) :
    y.charge cost = ({ y with credit := y.credit - cost, conform := bump y.conform }, .pass) := by
  rw [Bucket.charge, if_neg (by rw [he]; decide), if_pos hc]

theorem Bucket.charge_exceeded {y : Bucket} {cost : Nat} (he : y.enabled = true) (hc : y.credit < cost) :
    y.charge cost = ({ y with exceeds := bump y.exceeds }, match y.exceed with | .drop => .drop | .demote => .demote) :=
  (if_neg (by rw [he]; decide)).trans (if_neg (Nat.not_le.2 hc))

/-- Stages 5 to 7 of a frame of a record without slot that reaches no queue. -/
theorem State.Beside.dropped {taken : Nat} (hw : s.Beside p b base f w) (hr : s.action.records[f].disposition = .drop)
    (hslot : s.action.records[f].slot = none) :
    (State.takeStages 6 p (w.goOn p (s.flown p b base f x .arrival taken))).finish = w.release b := by
  have hstages := State.takeStages_unsupervised (s := s.onPort p PortState.tookGood) (p := p) (b := b) (base := base)
    (x := x) (n := taken) (u := w) hw.settled hslot 5
  have hrelease := State.takeStages_release (p := p) (s := w)
    (d := s.flown p b base f x s.action.records[f].afterArrival (taken + 1)) hw.disposed hw.settled
    (if_neg (by rw [hr]; decide)) 4
  refine (congrArg State.finish (hstages.trans hrelease)).trans (State.finish_of_settled _ ?_)
  exact (w.release_frame b).due.trans hw.settled

/-- Stages 5 to 7 of a FORWARD frame of a record without slot. -/
theorem State.Beside.took_unsupervised {taken : Nat} {z : Header} (hw : s.Beside p b base f w) (ht : s.TransitTo p b n base f)
    (hr : s.action.records[f].disposition = .forward) (hslot : s.action.records[f].slot = none) (hq : q ≠ p)
    (hhas : PortSet.has s.action.records[f].egress q = true) (hup : s.isUp q = true) (hz : z = x)
    (hroom : s.ports[q].queues[x.cls].length < 16) :
    (s.ports[q]).Took ((State.takeStages 6 p (w.goOn p (s.flown p b base f z .arrival taken))).finish.ports[q]) b x s.now
      .transit := by
  subst hz
  have hstages := State.takeStages_unsupervised (s := s.onPort p PortState.tookGood) (p := p) (b := b) (base := base)
    (x := z) (n := taken) (u := w) hw.settled hslot 5
  rw [State.flown, hstages]
  exact hw.took (hw.out ht hr z _) hr hq hhas hup hroom

/-- What a metered frame comes to: the bucket's charge, and the ports the verdict lets it reach. -/
theorem exec_rxEnd_charged (ht : s.TransitTo p b n base f) (hbucket : s.action.records[f].bucket = some k) :
    ∃ t, exec (.rxEnd { port := p, pace := .whole }) s = .next t ∧ (s.metered p b base f k).TablesStand t ∧
      ((s.buckets[k].charge (5 + s.lengthAt b)).2 = .drop ∨
          s.action.records[f].disposition = .drop ∧ s.action.records[f].slot = none →
        t = (s.metered p b base f k).release b) ∧
      ((s.buckets[k].charge (5 + s.lengthAt b)).2 ≠ .drop → s.action.records[f].disposition = .forward →
        s.action.records[f].slot = none → ∀ q : Port, q ≠ p → PortSet.has s.action.records[f].egress q = true →
        s.isUp q = true → ∀ x, (s.buckets[k].charge (5 + s.lengthAt b)).2.header
          (s.action.records[f].applied (s.headerAt b)) = x → s.ports[q].queues[x.cls].length < 16 →
        (s.ports[q]).Took (t.ports[q]) b x s.now .transit) := by
  have hw := ht.metered k
  refine ⟨_, exec_rxEnd_metered ht hbucket, ?_⟩
  cases (s.buckets[k].charge (5 + s.lengthAt b)).2 with
  | drop =>
    have hgone : ((s.metered p b base f k).release b).finish = (s.metered p b base f k).release b :=
      State.finish_of_settled _ ((State.release_frame _ b).due.trans hw.settled)
    refine ⟨?_, fun _ => hgone, fun k => absurd rfl k⟩
    dsimp only
    rw [hgone]
    exact (State.release_frame _ b).sends.stand
  | pass =>
    exact ⟨State.takeStages_finish_stand hw.settled hw.noReset rfl 6,
      fun h => hw.dropped (h.resolve_left (by decide)).1 (h.resolve_left (by decide)).2,
      fun _ hr hslot q hq hhas hup x hx hroom => hw.took_unsupervised ht hr hslot hq hhas hup ((if_pos hr).trans hx) hroom⟩
  | demote =>
    exact ⟨State.takeStages_finish_stand hw.settled hw.noReset rfl 6,
      fun h => hw.dropped (h.resolve_left (by decide)).1 (h.resolve_left (by decide)).2,
      fun _ hr hslot q hq hhas hup x hx hroom => hw.took_unsupervised ht hr hslot hq hhas hup
        ((congrArg (fun y : Header => { y with cls := 0 }) (if_pos hr)).trans hx) hroom⟩

end

/-- Settles O20: the verdict of the charge says whether the frame goes on and in which class. -/
theorem bucketChargesOrExceeds : Obligations.BucketChargesOrExceeds := by
  unfold Obligations.BucketChargesOrExceeds
  rintro p s b n h i f r k x ht rfl hw hres rfl hbucket rfl hage
  generalize hbase : ((s.route.bank s.route.active)[i]).action = base at hres ⊢
  have hto : s.TransitTo p b n base f := ⟨ht, ⟨i, hw, hbase⟩, hres, hage⟩
  obtain ⟨t, hexec, hstand, hgone, htook⟩ := exec_rxEnd_charged hto hbucket
  have hbuckets : ∀ j : BucketNo, t.buckets[j] =
      if j = k then (s.buckets[k].charge (5 + s.lengthAt b)).1 else s.buckets[j] := fun j =>
    (congrArg (·[j]) hstand.buckets).trans (vset_fin _ _ _ _)
  have hk := (hbuckets k).trans (if_pos rfl)
  have hreleased : t = (s.metered p b base f k).release b → t.store.count[b] = 0 ∧
      ∀ (q : Port) (c : Class), t.ports[q].queues[c] = s.ports[q].queues[c] := fun ht' => by
    rw [ht']
    exact (hto.metered k).released ht.own
  have hpass : s.buckets[k].enabled = false ∨ 5 + s.lengthAt b ≤ s.buckets[k].credit →
      (s.buckets[k].charge (5 + s.lengthAt b)).2 = .pass := fun hcover => by
    cases he : s.buckets[k].enabled with
    | false => rw [Bucket.charge_disabled he]
    | true => rw [Bucket.charge_covered he (hcover.resolve_left fun h => by rw [he] at h; cases h)]
  refine ⟨t, hexec, fun j hj => (hbuckets j).trans (if_neg hj), fun he => ?disabled, fun he hcover => ?covered,
    fun hcover hr hslot q hq hhas hup hroom => ?reached, fun hr hslot => hreleased (hgone (.inr ⟨hr, hslot⟩)),
    fun he hcost => ?exceeded, hstand.action, hstand.route, hstand.now⟩
  case disabled => rw [hk, Bucket.charge_disabled he]
  case covered => rw [hk, Bucket.charge_covered he hcover]
  case reached =>
    have hv := hpass hcover
    exact htook (by rw [hv]; decide) hr hslot q hq hhas hup _ (by rw [hv]; rfl) hroom
  case exceeded =>
    have hcharge := Bucket.charge_exceeded he hcost
    refine ⟨hk.trans (congrArg Prod.fst hcharge), fun hdrop => ?_, fun hdemote hr hslot q hq hhas hup hroom => ?_⟩
    · have ht' := hgone (.inl (by rw [hcharge, hdrop]))
      refine ⟨?_, hreleased ht'⟩
      obtain ⟨-, -, -, -, -, -, hslots, -⟩ := (State.release_frame (s.metered p b base f k) b).tables
      rw [ht', hslots]
      rfl
    · have hv : (s.buckets[k].charge (5 + s.lengthAt b)).2 = .demote := by rw [hcharge, hdemote]
      exact htook (by rw [hv]; decide) hr hslot q hq hhas hup _ (by rw [hv]; rfl) hroom

end Sys2Proof.Machine
end

