-- ==== Sys2Proof/Proofs/Arrivals.lean ====
section
/-! PROOF. A frame at its Supervision Slot (R70, R119 to R121): what an arrival comes to, and O21. -/

namespace Sys2Proof.Machine

section
variable {s u v w : State} {p q : Port} {b : BufNo} {n : Nat} {base f : RecordIdx} {k : SlotNo} {x : Header}

/-! ## An arrival (R120, R121) -/

/-- The slot after an arrival, its hold apart (R120). -/
def Slot.arrived (y : Slot) (now : Tick) : Slot :=
  { y with
    state := .fresh, miss := 0
    deadline := some (now + y.cfg.period.setWidth 32 + y.cfg.grace.setWidth 32)
    lastArrival := now
    arrivals := bump y.arrivals
    recoveries := if y.state = .late ∨ y.state = .lost then bump y.recoveries else y.recoveries }

/-- The part once a LATE or LOST slot has raised SLOT-RECOVERED (R120). -/
def State.recovered (s : State) (k : SlotNo) : State :=
  if s.slots[k].state = .late ∨ s.slots[k].state = .lost then
    s.raised .slotRecovered (BitVec.ofNat 8 k.val) (BitVec.ofNat 32 s.slots[k].miss)
  else s

theorem State.recovered_rest (s : State) (k : SlotNo) :
    s.recovered k = { s with events := (s.recovered k).events, transit := (s.recovered k).transit } := by
  unfold State.recovered
  split
  · exact s.raised_rest _ _ _
  · rfl

/-- The part with the arrival counted and the slot FRESH (R120). -/
def State.freshly (s : State) (k : SlotNo) : State :=
  { s.recovered k with slots := vset s.slots k (s.slots[k].arrived s.now) }

theorem State.freshened_eq (hu : s.Undelivered) (hroom : s.NoticeRoom) :
    (s.countArrival k).onSlot k (·.freshened s.now) = s.freshly k := by
  have honce : ∀ f : Slot → Slot, s.onSlot k f = s.setSlot k (f s.slots[k]) := fun _ => rfl
  unfold State.countArrival State.freshly State.recovered Slot.arrived
  split
  · rw [honce, State.raise_setSlot _ hu hroom, State.onSlot_vset]
    rfl
  · rw [honce, State.setSlot, State.onSlot_vset]
    rfl

/-- `t` is `s` once an arrival has left slot `k` as `y`, the Event Queue as it stands in `e`, and perhaps a reference taken and
one ended (R120, R121). -/
structure State.Arrived (k : SlotNo) (y : Slot) (e s t : State) : Prop where
  slots  : t.slots = vset s.slots k y
  events : e.SameEvents t
  ports  : ∀ q : Port, (s.ports[q]).FlowOnly (t.ports[q])
  due    : t.resetDue = s.resetDue
  stand  : s.TablesStand t

theorem State.arrived_off (s : State) (k : SlotNo) : State.Arrived k s.slots[k] s s s :=
  ⟨(vset_get_same s.slots k).symm, .refl s, fun _ => .refl _, rfl, .refl s⟩

theorem State.freshly_arrived (s : State) (k : SlotNo) :
    State.Arrived k (s.slots[k].arrived s.now) (s.recovered k) s (s.freshly k) := by
  refine ⟨rfl, ⟨rfl, rfl⟩, fun q => ?_, ?_, ?_⟩ <;> unfold State.freshly <;> rw [s.recovered_rest k]
  · exact .refl _
  · exact ⟨rfl, rfl, rfl, rfl, rfl⟩

theorem State.takeHold_arrived (s : State) (k : SlotNo) (hold : Held) :
    State.Arrived k { s.slots[k].arrived s.now with held := some hold } (s.recovered k) s ((s.freshly k).takeHold k hold) := by
  have hfresh := s.freshly_arrived k
  have hadd := (s.freshly k).addRef_frame hold.buf
  have hend := (((s.freshly k).addRef hold.buf).onSlot k fun y => { y with held := some hold }).releaseHeld_frame
    (s.freshly k).slots[k].held
  refine ⟨?_, ?_, fun q => ?_, ?_, hfresh.stand.trans (State.takeHold_stand _ k hold)⟩
  · obtain ⟨-, -, -, -, -, -, hslots, -⟩ := hend.tables
    obtain ⟨-, -, -, -, -, -, hadded, -⟩ := hadd.tables
    refine hslots.trans ?_
    show vset ((s.freshly k).addRef hold.buf).slots k { ((s.freshly k).addRef hold.buf).slots[k] with held := some hold } = _
    rw [hadded, hfresh.slots, vset_vset]
    exact congrArg (fun y : Slot => vset s.slots k { y with held := some hold }) (vset_get_self s.slots k _)
  · exact hfresh.events.trans (State.SameEvents.trans hadd.events (State.SameEvents.trans ⟨rfl, rfl⟩ hend.events))
  · exact ((hfresh.ports q).trans (hadd.ports q)).trans (hend.ports q)
  · exact (hend.due.trans hadd.due).trans hfresh.due

/-- What an arrival at an armed slot comes to (R119 to R121). -/
theorem State.arrive_arrived (hu : s.Undelivered) (hroom : s.NoticeRoom) (hoff : s.slots[k].state ≠ .off)
    (hold : Option Held) : State.Arrived k { s.slots[k].arrived s.now with
      held := if s.slots[k].cfg.hold then hold.orElse fun _ => s.slots[k].held else s.slots[k].held }
      (s.recovered k) s (s.arrive k hold) := by
  unfold State.arrive
  rw [if_neg hoff, State.freshened_eq hu hroom]
  cases hold with
  | none =>
    have hkept : (if s.slots[k].cfg.hold then (none : Option Held).orElse fun _ => s.slots[k].held else s.slots[k].held) =
        s.slots[k].held := ite_self _
    rw [hkept]
    exact s.freshly_arrived k
  | some h =>
    dsimp only
    split
    · exact s.takeHold_arrived k h
    · exact s.freshly_arrived k

/-- Without a hold offered an arrival moves no reference (R119). -/
theorem State.arrive_store (hu : s.Undelivered) (hroom : s.NoticeRoom) : (s.arrive k none).store = s.store := by
  unfold State.arrive
  split
  · rfl
  · rw [State.freshened_eq hu hroom, State.freshly, s.recovered_rest k]

/-! ## END of a supervised frame (R70, R119) -/

/-- The hold a frame of this record offers its slot: a FORWARD frame alone (R70, R121). -/
def State.offered (s : State) (p : Port) (b : BufNo) (base f : RecordIdx) : Option Held :=
  if s.action.records[f].disposition = .forward then
    some (s.flown p b base f (s.action.records[f].bearing (s.headerAt b)) .arrival 4).hold
  else none

/-- The part at stage 5, and once the frame has arrived at slot `k`. -/
def State.arriving (s : State) (p : Port) (b : BufNo) (base f : RecordIdx) : State :=
  (s.resolved p b base f).goOn p (s.flown p b base f (s.action.records[f].bearing (s.headerAt b)) .arrival 4)

def State.supervised (s : State) (p : Port) (b : BufNo) (base f : RecordIdx) (k : SlotNo) : State :=
  { (s.arriving p b base f).arrive k (s.offered p b base f) with disposing := s.disposing }

theorem exec_rxEnd_supervised (ht : s.TransitTo p b n base f) (hbucket : s.action.records[f].bucket = none)
    (hslot : s.action.records[f].slot = some k) : exec (.rxEnd { port := p, pace := .whole }) s =
    .next (State.takeStages 5 p ((s.supervised p b base f k).goOn p (s.flown p b base f
      (s.action.records[f].bearing (s.headerAt b)) s.action.records[f].afterArrival 5))).finish := by
  have hmeter := State.takeStages_unmetered (s := s.onPort p PortState.tookGood) (p := p) (b := b) (base := base)
    (x := s.action.records[f].bearing (s.headerAt b)) (n := 3) (u := s.resolved p b base f) ht.settled hbucket 6
  have hstage := State.takeStage_arrived (s := s.resolved p b base f) (p := p)
    (d := s.flown p b base f (s.action.records[f].bearing (s.headerAt b)) .arrival 4)
    (r := { s.action.records[f] with dispatch := none }) rfl rfl hslot
  have hover := State.goOn_over (s := s.resolved p b base f) (p := p)
    (d := s.flown p b base f (s.action.records[f].bearing (s.headerAt b)) .arrival 4)
    (d' := (s.flown p b base f (s.action.records[f].bearing (s.headerAt b)) .arrival 4).next
      s.action.records[f].afterArrival)
    ((s.arriving p b base f).arrive_abides k (s.offered p b base f)).disposing
  rw [exec_rxEnd_resolved ht]
  refine congrArg (fun t : State => Host.Outcome.next t.finish) (hmeter.trans ?_)
  exact State.takeStages_step (s := s.resolved p b base f) ht.settled (hstage.trans hover) 5

theorem State.Arrived.beside {y : Slot} {e : State} (ht : s.TransitTo p b n base f)
    (h : State.Arrived k y e (s.arriving p b base f) ((s.arriving p b base f).arrive k (s.offered p b base f))) :
    s.Beside p b base f (s.supervised p b base f k) :=
  ⟨ht.disposed, h.due.trans ht.settled, (congrArg Agent.resetPending h.stand.agent).trans ht.noReset, h.stand.now, h.ports⟩

/-- What a supervised frame comes to after stage 5. -/
theorem exec_rxEnd_arrived (ht : s.TransitTo p b n base f) (hbucket : s.action.records[f].bucket = none)
    (hslot : s.action.records[f].slot = some k) (hw : s.Beside p b base f (s.supervised p b base f k)) :
    ∃ t, exec (.rxEnd { port := p, pace := .whole }) s = .next t ∧ (s.supervised p b base f k).SameTables t ∧
      (s.supervised p b base f k).SameEvents t ∧
      (s.action.records[f].disposition = .forward → ∀ q : Port, q ≠ p → PortSet.has s.action.records[f].egress q = true →
        s.isUp q = true → s.ports[q].queues[(s.action.records[f].applied (s.headerAt b)).cls].length < 16 →
        (s.ports[q]).Took (t.ports[q]) b (s.action.records[f].applied (s.headerAt b)) s.now .transit) ∧
      (s.action.records[f].disposition = .drop → t = (s.supervised p b base f k).release b) := by
  refine ⟨_, exec_rxEnd_supervised ht hbucket hslot, ?_⟩
  cases hr : s.action.records[f].disposition with
  | drop =>
    have hrelease : State.takeStages 5 p ((s.supervised p b base f k).goOn p (s.flown p b base f
        (s.action.records[f].bearing (s.headerAt b)) s.action.records[f].afterArrival 5)) =
        (s.supervised p b base f k).release b :=
      State.takeStages_release (s := s.supervised p b base f k) hw.disposed hw.settled (if_neg (by rw [hr]; decide)) 4
    have hframe := (s.supervised p b base f k).release_frame b
    rw [hrelease, State.finish_of_settled _ (hframe.due.trans hw.settled)]
    exact ⟨hframe.tables, hframe.events, fun h => (by cases h), fun _ => rfl⟩
  | forward =>
    have hout := hw.out ht hr (s.action.records[f].bearing (s.headerAt b)) 5
    refine ⟨hout.tables, hout.events, fun _ q hq hhas hup hroom => ?_, fun h => by cases h⟩
    have hbear : s.action.records[f].bearing (s.headerAt b) = s.action.records[f].applied (s.headerAt b) := if_pos hr
    have htook := hw.took hout hr hq hhas hup (by rw [hbear]; exact hroom)
    rw [hbear] at htook ⊢
    exact htook

/-- SLOT-RECOVERED is raised for a LATE or LOST slot alone (R120). -/
theorem State.recovered_events (h : s.SameRaising v) (hy : v.slots[k] = s.slots[k])
    (hlate : s.slots[k].state = .late ∨ s.slots[k].state = .lost) :
    (s.raised .slotRecovered (BitVec.ofNat 8 k.val) (BitVec.ofNat 32 s.slots[k].miss)).SameEvents (v.recovered k) := by
  unfold State.recovered
  rw [hy, if_pos hlate, State.raised_eq h]
  exact ⟨rfl, rfl⟩

theorem State.recovered_quiet (hlate : ¬(s.slots[k].state = .late ∨ s.slots[k].state = .lost)) : s.recovered k = s :=
  if_neg hlate

theorem State.arriving_arrived (hu : s.Undelivered) (hroom : s.NoticeRoom) :
    ∃ y e, State.Arrived k y e (s.arriving p b base f) ((s.arriving p b base f).arrive k (s.offered p b base f)) ∧
      (s.slots[k].state = .off → y = s.slots[k] ∧ s.SameEvents e) ∧
      (s.slots[k].state ≠ .off → y = { s.slots[k].arrived s.now with
        held := if s.slots[k].cfg.hold then (s.offered p b base f).orElse fun _ => s.slots[k].held
          else s.slots[k].held }) ∧
      (s.slots[k].state = .waiting ∨ s.slots[k].state = .fresh → s.SameEvents e) ∧
      (s.slots[k].state = .late ∨ s.slots[k].state = .lost →
        (s.raised .slotRecovered (BitVec.ofNat 8 k.val) (BitVec.ofNat 32 s.slots[k].miss)).SameEvents e) := by
  by_cases hs : s.slots[k].state = .off
  · have hstill : (s.arriving p b base f).arrive k (s.offered p b base f) = s.arriving p b base f := if_pos hs
    refine ⟨s.slots[k], s.arriving p b base f, by rw [hstill]; exact (s.arriving p b base f).arrived_off k, fun _ => ⟨rfl, rfl, rfl⟩, fun h => absurd hs h,
      fun _ => ⟨rfl, rfl⟩, fun h => ?_⟩
    rw [hs] at h
    rcases h with h | h <;> cases h
  · refine ⟨_, _, State.arrive_arrived (s := s.arriving p b base f) hu hroom hs _, fun h => absurd h hs, fun _ => rfl,
      fun h => ?_, State.recovered_events ⟨rfl, rfl, rfl, rfl⟩ rfl⟩
    have hquiet : ¬((s.arriving p b base f).slots[k].state = .late ∨ (s.arriving p b base f).slots[k].state = .lost) := by
      show ¬(s.slots[k].state = .late ∨ s.slots[k].state = .lost)
      rcases h with h | h <;> rw [h] <;> decide
    rw [State.recovered_quiet hquiet]
    exact ⟨rfl, rfl⟩

/-- The hold after an arrival (R121). -/
theorem State.held_offered (s : State) (p : Port) (b : BufNo) (base f : RecordIdx) (k : SlotNo) :
    (if s.slots[k].cfg.hold then (s.offered p b base f).orElse fun _ => s.slots[k].held else s.slots[k].held) =
      if s.action.records[f].disposition = .forward ∧ s.slots[k].cfg.hold = true then
        some { buf := b, egress := PortSet.without s.action.records[f].egress p
               label := (s.action.records[f].applied (s.headerAt b)).label
               cls := (s.action.records[f].applied (s.headerAt b)).cls
               age := (s.action.records[f].applied (s.headerAt b)).age, source := (s.headerAt b).source }
      else s.slots[k].held := by
  cases hr : s.action.records[f].disposition with
  | drop =>
    have hnone : s.offered p b base f = none := if_neg (by rw [hr]; decide)
    rw [hnone]
    exact (ite_self _).trans (if_neg fun h => by cases h.1).symm
  | forward =>
    have hbear : s.action.records[f].bearing (s.headerAt b) = s.action.records[f].applied (s.headerAt b) := if_pos hr
    have hdirected : s.action.records[f].directed p = PortSet.without s.action.records[f].egress p := if_pos hr
    have hsome : s.offered p b base f = some { buf := b, egress := s.action.records[f].directed p
                                               label := (s.action.records[f].bearing (s.headerAt b)).label
                                               cls := (s.action.records[f].bearing (s.headerAt b)).cls
                                               age := (s.action.records[f].bearing (s.headerAt b)).age
                                               source := (s.headerAt b).source } := if_pos hr
    rw [hsome, hbear, hdirected]
    exact if_congr (and_iff_right rfl).symm rfl rfl

/-- A frame of a DROP record moves no reference at its slot (R70). -/
theorem State.supervised_store (hr : s.action.records[f].disposition = .drop) (hu : s.Undelivered) (hroom : s.NoticeRoom) :
    (s.supervised p b base f k).store.count[b] = s.store.count[b] := by
  have hnone : s.offered p b base f = none := if_neg (by rw [hr]; decide)
  rw [State.supervised, hnone]
  exact congrArg (fun v : Store => v.count[b]) (State.arrive_store (s := s.arriving p b base f) hu hroom)

end

/-- Settles O21: the arrival leaves its slot FRESH or, where it is OFF, as it was; stages 6 and 7 follow. -/
theorem arrivalMakesSlotFresh : Obligations.ArrivalMakesSlotFresh := by
  unfold Obligations.ArrivalMakesSlotFresh
  rintro p s b n h i f r k y ht rfl hw hres rfl hbucket hslot rfl hage hu hroom
  generalize hbase : ((s.route.bank s.route.active)[i]).action = base at hres ⊢
  have hto : s.TransitTo p b n base f := ⟨ht, ⟨i, hw, hbase⟩, hres, hage⟩
  obtain ⟨y, e, harrived, hoff, hon, hquiet, hlate⟩ := State.arriving_arrived (p := p) (b := b) (base := base) (f := f)
    (k := k) hu hroom
  have hbeside := State.Arrived.beside hto harrived
  obtain ⟨t, hexec, htables, hevents, htook, hgone⟩ := exec_rxEnd_arrived hto hbucket hslot hbeside
  obtain ⟨-, -, hnow, hroute, haction, hbuckets, hslots, -⟩ := htables
  have hslot' : ∀ j : SlotNo, t.slots[j] = if j = k then y else s.slots[j] := fun j =>
    (congrArg (·[j]) (hslots.trans harrived.slots)).trans (vset_fin _ _ _ _)
  have hafter : ∀ {u : State}, u.SameEvents e → u.SameEvents t := fun hu =>
    hu.trans (State.SameEvents.trans ⟨harrived.events.1, harrived.events.2⟩ hevents)
  refine ⟨t, hexec, fun j hj => (hslot' j).trans (if_neg hj), fun hs => ⟨?_, hafter (hoff hs).2⟩, fun hs => ?_,
    fun hs => hafter (hquiet hs), fun hs => hafter (hlate hs), htook, fun hr => ?_,
    haction.trans harrived.stand.action, hroute.trans harrived.stand.route, hbuckets.trans harrived.stand.buckets,
    hnow.trans harrived.stand.now⟩
  · exact ((hslot' k).trans (if_pos rfl)).trans (hoff hs).1
  · rw [hslot' k, if_pos rfl, hon hs, State.held_offered]
    rfl
  · rw [hgone hr]
    exact hbeside.released ((State.supervised_store hr hu hroom).trans ht.own)

end Sys2Proof.Machine
end

