-- ==== Sys2Proof/Proofs/Pauses.lean ====
section
/-! PROOF. Dispositions and the happenings between two of their stages (R44, R45; log entry 7): O22. -/

namespace Sys2Proof.Machine

section
variable {s t u v : State} {p q : Port} {b : BufNo} {d : Disposal} {c : Option Instr} {ok : Prop}

/-! ## A part with nothing under way but one disposition -/

/-- No command and no raise waits, raises do not wait, no copy runs, no reset is pending, and no port but `p` has a
disposition in progress. -/
structure State.Alone (p : Port) (s : State) : Prop where
  pending : s.pending = []
  transit : s.transit = []
  raises  : s.raisesWait = false
  copier  : s.route.copier = none
  noReset : s.agent.resetPending = none
  settled : s.resetDue = false
  others  : ∀ q : Port, q ≠ p → s.disposing[q] = none

/-- `t` has the waiting raises and the copier of `s`. -/
structure State.Quiet (s t : State) : Prop where
  transit : t.transit = s.transit
  copier  : t.route.copier = s.route.copier

theorem State.Quiet.refl (s : State) : s.Quiet s := ⟨rfl, rfl⟩

theorem State.Quiet.trans (h : s.Quiet t) (k : t.Quiet u) : s.Quiet u :=
  ⟨k.transit.trans h.transit, k.copier.trans h.copier⟩

theorem State.SameBlocks.quiet (h : s.SameBlocks t) : s.Quiet t := by
  obtain ⟨-, -, -, hroute, -⟩ := h.tables
  exact ⟨h.events.2, congrArg RouteTable.copier hroute⟩

theorem State.attempt_quiet (s : State) (q : Port) (b : BufNo) (h : Header) (o : Origin) : s.Quiet (s.attempt q b h o) := by
  obtain ⟨-, hx⟩ | ⟨-, -, hx⟩ | ⟨-, -, hx⟩ := State.attempt_cases s q b h o <;> rw [hx]
  · exact ⟨rfl, rfl⟩
  · exact ⟨rfl, rfl⟩
  · have hjoined := (State.joined_blocks s q b h o).quiet
    have hframe := State.accept_frame s q b h o
    obtain ⟨-, -, -, hroute, -⟩ := hframe.tables
    exact hjoined.trans ⟨hframe.events.2, congrArg RouteTable.copier hroute⟩

/-- Where raises do not wait, one that is no PORT-UP is taken at once (R174). -/
theorem State.raise_quiet (hw : s.raisesWait = false) {kind : NoticeKind} (hk : kind ≠ .portUp) (subject : Byte)
    (detail : BitVec 32) : s.Quiet (s.raise kind subject detail) := by
  obtain ⟨-, -, -, hroute, -⟩ := (s.raise_sends kind subject detail).tables
  refine ⟨?_, congrArg RouteTable.copier hroute⟩
  unfold State.raise
  rw [hw, decide_eq_false hk]
  exact s.takeRaise_transit _

theorem State.arrive_quiet (hw : s.raisesWait = false) (k : SlotNo) (hold : Option Held) : s.Quiet (s.arrive k hold) := by
  have hcount : s.Quiet (s.countArrival k) := by
    unfold State.countArrival
    split
    · refine State.Quiet.trans ?_ (State.raise_quiet (by exact hw) NoticeKind.noConfusion _ _)
      exact ⟨rfl, rfl⟩
    · exact ⟨rfl, rfl⟩
  have hfresh : s.Quiet ((s.countArrival k).onSlot k (·.freshened s.now)) := hcount.trans ⟨rfl, rfl⟩
  unfold State.arrive
  split
  · exact .refl s
  · split
    · next h =>
      split
      · have hadd := (State.addRef_frame ((s.countArrival k).onSlot k (·.freshened s.now)) h.buf).blocks.quiet
        refine State.Quiet.trans ?_ (State.releaseHeld_frame _ _).blocks.quiet
        exact (hfresh.trans hadd).trans ⟨rfl, rfl⟩
      · exact hfresh
    · exact hfresh

theorem State.endDisposal_quiet (h : s.Quiet t) (p : Port) (d : Disposal) : s.Quiet (t.endDisposal p d) :=
  (h.trans (t := t) (u := { t with disposing := vset t.disposing p none }) ⟨rfl, rfl⟩).trans
    (State.release_frame _ d.buf).blocks.quiet

theorem State.goOn_quiet (h : s.Quiet t) (p : Port) (d : Disposal) : s.Quiet (t.goOn p d) := h.trans ⟨rfl, rfl⟩

theorem State.takeStage_quiet (hw : s.raisesWait = false) (p : Port) (d : Disposal) : s.Quiet (s.takeStage p d) := by
  have hself := State.Quiet.refl s
  cases hs : d.stage with
  | lookup =>
    rw [State.takeStage_lookup hs]
    unfold State.stageLookup
    split
    · exact State.goOn_quiet hself p _
    · split
      · exact State.endDisposal_quiet (by exact ⟨rfl, rfl⟩) p d
      · exact State.goOn_quiet (by exact ⟨rfl, rfl⟩) p _
  | resolve =>
    cases hb : d.base with
    | none =>
      rw [State.takeStage_ends (.inr (.inl ⟨hs, hb⟩))]
      exact State.endDisposal_quiet hself p d
    | some base =>
      rw [State.takeStage_resolve hs hb]
      unfold State.stageResolve
      dsimp only
      split
      · exact State.endDisposal_quiet (by exact ⟨rfl, rfl⟩) p d
      · exact State.goOn_quiet (by exact ⟨rfl, rfl⟩) p _
      · exact State.goOn_quiet (by exact ⟨rfl, rfl⟩) p _
  | ageCheck =>
    rw [State.takeStage_age hs]
    unfold State.stageAge
    split
    · split
      · exact State.goOn_quiet (by exact ⟨rfl, rfl⟩) p _
      · exact State.goOn_quiet hself p _
    · split
      · split
        · exact State.goOn_quiet (by exact ⟨rfl, rfl⟩) p _
        · exact State.goOn_quiet hself p _
      · exact State.goOn_quiet hself p _
  | bucket =>
    cases hf : d.final with
    | none =>
      rw [State.takeStage_ends (.inr (.inr ⟨.inl hs, hf⟩))]
      exact State.endDisposal_quiet hself p d
    | some r =>
      rw [State.takeStage_bucket hs hf]
      unfold State.stageBucket
      split
      · exact State.goOn_quiet hself p _
      · split <;> rename_i t h <;> obtain ⟨rfl, -⟩ := Prod.mk.inj h
        · exact State.endDisposal_quiet (by exact ⟨rfl, rfl⟩) p d
        · exact State.goOn_quiet (by exact ⟨rfl, rfl⟩) p _
        · exact State.goOn_quiet (by exact ⟨rfl, rfl⟩) p _
  | arrival =>
    cases hf : d.final with
    | none =>
      rw [State.takeStage_ends (.inr (.inr ⟨.inr hs, hf⟩))]
      exact State.endDisposal_quiet hself p d
    | some r =>
      rw [State.takeStage_arrival hs hf]
      unfold State.stageArrival
      cases hslot : r.slot with
      | none => dsimp only; split <;> exact State.goOn_quiet hself p _
      | some k => dsimp only; split <;> exact State.goOn_quiet (State.arrive_quiet hw k _) p _
  | enqueue =>
    rw [State.takeStage_enqueue hs]
    unfold State.stageEnqueue
    split
    · exact State.endDisposal_quiet hself p d
    · exact State.goOn_quiet (State.attempt_quiet s _ _ _ _) p _
    · exact State.goOn_quiet (State.attempt_quiet s _ _ _ _) p _
  | release =>
    rw [State.takeStage_ends (.inl hs)]
    exact State.endDisposal_quiet hself p d

/-! ## The stages follow while no command waits (R44) -/

/-- A stage leaves the agent, the queue of commands and the other ports' dispositions as they are. -/
theorem State.takeStage_beside (s : State) (p : Port) (d : Disposal) : ∃ x, (s.takeStage p d).disposing = vset s.disposing p x ∧
    (s.takeStage p d).agent = s.agent ∧ (s.takeStage p d).pending = s.pending ∧
    (s.takeStage p d).raisesWait = s.raisesWait := by
  obtain ⟨u, habides, hu | ⟨d', hu, -⟩⟩ := s.takeStage_cases p d <;> rw [hu]
  · have hend := (State.release_frame { u with disposing := vset u.disposing p none } d.buf).sends.abides
    exact ⟨none, hend.disposing.trans (by rw [habides.disposing]), hend.agent.trans habides.agent,
      hend.pending.trans habides.pending, hend.raisesWait.trans habides.raisesWait⟩
  · exact ⟨some d', by rw [State.goOn, habides.disposing], habides.agent, habides.pending, habides.raisesWait⟩

theorem State.Alone.takeStage (h : s.Alone p) (hd : s.disposing[p] = some d) : (s.takeStage p d).Alone p := by
  have hquiet := s.takeStage_quiet h.raises p d
  obtain ⟨x, hdis, hagent, hpending, hwait⟩ := s.takeStage_beside p d
  have hreset := (congrArg Agent.resetPending hagent).trans h.noReset
  have hdue := State.takeStages_settled (p := p) h.settled 1
  rw [State.takeStages_next hd h.settled] at hdue
  exact ⟨hpending.trans h.pending, hquiet.transit.trans h.transit, hwait.trans h.raises, hquiet.copier.trans h.copier, hreset,
    hdue hreset, fun q hq => by rw [hdis, vset_fin, if_neg hq]; exact h.others q hq⟩

theorem State.Alone.takeStages : ∀ (k : Nat) {s : State}, s.Alone p → (State.takeStages k p s).Alone p
  | 0, _, h => h
  | k + 1, s, h => by
    cases hd : s.disposing[p] with
    | none => rw [State.takeStages_ended hd]; exact h
    | some d => rw [State.takeStages_next hd h.settled]; exact State.Alone.takeStages k (h.takeStage hd)

theorem State.takeStages_add (j k : Nat) (h : s.Alone p) :
    State.takeStages (j + k) p s = State.takeStages k p (State.takeStages j p s) := by
  induction j generalizing s with
  | zero => rw [Nat.zero_add]; rfl
  | succ j ih =>
    cases hd : s.disposing[p] with
    | none => rw [State.takeStages_ended hd, State.takeStages_ended hd, State.takeStages_ended hd]
    | some d =>
      rw [Nat.succ_add, State.takeStages_next hd h.settled, State.takeStages_next hd h.settled]
      exact ih (h.takeStage hd)

theorem State.inProgress_one (hd : s.disposing[p] = some d) (h : ∀ q : Port, q ≠ p → s.disposing[q] = none) :
    s.inProgress = [(p, d.buf, d.taken)] := by
  have hone : ∀ q ∈ Port.all, (s.disposing[q].map fun e => (q, e.buf, e.taken)) =
      if q = p then some (p, d.buf, d.taken) else none := fun q _ => by
    split
    · next hq => rw [hq, hd]; rfl
    · next hq => rw [h q hq]; rfl
  refine (List.filterMap_congr hone).trans ?_
  match p with
  | 0 | 1 | 2 | 3 => rfl

/-- A step with no command waiting is the next stage, or nothing. -/
theorem State.Alone.idle (h : s.Alone p) : s.idle = State.takeStages 1 p s := by
  cases hd : s.disposing[p] with
  | none =>
    rw [State.takeStages_ended hd]
    refine State.idle_ended (fun q => ?_) h.transit fun c hc => by rw [h.copier] at hc; cases hc
    by_cases hq : q = p
    · rw [hq]; exact hd
    · exact h.others q hq
  | some d =>
    have hprogress := State.inProgress_one hd h.others
    unfold State.idle
    rw [h.transit, hprogress]
    dsimp only
    unfold State.idleStage
    rw [hprogress]
    exact State.finish_of_settled _ (h.takeStages 1).settled

theorem State.Alone.idling : ∀ (k : Nat) {s : State}, s.Alone p → s.idling k = State.takeStages k p s
  | 0, _, _ => rfl
  | k + 1, s, h => by
    have hstep : step { s with pending := [] } = .next (State.takeStages 1 p s) := by
      rw [← h.pending]
      show (match s.pending with | [] => Host.Outcome.next s.idle | c :: rest => exec c { s with pending := rest }) = _
      rw [h.pending, h.idle]
    rw [State.idling, hstep, Nat.add_comm, State.takeStages_add 1 k h]
    exact State.Alone.idling k (h.takeStages 1)

/-! ## END, whatever its pace (R12, R13, R44) -/

/-- `t` is `s` but for ports, buffers and requests: neither raises, nor copies, nor resets, nor dispositions have moved. -/
structure State.Aside (s t : State) : Prop extends State.Quiet s t where
  pending      : t.pending = s.pending
  raisesWait   : t.raisesWait = s.raisesWait
  resetPending : t.agent.resetPending = s.agent.resetPending
  due          : t.resetDue = s.resetDue
  disposing    : t.disposing = s.disposing

theorem State.Aside.refl (s : State) : s.Aside s := ⟨.refl s, rfl, rfl, rfl, rfl, rfl⟩

theorem State.Aside.trans (h : s.Aside t) (k : t.Aside u) : s.Aside u :=
  ⟨h.toQuiet.trans k.toQuiet, k.pending.trans h.pending, k.raisesWait.trans h.raisesWait,
    k.resetPending.trans h.resetPending, k.due.trans h.due, k.disposing.trans h.disposing⟩

theorem State.onPort_aside (s : State) (q : Port) (f : PortState → PortState) : s.Aside (s.onPort q f) :=
  ⟨⟨rfl, rfl⟩, rfl, rfl, rfl, rfl, rfl⟩

theorem State.release_aside (s : State) (b : BufNo) : s.Aside (s.release b) := by
  have hframe := s.release_frame b
  have habides := hframe.sends.abides
  exact ⟨hframe.blocks.quiet, habides.pending, habides.raisesWait, congrArg Agent.resetPending habides.agent, hframe.due,
    habides.disposing⟩

theorem State.Aside.alone (h : s.Aside t) (hs : s.pending = []) (ht : s.transit = [])
    (hw : s.raisesWait = false) (hc : s.route.copier = none) (hn : s.agent.resetPending = none) (hd : s.resetDue = false)
    (hnone : ∀ q : Port, s.disposing[q] = none) : t.Alone p :=
  ⟨h.pending.trans hs, h.transit.trans ht, h.raisesWait.trans hw, h.copier.trans hc, h.resetPending.trans hn,
    h.due.trans hd, fun q _ => by rw [h.disposing]; exact hnone q⟩

theorem State.abandonRx_aside (s : State) (p : Port) : s.Aside (s.abandonRx p) := by
  unfold State.abandonRx
  split
  · exact .refl s
  · exact (s.onPort_aside p _).trans (State.release_aside _ _)
  · exact s.onPort_aside p _
  · exact s.onPort_aside p _

/-- The pace of END matters to a disposition alone. -/
def State.Paced (p : Port) (s : State) (f : Pace → State) : Prop :=
  (∃ t, s.Aside t ∧ ∀ pace, f pace = t) ∨ ∃ u b, s.Aside u ∧ ∀ pace, f pace = u.dispose p b pace

theorem State.Paced.after {f : Pace → State} (h : s.Aside t) (k : t.Paced p f) : s.Paced p f := by
  obtain ⟨u, hu, hf⟩ | ⟨u, b, hu, hf⟩ := k
  · exact .inl ⟨u, h.trans hu, hf⟩
  · exact .inr ⟨u, b, h.trans hu, hf⟩

theorem State.handOn_paced (s : State) (p : Port) (b : BufNo) : s.Paced p (s.handOn p b) := by
  unfold State.handOn
  split
  · split
    · refine .inl ⟨_, ?_, fun _ => rfl⟩
      unfold State.requestArrival
      split
      · exact ⟨⟨rfl, rfl⟩, rfl, rfl, rfl, rfl, rfl⟩
      · refine State.Aside.trans ?_ (State.release_aside _ b)
        exact ⟨⟨rfl, rfl⟩, rfl, rfl, rfl, rfl, rfl⟩
    · exact .inl ⟨_, (s.onPort_aside p _).trans (State.release_aside _ b), fun _ => rfl⟩
  · split
    · exact .inl ⟨_, (s.onPort_aside p _).trans (State.release_aside _ b), fun _ => rfl⟩
    · exact .inr ⟨s, b, .refl s, fun _ => rfl⟩

theorem State.endInUp_paced (s : State) (p : Port) : s.Paced p (s.endInUp p) := by
  unfold State.endInUp
  split
  · exact .inl ⟨s, .refl s, fun _ => rfl⟩
  · next b n _ =>
    unfold State.endOfFrame
    split
    · exact .inl ⟨_, (s.onPort_aside p _).trans (State.release_aside _ b), fun _ => rfl⟩
    · split
      · exact .inl ⟨_, (s.onPort_aside p _).trans (State.release_aside _ b), fun _ => rfl⟩
      · exact State.Paced.after (s.onPort_aside p _) (State.handOn_paced _ p b)
  · exact .inl ⟨_, s.abandonRx_aside p, fun _ => rfl⟩

theorem State.takeValid_paced (s : State) (p : Port) : s.Paced p fun pace => s.takeValid p (·.endInUp p pace) := by
  unfold State.takeValid
  split
  · exact .inl ⟨s, .refl s, fun _ => rfl⟩
  · split
    · exact .inl ⟨s, .refl s, fun _ => rfl⟩
    · exact .inl ⟨_, s.onPort_aside p _, fun _ => rfl⟩
    · exact .inl ⟨_, s.onPort_aside p _, fun _ => rfl⟩
    · exact State.Paced.after (s.onPort_aside p _) (State.endInUp_paced _ p)

/-- However many stages follow END at once, the steps that find no command waiting take the others (R44). -/
theorem exec_rxEnd_paused {k : Fin 10} (hs : s.pending = []) (hd : s.resetDue = false) (hn : s.agent.resetPending = none)
    (hnone : ∀ q : Port, s.disposing[q] = none) (ht : s.transit = []) (hw : s.raisesWait = false)
    (hc : s.route.copier = none) (hwhole : exec (.rxEnd { port := p, pace := .whole }) s = .next t)
    (hpart : exec (.rxEnd { port := p, pace := .upTo k }) s = .next u) : u.idling 10 = t := by
  have hexec : ∀ pace, exec (.rxEnd { port := p, pace := pace }) s = .next (s.takeValid p (·.endInUp p pace)).finish :=
    fun pace => congrArg (fun v : State => Host.Outcome.next (v.takeValid p (·.endInUp p pace)).finish)
      (State.beforeEnd_ended (hnone p))
  have ht' : (s.takeValid p (·.endInUp p .whole)).finish = t := Host.Outcome.next.inj ((hexec _).symm.trans hwhole)
  have hu' : (s.takeValid p (·.endInUp p (.upTo k))).finish = u := Host.Outcome.next.inj ((hexec _).symm.trans hpart)
  obtain ⟨v, hv, hf⟩ | ⟨v, b, hv, hf⟩ := s.takeValid_paced p
  · have hp : v.disposing[p] = none := by rw [hv.disposing]; exact hnone p
    have halone : v.Alone p := hv.alone hs ht hw hc hn hd hnone
    have hv' : ∀ pace, s.takeValid p (·.endInUp p pace) = v := hf
    rw [hv', State.finish_of_settled v halone.settled] at ht' hu'
    rw [← ht', ← hu', halone.idling, State.takeStages_ended hp]
  · have hp : v.disposing[p] = none := by rw [hv.disposing]; exact hnone p
    have hbefore : v.Alone p := hv.alone hs ht hw hc hn hd hnone
    have halone : (v.goOn p (v.openDisposal b)).Alone p :=
      ⟨hbefore.pending, hbefore.transit, hbefore.raises, hbefore.copier, hbefore.noReset, hbefore.settled,
        fun q hq => (vset_fin _ _ _ _).trans ((if_neg hq).trans (hbefore.others q hq))⟩
    have hwhole' : s.takeValid p (·.endInUp p .whole) = State.takeStages 10 p (v.goOn p (v.openDisposal b)) := hf _
    have hpart' : s.takeValid p (·.endInUp p (.upTo k)) = State.takeStages k.val p (v.goOn p (v.openDisposal b)) := hf _
    rw [hwhole', State.finish_of_settled _ (halone.takeStages 10).settled] at ht'
    rw [hpart', State.finish_of_settled _ (halone.takeStages k.val).settled] at hu'
    have hended : (State.takeStages 10 p (v.goOn p (v.openDisposal b))).disposing[p] = none :=
      (State.takeStages_end 10 p _ fun d _ => d.left_le).resolve_right fun hdue => by
        rw [(halone.takeStages 10).settled] at hdue; cases hdue
    rw [← ht', ← hu', (halone.takeStages k.val).idling, ← State.takeStages_add k.val 10 halone, Nat.add_comm,
      State.takeStages_add 10 k.val halone, State.takeStages_ended hended]

/-! ## What moves a disposition (R44, R45) -/

/-- A command that opens, goes on with or resets no disposition leaves every disposition as it is. -/
theorem Move.undisposed (hend : ∀ e, c ≠ some (.rxEnd e)) (hdis : ¬ Disposes c) (hfull : c ≠ some .resetFull)
    (hforward : c ≠ some .resetForwarding) {x y : Hand × State} (m : Move c ok x y) (h : x.2.NoReset) :
    y.2.NoReset ∧ y.2.disposing = x.2.disposing := by
  have hblocks : ∀ {s t : State}, s.SameBlocks t → s.NoReset → t.NoReset ∧ t.disposing = s.disposing := fun hb hn => by
    obtain ⟨-, -, -, -, -, -, -, hagent, -, hdisposing, -⟩ := hb.tables
    exact ⟨⟨(congrArg Agent.resetPending hagent).trans hn.1, hb.due.trans hn.2⟩, hdisposing⟩
  cases m
  case alike ha => exact ⟨⟨ha.resetPending.trans h.1, ha.resetDue.trans h.2⟩, ha.disposing⟩
  case join => exact hblocks (State.joined_blocks _ _ _ _ _) h
  case release => exact hblocks (State.release_frame _ _).blocks h
  case addRef => exact hblocks (State.addRef_frame _ _).blocks h
  case pop hu => exact hblocks (State.pop_blocks hu) h
  case pend r _ hc =>
    cases hs : r.scope with
    | full => rw [hs] at hc; exact absurd hc hfull
    | forwarding => rw [hs] at hc; exact absurd hc hforward
  case dispose hc _ => exact absurd hc.choose_spec (hend _)
  case goOn hc _ _ _ _ _ => exact absurd hc hdis
  case close hc _ => exact absurd hc hdis
  case mark hp => rw [h.1] at hp; cases hp
  case unmark => exact ⟨⟨h.1, rfl⟩, rfl⟩
  case full hr _ => rw [h.1] at hr; cases hr
  case forwarding hr _ => rw [h.1] at hr; cases hr
  all_goals exact ⟨h, rfl⟩

theorem exec_undisposed {i : Instr} (h : exec i s = .next t) (hn : s.NoReset) (hend : ∀ e, i ≠ .rxEnd e)
    (hrstn : ∀ node, i ≠ .rstnRelease node) (htick : i ≠ .tick) (hfull : i ≠ .resetFull) (hforward : i ≠ .resetForwarding) :
    t.disposing = s.disposing := by
  have hplain : plainRow i = true := by
    cases hi : plainRow i with
    | true => rfl
    | false =>
      rcases plainRow_false hi with k | ⟨node, k⟩
      · exact absurd k htick
      · exact absurd k (hrstn node)
  have hdis : ¬ Disposes (some i) := fun k => by
    rcases k with k | k | ⟨e, k⟩
    · cases k
    · exact htick (Option.some.inj k)
    · exact hend e (Option.some.inj k)
  have hkept := (exec_run hplain h).keeps (P := fun x => x.2.NoReset ∧ x.2.disposing = s.disposing)
    (fun m hx => by
      obtain ⟨hreset, hdisposing⟩ := m.undisposed (fun e k => hend e (Option.some.inj k)) hdis
        (fun k => hfull (Option.some.inj k)) (fun k => hforward (Option.some.inj k)) hx.1
      exact ⟨hreset, hdisposing.trans hx.2⟩) ⟨hn, rfl⟩
  exact hkept.2

/-! ## One attempt at its own moment (R71, R94, R97) -/

theorem PortSet.ports_lowest {m : PortSet} (hq : PortSet.has m q = true)
    (hlow : ∀ q' : Port, q' < q → PortSet.has m q' = false) :
    PortSet.ports m = q :: PortSet.ports (PortSet.without m q) := by
  unfold PortSet.ports Port.all
  match q with
  | 0 => simp [List.filter_cons, PortSet.has_without, hq]
  | 1 => simp [List.filter_cons, PortSet.has_without, hq, hlow 0 (by decide)]
  | 2 => simp [List.filter_cons, PortSet.has_without, hq, hlow 0 (by decide), hlow 1 (by decide)]
  | 3 => simp [PortSet.has_without, hq, hlow 0 (by decide), hlow 1 (by decide), hlow 2 (by decide)]

theorem PortSet.ports_nil (m : PortSet) : PortSet.ports m = [] ↔ m = 0 := by
  refine ⟨fun h => BitVec.eq_of_getLsbD_eq fun i hi => ?_, fun h => by rw [h]; rfl⟩
  have hhas : PortSet.has m ⟨i, hi⟩ = false := Bool.eq_false_iff.2 fun k => by
    have := PortSet.mem_ports.2 k
    rw [h] at this
    cases this
  exact hhas.trans BitVec.getLsbD_zero.symm

/-- The step that makes the next attempt of the one disposition in progress (R97). -/
theorem step_attempt (hs : s.pending = []) (hdue : s.resetDue = false) (hreset : s.agent.resetPending = none)
    (hd : s.disposing[p] = some d) (hothers : ∀ p' : Port, p' ≠ p → s.disposing[p'] = none) (ht : s.transit = [])
    (hstage : d.stage = .enqueue) (hq : PortSet.has d.egress q = true)
    (hlow : ∀ q' : Port, q' < q → PortSet.has d.egress q' = false) (hlaw : s.PortLaw) :
    step s = .next ((s.attempt q d.buf d.applied .transit).goOn p { d with
      egress := PortSet.without d.egress q, taken := d.taken + 1
      stage := if PortSet.without d.egress q = 0 then .release else .enqueue }) := by
  have hprogress := State.inProgress_one hd hothers
  have hstep : step s = .next (State.takeStages 1 p s).finish := by
    unfold step
    rw [hs]
    dsimp only
    unfold State.idle
    rw [ht, hprogress]
    dsimp only
    unfold State.idleStage
    rw [hprogress]
  have hattempt : s.takeStage p d = (s.attempt q d.buf d.applied .transit).goOn p { d with
      egress := PortSet.without d.egress q, taken := d.taken + 1
      stage := if PortSet.without d.egress q = 0 then .release else .enqueue } := by
    rw [State.takeStage_enqueue hstage, State.stageEnqueue, PortSet.ports_lowest hq hlow]
    by_cases hnil : PortSet.without d.egress q = 0
    · rw [if_pos hnil, (PortSet.ports_nil _).2 hnil]
      rfl
    · rw [if_neg hnil]
      cases hports : PortSet.ports (PortSet.without d.egress q) with
      | nil => exact absurd ((PortSet.ports_nil _).1 hports) hnil
      | cons r rs => rfl
  have hsent := State.attempt_sent (q := q) (b := d.buf) (h := d.applied) (o := .transit)
    ⟨hdue, hreset, fun x _ => (hlaw x).1.sorted⟩
  rw [hstep, State.takeStages_next hd hdue, hattempt]
  exact congrArg Host.Outcome.next (State.finish_of_settled _ (hsent.due.trans hdue))

end

/-- Settles O22: the stages left follow one by one to the same end, no other command moves a disposition, an attempt is made as
its port stands, and END first settles the port's earlier disposition. -/
theorem dispositionsPauseBetweenStages : Obligations.DispositionsPauseBetweenStages := by
  unfold Obligations.DispositionsPauseBetweenStages
  refine ⟨fun p k s t u hs hdue hreset hnone ht hw hc hwhole hpart =>
      exec_rxEnd_paused hs hdue hreset hnone ht hw hc hwhole hpart,
    fun c s t h hdue hreset hend hrstn htick hfull hforward =>
      exec_undisposed h ⟨hreset, hdue⟩ hend hrstn htick hfull hforward,
    fun p q d s hs hdue hreset hd hothers ht hstage hq hlow hlaw => ⟨_, step_attempt hs hdue hreset hd hothers ht hstage hq hlow
      hlaw, ?disposing, fun hup hroom => ?took, fun hup hfull => ?full, fun hdown => ?down⟩,
    fun p pace s hl hrx => ⟨?settled, State.settle_ends hl.settled p⟩⟩
  case disposing =>
    have hdis : (s.attempt q d.buf d.applied .transit).disposing = s.disposing :=
      (State.attempt_sends _ _ _ _ _).abides.disposing
    show vset (s.attempt q d.buf d.applied .transit).disposing p _ = _
    rw [hdis]
    rfl
  case took =>
    have hsent := State.attempt_sent (q := q) (b := d.buf) (h := d.applied) (o := .transit)
      ⟨hdue, hreset, fun x _ => (hlaw x).1.sorted⟩
    exact (hsent.tried q (List.mem_singleton_self q)).took (of_decide_eq_true hup) hroom
  case full =>
    obtain ⟨hx, -⟩ | ⟨-, -, hx⟩ | ⟨-, hx, -⟩ := State.attempt_cases s q d.buf d.applied .transit
    · rw [hup] at hx; cases hx
    · exact congrArg State.ports hx
    · omega
  case down =>
    obtain ⟨-, hx⟩ | ⟨hx, -⟩ | ⟨hx, -⟩ := State.attempt_cases s q d.buf d.applied .transit
    · exact congrArg State.ports hx
    · rw [hdown] at hx; cases hx
    · rw [hdown] at hx; cases hx
  case settled =>
    have hbefore : s.beforeEnd p = s.settle p := if_pos ⟨hrx, hl.started, decide_eq_true hl.up⟩
    have hafter : (s.settle p).beforeEnd p = s.settle p := State.beforeEnd_ended (State.settle_ends hl.settled p)
    exact congrArg (fun v : State => Host.Outcome.next (v.takeValid p (·.endInUp p pace)).finish) (hbefore.trans hafter.symm)

end Sys2Proof.Machine
end
